-- ==== Sys2Proof/Word.lean ====
section
/-! DEFINITION. The word types of the block: host words, bytes, window offsets and the two IEEE 754 interchange formats
as bit patterns (spec 00_scope.md R9, R11; 20_memory.md R48). -/

namespace Sys2Proof

/-- A byte of the register window (R46). -/
abbrev Byte := BitVec 8

/-- A host register or a command word (R9: 32 bits wide). -/
abbrev Word := BitVec 32

/-- A byte offset within the 256-byte register window (R45: 8 address bits). -/
abbrev Offset := BitVec 8

/-- A binary32 value as its IEEE 754 bit pattern (R11, R48). -/
abbrev F32 := BitVec 32

/-- A binary64 value as its IEEE 754 bit pattern (R11, R47). -/
abbrev F64 := BitVec 64

end Sys2Proof
end

