-- ==== Sys2Proof/Syntax.lean ====
section
/-! DEFINITION. The commands (one constructor per row of the opcode table, 30_encoding.md R77), and what else can happen to
the block: host accesses (20_memory.md R45), engine turns (R59) and the reset input (70_reset_and_hazards.md R195). -/

namespace Sys2Proof

/-- The waveforms, in the order of R74's codes. -/
inductive Wave where
  | sine | triangle | square | saw
  deriving DecidableEq, Repr

/-- The unsigned 2-bit code of a waveform (R74). -/
def Wave.code : Wave → Nat
  | .sine => 0
  | .triangle => 1
  | .square => 2
  | .saw => 3

/-- The commands of the host command port (R77). Only OSC.SETWAVE carries an operand in its word (R75). -/
inductive Instr where
  | detPrepare
  | detFeed
  | detGetResult
  | oscPrepare
  | oscSetFreq
  | oscSetWave (w : Wave)
  | oscNext
  | smoPrepare
  | smoSetAmount
  | smoSetSens
  | smoProcess
  | decReset
  | decProcess
  | decGetOutput
  deriving DecidableEq, Repr

/-- One host access (R45): a read names an offset and a size in bytes; a write names an offset and its bytes, the byte for
offset `off + k` at place `k` (R46), so that its size is the number of bytes. -/
inductive Access where
  | read (off : Offset) (size : Nat)
  | write (off : Offset) (bytes : List Byte)
  deriving DecidableEq, Repr

/-- What can take the next step (R59, R191, R195): the host with one access, the engine, or the platform's reset. -/
inductive Event where
  | host (a : Access)
  | engine
  | reset
  deriving DecidableEq, Repr

end Sys2Proof
end

