-- ==== Sys2Proof/Decode.lean ====
section
/-! DEFINITION. The command decoder and encoder (30_encoding.md R70 to R81). -/

namespace Sys2Proof

/-- The 32-bit word of four bytes, the first at the lowest offset and in bits 7:0 (R46). -/
def wordOfBytes (b0 b1 b2 b3 : Byte) : Word := b3 ++ b2 ++ b1 ++ b0

/-- The four bytes of a word in the order of their offsets (R46: little-endian). -/
def bytesOfWord (w : Word) : List Byte :=
  [w.extractLsb' 0 8, w.extractLsb' 8 8, w.extractLsb' 16 8, w.extractLsb' 24 8]

/-- Why a word is no command (R78), or the bytes are no command word (R80: every command is exactly 32 bits). -/
inductive DecodeError where
  /-- not four bytes -/
  | wrongLength
  /-- (UNIT, OP) is not a row of R77 -/
  | unassigned
  /-- a bit of 23:2 is set (R73) -/
  | reservedBits
  /-- WAVE is nonzero and the command is not OSC.SETWAVE (R74) -/
  | strayWave
  deriving DecidableEq, Repr

/-- UNIT, bits 31:28 (R70). -/
def unitField (c : Word) : BitVec 4 := c.extractLsb' 28 4

/-- OP, bits 27:24 (R70). -/
def opField (c : Word) : BitVec 4 := c.extractLsb' 24 4

/-- RSV, bits 23:2 (R70). -/
def rsvField (c : Word) : BitVec 22 := c.extractLsb' 2 22

/-- WAVE, bits 1:0 (R70). -/
def waveField (c : Word) : BitVec 2 := c.extractLsb' 0 2

/-- The waveform a WAVE code names (R74). -/
def waveOfField (w : BitVec 2) : Wave :=
  match w.toNat with
  | 0 => .sine
  | 1 => .triangle
  | 2 => .square
  | _ => .saw

/-- The row of R77 that UNIT and OP name, its waveform taken from WAVE. -/
def selectCommand (unit op : BitVec 4) (wave : BitVec 2) : Option Instr :=
  match unit.toNat, op.toNat with
  | 1, 0 => some .detPrepare
  | 1, 1 => some .detFeed
  | 1, 2 => some .detGetResult
  | 2, 0 => some .oscPrepare
  | 2, 1 => some .oscSetFreq
  | 2, 2 => some (.oscSetWave (waveOfField wave))
  | 2, 3 => some .oscNext
  | 3, 0 => some .smoPrepare
  | 3, 1 => some .smoSetAmount
  | 3, 2 => some .smoSetSens
  | 3, 3 => some .smoProcess
  | 4, 0 => some .decReset
  | 4, 1 => some .decProcess
  | 4, 2 => some .decGetOutput
  | _, _ => none

/-- Whether a command takes its WAVE field as an operand (R74). -/
def usesWave : Instr → Bool
  | .oscSetWave _ => true
  | _ => false

/-- The decode procedure of R70, its three tests in the rule's order. -/
def decode (c : Word) : Except DecodeError Instr :=
  match selectCommand (unitField c) (opField c) (waveField c) with
  | none => .error .unassigned
  | some i =>
    if rsvField c ≠ 0#22 then .error .reservedBits
    else if waveField c ≠ 0#2 && !usesWave i then .error .strayWave
    else .ok i

/-- The decoder on bytes as they lie in the window, total on any list of bytes. -/
def decodeBytes : List Byte → Except DecodeError Instr
  | [b0, b1, b2, b3] => decode (wordOfBytes b0 b1 b2 b3)
  | _ => .error .wrongLength

/-- The word with the given fields and RSV zero (R70). -/
def packCommand (unit op : BitVec 4) (wave : BitVec 2) : Word := unit ++ op ++ 0#22 ++ wave

/-- The command word of each command (R71, R72, R77). -/
def encode : Instr → Word
  | .detPrepare => packCommand 0x1#4 0x0#4 0#2
  | .detFeed => packCommand 0x1#4 0x1#4 0#2
  | .detGetResult => packCommand 0x1#4 0x2#4 0#2
  | .oscPrepare => packCommand 0x2#4 0x0#4 0#2
  | .oscSetFreq => packCommand 0x2#4 0x1#4 0#2
  | .oscSetWave w => packCommand 0x2#4 0x2#4 (BitVec.ofNat 2 w.code)
  | .oscNext => packCommand 0x2#4 0x3#4 0#2
  | .smoPrepare => packCommand 0x3#4 0x0#4 0#2
  | .smoSetAmount => packCommand 0x3#4 0x1#4 0#2
  | .smoSetSens => packCommand 0x3#4 0x2#4 0#2
  | .smoProcess => packCommand 0x3#4 0x3#4 0#2
  | .decReset => packCommand 0x4#4 0x0#4 0#2
  | .decProcess => packCommand 0x4#4 0x1#4 0#2
  | .decGetOutput => packCommand 0x4#4 0x2#4 0#2

/-- The four bytes of a command as the host writes them at offset 0x00. -/
def encodeBytes (i : Instr) : List Byte := bytesOfWord (encode i)

/-- The bytes of the command word whose bits are `w`, every bit above `nbits` zero. -/
def tableWordBytes (nbits w : Nat) : List Byte := bytesOfWord (BitVec.ofNat 32 (w % 2 ^ nbits))

/-- What the decoder reads from the opcode-table word `w` of `nbits` bits, laid out as bytes. -/
def decodeTableWord (nbits w : Nat) : Option Instr :=
  match decodeBytes (tableWordBytes nbits w) with
  | .ok i => some i
  | .error _ => none

end Sys2Proof
end

