-- ==== Sys2Proof/Config.lean ====
section
/-! DEFINITION. The constants and parameters of the block (00_scope.md R7, R8), which are no state (10_state.md R17), and the
free values: opaque constants, so that a claim holds whatever they are. -/

namespace Sys2Proof.Config

/-! ### Fixed constants (R7) -/

/-- MIN_PITCH_HZ = 60.0 as binary64. -/
def minPitchHz : F64 := 0x404E000000000000#64

/-- HOP_SECONDS = 0.003 as binary64 (the nearest value, R93). -/
def hopSeconds : F64 := 0x3F689374BC6A7EFA#64

/-- YIN_THRESHOLD = 0.15 as binary64 (the nearest value, R118). -/
def yinThreshold : F64 := 0x3FC3333333333333#64

/-- F_LO = 20.0 Hz. -/
def freqLo : F64 := 0x4034000000000000#64

/-- F_HI = 5000.0 Hz. -/
def freqHi : F64 := 0x40B3880000000000#64

/-- SINE_TABLE_SIZE = 2048. -/
def sineTableSize : Nat := 2048

/-- SINE_TABLE_SIZE as binary64, 2048.0 (R141). -/
def sineTableSizeF64 : F64 := 0x40A0000000000000#64

/-- SNAP_OCTAVES = 0.08 as binary64 (I6: the nearest value). -/
def snapOctaves : F64 := 0x3FB47AE147AE147B#64

/-- DECIM_TAPS = 7, the length of `decimCoeffs` and of a delay line. -/
def decimTaps : Nat := 7

/-- QUEUE_SECONDS_MIN = 2.5 s as binary64: the least time the queue holds at any sample rate, which `queueDepth` satisfies. -/
def queueSecondsMin : F64 := 0x4004000000000000#64

/-! ### Parameters this spec decides (R8) -/

/-- MIN_SAMPLE_RATE = 1.0 Hz (D14). -/
def minSampleRate : F64 := 0x3FF0000000000000#64

/-- MAX_SAMPLE_RATE = 192000.0 Hz (D15). -/
def maxSampleRate : F64 := 0x4107700000000000#64

/-- RESET_SAMPLE_RATE = 44100.0 Hz (D41). -/
def resetSampleRate : F64 := 0x40E5888000000000#64

/-- MAX_HALF_WINDOW = ceil(192000 / 60) (D15, R93). -/
def maxHalfWindow : Nat := 3200

/-- MAX_WINDOW, twice MAX_HALF_WINDOW (D15). -/
def maxWindow : Nat := 6400

/-- MAX_FFT_SIZE, the next power of two from 2 · MAX_WINDOW up (D15, D49). -/
def maxFftSize : Nat := 16384

/-- QUEUE_DEPTH (D18). -/
def queueDepth : Nat := 524288

/-- -log2 of DIFF_TOL = 2^-36, the relative bound of the FFT path (D8). -/
def diffTolBits : Nat := 36

/-- TAU_SCALE = 0.2 s as binary64 (D35). -/
def tauScale : F64 := 0x3FC999999999999A#64

/-- TAU_EPS = 1.0e-6 s as binary64 (D35). -/
def tauEps : F64 := 0x3EB0C6F7A0B5ED8D#64

/-- BLOCK_ID (D1). -/
def blockId : Word := 0x50444554#32

/-- DECIM_COEFFS h[0..6] as binary32 (R175): -1/32, 0, 9/32, 1/2, 9/32, 0, -1/32. -/
def decimCoeffs : List F32 :=
  [0xBD000000#32, 0x00000000#32, 0x3E900000#32, 0x3F000000#32, 0x3E900000#32, 0x00000000#32, 0xBD000000#32]

/-! ### Open parameters and free values -/

/-- FALLBACK_DEFAULT, OPEN (R8, R198, D9): the reset value of CTRL.FALLBACK_EN. Log entry 4. -/
opaque fallbackDefault : Bool

/-- BASE_ADDR, OPEN (R8, R45): where the platform places the register window. Log entry 5. -/
opaque baseAddr : Nat

/-- What the FFT hardware computes for `d[τ]` in the `n`-th pass before R114's bound is imposed (R115: a draw). Log entry 3. -/
opaque fftDraw (n τ : Nat) : F64

/-- Sign and payload of a NaN that the `op`-th arithmetic operation makes of its operands: IEEE 754 leaves them open. Log
entry 6. -/
opaque nanBits64 (op : Nat) (a b : F64) : F64

/-- The same for binary32. Log entry 6. -/
opaque nanBits32 (op : Nat) (a b : F32) : F32

/-- Whether the maximum of two zeros of different signs is negative: neither R12 nor R13 says. Log entry 7. -/
opaque maxZeroNegative : Bool

end Sys2Proof.Config
end

