-- ==== Sys2Proof/Machine/Float.lean ====
section
/-! DEFINITION. IEEE 754 arithmetic in binary32 and binary64 (00_scope.md R11, R13): operands are read as exact integer
multiples of the format's least positive value, the operation is done exactly, and the result is rounded once, to nearest,
ties to even. -/

namespace Sys2Proof.Machine

/-! ### The two formats

A format is given by `t`, the number of fraction bits, and `emax`, its all-ones exponent field. The low bits of a pattern
without its sign are its magnitude pattern; magnitudes count units of the least positive value (2^-1074, 2^-149). -/

/-- floor(log2 n) for `0 < n < 2^(2^j)`, and 0 for 0: by halving the number of bits, so that evaluation is short. -/
def bitLog : Nat → Nat → Nat
  | 0, _ => 0
  | j + 1, n => if n / 2 ^ 2 ^ j = 0 then bitLog j n else 2 ^ j + bitLog j (n / 2 ^ 2 ^ j)

/-- ceil(n / d). -/
def ceilDiv (n d : Nat) : Nat := (n + d - 1) / d

/-- The integer nearest to n / d, the even one of two (roundTiesToEven). -/
def roundNearest (n d : Nat) : Nat :=
  if 2 * (n % d) < d then n / d
  else if d < 2 * (n % d) then n / d + 1
  else n / d + (n / d) % 2

/-- The magnitude, in units of the least positive value, of a magnitude pattern. (For infinity it is the first power of two
past the largest finite magnitude, so that comparisons need no case for it.) -/
def magOfPattern (t p : Nat) : Nat :=
  if p / 2 ^ t = 0 then p % 2 ^ t else (2 ^ t + p % 2 ^ t) * 2 ^ (p / 2 ^ t - 1)

/-- The magnitude pattern nearest to the magnitude n / d, infinity's on overflow (R11: roundTiesToEven, subnormals kept). The
unit in the last place of n / d is 2^shift, and a pattern is the shift, counted in binades, plus the rounded multiple. -/
def roundMagnitude (t emax n d : Nat) : Nat :=
  let shift := bitLog 13 (n / d) - t
  min (shift * 2 ^ t + roundNearest n (d * 2 ^ shift)) (emax * 2 ^ t)

/-! ### binary64 -/

/-- The sign bit. -/
def signF64 (a : F64) : Bool := a.msb

/-- The magnitude pattern, bits 62:0. -/
def patF64 (a : F64) : Nat := a.toNat % 2 ^ 63

def isNaN64 (a : F64) : Bool := decide (2047 * 2 ^ 52 < patF64 a)

def isInf64 (a : F64) : Bool := decide (patF64 a = 2047 * 2 ^ 52)

/-- `finite(v)` (R13). -/
def finite64 (a : F64) : Bool := decide (patF64 a < 2047 * 2 ^ 52)

/-- The magnitude in units of 2^-1074. -/
def magF64 (a : F64) : Nat := magOfPattern 52 (patF64 a)

/-- The signed value in units of 2^-1074. -/
def valF64 (a : F64) : Int := if signF64 a then -(magF64 a : Int) else magF64 a

/-- The pattern with a sign and a magnitude pattern. -/
def packF64 (neg : Bool) (p : Nat) : F64 := BitVec.ofNat 64 ((if neg then 2 ^ 63 else 0) + p)

/-- The binary64 value nearest to ± n / d units of 2^-1074. -/
def roundF64 (neg : Bool) (n d : Nat) : F64 := packF64 neg (roundMagnitude 52 2047 n d)

def infF64 (neg : Bool) : F64 := packF64 neg (2047 * 2 ^ 52)

/-- A quiet NaN whose sign and payload are free (log entry 6). -/
def nanF64 (op : Nat) (a b : F64) : F64 := 0x7FF8000000000000#64 ||| Config.nanBits64 op a b

def negF64 (a : F64) : F64 := a ^^^ 0x8000000000000000#64

/-- `abs` (R12): exact, clears the sign. -/
def absF64 (a : F64) : F64 := a &&& 0x7FFFFFFFFFFFFFFF#64

/-- Addition (R11). An exact zero sum is +0.0, except that two negative zeros give -0.0. -/
def addF64 (a b : F64) : F64 :=
  if isNaN64 a || isNaN64 b then nanF64 0 a b
  else if isInf64 a then (if isInf64 b && (signF64 a != signF64 b) then nanF64 0 a b else a)
  else if isInf64 b then b
  else if valF64 a + valF64 b = 0 then packF64 (signF64 a && signF64 b) 0
  else roundF64 (decide (valF64 a + valF64 b < 0)) (valF64 a + valF64 b).natAbs 1

/-- Subtraction (R11). -/
def subF64 (a b : F64) : F64 := addF64 a (negF64 b)

/-- Multiplication (R11). -/
def mulF64 (a b : F64) : F64 :=
  if isNaN64 a || isNaN64 b then nanF64 1 a b
  else if isInf64 a || isInf64 b then
    (if magF64 a = 0 || magF64 b = 0 then nanF64 1 a b else infF64 (signF64 a != signF64 b))
  else roundF64 (signF64 a != signF64 b) (magF64 a * magF64 b) (2 ^ 1074)

/-- Division (R11). -/
def divF64 (a b : F64) : F64 :=
  if isNaN64 a || isNaN64 b then nanF64 2 a b
  else if isInf64 a then (if isInf64 b then nanF64 2 a b else infF64 (signF64 a != signF64 b))
  else if isInf64 b then packF64 (signF64 a != signF64 b) 0
  else if magF64 b = 0 then (if magF64 a = 0 then nanF64 2 a b else infF64 (signF64 a != signF64 b))
  else roundF64 (signF64 a != signF64 b) (magF64 a * 2 ^ 1074) (magF64 b)

/-- `<` (R13): false with a NaN operand; the two zeros are equal. -/
def ltF64 (a b : F64) : Bool := !isNaN64 a && !isNaN64 b && decide (valF64 a < valF64 b)

/-- `<=` (R13). -/
def leF64 (a b : F64) : Bool := !isNaN64 a && !isNaN64 b && decide (valF64 a ≤ valF64 b)

/-- `==` (R13). -/
def eqF64 (a b : F64) : Bool := !isNaN64 a && !isNaN64 b && decide (valF64 a = valF64 b)

/-- floor as an integer, for a finite operand. -/
def floorInt (a : F64) : Int := valF64 a / 2 ^ 1074

/-- ceil as an integer, for a finite operand. -/
def ceilInt (a : F64) : Int := -(-valF64 a / 2 ^ 1074)

/-- `f64(n)` for an integer (R11; exact for every integer a rule converts). -/
def ofIntF64 (n : Int) : F64 := roundF64 (decide (n < 0)) (n.natAbs * 2 ^ 1074) 1

/-- `floor` (R12): exact; a zero result keeps the operand's sign, and an infinity or a NaN stays. -/
def floorF64 (a : F64) : F64 :=
  if !finite64 a then a
  else if floorInt a = 0 then packF64 (signF64 a) 0
  else ofIntF64 (floorInt a)

/-- The larger of two values. Of two zeros of different signs it is one whose sign is free (log entry 7); a NaN operand is
the calling rule's case (R13). -/
def maxF64 (a b : F64) : F64 :=
  if a = b then a
  else if ltF64 a b then b
  else if ltF64 b a then a
  else packF64 Config.maxZeroNegative 0

/-- The smaller of two values, under the same words. -/
def minF64 (a b : F64) : F64 :=
  if a = b then a
  else if ltF64 a b then a
  else if ltF64 b a then b
  else packF64 (!Config.maxZeroNegative) 0

/-! ### binary32 -/

def signF32 (a : F32) : Bool := a.msb

/-- The magnitude pattern, bits 30:0. -/
def patF32 (a : F32) : Nat := a.toNat % 2 ^ 31

def isNaN32 (a : F32) : Bool := decide (255 * 2 ^ 23 < patF32 a)

def isInf32 (a : F32) : Bool := decide (patF32 a = 255 * 2 ^ 23)

/-- `finite(v)` (R13). -/
def finite32 (a : F32) : Bool := decide (patF32 a < 255 * 2 ^ 23)

/-- The magnitude in units of 2^-149. -/
def magF32 (a : F32) : Nat := magOfPattern 23 (patF32 a)

/-- The signed value in units of 2^-149. -/
def valF32 (a : F32) : Int := if signF32 a then -(magF32 a : Int) else magF32 a

def packF32 (neg : Bool) (p : Nat) : F32 := BitVec.ofNat 32 ((if neg then 2 ^ 31 else 0) + p)

/-- The binary32 value nearest to ± n / d units of 2^-149. -/
def roundF32 (neg : Bool) (n d : Nat) : F32 := packF32 neg (roundMagnitude 23 255 n d)

def infF32 (neg : Bool) : F32 := packF32 neg (255 * 2 ^ 23)

/-- A quiet NaN whose sign and payload are free (log entry 6). -/
def nanF32 (op : Nat) (a b : F32) : F32 := 0x7FC00000#32 ||| Config.nanBits32 op a b

/-- Addition (R11). -/
def addF32 (a b : F32) : F32 :=
  if isNaN32 a || isNaN32 b then nanF32 0 a b
  else if isInf32 a then (if isInf32 b && (signF32 a != signF32 b) then nanF32 0 a b else a)
  else if isInf32 b then b
  else if valF32 a + valF32 b = 0 then packF32 (signF32 a && signF32 b) 0
  else roundF32 (decide (valF32 a + valF32 b < 0)) (valF32 a + valF32 b).natAbs 1

/-- Multiplication (R11). -/
def mulF32 (a b : F32) : F32 :=
  if isNaN32 a || isNaN32 b then nanF32 1 a b
  else if isInf32 a || isInf32 b then
    (if magF32 a = 0 || magF32 b = 0 then nanF32 1 a b else infF32 (signF32 a != signF32 b))
  else roundF32 (signF32 a != signF32 b) (magF32 a * magF32 b) (2 ^ 149)

/-- `<` (R13). -/
def ltF32 (a b : F32) : Bool := !isNaN32 a && !isNaN32 b && decide (valF32 a < valF32 b)

/-- The larger of two values; see `maxF64`. -/
def maxF32 (a b : F32) : F32 :=
  if a = b then a
  else if ltF32 a b then b
  else if ltF32 b a then a
  else packF32 Config.maxZeroNegative 0

/-- The smaller of two values; see `minF64`. -/
def minF32 (a b : F32) : F32 :=
  if a = b then a
  else if ltF32 a b then a
  else if ltF32 b a then b
  else packF32 (!Config.maxZeroNegative) 0

/-! ### Conversions -/

/-- `f64(v)` of a binary32 (R11: exact): a unit of 2^-149 is 2^925 units of 2^-1074. -/
def f64OfF32 (a : F32) : F64 :=
  if isNaN32 a then nanF64 3 0#64 (a.setWidth 64)
  else if isInf32 a then infF64 (signF32 a)
  else roundF64 (signF32 a) (magF32 a * 2 ^ 925) 1

/-- `f32(v)` of a binary64 (R11: one rounding). -/
def f32OfF64 (a : F64) : F32 :=
  if isNaN64 a then nanF32 3 0#32 (a.setWidth 32)
  else if isInf64 a then infF32 (signF64 a)
  else roundF32 (signF64 a) (magF64 a) (2 ^ 925)

/-! ### Constants used by the rules -/

def zeroF64 : F64 := 0#64
def halfF64 : F64 := 0x3FE0000000000000#64
def oneF64 : F64 := 0x3FF0000000000000#64
def twoF64 : F64 := 0x4000000000000000#64
def negOneF64 : F64 := 0xBFF0000000000000#64
def zeroF32 : F32 := 0#32
def oneF32 : F32 := 0x3F800000#32

end Sys2Proof.Machine
end

