-- ==== Sys2Proof/Machine/State.lean ====
section
/-! DEFINITION. The state of the block (10_state.md R17 to R43), the two types of stops, and the state after reset
(70_reset_and_hazards.md R196). -/

namespace Sys2Proof.Machine

/-- The block has no faults: no traps and no exceptions, every access and command has an outcome with a next state (R181,
R188), so this type has no constructor. -/
inductive Fault where
  deriving DecidableEq, Repr

/-- Why a command has no meaning in the model. -/
inductive Refusal where
  /-- Raised by `exec`'s arm of a command that has no meaning yet; safe, since the model then answers no next state. No arm
  raises it now. -/
  | notModelled (mnemonic : String)
  deriving DecidableEq, Repr

/-- An internal memory of binary32 elements (R38) as (index, element) pairs in the canonical form of `Memory.wf`; an index
that is not listed holds +0.0 (log entry 9). -/
abbrev Memory := List (Nat × F32)

/-- A decimator's delay line, `d0` the newest sample and `d6` the oldest (R41, R174). -/
structure DelayLine where
  d0 : F32
  d1 : F32
  d2 : F32
  d3 : F32
  d4 : F32
  d5 : F32
  d6 : F32
  deriving DecidableEq, Repr

/-- The state of one half-band decimator instance (R41). -/
structure Decim where
  /-- the delay line -/
  dl : DelayLine
  /-- the phase counter, true for 1 -/
  ph : Bool
  /-- the most recent filtered output -/
  out : F32
  deriving DecidableEq, Repr

/-- The sticky bits of STATUS (R30). -/
structure Sticky where
  errCmd : Bool
  errAccess : Bool
  qOverflow : Bool
  deriving DecidableEq, Repr

/-- The stored bits of CTRL (R31). Bits 31:5 are not stored: writes to them are ignored and they read zero. -/
structure Ctrl where
  fallbackEn : Bool
  decimEn : Bool
  asyncEn : Bool
  diffFft : Bool
  run : Bool
  deriving DecidableEq, Repr

/-- The active configuration ACFG (R34). -/
structure Acfg where
  fallbackEn : Bool
  decimEn : Bool
  asyncEn : Bool
  diffFft : Bool
  deriving DecidableEq, Repr

/-- The engine's publish state (R35, R102). -/
inductive EState where
  | ready
  | pubConfPending
  deriving DecidableEq, Repr

/-- The detector (R35), its private decimator (R36) and its analysis window (R38). -/
structure Det where
  /-- DET.rate, binary64 -/
  rate : F64
  /-- DET.fa, binary64 -/
  fa : F64
  /-- DET.H -/
  halfWindow : Nat
  /-- DET.W -/
  windowSize : Nat
  /-- DET.hop -/
  hopSize : Nat
  /-- DET.wp -/
  writePos : Nat
  /-- DET.hopcnt -/
  hopCount : Nat
  /-- DET.filled -/
  filled : Bool
  /-- PUB_FREQ, binary32, read at PITCH_HZ (R29) -/
  pubFreq : F32
  /-- PUB_CONF, binary32, read at CONFIDENCE (R29) -/
  pubConf : F32
  /-- DET.estate -/
  estate : EState
  /-- DET.pend_conf, binary32 -/
  pendConf : F32
  /-- WIN -/
  win : Memory
  /-- DET.dec -/
  dec : Decim
  deriving DecidableEq, Repr

/-- The analysis queue Q (R38, R61). -/
structure Queue where
  mem : Memory
  /-- Q.rd -/
  rd : Nat
  /-- Q.wr -/
  wr : Nat
  /-- Q.n, read at QLEVEL (R32) -/
  n : Nat
  deriving DecidableEq, Repr

/-- The oscillator (R39). -/
structure Osc where
  rate : F64
  freq : F32
  inc : F64
  phase : F64
  wave : Wave
  deriving DecidableEq, Repr

/-- The smoother (R40). -/
structure Smo where
  rate : F64
  amount : F32
  thr : F64
  alpha : F64
  has : Bool
  s : F64
  deriving DecidableEq, Repr

/-- Everything the spec gives the block, and the model's own three fields `inbox`, `rdata` and `draws`. -/
structure State where
  /-- CMD (R22) -/
  cmd : Word
  /-- ARG0_LO (R23) -/
  arg0Lo : Word
  /-- ARG0_HI (R23) -/
  arg0Hi : Word
  /-- ARG1 (R24) -/
  arg1 : F32
  /-- ARG2 (R25) -/
  arg2 : F32
  /-- RES0 (R26) -/
  res0 : Word
  /-- RES1 (R27) -/
  res1 : Word
  /-- the sticky bits of STATUS (R30) -/
  sticky : Sticky
  /-- CTRL (R31) -/
  ctrl : Ctrl
  /-- ACFG (R34) -/
  acfg : Acfg
  /-- the detector -/
  det : Det
  /-- the analysis queue -/
  queue : Queue
  /-- the oscillator -/
  osc : Osc
  /-- the smoother -/
  smo : Smo
  /-- the stand-alone decimator DEC -/
  dec : Decim
  /-- The model's own: what the block drove in answer to the last host read. Log entry 2. -/
  rdata : Word
  /-- The model's own: the number of analysis passes run, which the FFT path's draws are taken at. Log entry 3. -/
  draws : Nat
  /-- The model's own: the events to come, host accesses, engine turns and resets. Log entry 1. -/
  inbox : List Event
  deriving DecidableEq, Repr

/-- A decimator after reset: delay line, phase and output zero (R41). -/
def Decim.reset : Decim :=
  { dl := { d0 := 0#32, d1 := 0#32, d2 := 0#32, d3 := 0#32, d4 := 0#32, d5 := 0#32, d6 := 0#32 }, ph := false, out := 0#32 }

/-- CTRL after reset (R31, R196). -/
def Ctrl.reset : Ctrl :=
  { fallbackEn := Config.fallbackDefault, decimEn := true, asyncEn := true, diffFft := true, run := true }

/-- ACFG after reset: CTRL's reset bits 3:0 (R34). -/
def Acfg.reset : Acfg :=
  { fallbackEn := Config.fallbackDefault, decimEn := true, asyncEn := true, diffFft := true }

/-- The detector after reset (R35, R196): prepared at 44100.0 Hz with decimation. -/
def Det.reset : Det :=
  { rate := 0x40E5888000000000#64
    fa := 0x40D5888000000000#64
    halfWindow := 368
    windowSize := 736
    hopSize := 67
    writePos := 0
    hopCount := 0
    filled := false
    pubFreq := 0#32
    pubConf := 0#32
    estate := .ready
    pendConf := 0#32
    win := []
    dec := Decim.reset }

/-- The queue after reset: empty (R38, R196). -/
def Queue.reset : Queue := { mem := [], rd := 0, wr := 0, n := 0 }

/-- The oscillator after reset (R39, R196). -/
def Osc.reset : Osc := { rate := 0x40E5888000000000#64, freq := 0#32, inc := 0#64, phase := 0#64, wave := .sine }

/-- The smoother after reset (R40, R196). -/
def Smo.reset : Smo :=
  { rate := 0x40E5888000000000#64, amount := 0#32, thr := 0#64, alpha := 0x3FF0000000000000#64, has := false, s := 0#64 }

/-- The block right after reset (R196). -/
def State.reset : State :=
  { cmd := 0#32
    arg0Lo := 0#32
    arg0Hi := 0#32
    arg1 := 0#32
    arg2 := 0#32
    res0 := 0#32
    res1 := 0#32
    sticky := { errCmd := false, errAccess := false, qOverflow := false }
    ctrl := Ctrl.reset
    acfg := Acfg.reset
    det := Det.reset
    queue := Queue.reset
    osc := Osc.reset
    smo := Smo.reset
    dec := Decim.reset
    rdata := 0#32
    draws := 0
    inbox := [] }

end Sys2Proof.Machine
end

