-- ==== Sys2Proof/Machine/Ops.lean ====
section
/-! DEFINITION. The named operations over the state: internal memories (10_state.md R38), the analysis queue (20_memory.md
R62), one update per field of the state, and the one error mechanism (60_exceptions.md R180). -/

namespace Sys2Proof.Machine

/-! ### Internal memories (R38, R58) -/

/-- `MemRead(mem, i)` (R10). An index that is not listed holds +0.0. -/
def Memory.read : Memory → Nat → F32
  | [], _ => 0#32
  | (k, v) :: rest, i => if k = i then v else Memory.read rest i

/-- `MemWrite(mem, i, v)` (R10), keeping the canonical form: an element equal to +0.0 is not listed. -/
def Memory.write : Memory → Nat → F32 → Memory
  | [], i, v => if v = 0#32 then [] else [(i, v)]
  | (k, w) :: rest, i, v =>
    if i < k then (if v = 0#32 then (k, w) :: rest else (i, v) :: (k, w) :: rest)
    else if i = k then (if v = 0#32 then rest else (i, v) :: rest)
    else (k, w) :: Memory.write rest i v

/-- Every index is above `b`, they rise strictly, and no listed element is +0.0. -/
def Memory.wfAbove : Nat → Memory → Bool
  | _, [] => true
  | b, (k, v) :: rest => decide (b < k) && !decide (v = 0#32) && Memory.wfAbove k rest

/-- The canonical form of a memory: indices strictly rising, no element equal to what an unlisted index holds. -/
def Memory.wf : Memory → Bool
  | [] => true
  | (k, v) :: rest => !decide (v = 0#32) && Memory.wfAbove k rest

/-! ### The analysis queue (R61, R62) -/

/-- `Push(Q, v)` (R62), for `Q.n < QUEUE_DEPTH`. -/
def Queue.push (q : Queue) (v : F32) : Queue :=
  { mem := Memory.write q.mem q.wr v
    rd := q.rd
    wr := (q.wr + 1) % Config.queueDepth
    n := q.n + 1 }

/-- The element `Pop(Q)` answers (R62). -/
def Queue.front (q : Queue) : F32 := Memory.read q.mem q.rd

/-- What `Pop(Q)` leaves (R62), for `Q.n > 0`. -/
def Queue.pop (q : Queue) : Queue :=
  { mem := q.mem
    rd := (q.rd + 1) % Config.queueDepth
    wr := q.wr
    n := q.n - 1 }

/-- The cursors and the occupancy zero (R93), the elements as they were. -/
def Queue.clear (q : Queue) : Queue := { mem := q.mem, rd := 0, wr := 0, n := 0 }

/-- The waiting samples, oldest first. -/
def Queue.contents (q : Queue) : List F32 :=
  (List.range q.n).map fun k => Memory.read q.mem ((q.rd + k) % Config.queueDepth)

/-! ### Updates of the state -/

def State.withCmd (s : State) (v : Word) : State := { s with cmd := v }
def State.withArg0Lo (s : State) (v : Word) : State := { s with arg0Lo := v }
def State.withArg0Hi (s : State) (v : Word) : State := { s with arg0Hi := v }
def State.withArg1 (s : State) (v : F32) : State := { s with arg1 := v }
def State.withArg2 (s : State) (v : F32) : State := { s with arg2 := v }
def State.withRes0 (s : State) (v : Word) : State := { s with res0 := v }
def State.withRes1 (s : State) (v : Word) : State := { s with res1 := v }
def State.withSticky (s : State) (v : Sticky) : State := { s with sticky := v }
def State.withCtrl (s : State) (v : Ctrl) : State := { s with ctrl := v }
def State.withAcfg (s : State) (v : Acfg) : State := { s with acfg := v }
def State.withDet (s : State) (v : Det) : State := { s with det := v }
def State.withQueue (s : State) (v : Queue) : State := { s with queue := v }
def State.withOsc (s : State) (v : Osc) : State := { s with osc := v }
def State.withSmo (s : State) (v : Smo) : State := { s with smo := v }
def State.withDec (s : State) (v : Decim) : State := { s with dec := v }
def State.withRdata (s : State) (v : Word) : State := { s with rdata := v }
def State.withDraws (s : State) (v : Nat) : State := { s with draws := v }
def State.withInbox (s : State) (v : List Event) : State := { s with inbox := v }

/-! ### The error mechanism (R180) -/

/-- The bits a raise may set. -/
inductive StickyBit where
  | errCmd | errAccess | qOverflow
  deriving DecidableEq, Repr

/-- `STATUS[bit] <- 1` on the sticky bits. -/
def Sticky.set (k : Sticky) : StickyBit → Sticky
  | .errCmd => { errCmd := true, errAccess := k.errAccess, qOverflow := k.qOverflow }
  | .errAccess => { errCmd := k.errCmd, errAccess := true, qOverflow := k.qOverflow }
  | .qOverflow => { errCmd := k.errCmd, errAccess := k.errAccess, qOverflow := true }

/-- `Raise(bit)` (R180): the block's one error mechanism. It changes no other state and stops nothing; the block has no saved
registers, no handler and no return (R181, R188). -/
def raise (b : StickyBit) (s : State) : State := s.withSticky (s.sticky.set b)

/-! ### The platform's decode (R45) -/

/-- The offset the block sees for a platform address, where the address lies in the register window at BASE_ADDR; nothing
reaches the block otherwise. -/
def windowOffset (addr : Nat) : Option Offset :=
  if Config.baseAddr ≤ addr ∧ addr < Config.baseAddr + 256 then some (BitVec.ofNat 8 (addr - Config.baseAddr)) else none

end Sys2Proof.Machine
end

