-- ==== Sys2Proof/Machine/Operands.lean ====
section
/-! DEFINITION. The operand forms of the commands (30_encoding.md R75, R76) and how out-of-range operands are made safe
(40_detector.md R92, R96; 43_smoother.md R158, R159). -/

namespace Sys2Proof.Machine

/-- `ARG0 = (ARG0_HI, ARG0_LO)` as one binary64 pattern (R76). -/
def arg0 (s : State) : F64 := s.arg0Hi ++ s.arg0Lo

/-- `SanitiseRate(r)` (R92): below the minimum, zero, negative and NaN give the minimum; above the maximum gives the maximum. -/
def sanitiseRate (r : F64) : F64 :=
  if !leF64 Config.minSampleRate r then Config.minSampleRate
  else if ltF64 Config.maxSampleRate r then Config.maxSampleRate
  else r

/-- `SanitiseSample(x)` (R96): a non-finite sample becomes +0.0. -/
def sanitiseSample (x : F32) : F32 := if finite32 x then x else zeroF32

/-- `(v is NaN) ? +0.0 : clamp(v, 0.0, 1.0)`, the operand rule of SMO.SETAMOUNT and SMO.SETSENS (R158, R159). -/
def unitOperand (v : F32) : F32 := if isNaN32 v then zeroF32 else minF32 (maxF32 v zeroF32) oneF32

/-- `clamp(v, 0.0, 1.0)` of a binary64 (R13, R124). -/
def clampUnit64 (v : F64) : F64 := minF64 (maxF64 v zeroF64) oneF64

end Sys2Proof.Machine
end

