-- ==== Sys2Proof/Machine/Analysis.lean ====
section
/-! DEFINITION. The analysis pass `Analyse` (41_detector_analysis.md R110 to R125), step by step. -/

namespace Sys2Proof.Machine

/-- A PitchResult (R87). -/
structure PitchResult where
  frequency : F32
  confidence : F32
  deriving DecidableEq, Repr

/-- `(+0.0, +0.0)`: no pitch (R88, R125). -/
def noPitch : PitchResult := { frequency := zeroF32, confidence := zeroF32 }

/-- Step 1 (R111): the window in chronological order, before the exact conversion to binary64. -/
def linearise (d : Det) : List F32 :=
  (List.range d.windowSize).map fun j => Memory.read d.win ((d.writePos + j) % d.windowSize)

/-! ### Step 2, direct path (R113) -/

/-- `acc <- acc + e * e` over pairs of samples, `e` their difference. -/
def sumSquares : F64 → List F64 → List F64 → F64
  | acc, x :: xs, y :: ys => sumSquares (addF64 acc (mulF64 (subF64 x y) (subF64 x y))) xs ys
  | acc, _, _ => acc

/-- `d[τ]` on the direct path: the first `H` samples against those `τ` later. -/
def directDiff (h : Nat) (x : List F64) (τ : Nat) : F64 := sumSquares zeroF64 (x.take h) (x.drop τ)

/-! ### Step 2, FFT path (R114, R115)

The exact quantities are integers: a sample is a multiple of 2^-149, so that sums of products count units of 2^-298, which are
2^776 units of 2^-1074. -/

/-- `N`, the transform's length: the next power of two from `2 W` up (R114; for `W >= 1`, and at most MAX_FFT_SIZE). The method
of the transform is the hardware's own, so no value below depends on it. -/
def fftSize (w : Nat) : Nat := 2 ^ (bitLog 13 (2 * w - 1) + 1)

/-- `d*(τ)` (R112) in units of 2^-298. -/
def exactDiff : List Int → List Int → Int
  | x :: xs, y :: ys => (x - y) * (x - y) + exactDiff xs ys
  | _, _ => 0

/-- A power term, the sum of the squares, in units of 2^-298. -/
def exactPower : List Int → Int
  | [] => 0
  | x :: xs => x * x + exactPower xs

/-- R114's guarantee for a value `c`, the exact difference `D` and the power terms' sum `P`: `c` is a number, `c >= 0`, and
`|c - D| <= 2^-36 · P`. -/
def fftAdmissible (diff power : Int) (c : F64) : Bool :=
  finite64 c && decide (0 ≤ valF64 c) &&
    decide ((valF64 c - diff * 2 ^ 776).natAbs * 2 ^ Config.diffTolBits ≤ (power * 2 ^ 776).natAbs)

/-- `d[τ]` on the FFT path in the `n`-th pass: a draw constrained only by R114. The drawn value is taken where it is
admissible; a draw that is not stands for the exact difference rounded once, which is (log entry 3). -/
def fftDiff (n h : Nat) (x : List Int) (τ : Nat) : F64 :=
  let diff := exactDiff (x.take h) (x.drop τ)
  let power := exactPower (x.take h) + exactPower ((x.drop τ).take h)
  if fftAdmissible diff power (Config.fftDraw n τ) then Config.fftDraw n τ else roundF64 false (diff.natAbs * 2 ^ 776) 1

/-- The difference function `d[0..H)` by the path ACFG.DIFF_FFT selects. -/
def diffFunction (a : Acfg) (n : Nat) (d : Det) : List F64 :=
  if a.diffFft then (List.range d.halfWindow).map (fftDiff n d.halfWindow ((linearise d).map valF32))
  else (List.range d.halfWindow).map (directDiff d.halfWindow ((linearise d).map f64OfF32))

/-! ### Step 3 (R116) -/

/-- The loop of R116 from lag `τ` on: the values and the last running sum. -/
def cmndfLoop : Nat → F64 → List F64 → List F64 × F64
  | _, run, [] => ([], run)
  | τ, run, d :: ds =>
    let run' := addF64 run d
    let c := if ltF64 zeroF64 run' then divF64 (mulF64 d (ofIntF64 τ)) run' else oneF64
    let r := cmndfLoop (τ + 1) run' ds
    (c :: r.1, r.2)

/-- The cumulative mean normalised difference and the final running sum (R116). -/
def cmndf : List F64 → List F64 × F64
  | [] => ([], zeroF64)
  | _ :: ds =>
    let r := cmndfLoop 1 zeroF64 ds
    (oneF64 :: r.1, r.2)

/-! ### Steps 4 and 5: the lag (R118, R119) -/

/-- The first lag from `t` on whose value is below the threshold; the list starts at lag `t`. -/
def firstBelow : Nat → List F64 → Option Nat
  | _, [] => none
  | t, c :: cs => if ltF64 c Config.yinThreshold then some t else firstBelow (t + 1) cs

/-- `while τ + 1 < H and cm[τ + 1] < cm[τ]: τ <- τ + 1`; the list starts at lag `τ`. -/
def walkDown : Nat → List F64 → Nat
  | τ, c :: c' :: cs => if ltF64 c' c then walkDown (τ + 1) (c' :: cs) else τ
  | τ, _ => τ

/-- The least lag of the least value, given the best so far; the list starts at lag `t`. -/
def leastLag : Nat → F64 → Nat → List F64 → Nat
  | best, _, _, [] => best
  | best, m, t, c :: cs => if ltF64 c m then leastLag t c (t + 1) cs else leastLag best m (t + 1) cs

/-- The lag of the global minimum over [2, H) (R119); the list starts at lag 2. -/
def globalMinimum : List F64 → Option Nat
  | [] => none
  | c :: cs => some (leastLag 2 c 3 cs)

/-- The accepted lag (R118 to R120). -/
def selectLag (fallback : Bool) (cm : List F64) : Option Nat :=
  match firstBelow 2 (cm.drop 2) with
  | some t => some (walkDown t (cm.drop t))
  | none => if fallback then globalMinimum (cm.drop 2) else none

/-! ### Steps 6 to 8 (R121 to R125) -/

/-- The refined lag: the vertex of the parabola through the lag and its two neighbours, where both exist (R121). -/
def refineLag (cm : List F64) (τ : Nat) : F64 :=
  if 1 ≤ τ ∧ τ + 1 < cm.length then
    let s0 := cm.getD (τ - 1) zeroF64
    let s1 := cm.getD τ zeroF64
    let s2 := cm.getD (τ + 1) zeroF64
    let den := subF64 (addF64 s0 s2) (mulF64 twoF64 s1)
    if !eqF64 den zeroF64 then addF64 (ofIntF64 τ) (divF64 (subF64 s0 s2) (mulF64 twoF64 den)) else ofIntF64 τ
  else ofIntF64 τ

/-- The confidence of a lag (R124). -/
def confidenceAt (cm : List F64) (τ : Nat) : F64 := clampUnit64 (subF64 oneF64 (cm.getD τ zeroF64))

/-- The result at an accepted lag: the two rejections (R122, R123), then the confidence and the rounding (R124, R125). -/
def resultAt (fa : F64) (cm : List F64) (τ : Nat) : PitchResult :=
  let τr := refineLag cm τ
  let fr := divF64 fa τr
  if ltF64 τr oneF64 then noPitch
  else if !(leF64 Config.freqLo fr && ltF64 fr Config.freqHi) then noPitch
  else { frequency := f32OfF64 fr, confidence := f32OfF64 (confidenceAt cm τ) }

/-- Steps 3 to 8 from a difference function: the silence guard (R117), the lag, the result. -/
def resultOfDiff (fallback : Bool) (fa : F64) (d : List F64) : PitchResult :=
  let cm := cmndf d
  if leF64 cm.2 zeroF64 then noPitch
  else
    match selectLag fallback cm.1 with
    | none => noPitch
    | some τ => resultAt fa cm.1 τ

/-- `Analyse()` (R110), as the `n`-th pass. -/
def analyse (a : Acfg) (n : Nat) (d : Det) : PitchResult := resultOfDiff a.fallbackEn d.fa (diffFunction a n d)

end Sys2Proof.Machine
end

