-- ==== Sys2Proof/Machine/Decimator.lean ====
section
/-! DEFINITION. The half-band decimator step, shared by both instances, and the DEC commands (44_decimator.md). -/

namespace Sys2Proof.Machine

/-- The delay line after a new sample, the oldest one dropped (R174). -/
def DelayLine.shift (d : DelayLine) (x : F32) : DelayLine :=
  { d0 := x, d1 := d.d0, d2 := d.d1, d3 := d.d2, d4 := d.d3, d5 := d.d4, d6 := d.d5 }

/-- The delay line as a list, the newest sample first. -/
def DelayLine.toList (d : DelayLine) : List F32 := [d.d0, d.d1, d.d2, d.d3, d.d4, d.d5, d.d6]

/-- `y <- f32(y + f32(h[k] * dl[k]))` over the two lists in order (R174). -/
def firAccumulate : F32 → List F32 → List F32 → F32
  | y, h :: hs, x :: xs => firAccumulate (addF32 y (mulF32 h x)) hs xs
  | y, _, _ => y

/-- The filter output, a non-finite one replaced by +0.0 (R174, R176). -/
def firOutput (d : DelayLine) : F32 :=
  let y := firAccumulate zeroF32 Config.decimCoeffs d.toList
  if finite32 y then y else zeroF32

/-- `DecimStep(D, x)` (R174): the new state and whether an output is ready, which is on every call that brings the phase back
to 0. -/
def decimStep (d : Decim) (x : F32) : Decim × Bool :=
  if d.ph then ({ dl := d.dl.shift x, ph := false, out := firOutput (d.dl.shift x) }, true)
  else ({ dl := d.dl.shift x, ph := true, out := d.out }, false)

/-- DEC.RESET (R171). -/
def execDecReset (s : State) : Host.Outcome State Fault Refusal := .next (s.withDec Decim.reset)

/-- DEC.PROCESS (R172): RES0 is the ready flag as the integer 0 or 1. -/
def execDecProcess (s : State) : Host.Outcome State Fault Refusal :=
  let r := decimStep s.dec (sanitiseSample s.arg1)
  .next ((s.withDec r.1).withRes0 (if r.2 then 1#32 else 0#32))

/-- DEC.GETOUTPUT (R173). -/
def execDecGetOutput (s : State) : Host.Outcome State Fault Refusal := .next (s.withRes0 s.dec.out)

end Sys2Proof.Machine
end

