-- ==== Sys2Proof/Machine/Flags.lean ====
section
/-! DEFINITION. The status and control words: STATUS with its computed bits and its write-one-to-clear bits (10_state.md R30;
40_detector.md R106), CTRL and ACFG as words (R31, R34). -/

namespace Sys2Proof.Machine

/-- One bit of a word, at its place. -/
def bitAt (b : Bool) (k : Nat) : Word := if b then BitVec.ofNat 32 (2 ^ k) else 0#32

/-! ### STATUS -/

/-- The engine's drain step is enabled (R102). -/
def drainEnabled (s : State) : Bool :=
  s.acfg.asyncEn && s.ctrl.run && decide (s.det.estate = .ready) && decide (0 < s.queue.n)

/-- The engine's confidence publish is enabled (R102). -/
def publishEnabled (s : State) : Bool := s.acfg.asyncEn && decide (s.det.estate = .pubConfPending)

/-- STATUS.ENGINE_IDLE (R30, R106): the engine has no enabled step. -/
def engineIdle (s : State) : Bool := !drainEnabled s && !publishEnabled s

/-- STATUS as a read returns it (R30). -/
def statusWord (s : State) : Word :=
  bitAt s.sticky.errCmd 0 ||| bitAt s.sticky.errAccess 1 ||| bitAt s.sticky.qOverflow 2 ||| bitAt s.det.filled 3 |||
    bitAt (engineIdle s) 4

/-- A write of `v` to STATUS clears each of bits 0 to 2 for which `v` has a one (R30). -/
def Sticky.clear (k : Sticky) (v : Word) : Sticky :=
  { errCmd := k.errCmd && !v.getLsbD 0
    errAccess := k.errAccess && !v.getLsbD 1
    qOverflow := k.qOverflow && !v.getLsbD 2 }

/-! ### CTRL and ACFG -/

/-- CTRL as a read returns it (R31). -/
def ctrlWord (c : Ctrl) : Word :=
  bitAt c.fallbackEn 0 ||| bitAt c.decimEn 1 ||| bitAt c.asyncEn 2 ||| bitAt c.diffFft 3 ||| bitAt c.run 4

/-- What a write of `v` stores in CTRL: bits 4:0 (R31). -/
def ctrlOfWord (v : Word) : Ctrl :=
  { fallbackEn := v.getLsbD 0
    decimEn := v.getLsbD 1
    asyncEn := v.getLsbD 2
    diffFft := v.getLsbD 3
    run := v.getLsbD 4 }

/-- `ACFG <- CTRL[3:0]` (R34, R93). -/
def acfgOfCtrl (c : Ctrl) : Acfg :=
  { fallbackEn := c.fallbackEn, decimEn := c.decimEn, asyncEn := c.asyncEn, diffFft := c.diffFft }

end Sys2Proof.Machine
end

