-- ==== Sys2Proof/Machine/Detector.lean ====
section
/-! DEFINITION. The detector commands (40_detector.md R93 to R100) and the analysis engine (R101 to R107). -/

namespace Sys2Proof.Machine

/-! ### The window (R98) -/

/-- `WindowInsert(s)` (R98): the detector after the insert, and whether it triggers a pass. -/
def windowInsert (d : Det) (v : F32) : Det × Bool :=
  let wp := (d.writePos + 1) % d.windowSize
  let filled := d.filled || decide (wp = 0)
  let trigger := filled && decide (d.hopSize ≤ d.hopCount + 1)
  ({ d with
      win := Memory.write d.win d.writePos v
      writePos := wp
      filled := filled
      hopCount := if trigger then 0 else d.hopCount + 1 }, trigger)

/-- Insert in synchronous mode: a triggered pass publishes both scalars at once (R94, R99). -/
def insertSync (s : State) (v : F32) : State :=
  let r := windowInsert s.det v
  if r.2 then
    let p := analyse s.acfg s.draws r.1
    (s.withDet { r.1 with pubFreq := p.frequency, pubConf := p.confidence }).withDraws (s.draws + 1)
  else s.withDet r.1

/-- A sample for the queue: pushed, or dropped with Q_OVERFLOW when the queue is full (R94, R97, R184). -/
def enqueue (s : State) (v : F32) : State :=
  if s.queue.n < Config.queueDepth then s.withQueue (s.queue.push v) else raise .qOverflow s

/-- A window sample leaves the input path (R94): to the queue in asynchronous mode, else to the window. -/
def acceptSample (s : State) (v : F32) : State := if s.acfg.asyncEn then enqueue s v else insertSync s v

/-- The input path of DET.FEED for a sanitised sample (R94): through the private decimator when ACFG.DECIM_EN is set. -/
def feedSample (s : State) (x : F32) : State :=
  if s.acfg.decimEn then
    let r := decimStep s.det.dec x
    let s' := s.withDet { s.det with dec := r.1 }
    if r.2 then acceptSample s' r.1.out else s'
  else acceptSample s x

/-! ### Preparation (R93) -/

/-- The analysis rate (R93). -/
def analysisRate (decim : Bool) (r : F64) : F64 := if decim then divF64 r twoF64 else r

/-- The detector prepared for a sanitised rate (R93): all of WIN +0.0, every counter and the published result zero. -/
def preparedDet (decim : Bool) (r : F64) : Det :=
  let fa := analysisRate decim r
  let h := (ceilInt (divF64 fa Config.minPitchHz)).toNat
  { rate := r
    fa := fa
    halfWindow := h
    windowSize := 2 * h
    hopSize := (ceilInt (mulF64 fa Config.hopSeconds)).toNat
    writePos := 0
    hopCount := 0
    filled := false
    pubFreq := zeroF32
    pubConf := zeroF32
    estate := .ready
    pendConf := zeroF32
    win := []
    dec := Decim.reset }

/-- The effect of DET.PREPARE with the sample-rate operand `r` (R93). -/
def prepareDetector (s : State) (r : F64) : State :=
  ((s.withAcfg (acfgOfCtrl s.ctrl)).withDet (preparedDet s.ctrl.decimEn (sanitiseRate r))).withQueue s.queue.clear

/-! ### The commands -/

/-- DET.PREPARE (R93). -/
def execDetPrepare (s : State) : Host.Outcome State Fault Refusal := .next (prepareDetector s (arg0 s))

/-- DET.FEED (R94). -/
def execDetFeed (s : State) : Host.Outcome State Fault Refusal := .next (feedSample s (sanitiseSample s.arg1))

/-- DET.GETRESULT (R95). -/
def execDetGetResult (s : State) : Host.Outcome State Fault Refusal :=
  .next ((s.withRes0 s.det.pubFreq).withRes1 s.det.pubConf)

/-! ### The engine (R101 to R105) -/

/-- The engine's drain step (R103), for a state where it is enabled. -/
def drainStep (s : State) : State :=
  let r := windowInsert s.det s.queue.front
  let s' := s.withQueue s.queue.pop
  if r.2 then
    let p := analyse s.acfg s.draws r.1
    (s'.withDet { r.1 with pubFreq := p.frequency, pendConf := p.confidence, estate := .pubConfPending }).withDraws
      (s.draws + 1)
  else s'.withDet r.1

/-- The engine's confidence publish (R104), for a state where it is enabled. -/
def publishStep (s : State) : State :=
  s.withDet { s.det with pubConf := s.det.pendConf, estate := .ready }

/-- The engine's turn (R102): its enabled step, at most one of the two; nothing when neither is enabled. -/
def engineStep (s : State) : State :=
  if publishEnabled s then publishStep s else if drainEnabled s then drainStep s else s

end Sys2Proof.Machine
end

