-- ==== Sys2Proof/Machine/Elementary.lean ====
section
/-! DEFINITION. The elementary functions of 00_scope.md R12, correctly rounded: `exp`, `log2` and `exp2` of a binary64, and
the sine table of 42_oscillator.md R136. Each is enclosed between two rationals by integer arithmetic rounded outwards; where
both ends round to one value that value is the correct rounding of the exact real one, since rounding is monotone. Two fixed
working precisions are tried first; where neither decides, exact enclosures that narrow without end are searched for one that
does, and there is one for every argument (`Laws/Settling.lean`; log entry 8). -/

namespace Sys2Proof.Machine

/-- A real number of known sign whose magnitude lies in [loNum / loDen, hiNum / hiDen]. -/
structure Enclosure where
  neg : Bool
  loNum : Nat
  loDen : Nat
  hiNum : Nat
  hiDen : Nat
  deriving DecidableEq, Repr

/-- The binary64 value nearest to the lower end of the magnitude, with the sign. -/
def Enclosure.lo64 (e : Enclosure) : F64 := roundF64 e.neg (e.loNum * 2 ^ 1074) e.loDen

/-- The binary64 value nearest to the upper end. -/
def Enclosure.hi64 (e : Enclosure) : F64 := roundF64 e.neg (e.hiNum * 2 ^ 1074) e.hiDen

/-- The two ends of an enclosure, rounded. -/
def Enclosure.ends64 (e : Enclosure) : F64 × F64 := (e.lo64, e.hi64)

/-- The value of the first pair, from the `k`-th on, whose two ends are one. The search ends on every family of enclosures that
the functions below give it, so nothing rests on what it would be without an end. -/
def firstDecided (ends : Nat → F64 × F64) (k : Nat) : F64 :=
  if (ends k).1 = (ends k).2 then (ends k).1 else firstDecided ends (k + 1)
partial_fixpoint

/-- The correctly rounded value of a real number that `coarse`, `fine` and every `deep k` enclose. -/
def settle64 (coarse fine : Enclosure) (deep : Nat → Enclosure) : F64 :=
  if coarse.lo64 = coarse.hi64 then coarse.lo64
  else if fine.lo64 = fine.hi64 then fine.lo64
  else firstDecided (fun k => (deep k).ends64) 0

/-! ### exp

`exp t` for `0 <= t < 1024` is the 1024th power, by ten squarings, of `exp (t / 1024)`, which the Taylor series gives. Numbers
are multiples of 2^-p. -/

/-- The sum of the next `n` Taylor terms from term `m`, each rounded down: the term after `t` is `t·y / (m + 1)`. -/
def taylorLo (p y : Nat) : Nat → Nat → Nat → Nat
  | 0, _, _ => 0
  | n + 1, m, t => t + taylorLo p y n (m + 1) (t * y / (2 ^ p * (m + 1)))

/-- The same rounded up; after the last term the rest of the series, at most twice the next term for `y <= 1`. -/
def taylorHi (p y : Nat) : Nat → Nat → Nat → Nat
  | 0, _, t => 2 * t
  | n + 1, m, t => t + taylorHi p y n (m + 1) (ceilDiv (t * y) (2 ^ p * (m + 1)))

/-- `n` squarings of a multiple of 2^-p, rounded down. -/
def squareLo (p : Nat) : Nat → Nat → Nat
  | 0, a => a
  | n + 1, a => squareLo p n (a * a / 2 ^ p)

/-- `n` squarings of a multiple of 2^-p, rounded up. -/
def squareHi (p : Nat) : Nat → Nat → Nat
  | 0, a => a
  | n + 1, a => squareHi p n (ceilDiv (a * a) (2 ^ p))

/-- The least the exponential of `y / 2^p` can be, `0 <= y / 2^p <= 1`, in multiples of 2^-p, by `n` terms. -/
def expLo (p n y : Nat) : Nat := taylorLo p y n 0 (2 ^ p)

/-- The most it can be. -/
def expHi (p n y : Nat) : Nat := taylorHi p y n 0 (2 ^ p)

/-- `exp x` for a finite `x` with `|x| < 1024`, at precision `p` with `n` Taylor terms; `exp (-t)` is `1 / exp t`. -/
def expEnclosure (p n : Nat) (x : F64) : Enclosure :=
  let lo := squareLo p 10 (expLo p n (magF64 x * 2 ^ p / 2 ^ 1084))
  let hi := squareHi p 10 (expHi p n (ceilDiv (magF64 x * 2 ^ p) (2 ^ 1084)))
  if signF64 x then { neg := false, loNum := 2 ^ p, loDen := hi, hiNum := 2 ^ p, hiDen := lo }
  else { neg := false, loNum := lo, loDen := 2 ^ p, hiNum := hi, hiDen := 2 ^ p }

/-- The sum of the first `n` Taylor terms of `exp (a / b)`, exact, over `expDen b n`. -/
def expNum (a b : Nat) : Nat → Nat
  | 0 => 0
  | n + 1 => (expNum a b n + a ^ n) * (b * (n + 1))

/-- `b^n · n!`. -/
def expDen (b : Nat) : Nat → Nat
  | 0 => 1
  | n + 1 => expDen b n * (b * (n + 1))

/-- `exp x` by at least `k` exact Taylor terms, and more than twice `|x|`, so that the rest of the series is at most twice the
next term. -/
def expDeep (x : F64) (k : Nat) : Enclosure :=
  let n := k + 2 * (magF64 x / 2 ^ 1074 + 1)
  let lo := expNum (magF64 x) (2 ^ 1074) n
  let hi := lo + 2 * magF64 x ^ n
  let den := expDen (2 ^ 1074) n
  if signF64 x then { neg := false, loNum := den, loDen := hi, hiNum := den, hiDen := lo }
  else { neg := false, loNum := lo, loDen := den, hiNum := hi, hiDen := den }

/-- `exp` (R12): 1 at zero. From `|x| = 1024` on the result is certain to be +0.0 or to overflow. -/
def expF64 (x : F64) : F64 :=
  if isNaN64 x then nanF64 4 x x
  else if 2 ^ 1084 ≤ magF64 x then (if signF64 x then packF64 false 0 else infF64 false)
  else if magF64 x = 0 then oneF64
  else settle64 (expEnclosure 192 50 x) (expEnclosure 512 110 x) (expDeep x)

/-! ### exp2

`2^s = 2^n · exp (f · ln 2)` with `n = floor s` and `f = s - n`. -/

/-- The first `k` terms, from term `m` on, of `ln 2 = Σ 1 / (m · 2^m)`, in multiples of 2^-p, each rounded down. -/
def ln2Sum (p : Nat) : Nat → Nat → Nat
  | 0, _ => 0
  | k + 1, m => 2 ^ p / (m * 2 ^ m) + ln2Sum p k (m + 1)

/-- At most `ln 2`. -/
def ln2Lo (p : Nat) : Nat := ln2Sum p p 1

/-- At least `ln 2`: every one of the `p` terms lost less than one unit, and the rest of the series is below one unit. -/
def ln2Hi (p : Nat) : Nat := ln2Lo p + p + 1

/-- The fraction `s - floor s` in units of 2^-1074. -/
def fracF64 (s : F64) : Nat := (valF64 s % 2 ^ 1074).toNat

/-- The enclosure of `2^s` for a fraction part's power of two in [lo, hi] / den. -/
def exp2Ends (s : F64) (lo hi den : Nat) : Enclosure :=
  let k := floorInt s
  if 0 ≤ k then { neg := false, loNum := lo * 2 ^ k.toNat, loDen := den, hiNum := hi * 2 ^ k.toNat, hiDen := den }
  else { neg := false, loNum := lo, loDen := den * 2 ^ (-k).toNat, hiNum := hi, hiDen := den * 2 ^ (-k).toNat }

/-- `2^s` for a finite `s`, at precision `p` with `n` Taylor terms. -/
def exp2Enclosure (p n : Nat) (s : F64) : Enclosure :=
  exp2Ends s (expLo p n (fracF64 s * ln2Lo p / 2 ^ 1074)) (expHi p n (ceilDiv (fracF64 s * ln2Hi p) (2 ^ 1074))) (2 ^ p)

/-- The first `k` binary digits of `2^f` for `f = frac / 2^1074` in [0, 1), exact: the largest `z` with
`z^(2^1074) <= 2^(frac + k·2^1074)`. -/
def exp2Digits (frac k : Nat) : Nat :=
  Nat.findGreatest (fun z => z ^ 2 ^ 1074 ≤ 2 ^ (frac + k * 2 ^ 1074)) (2 ^ (k + 1))

/-- `2^s` by `k` exact binary digits; exact where `s` is an integer. -/
def exp2Deep (s : F64) (k : Nat) : Enclosure :=
  exp2Ends s (exp2Digits (fracF64 s) k) (exp2Digits (fracF64 s) k + if fracF64 s = 0 then 0 else 1) (2 ^ k)

/-- `exp2` (R12). From 1024 up the result overflows and below -1100 it is +0.0. -/
def exp2F64 (s : F64) : F64 :=
  if isNaN64 s then nanF64 5 s s
  else if 1024 ≤ floorInt s then infF64 false
  else if floorInt s < -1100 then packF64 false 0
  else settle64 (exp2Enclosure 192 50 s) (exp2Enclosure 512 110 s) (exp2Deep s)

/-! ### log2

For `x = 2^k · z`, `1 <= z < 2`, the binary digits of `log2 z` come one by one from squaring `z`: the digit is 1, and `z` is
halved, where the square is at least 2. -/

/-- The digits of `log2` of a number in [lo, hi] · 2^-p, as `(b, i)`: the value lies in [b, b + 1] · 2^-i. At most `n` digits,
fewer where the interval straddles 2. -/
def log2Digits (p : Nat) : Nat → Nat → Nat → Nat → Nat → Nat × Nat
  | 0, _, _, b, i => (b, i)
  | n + 1, lo, hi, b, i =>
    let lo' := lo * lo / 2 ^ p
    let hi' := ceilDiv (hi * hi) (2 ^ p)
    if 2 ^ (p + 1) ≤ lo' then log2Digits p n (lo' / 2) (ceilDiv hi' 2) (2 * b + 1) (i + 1)
    else if hi' ≤ 2 ^ (p + 1) then log2Digits p n lo' hi' (2 * b) (i + 1)
    else (b, i)

/-- The enclosure of `log2 x` for `x = 2^(m - 1074) · z` where the logarithm of `z` lies in [b, b + 1] · 2^-i; below 1 the
value is negative and the two ends change places. -/
def log2Ends (m b i : Nat) : Enclosure :=
  if 1074 ≤ m then
    { neg := false, loNum := (m - 1074) * 2 ^ i + b, loDen := 2 ^ i, hiNum := (m - 1074) * 2 ^ i + b + 1, hiDen := 2 ^ i }
  else
    { neg := true, loNum := (1074 - m) * 2 ^ i - (b + 1), loDen := 2 ^ i, hiNum := (1074 - m) * 2 ^ i - b, hiDen := 2 ^ i }

/-- `log2 x` for a finite `x > 0`, by `n` digits at precision `p`, with `m` the bit length of the magnitude less one. -/
def log2Enclosure (p n : Nat) (x : F64) : Enclosure :=
  let m := bitLog 13 (magF64 x)
  let d := log2Digits p n (magF64 x * 2 ^ p / 2 ^ m) (ceilDiv (magF64 x * 2 ^ p) (2 ^ m)) 0 0
  log2Ends m d.1 d.2

/-- The first `k` binary digits of the logarithm of `g / 2^m` in [1, 2), exact: the largest `d` with
`2^d <= (g / 2^m)^(2^k)`. -/
def log2DigitsExact (g m k : Nat) : Nat := Nat.findGreatest (fun d => 2 ^ d * 2 ^ (m * 2 ^ k) ≤ g ^ 2 ^ k) (2 ^ k)

/-- `log2 x` by `k` exact binary digits. -/
def log2Deep (x : F64) (k : Nat) : Enclosure :=
  let m := bitLog 13 (magF64 x)
  log2Ends m (log2DigitsExact (magF64 x) m k) k

/-- `log2` (R12): exact at a power of two; -infinity at zero and no number below it. -/
def log2F64 (x : F64) : F64 :=
  if isNaN64 x then nanF64 6 x x
  else if magF64 x = 0 then infF64 true
  else if signF64 x then nanF64 6 x x
  else if isInf64 x then x
  else if magF64 x = 2 ^ bitLog 13 (magF64 x) then ofIntF64 ((bitLog 13 (magF64 x) : Int) - 1074)
  else settle64 (log2Enclosure 352 176 x) (log2Enclosure 1056 512 x) (log2Deep x)

/-! ### The sine table

`sin` and `cos` on [0, π/4] by their alternating series, nested: `sin θ = θ·(1 - θ²/(2·3)·(1 - θ²/(4·5)·(…)))` and
`cos θ = 1 - θ²/(1·2)·(1 - θ²/(3·4)·(…))`. The innermost bracket that is left out lies in [0, 1]. -/

/-- Precision of the table's arithmetic, in bits. -/
def sinePrecision : Nat := 96

/-- π lies between `piLo · 10^-20` and `(piLo + 1) · 10^-20`. -/
def piLo : Nat := 314159265358979323846

/-- The bracket `1 - u/((m+1)(m+2))·(1 - u/((m+3)(m+4))·(…))` of `k` levels, with `u` in [uLo, uHi], as an interval; all in
multiples of 2^-sinePrecision. -/
def altSeries (uLo uHi : Nat) : Nat → Nat → Nat × Nat
  | 0, _ => (0, 2 ^ sinePrecision)
  | k + 1, m =>
    let r := altSeries uLo uHi k (m + 2)
    (2 ^ sinePrecision - ceilDiv (uHi * r.2) (2 ^ sinePrecision * ((m + 1) * (m + 2))),
     2 ^ sinePrecision - uLo * r.1 / (2 ^ sinePrecision * ((m + 1) * (m + 2))))

/-- `θ = π · r / 1024` from below. -/
def angleLo (r : Nat) : Nat := r * piLo * 2 ^ sinePrecision / (1024 * 10 ^ 20)

/-- `θ` from above. -/
def angleHi (r : Nat) : Nat := ceilDiv (r * (piLo + 1) * 2 ^ sinePrecision) (1024 * 10 ^ 20)

/-- `θ²` from below and from above. -/
def angleSqLo (r : Nat) : Nat := angleLo r * angleLo r / 2 ^ sinePrecision
def angleSqHi (r : Nat) : Nat := ceilDiv (angleHi r * angleHi r) (2 ^ sinePrecision)

/-- `sin (π·r/1024)` for `r <= 256`, as an interval. -/
def sinInterval (r : Nat) : Nat × Nat :=
  let s := altSeries (angleSqLo r) (angleSqHi r) 12 1
  (angleLo r * s.1 / 2 ^ sinePrecision, ceilDiv (angleHi r * s.2) (2 ^ sinePrecision))

/-- `cos (π·r/1024)` for `r <= 256`, as an interval. -/
def cosInterval (r : Nat) : Nat × Nat := altSeries (angleSqLo r) (angleSqHi r) 12 0

/-- `sin (2π·r/2048)` for `r <= 512`, a quarter of the period, as an interval. -/
def quarterInterval (r : Nat) : Nat × Nat := if r ≤ 256 then sinInterval r else cosInterval (512 - r)

/-- The binary32 value nearest to `± a · 2^-sinePrecision`. -/
def roundSine (neg : Bool) (a : Nat) : F32 := roundF32 neg (a * 2 ^ 149) (2 ^ sinePrecision)

/-- `SINE[i]` (R136): `sin (2π·i/2048)` rounded once to binary32, by the symmetries of the sine; the zeros are +0.0. The value
is the rounding of the interval's lower end, and both ends of every interval round to one value
(`quarterInterval_decided`). (For an index past 2048, which no rule computes, the period goes on: log entry 11.) -/
def sineEntry (i : Nat) : F32 :=
  let j := i % Config.sineTableSize
  if j % 1024 = 0 then zeroF32
  else
    let r := j % 1024
    roundSine (decide (1024 ≤ j)) (quarterInterval (if r ≤ 512 then r else 1024 - r)).1

end Sys2Proof.Machine
end

