-- ==== Sys2Proof/Machine/Oscillator.lean ====
section
/-! DEFINITION. The oscillator: waveform synthesis and the OSC commands (42_oscillator.md). -/

namespace Sys2Proof.Machine

/-! ### Waveform synthesis (R141 to R146) -/

/-- `Wrap(q)` (R146). -/
def wrapPhase (q : F64) : F64 :=
  let r := subF64 q (floorF64 q)
  if leF64 oneF64 r then zeroF64 else r

/-- `SineAt(p)` (R141): the table with linear interpolation. -/
def sineAt (p : F64) : F64 :=
  let pos := mulF64 p Config.sineTableSizeF64
  let i := (floorInt pos).toNat
  let fr := subF64 pos (ofIntF64 i)
  let a := f64OfF32 (sineEntry i)
  let b := f64OfF32 (sineEntry (i + 1))
  addF64 a (mulF64 fr (subF64 b a))

/-- Triangle (R142): `2.0 * abs(2.0 * p - 1.0) - 1.0`. -/
def triangleAt (p : F64) : F64 := subF64 (mulF64 twoF64 (absF64 (subF64 (mulF64 twoF64 p) oneF64))) oneF64

/-- The first branch of R145: `((u + u) - u * u) - 1.0`. -/
def blepAfter (u : F64) : F64 := subF64 (subF64 (addF64 u u) (mulF64 u u)) oneF64

/-- The second branch of R145: `((u * u + u) + u) + 1.0`. -/
def blepBefore (u : F64) : F64 := addF64 (addF64 (addF64 (mulF64 u u) u) u) oneF64

/-- `Blep(t, dt)` (R145). -/
def blep (t dt : F64) : F64 :=
  if !ltF64 zeroF64 dt then zeroF64
  else if ltF64 t dt then blepAfter (divF64 t dt)
  else if ltF64 (subF64 oneF64 dt) t then blepBefore (divF64 (subF64 t oneF64) dt)
  else zeroF64

/-- `SquareAt(p, dt)` (R143). -/
def squareAt (p dt : F64) : F64 :=
  let naive := if ltF64 p halfF64 then oneF64 else negOneF64
  subF64 (addF64 naive (blep p dt)) (blep (wrapPhase (addF64 p halfF64)) dt)

/-- `SawAt(p, dt)` (R144). -/
def sawAt (p dt : F64) : F64 := subF64 (subF64 (mulF64 twoF64 p) oneF64) (blep p dt)

/-- The sample of a waveform at a phase, before the rounding to binary32 (R140). -/
def waveAt : Wave → F64 → F64 → F64
  | .sine, p, _ => sineAt p
  | .triangle, p, _ => triangleAt p
  | .square, p, dt => squareAt p dt
  | .saw, p, dt => sawAt p dt

/-- The output sample, a non-finite one replaced by +0.0 (R140, R147). -/
def oscSample (o : Osc) : F32 :=
  let y := f32OfF64 (waveAt o.wave o.phase o.inc)
  if finite32 y then y else zeroF32

/-! ### The commands -/

/-- The phase increment `f64(freq) / rate` (R137, R138). -/
def phaseIncrement (freq : F32) (rate : F64) : F64 := divF64 (f64OfF32 freq) rate

/-- OSC.PREPARE (R137). -/
def execOscPrepare (s : State) : Host.Outcome State Fault Refusal :=
  let r := sanitiseRate (arg0 s)
  .next (s.withOsc { s.osc with rate := r, phase := zeroF64, inc := phaseIncrement s.osc.freq r })

/-- OSC.SETFREQ (R138): a non-finite operand counts as +0.0. -/
def execOscSetFreq (s : State) : Host.Outcome State Fault Refusal :=
  let h := if finite32 s.arg1 then s.arg1 else zeroF32
  .next (s.withOsc { s.osc with freq := h, inc := phaseIncrement h s.osc.rate })

/-- OSC.SETWAVE (R139). -/
def execOscSetWave (w : Wave) (s : State) : Host.Outcome State Fault Refusal := .next (s.withOsc { s.osc with wave := w })

/-- OSC.NEXT (R140): the sample at the phase before the advance (R150). -/
def execOscNext (s : State) : Host.Outcome State Fault Refusal :=
  .next ((s.withRes0 (oscSample s.osc)).withOsc { s.osc with phase := wrapPhase (addF64 s.osc.phase s.osc.inc) })

end Sys2Proof.Machine
end

