-- ==== Sys2Proof/Machine/Smoother.lean ====
section
/-! DEFINITION. The pitch smoother and the SMO commands (43_smoother.md). -/

namespace Sys2Proof.Machine

/-- `ComputeAlpha()` (R156): the per-sample coefficient of an amount at a rate. -/
def smoothingAlpha (amount : F32) (rate : F64) : F64 :=
  let tau := mulF64 (f64OfF32 amount) Config.tauScale
  if ltF64 tau Config.tauEps then oneF64 else subF64 oneF64 (expF64 (divF64 negOneF64 (mulF64 rate tau)))

/-- `Out(s)` (R164): `f32(exp2(s))`, saturated to the largest finite binary32. -/
def smootherOut (l : F64) : F32 :=
  let y := f32OfF64 (exp2F64 l)
  if y = infF32 false then 0x7F7FFFFF#32 else y

/-- `Valid(f, c)` (R161): false with a NaN or an infinity in either place. That a confidence of +infinity fails the gate is the
model's choice between the spec's texts: R161's formula alone admits it, D39 and R185's table do not (log entry 22). -/
def smootherValid (f c thr : F64) : Bool := ltF64 zeroF64 f && finite64 f && finite64 c && leF64 thr c

/-- The state for a valid estimate of base-2 logarithm `l`: taken directly the first time (R162), else smoothed with the
adaptive snap (R163). -/
def smootherUpdate (m : Smo) (l : F64) : Smo :=
  if m.has then
    let a := if ltF64 Config.snapOctaves (absF64 (subF64 l m.s)) then oneF64 else m.alpha
    { m with s := addF64 m.s (mulF64 a (subF64 l m.s)) }
  else { m with s := l, has := true }

/-- SMO.PREPARE (R157). -/
def execSmoPrepare (s : State) : Host.Outcome State Fault Refusal :=
  let r := sanitiseRate (arg0 s)
  .next (s.withSmo { s.smo with rate := r, alpha := smoothingAlpha s.smo.amount r, has := false, s := zeroF64 })

/-- SMO.SETAMOUNT (R158). -/
def execSmoSetAmount (s : State) : Host.Outcome State Fault Refusal :=
  let a := unitOperand s.arg1
  .next (s.withSmo { s.smo with amount := a, alpha := smoothingAlpha a s.smo.rate })

/-- SMO.SETSENS (R159): the threshold is one less the sensitivity. -/
def execSmoSetSens (s : State) : Host.Outcome State Fault Refusal :=
  .next (s.withSmo { s.smo with thr := subF64 oneF64 (f64OfF32 (unitOperand s.arg1)) })

/-- SMO.PROCESS (R160): hold on an invalid estimate, else update and answer the new value. -/
def execSmoProcess (s : State) : Host.Outcome State Fault Refusal :=
  let f := f64OfF32 s.arg1
  if smootherValid f (f64OfF32 s.arg2) s.smo.thr then
    let m := smootherUpdate s.smo (log2F64 f)
    .next ((s.withSmo m).withRes0 (smootherOut m.s))
  else .next (s.withRes0 (if s.smo.has then smootherOut s.smo.s else zeroF32))

end Sys2Proof.Machine
end

