-- ==== Sys2Proof/Machine/Dispatch.lean ====
section
/-! DEFINITION. The meaning of every command, one arm per constructor of `Instr` (30_encoding.md R77). -/

namespace Sys2Proof.Machine

def exec (i : Instr) (s : State) : Host.Outcome State Fault Refusal :=
  match i with
  | .detPrepare => Sys2Proof.Machine.execDetPrepare s
  | .detFeed => Sys2Proof.Machine.execDetFeed s
  | .detGetResult => Sys2Proof.Machine.execDetGetResult s
  | .oscPrepare => Sys2Proof.Machine.execOscPrepare s
  | .oscSetFreq => Sys2Proof.Machine.execOscSetFreq s
  | .oscSetWave w => Sys2Proof.Machine.execOscSetWave w s
  | .oscNext => Sys2Proof.Machine.execOscNext s
  | .smoPrepare => Sys2Proof.Machine.execSmoPrepare s
  | .smoSetAmount => Sys2Proof.Machine.execSmoSetAmount s
  | .smoSetSens => Sys2Proof.Machine.execSmoSetSens s
  | .smoProcess => Sys2Proof.Machine.execSmoProcess s
  | .decReset => Sys2Proof.Machine.execDecReset s
  | .decProcess => Sys2Proof.Machine.execDecProcess s
  | .decGetOutput => Sys2Proof.Machine.execDecGetOutput s

end Sys2Proof.Machine
end

