-- ==== Sys2Proof/Machine/HostPort.lean ====
section
/-! DEFINITION. The host's register window: the checks of an access, reads, writes and the run of a command (10_state.md R20
to R33; 20_memory.md R44 to R57; 60_exceptions.md R182 to R186), the reset event (70_reset_and_hazards.md R195, R199), and
what one event of the schedule does. -/

namespace Sys2Proof.Machine

/-! ### The checks of an access (R186) -/

/-- Why an access is malformed, in the order of R186's checks. -/
inductive Malformed where
  /-- not four bytes (R54) -/
  | size
  /-- not at a multiple of 4 (R53) -/
  | alignment
  /-- at an offset from 0x34 up (R55) -/
  | reservedOffset
  /-- a write to a read-only register (R56) -/
  | readOnly
  deriving DecidableEq, Repr

/-- The register at an offset cannot be written: RES0, RES1, PITCH_HZ, CONFIDENCE, QLEVEL, ID (R20). -/
def readOnlyRegister (off : Nat) : Bool :=
  match off with
  | 0x14 => true
  | 0x18 => true
  | 0x24 => true
  | 0x28 => true
  | 0x2C => true
  | 0x30 => true
  | _ => false

/-- The first failing check of R186, for an access of a size at an offset. -/
def firstFailure (isWrite : Bool) (off size : Nat) : Option Malformed :=
  if size ≠ 4 then some .size
  else if off % 4 ≠ 0 then some .alignment
  else if 0x34 ≤ off then some .reservedOffset
  else if isWrite && readOnlyRegister off then some .readOnly
  else none

/-- The first failing check of an access, none for a legal one. -/
def accessFailure : Access → Option Malformed
  | .read off size => firstFailure false off.toNat size
  | .write off bytes => firstFailure true off.toNat bytes.length

/-! ### Registers -/

/-- What a legal read at an offset returns (R20, R52). -/
def readRegister (s : State) (off : Nat) : Word :=
  match off with
  | 0x00 => s.cmd
  | 0x04 => s.arg0Lo
  | 0x08 => s.arg0Hi
  | 0x0C => s.arg1
  | 0x10 => s.arg2
  | 0x14 => s.res0
  | 0x18 => s.res1
  | 0x1C => statusWord s
  | 0x20 => ctrlWord s.ctrl
  | 0x24 => s.det.pubFreq
  | 0x28 => s.det.pubConf
  | 0x2C => BitVec.ofNat 32 s.queue.n
  | 0x30 => Config.blockId
  | _ => 0#32

/-- The run of a command word, stored in CMD first (R22): a command of R77 has its meaning, and any other word raises ERR_CMD
and has no other effect (R78, R182). -/
def runCommand (c : Word) (s : State) : Host.Outcome State Fault Refusal :=
  match decode c with
  | .ok i => exec i (s.withCmd c)
  | .error _ => .next (raise .errCmd (s.withCmd c))

/-- A legal write of `v` at an offset (R22 to R25, R30, R31, R50). -/
def writeRegister (s : State) (off : Nat) (v : Word) : Host.Outcome State Fault Refusal :=
  match off with
  | 0x00 => runCommand v s
  | 0x04 => .next (s.withArg0Lo v)
  | 0x08 => .next (s.withArg0Hi v)
  | 0x0C => .next (s.withArg1 v)
  | 0x10 => .next (s.withArg2 v)
  | 0x1C => .next (s.withSticky (s.sticky.clear v))
  | 0x20 => .next (s.withCtrl (ctrlOfWord v))
  | _ => .next (raise .errAccess s)

/-- The word of a write's bytes (R46). -/
def wordOfList : List Byte → Word
  | [b0, b1, b2, b3] => wordOfBytes b0 b1 b2 b3
  | _ => 0#32

/-- One host access, one indivisible step (R57): a malformed one raises ERR_ACCESS and changes nothing else, a malformed read
returning 0 (R53 to R56, R183); a legal read changes nothing (R50). -/
def hostAccess (a : Access) (s : State) : Host.Outcome State Fault Refusal :=
  match accessFailure a, a with
  | some _, .read _ _ => .next ((raise .errAccess s).withRdata 0#32)
  | some _, .write _ _ => .next (raise .errAccess s)
  | none, .read off _ => .next (s.withRdata (readRegister s off.toNat))
  | none, .write off bytes => writeRegister s off.toNat (wordOfList bytes)

/-! ### Events -/

/-- The reset event (R195, R199): everything of the block at its reset value; the model's own three fields stay. -/
def resetBlock (s : State) : State :=
  ((State.reset.withRdata s.rdata).withDraws s.draws).withInbox s.inbox

/-- One event of the schedule (R59, R195). An engine turn without an enabled step changes nothing. -/
def performEvent (e : Event) (s : State) : Host.Outcome State Fault Refusal :=
  match e with
  | .host a => hostAccess a s
  | .engine => .next (engineStep s)
  | .reset => .next (resetBlock s)

/-- The next step: the first event of the schedule, or, with none left, the engine's turn (log entries 1 and 12). -/
def nextStep (s : State) : Host.Outcome State Fault Refusal :=
  match s.inbox with
  | [] => .next (engineStep s)
  | e :: rest => performEvent e (s.withInbox rest)

/-- The host's write of a command word's four bytes at CMD's offset (R22). -/
def commandWrite (bytes : List Byte) : Event := .host (.write 0x00#8 bytes)

end Sys2Proof.Machine
end

