-- ==== Sys2Proof/Machine/Step.lean ====
section
/-! DEFINITION. The step of the block, and how a command word is placed so that the next step runs it. -/

namespace Sys2Proof.Machine

/-- One step: a whole host access, a whole engine step or a reset (20_memory.md R59). -/
def step (s : State) : Host.Outcome State Fault Refusal := nextStep s

/-- The state whose very next event is the host's write to CMD of the word whose bits are `w`, the bits above `nbits` zero
(10_state.md R22; log entry 1). Nothing else changes. -/
def State.withFetchWord (s : State) (nbits w : Nat) : State :=
  s.withInbox (commandWrite (tableWordBytes nbits w) :: s.inbox)

end Sys2Proof.Machine
end

