-- ==== Sys2Proof/Safety.lean ====
section
/-! DEFINITION. What every reachable state of the block keeps: the shape of its memories and counters, and the ranges the spec
gives its numbers (10_state.md R29, R32, R35, R38 to R41; 20_memory.md R58). A run is safe when every state on it does. -/

namespace Sys2Proof.Machine

/-- A list of samples in a memory that only uses the indices below `n`. -/
def Memory.below (n : Nat) (m : Memory) : Prop := ∀ i, n ≤ i → Memory.read m i = 0#32

/-- Every element of a memory is a finite binary32 (R126). -/
def Memory.finite (m : Memory) : Prop := ∀ i, finite32 (Memory.read m i) = true

/-- The queue's cursors and occupancy are in range and agree, and its memory is canonical (R38, R62). -/
structure QueueInv (q : Queue) : Prop where
  canonical : Memory.wf q.mem = true
  below : Memory.below Config.queueDepth q.mem
  rd_lt : q.rd < Config.queueDepth
  wr_eq : q.wr = (q.rd + q.n) % Config.queueDepth
  n_le : q.n ≤ Config.queueDepth

/-- The detector's sizes and counters are in the ranges of R35 and R93, the window's memory is canonical and uses only its
entries in use, and the hop counter agrees with the write position until the first fill and stays below the hop after it. -/
structure DetInv (d : Det) : Prop where
  half_pos : 1 ≤ d.halfWindow
  half_le : d.halfWindow ≤ Config.maxHalfWindow
  size_eq : d.windowSize = 2 * d.halfWindow
  hop_pos : 1 ≤ d.hopSize
  hop_le : d.hopSize ≤ 576
  hop_le_size : d.hopSize ≤ d.windowSize
  pos_lt : d.writePos < d.windowSize
  count_unfilled : d.filled = false → d.hopCount = d.writePos
  count_filled : d.filled = true → d.hopCount < d.hopSize
  canonical : Memory.wf d.win = true
  below : Memory.below d.windowSize d.win

/-- The shape of the state: detector, queue, and no deferred work without the engine (R32, R102). -/
structure ShapeInv (s : State) : Prop where
  det : DetInv s.det
  queue : QueueInv s.queue
  sync_empty : s.acfg.asyncEn = false → s.queue.n = 0
  sync_ready : s.acfg.asyncEn = false → s.det.estate = .ready

/-- A confidence: a binary32 in [0, 1] (R87). -/
def ConfidenceRange (c : F32) : Prop := isNaN32 c = false ∧ 0 ≤ valF32 c ∧ valF32 c ≤ 2 ^ 149

/-- A frequency: +0.0 or a binary32 in [20, 5000] (R29). -/
def FrequencyRange (f : F32) : Prop := f = 0#32 ∨ (isNaN32 f = false ∧ 20 * 2 ^ 149 ≤ valF32 f ∧ valF32 f ≤ 5000 * 2 ^ 149)

/-- The published result, and the confidence waiting to be published, are in range (R29). -/
structure PublishedInv (s : State) : Prop where
  freq : FrequencyRange s.det.pubFreq
  conf : ConfidenceRange s.det.pubConf
  pend : ConfidenceRange s.det.pendConf

/-- A sanitised sample rate: in [1.0, 192000.0] (R92). -/
def RateRange (r : F64) : Prop := isNaN64 r = false ∧ 2 ^ 1074 ≤ valF64 r ∧ valF64 r ≤ 192000 * 2 ^ 1074

/-- A phase: a binary64 in [0, 1), its zero positive (R39, R146). -/
def PhaseRange (p : F64) : Prop := isNaN64 p = false ∧ signF64 p = false ∧ valF64 p < 2 ^ 1074

/-- The oscillator: rate sanitised, frequency and increment finite, phase in [0, 1) (R39, R147). -/
structure OscInv (o : Osc) : Prop where
  rate : RateRange o.rate
  freq : finite32 o.freq = true
  inc : finite64 o.inc = true
  phase : PhaseRange o.phase

/-- The smoother: rate sanitised, amount and threshold in [0, 1], coefficient in (0, 1] (R40, R156), and the smoothed
logarithm between -150 and 129, a little more than the base-2 logarithms of the positive binary32 values (R164). -/
structure SmoInv (m : Smo) : Prop where
  rate : RateRange m.rate
  amount : isNaN32 m.amount = false ∧ 0 ≤ valF32 m.amount ∧ valF32 m.amount ≤ 2 ^ 149
  thr : isNaN64 m.thr = false ∧ 0 ≤ valF64 m.thr ∧ valF64 m.thr ≤ 2 ^ 1074
  alpha : isNaN64 m.alpha = false ∧ 0 < valF64 m.alpha ∧ valF64 m.alpha ≤ 2 ^ 1074
  smoothed : isNaN64 m.s = false ∧ -150 * 2 ^ 1074 ≤ valF64 m.s ∧ valF64 m.s ≤ 129 * 2 ^ 1074

/-- Every stored sample is finite: the delay lines and outputs of both decimators, the window and the queue (R126, R176). -/
structure FiniteInv (s : State) : Prop where
  dec : (∀ x ∈ s.dec.dl.toList, finite32 x = true) ∧ finite32 s.dec.out = true
  detDec : (∀ x ∈ s.det.dec.dl.toList, finite32 x = true) ∧ finite32 s.det.dec.out = true
  win : Memory.finite s.det.win
  queue : Memory.finite s.queue.mem
  /-- the two memories are canonical, so that a write changes one element -/
  winCanonical : Memory.wf s.det.win = true
  queueCanonical : Memory.wf s.queue.mem = true

/-- One step keeps a predicate on states. -/
def StepKeeps (P : State → Prop) : Prop := ∀ s t, P s → step s = .next t → P t

end Sys2Proof.Machine
end

