-- ==== Sys2Proof/WellFormed.lean ====
section
/-! DEFINITION. Which commands and which host accesses are well formed (30_encoding.md R74; 20_memory.md R49 to R56). -/

namespace Sys2Proof

/-- A command is well formed when its waveform has a 2-bit code. All four codes of R74 are legal and no other command has an
operand in its word, so every term of `Instr` is well formed: the type leaves nothing to refuse. -/
def Instr.wf : Instr → Bool
  | .oscSetWave w => decide (w.code < 4)
  | .detPrepare => true
  | .detFeed => true
  | .detGetResult => true
  | .oscPrepare => true
  | .oscSetFreq => true
  | .oscNext => true
  | .smoPrepare => true
  | .smoSetAmount => true
  | .smoSetSens => true
  | .smoProcess => true
  | .decReset => true
  | .decProcess => true
  | .decGetOutput => true

/-- The offsets of the read-only registers RES0, RES1, PITCH_HZ, CONFIDENCE, QLEVEL and ID (R20, R56). -/
def readOnlyOffsets : List Offset := [0x14#8, 0x18#8, 0x24#8, 0x28#8, 0x2C#8, 0x30#8]

/-- The legal accesses (R49): four bytes at a multiple of 4 (R53, R54), at a defined offset (R55: 0x34 to 0xFC are reserved),
and, for a write, not at a read-only register (R56). -/
def Access.wf : Access → Bool
  | .read off size => decide (size = 4) && decide (off.toNat % 4 = 0) && decide (off.toNat < 0x34)
  | .write off bytes =>
    decide (bytes.length = 4) && decide (off.toNat % 4 = 0) && decide (off.toNat < 0x34) && !readOnlyOffsets.contains off

end Sys2Proof
end

