-- ==== Sys2Proof/Certificates/Slice0/Obligations.lean ====
section
/-! DEFINITION. The statements for the provers: first the notions they are written with, then one definition per statement,
in the order of OBLIGATIONS.json. Each docstring names the rules of spec/ it formalises or rests on. -/

namespace Sys2Proof.Machine

/-! ### Notions used by the statements -/

/-- The step of the state in which the event `e` comes next. -/
def stepOn (e : Event) (s : State) : Host.Outcome State Fault Refusal := step (s.withInbox (e :: s.inbox))

/-- `n` turns of the engine. -/
def runEngine : Nat → State → State
  | 0, s => s
  | n + 1, s => runEngine n (engineStep s)

/-- The engine left to run: a waiting sample takes at most two of its steps, and one publish may be pending. -/
def settle (s : State) : State := runEngine (2 * s.queue.n + 1) s

/-- The same state configured for synchronous analysis. -/
def synchronous (s : State) : State := s.withAcfg { s.acfg with asyncEn := false }

/-- A list of samples inserted one after the other: the detector, and which inserts trigger. -/
def insertAll : Det → List F32 → Det × List Bool
  | d, [] => (d, [])
  | d, x :: xs => ((insertAll (windowInsert d x).1 xs).1, (windowInsert d x).2 :: (insertAll (windowInsert d x).1 xs).2)

/-- A list of samples through a decimator: its state, and which calls are ready. -/
def decimAll : Decim → List F32 → Decim × List Bool
  | d, [] => (d, [])
  | d, x :: xs => ((decimAll (decimStep d x).1 xs).1, (decimStep d x).2 :: (decimAll (decimStep d x).1 xs).2)

/-- R98's pseudocode, transcribed: the detector after an insert, and whether it triggers a pass. Everything the pseudocode does
not write stays: rate, sizes, the published pair, the engine's state, the pending confidence and the private decimator. -/
def insertOf (d : Det) (v : F32) : Det × Bool :=
  let wp := (d.writePos + 1) % d.windowSize
  let filled := if wp = 0 then true else d.filled
  let trigger := filled && decide (d.hopCount + 1 ≥ d.hopSize)
  ({ d with
      win := Memory.write d.win d.writePos v, writePos := wp, filled := filled
      hopCount := if trigger then 0 else d.hopCount + 1 }, trigger)

/-- R77's command map, transcribed: match, mask, and the command as a function of the word. -/
def opcodeMap : List (Word × Word × (Word → Instr)) :=
  [(0x10000000#32, 0xFFFFFFFF#32, fun _ => .detPrepare),
   (0x11000000#32, 0xFFFFFFFF#32, fun _ => .detFeed),
   (0x12000000#32, 0xFFFFFFFF#32, fun _ => .detGetResult),
   (0x20000000#32, 0xFFFFFFFF#32, fun _ => .oscPrepare),
   (0x21000000#32, 0xFFFFFFFF#32, fun _ => .oscSetFreq),
   (0x22000000#32, 0xFFFFFFFC#32, fun c =>
     .oscSetWave (if c = 0x22000000#32 then .sine else if c = 0x22000001#32 then .triangle
       else if c = 0x22000002#32 then .square else .saw)),
   (0x23000000#32, 0xFFFFFFFF#32, fun _ => .oscNext),
   (0x30000000#32, 0xFFFFFFFF#32, fun _ => .smoPrepare),
   (0x31000000#32, 0xFFFFFFFF#32, fun _ => .smoSetAmount),
   (0x32000000#32, 0xFFFFFFFF#32, fun _ => .smoSetSens),
   (0x33000000#32, 0xFFFFFFFF#32, fun _ => .smoProcess),
   (0x40000000#32, 0xFFFFFFFF#32, fun _ => .decReset),
   (0x41000000#32, 0xFFFFFFFF#32, fun _ => .decProcess),
   (0x42000000#32, 0xFFFFFFFF#32, fun _ => .decGetOutput)]

/-- `r` is the real number `v` rounded once to binary64, to nearest, ties to the even pattern, overflow to infinity (R11). -/
def Rounds64 (v : ℝ) (r : F64) : Prop :=
  if |v| < (2 ^ 54 - 1) * 2 ^ 970 then
    finite64 r = true ∧ ∀ c, finite64 c = true →
      |(valF64 r : ℝ) - v * 2 ^ 1074| ≤ |(valF64 c : ℝ) - v * 2 ^ 1074| ∧
        (|(valF64 r : ℝ) - v * 2 ^ 1074| = |(valF64 c : ℝ) - v * 2 ^ 1074| → valF64 c ≠ valF64 r → patF64 r % 2 = 0)
  else isInf64 r = true ∧ (signF64 r = true ↔ v < 0)

/-- The same for binary32. -/
def Rounds32 (v : ℝ) (r : F32) : Prop :=
  if |v| < (2 ^ 25 - 1) * 2 ^ 103 then
    finite32 r = true ∧ ∀ c, finite32 c = true →
      |(valF32 r : ℝ) - v * 2 ^ 149| ≤ |(valF32 c : ℝ) - v * 2 ^ 149| ∧
        (|(valF32 r : ℝ) - v * 2 ^ 149| = |(valF32 c : ℝ) - v * 2 ^ 149| → valF32 c ≠ valF32 r → patF32 r % 2 = 0)
  else isInf32 r = true ∧ (signF32 r = true ↔ v < 0)

/-- The real number a finite binary64 stands for. -/
def IsReal64 (a : F64) (v : ℝ) : Prop := finite64 a = true ∧ (valF64 a : ℝ) = v * 2 ^ 1074

/-- The real number a finite binary32 stands for. -/
def IsReal32 (a : F32) (v : ℝ) : Prop := finite32 a = true ∧ (valF32 a : ℝ) = v * 2 ^ 149

/-- A number of the difference function or of the running sum: finite, not negative, and below 2^300. -/
def EnergyRange (d : F64) : Prop := finite64 d = true ∧ 0 ≤ valF64 d ∧ valF64 d < 2 ^ 1374

end Sys2Proof.Machine

section Statements

open Sys2Proof Sys2Proof.Machine

/-! ### Encoding -/

/-- R70, R73, R74, R81: the decoder accepts exactly the words the encoder writes, each as the command it was written for. -/
def Obligations.DecodeAndEncodeAgree : Prop :=
  ∀ (c : Word) (i : Instr), decode c = .ok i ↔ i.wf = true ∧ c = encode i

/-- R77, R81: a word decodes to a command exactly where a row of the command map matches it under the row's mask, and no word
matches two rows. -/
def Obligations.DecoderFollowsTheCommandMap : Prop :=
  (∀ (c : Word) (i : Instr), decode c = .ok i ↔ ∃ r ∈ opcodeMap, c &&& r.2.1 = r.1 ∧ i = r.2.2 c) ∧
    opcodeMap.Pairwise fun r r' => ∀ c : Word, ¬ (c &&& r.2.1 = r.1 ∧ c &&& r'.2.1 = r'.1)

/-- R46, R80: the four bytes of an encoded command decode to it, also as a word of the opcode table, and no other number of bytes
is a command; with a few words written out from R77. -/
def Obligations.CommandBytesDecodeBack : Prop :=
  (∀ i : Instr, decodeBytes (encodeBytes i) = .ok i ∧ decodeTableWord 32 (encode i).toNat = some i) ∧
    (∀ bytes : List Byte, bytes.length ≠ 4 → decodeBytes bytes = .error .wrongLength) ∧
    decodeBytes [0x00#8, 0x00#8, 0x00#8, 0x11#8] = .ok .detFeed ∧
    decodeBytes [0x02#8, 0x00#8, 0x00#8, 0x22#8] = .ok (.oscSetWave .square) ∧
    decodeBytes [0x00#8, 0x00#8, 0x00#8, 0x33#8] = .ok .smoProcess ∧
    decodeBytes [0x00#8, 0x00#8, 0x00#8, 0x42#8] = .ok .decGetOutput

/-! ### The step and the register window -/

/-- R22, R57, R69: the step whose next event is the host's write of a command word to CMD stores the word and runs the decoded
command, and nothing else; `withFetchWord` places exactly that event. -/
def Obligations.StepRunsTheDecodedCommand : Prop :=
  ∀ (s : State) (c : Word) (i : Instr), decode c = .ok i →
    stepOn (commandWrite (bytesOfWord c)) s = exec i (s.withCmd c) ∧ step (s.withFetchWord 32 c.toNat) = exec i (s.withCmd c)

/-- R182: a word that is no command is stored in CMD and sets ERR_CMD; nothing else changes; with the rule's example words. -/
def Obligations.IllegalWordOnlyRaisesErrCmd : Prop :=
  (∀ (s : State) (c : Word) (e : DecodeError), decode c = .error e →
    stepOn (commandWrite (bytesOfWord c)) s = .next { s with cmd := c, sticky := { s.sticky with errCmd := true } }) ∧
    ∀ c ∈ [0x50000000#32, 0x13000000#32, 0x10000001#32], ∃ e, decode c = .error e

/-- R53 to R56, R183: an access at a misaligned or reserved offset, of another size than four bytes, or a write to a read-only
register sets ERR_ACCESS; the read answers zero; nothing else changes. -/
def Obligations.MalformedAccessOnlyRaisesErrAccess : Prop :=
  ∀ s : State,
    (∀ (off : Offset) (size : Nat), size ≠ 4 ∨ off.toNat % 4 ≠ 0 ∨ 0x34 ≤ off.toNat →
      stepOn (.host (.read off size)) s =
        .next { s with sticky := { s.sticky with errAccess := true }, rdata := 0x00000000#32 }) ∧
    (∀ (off : Offset) (bytes : List Byte),
      bytes.length ≠ 4 ∨ off.toNat % 4 ≠ 0 ∨ 0x34 ≤ off.toNat ∨
        off ∈ [0x14#8, 0x18#8, 0x24#8, 0x28#8, 0x2C#8, 0x30#8] →
      stepOn (.host (.write off bytes)) s = .next { s with sticky := { s.sticky with errAccess := true } })

/-- R20, R50, R52: a legal read answers the register's value and changes no state of the block. -/
def Obligations.LegalReadAnswersTheRegister : Prop :=
  ∀ s : State,
    stepOn (.host (.read 0x00#8 4)) s = .next { s with rdata := s.cmd } ∧
    stepOn (.host (.read 0x04#8 4)) s = .next { s with rdata := s.arg0Lo } ∧
    stepOn (.host (.read 0x08#8 4)) s = .next { s with rdata := s.arg0Hi } ∧
    stepOn (.host (.read 0x0C#8 4)) s = .next { s with rdata := s.arg1 } ∧
    stepOn (.host (.read 0x10#8 4)) s = .next { s with rdata := s.arg2 } ∧
    stepOn (.host (.read 0x14#8 4)) s = .next { s with rdata := s.res0 } ∧
    stepOn (.host (.read 0x18#8 4)) s = .next { s with rdata := s.res1 } ∧
    stepOn (.host (.read 0x1C#8 4)) s = .next { s with rdata := statusWord s } ∧
    stepOn (.host (.read 0x20#8 4)) s = .next { s with rdata := ctrlWord s.ctrl } ∧
    stepOn (.host (.read 0x24#8 4)) s = .next { s with rdata := s.det.pubFreq } ∧
    stepOn (.host (.read 0x28#8 4)) s = .next { s with rdata := s.det.pubConf } ∧
    stepOn (.host (.read 0x2C#8 4)) s = .next { s with rdata := BitVec.ofNat 32 s.queue.n } ∧
    stepOn (.host (.read 0x30#8 4)) s = .next { s with rdata := 0x50444554#32 }

/-- R23 to R25, R30, R31, R50: a legal write of a register other than CMD stores the value, or clears the sticky bits it has ones
for, and does nothing else. CTRL's five bits are FALLBACK_EN, DECIM_EN, ASYNC_EN, DIFF_FFT and RUN from bit 0 up, stored from and
read at the same places, and its other bits read zero. -/
def Obligations.LegalWriteStoresTheValue : Prop :=
  ∀ (s : State) (v : Word),
    stepOn (.host (.write 0x04#8 (bytesOfWord v))) s = .next { s with arg0Lo := v } ∧
    stepOn (.host (.write 0x08#8 (bytesOfWord v))) s = .next { s with arg0Hi := v } ∧
    stepOn (.host (.write 0x0C#8 (bytesOfWord v))) s = .next { s with arg1 := v } ∧
    stepOn (.host (.write 0x10#8 (bytesOfWord v))) s = .next { s with arg2 := v } ∧
    stepOn (.host (.write 0x1C#8 (bytesOfWord v))) s =
      .next { s with
        sticky :=
          { errCmd := s.sticky.errCmd && !v.getLsbD 0
            errAccess := s.sticky.errAccess && !v.getLsbD 1
            qOverflow := s.sticky.qOverflow && !v.getLsbD 2 } } ∧
    stepOn (.host (.write 0x20#8 (bytesOfWord v))) s =
      .next { s with
        ctrl :=
          { fallbackEn := v.getLsbD 0, decimEn := v.getLsbD 1, asyncEn := v.getLsbD 2, diffFft := v.getLsbD 3
            run := v.getLsbD 4 } } ∧
    ∀ c : Ctrl,
      (ctrlWord c).getLsbD 0 = c.fallbackEn ∧ (ctrlWord c).getLsbD 1 = c.decimEn ∧ (ctrlWord c).getLsbD 2 = c.asyncEn ∧
      (ctrlWord c).getLsbD 3 = c.diffFft ∧ (ctrlWord c).getLsbD 4 = c.run ∧ ∀ k, 5 ≤ k → (ctrlWord c).getLsbD k = false

/-- R30, R106: the bits of STATUS, with ENGINE_IDLE as R106 says it; bits 31:5 read zero. -/
def Obligations.StatusBits : Prop :=
  ∀ s : State,
    (statusWord s).getLsbD 0 = s.sticky.errCmd ∧ (statusWord s).getLsbD 1 = s.sticky.errAccess ∧
    (statusWord s).getLsbD 2 = s.sticky.qOverflow ∧ (statusWord s).getLsbD 3 = s.det.filled ∧
    ((statusWord s).getLsbD 4 = true ↔
      s.acfg.asyncEn = false ∨ (s.det.estate = .ready ∧ (s.queue.n = 0 ∨ s.ctrl.run = false))) ∧
    ∀ k, 5 ≤ k → (statusWord s).getLsbD k = false

/-- R180, R186, R189: no step sets two sticky bits, and an engine step sets none: of the bits that were clear, at most one is set
afterwards. -/
def Obligations.AStepRaisesAtMostOneBit : Prop :=
  ∀ (s t : State) (e : Event), stepOn e s = .next t →
    (e = .engine → t.sticky = s.sticky) ∧
    ([(s.sticky.errCmd, t.sticky.errCmd), (s.sticky.errAccess, t.sticky.errAccess),
      (s.sticky.qOverflow, t.sticky.qOverflow)].filter fun b => !b.1 && b.2).length ≤ 1

/-! ### Reset -/

/-- R196: the values right after reset. -/
def Obligations.ResetGivesTheStatedValues : Prop :=
  let s := State.reset
  s.cmd = 0x00000000#32 ∧ s.arg0Lo = 0x00000000#32 ∧ s.arg0Hi = 0x00000000#32 ∧ s.arg1 = 0x00000000#32 ∧
    s.arg2 = 0x00000000#32 ∧ s.res0 = 0x00000000#32 ∧ s.res1 = 0x00000000#32 ∧
    s.sticky = { errCmd := false, errAccess := false, qOverflow := false } ∧
    s.ctrl = { fallbackEn := Config.fallbackDefault, decimEn := true, asyncEn := true, diffFft := true, run := true } ∧
    s.acfg = { fallbackEn := Config.fallbackDefault, decimEn := true, asyncEn := true, diffFft := true } ∧
    s.det = preparedDet true 0x40E5888000000000#64 ∧ s.det.fa = 0x40D5888000000000#64 ∧ s.det.halfWindow = 368 ∧
    s.det.windowSize = 736 ∧ s.det.hopSize = 67 ∧ s.det.writePos = 0 ∧ s.det.hopCount = 0 ∧ s.det.filled = false ∧
    (∀ k, Memory.read s.det.win k = 0x00000000#32) ∧ s.det.estate = .ready ∧ s.det.pendConf = 0x00000000#32 ∧
    s.det.pubFreq = 0x00000000#32 ∧ s.det.pubConf = 0x00000000#32 ∧
    s.queue.n = 0 ∧ s.queue.rd = 0 ∧ s.queue.wr = 0 ∧
    s.osc = { rate := 0x40E5888000000000#64, freq := 0x00000000#32, inc := 0#64, phase := 0#64, wave := .sine } ∧
    s.smo = { rate := 0x40E5888000000000#64, amount := 0x00000000#32, thr := 0#64, alpha := 0x3FF0000000000000#64,
              has := false, s := 0#64 } ∧
    s.dec = { dl := { d0 := 0#32, d1 := 0#32, d2 := 0#32, d3 := 0#32, d4 := 0#32, d5 := 0#32, d6 := 0#32 }
              ph := false, out := 0#32 } ∧
    s.det.dec = s.dec ∧ statusWord s = 0x00000010#32 ∧
    ctrlWord s.ctrl = if Config.fallbackDefault then 0x0000001F#32 else 0x0000001E#32

/-- R195, R199: the reset event sets everything of the block to its reset value, whatever was queued or pending. That the
model's own fields stay (`rdata`, `draws`, the events to come) is the model's choice: log entry 14. -/
def Obligations.ResetEventDiscardsEverything : Prop :=
  ∀ s : State, stepOn .reset s = .next { State.reset with rdata := s.rdata, draws := s.draws, inbox := s.inbox }

/-- The state after reset has every invariant of the model. -/
def Obligations.ResetHasTheInvariants : Prop :=
  ShapeInv State.reset ∧ PublishedInv State.reset ∧ OscInv State.reset.osc ∧ SmoInv State.reset.smo ∧ FiniteInv State.reset

/-! ### The detector's commands -/

/-- R93: DET.PREPARE from any state: the active configuration taken from CTRL, the rate made safe, the sizes derived, and
everything the detector, its decimator and the queue held gone. -/
def Obligations.DetPrepareEffect : Prop :=
  ∀ s : State, ∃ t, exec .detPrepare s = .next t ∧
    t = { s with
      acfg := { fallbackEn := s.ctrl.fallbackEn, decimEn := s.ctrl.decimEn, asyncEn := s.ctrl.asyncEn, diffFft := s.ctrl.diffFft }
      det := t.det
      queue := { s.queue with rd := 0, wr := 0, n := 0 } } ∧
    t.det.rate = sanitiseRate (s.arg0Hi ++ s.arg0Lo) ∧
    t.det.fa = (if s.ctrl.decimEn then divF64 t.det.rate 0x4000000000000000#64 else t.det.rate) ∧
    t.det.halfWindow = (ceilInt (divF64 t.det.fa 0x404E000000000000#64)).toNat ∧
    t.det.windowSize = 2 * t.det.halfWindow ∧
    t.det.hopSize = (ceilInt (mulF64 t.det.fa 0x3F689374BC6A7EFA#64)).toNat ∧
    (∀ k, Memory.read t.det.win k = 0x00000000#32) ∧ t.det.writePos = 0 ∧ t.det.hopCount = 0 ∧ t.det.filled = false ∧
    t.det.dec = Decim.reset ∧ t.det.estate = .ready ∧ t.det.pendConf = 0x00000000#32 ∧
    t.det.pubFreq = 0x00000000#32 ∧ t.det.pubConf = 0x00000000#32

/-- R92: a rate that is NaN or below 1.0 becomes 1.0, one above 192000.0 becomes 192000.0, any other stays. -/
def Obligations.SanitiseRateClamps : Prop :=
  ∀ r : F64,
    (isNaN64 r = true ∨ valF64 r < 2 ^ 1074 → sanitiseRate r = 0x3FF0000000000000#64) ∧
    (isNaN64 r = false → 192000 * 2 ^ 1074 < valF64 r → sanitiseRate r = 0x4107700000000000#64) ∧
    (RateRange r → sanitiseRate r = r)

/-- R93's ranges: the half-window is the analysis rate over 60, rounded up, from 1 to 3200; the window is twice it; the hop is
from 1 to 576 and no longer than the window. -/
def Obligations.PreparedSizesAreInRange : Prop :=
  ∀ (decim : Bool) (r : F64),
    let d := preparedDet decim (sanitiseRate r)
    1 ≤ d.halfWindow ∧ d.halfWindow ≤ 3200 ∧ d.windowSize = 2 * d.halfWindow ∧ 1 ≤ d.hopSize ∧ d.hopSize ≤ 576 ∧
      d.hopSize ≤ d.windowSize ∧
      ((d.halfWindow : Int) - 1) * 2 ^ 1074 < valF64 (divF64 d.fa 0x404E000000000000#64) ∧
      valF64 (divF64 d.fa 0x404E000000000000#64) ≤ d.halfWindow * 2 ^ 1074

/-- R94, R97, R184: DET.FEED in asynchronous mode without decimation: the sanitised sample is pushed, or dropped with Q_OVERFLOW
where the queue is full; nothing else changes. -/
def Obligations.FeedPushesOrDrops : Prop :=
  ∀ s : State, s.acfg.asyncEn = true → s.acfg.decimEn = false →
    (s.queue.n < 524288 →
      exec .detFeed s = .next { s with queue := s.queue.push (if finite32 s.arg1 then s.arg1 else 0x00000000#32) }) ∧
    (524288 ≤ s.queue.n → exec .detFeed s = .next { s with sticky := { s.sticky with qOverflow := true } })

/-- R94, R98 to R100: DET.FEED with decimation: the sample enters the private decimator; only a ready output goes on, to the queue
in asynchronous mode (or dropped), to the window in synchronous mode, where a triggering insert runs one pass and publishes. -/
def Obligations.FeedDecimates : Prop :=
  ∀ s : State, s.acfg.decimEn = true →
    let r := decimStep s.det.dec (if finite32 s.arg1 then s.arg1 else 0x00000000#32)
    let s' := { s with det := { s.det with dec := r.1 } }
    (s.det.dec.ph = false → exec .detFeed s = .next s') ∧
    (s.det.dec.ph = true → s.acfg.asyncEn = true → s.queue.n < 524288 →
      exec .detFeed s = .next { s' with queue := s.queue.push r.1.out }) ∧
    (s.det.dec.ph = true → s.acfg.asyncEn = true → 524288 ≤ s.queue.n →
      exec .detFeed s = .next { s' with sticky := { s.sticky with qOverflow := true } }) ∧
    (s.det.dec.ph = true → s.acfg.asyncEn = false →
      let i := insertOf s'.det r.1.out
      (i.2 = false → exec .detFeed s = .next { s with det := i.1 }) ∧
      (i.2 = true →
        exec .detFeed s =
          .next { s with
            det := { i.1 with
              pubFreq := (analyse s.acfg s.draws i.1).frequency, pubConf := (analyse s.acfg s.draws i.1).confidence }
            draws := s.draws + 1 }))

/-- R94, R98, R99: DET.FEED in synchronous mode without decimation: the sample enters the window by R98's insert, which leaves the
rest of the detector alone; a triggering insert runs one pass over the window as it then stands and publishes both scalars at
once. -/
def Obligations.FeedSynchronous : Prop :=
  ∀ s : State, s.acfg.asyncEn = false → s.acfg.decimEn = false →
    let r := insertOf s.det (if finite32 s.arg1 then s.arg1 else 0x00000000#32)
    (r.2 = false → exec .detFeed s = .next { s with det := r.1 }) ∧
    (r.2 = true →
      exec .detFeed s =
        .next { s with
          det := { r.1 with pubFreq := (analyse s.acfg s.draws r.1).frequency, pubConf := (analyse s.acfg s.draws r.1).confidence }
          draws := s.draws + 1 })

/-- R95: DET.GETRESULT copies the published pair to the result registers; after reset and after a DET.PREPARE both are +0.0. -/
def Obligations.GetResultCopiesThePair : Prop :=
  (∀ s : State, exec .detGetResult s = .next { s with res0 := s.det.pubFreq, res1 := s.det.pubConf }) ∧
    exec .detGetResult State.reset = .next { State.reset with res0 := 0x00000000#32, res1 := 0x00000000#32 } ∧
    ∀ s t : State, exec .detPrepare s = .next t →
      exec .detGetResult t = .next { t with res0 := 0x00000000#32, res1 := 0x00000000#32 }

/-! ### The window, the trigger and the queue -/

/-- R89, R98: after a prepare and any samples, the window read from the write position on is the last `W` values of `W` zeros
followed by the samples, and it is filled exactly when `W` samples have come. -/
def Obligations.WindowHoldsTheMostRecentSamples : Prop :=
  ∀ (decim : Bool) (r : F64) (xs : List F32),
    let d := preparedDet decim (sanitiseRate r)
    linearise (insertAll d xs).1 = (List.replicate d.windowSize 0x00000000#32 ++ xs).drop xs.length ∧
      ((insertAll d xs).1.filled = true ↔ d.windowSize ≤ xs.length)

/-- R98, R109: after a prepare the inserts that trigger a pass are those numbered `W + k·hop`, counting from 1. -/
def Obligations.TriggersAtTheStatedInserts : Prop :=
  ∀ (decim : Bool) (r : F64) (xs : List F32),
    let d := preparedDet decim (sanitiseRate r)
    let triggers := (insertAll d xs).2
    triggers.length = xs.length ∧
      (∀ n, 1 ≤ n → n ≤ xs.length →
        (triggers[n - 1]? = some true ↔ d.windowSize ≤ n ∧ (n - d.windowSize) % d.hopSize = 0)) ∧
      triggers.count true = if xs.length < d.windowSize then 0 else (xs.length - d.windowSize) / d.hopSize + 1

/-- R62: the queue is a FIFO: a push appends, the popped value is the oldest one, and a pop drops it; with the cursors and the
occupancy the two primitives leave. -/
def Obligations.QueueIsFifo : Prop :=
  ∀ q : Queue, QueueInv q →
    (∀ v, q.n < 524288 →
      (q.push v).contents = q.contents ++ [v] ∧ Memory.read (q.push v).mem q.wr = v ∧ (q.push v).rd = q.rd ∧
        (q.push v).wr = (q.wr + 1) % 524288 ∧ (q.push v).n = q.n + 1) ∧
    (0 < q.n →
      q.contents = q.front :: q.pop.contents ∧ q.front = Memory.read q.mem q.rd ∧ q.pop.mem = q.mem ∧
        q.pop.rd = (q.rd + 1) % 524288 ∧ q.pop.wr = q.wr ∧ q.pop.n = q.n - 1)

/-! ### The engine -/

/-- R98, R102 to R104: the two engine steps, each where it is enabled, with all each changes: the confidence publish, and the
drain, which pops the oldest sample and inserts it by R98. -/
def Obligations.EngineSteps : Prop :=
  ∀ s : State, s.acfg.asyncEn = true →
    (s.det.estate = .pubConfPending →
      stepOn .engine s = .next { s with det := { s.det with pubConf := s.det.pendConf, estate := .ready } }) ∧
    (s.det.estate = .ready → s.ctrl.run = true → 0 < s.queue.n →
      let r := insertOf s.det s.queue.front
      (r.2 = false → stepOn .engine s = .next { s with queue := s.queue.pop, det := r.1 }) ∧
      (r.2 = true →
        stepOn .engine s =
          .next { s with
            queue := s.queue.pop
            det := { r.1 with
              pubFreq := (analyse s.acfg s.draws r.1).frequency
              pendConf := (analyse s.acfg s.draws r.1).confidence
              estate := .pubConfPending }
            draws := s.draws + 1 }))

/-- R102, R105, R106: the engine is idle exactly when its turn changes nothing; and with RUN = 0 at most one more of its turns
changes anything, and the queue stays as it is. That a turn with no enabled step changes nothing is the model's choice, log entry
12: R102 only says that no step is enabled then. -/
def Obligations.EngineIdleAndStop : Prop :=
  ∀ s : State,
    (engineIdle s = true ↔ stepOn .engine s = .next s) ∧
    (s.ctrl.run = false →
      engineStep (engineStep s) = engineStep s ∧ (engineStep s).queue = s.queue ∧ engineIdle (engineStep s) = true)

/-- Over R103, R106 and R211: with RUN = 1 and no event to come, `2n + 1` steps of the machine empty a queue of `n` samples: every
waiting sample is inserted in order, one pass is run for every trigger, and the engine is idle. That a machine step with an empty
schedule is the engine's turn, and changes nothing once the engine is idle, is the model's choice (log entry 12; the schedule
itself is log entry 1), where R211 only lets a model assume weak fairness. -/
def Obligations.EngineDrainsTheQueue : Prop :=
  ∀ s : State, QueueInv s.queue → s.inbox = [] →
    s.acfg.asyncEn = true → s.ctrl.run = true →
    ∃ t, Host.Core.run Sys2Proof.core (2 * s.queue.n + 1) s = .next t ∧ t.queue.n = 0 ∧ engineIdle t = true ∧
      t.det.win = (insertAll s.det s.queue.contents).1.win ∧
      t.det.writePos = (insertAll s.det s.queue.contents).1.writePos ∧
      t.det.hopCount = (insertAll s.det s.queue.contents).1.hopCount ∧
      t.det.filled = (insertAll s.det s.queue.contents).1.filled ∧
      t.draws = s.draws + (insertAll s.det s.queue.contents).2.count true

/-- R90, R204: an engine turn does not change what the engine settles to; and a DET.FEED for which the queue has room, followed by
the engine's turns, gives the detector, result and passes included, that the synchronous mode gives in its one step. Only
`pendConf`, which no register shows, may differ. On the FFT path the two results are equal because both modes take the same draw
at the same count of passes, the model's choice of log entry 3, where R115 promises no equal draws; and the turns that `settle`
counts past the last enabled step are the idle ones of log entry 12. -/
def Obligations.AsynchronousReachesTheSynchronousResult : Prop :=
  ∀ s t : State, QueueInv s.queue → s.acfg.asyncEn = true → s.ctrl.run = true →
    settle (engineStep s) = settle s ∧
    (s.queue.n < 524288 → exec .detFeed s = .next t →
      ∃ u, exec .detFeed (synchronous (settle s)) = .next u ∧
        { (settle t).det with pendConf := 0#32 } = { u.det with pendConf := 0#32 } ∧ (settle t).draws = u.draws ∧
        (settle t).queue.n = 0)

/-! ### The analysis pass -/

/-- R113, R114, R117, R120 to R125: the steps of a pass. From the difference function of the path DIFF_FFT selects, its CMNDF
and final running sum: no pitch where that sum is not positive, and where no lag is accepted; at an accepted lag, the lag
refined by the parabola through its two neighbours (as it is where the right one is missing or the denominator is zero), no
pitch below lag 1.0 or outside [20.0, 5000.0), else the frequency `fa / τr` and the confidence `1 - cm[τ]` clamped to [0, 1],
each rounded to binary32. (On the FFT path the difference function is drawn as log entry 3 says.) And every result is two
positive zeros, or a frequency in [20, 5000] with a confidence in [0, 1]. -/
def Obligations.AnalysisFollowsItsSteps : Prop :=
  ∀ (a : Acfg) (n : Nat) (d : Det),
    let h := d.halfWindow
    let df := if a.diffFft then (List.range h).map (fftDiff n h ((linearise d).map valF32))
      else (List.range h).map (directDiff h ((linearise d).map f64OfF32))
    let cm := (cmndf df).1
    let silent := leF64 (cmndf df).2 0x0000000000000000#64
    let noPitch : PitchResult := { frequency := 0x00000000#32, confidence := 0x00000000#32 }
    (silent = true → analyse a n d = noPitch) ∧
    (silent = false → selectLag a.fallbackEn cm = none → analyse a n d = noPitch) ∧
    (∀ τ, silent = false → selectLag a.fallbackEn cm = some τ → isNaN64 (cm.getD τ 0#64) = false →
      let s0 := cm.getD (τ - 1) 0#64
      let s1 := cm.getD τ 0#64
      let s2 := cm.getD (τ + 1) 0#64
      let den := subF64 (addF64 s0 s2) (mulF64 0x4000000000000000#64 s1)
      let lag := ofIntF64 τ
      let τr := if τ + 1 < cm.length ∧ eqF64 den 0x0000000000000000#64 = false then
          addF64 lag (divF64 (subF64 s0 s2) (mulF64 0x4000000000000000#64 den)) else lag
      let fr := divF64 d.fa τr
      let cf := subF64 0x3FF0000000000000#64 s1
      let accepted := !ltF64 τr 0x3FF0000000000000#64 && leF64 0x4034000000000000#64 fr && ltF64 fr 0x40B3880000000000#64
      (accepted = false → analyse a n d = noPitch) ∧
      (accepted = true →
        analyse a n d =
          { frequency := f32OfF64 fr
            confidence := f32OfF64 (if ltF64 cf 0x0000000000000000#64 then 0x0000000000000000#64
              else if ltF64 0x3FF0000000000000#64 cf then 0x3FF0000000000000#64 else cf) })) ∧
    (analyse a n d = noPitch ∨
      (isNaN32 (analyse a n d).frequency = false ∧ 20 * 2 ^ 149 ≤ valF32 (analyse a n d).frequency ∧
        valF32 (analyse a n d).frequency ≤ 5000 * 2 ^ 149 ∧ ConfidenceRange (analyse a n d).confidence))

/-- R117, R120: no pitch for a half-window of at most 2, for a window of zeros on either path, and, on the direct path, for a
window whose samples are all one finite value. -/
def Obligations.NoPitchForSilenceAndTinyWindows : Prop :=
  ∀ (a : Acfg) (n : Nat) (d : Det),
    (d.halfWindow ≤ 2 → analyse a n d = noPitch) ∧
    (d.windowSize = 2 * d.halfWindow → (∀ k, Memory.read d.win k = 0x00000000#32) → analyse a n d = noPitch) ∧
    (∀ v, d.windowSize = 2 * d.halfWindow → a.diffFft = false → finite32 v = true →
      (∀ k, k < d.windowSize → Memory.read d.win k = v) → analyse a n d = noPitch)

/-- R113, R126: the direct path's value at a lag is the sum of the squared differences, added from +0.0 in the order of the
samples, every operation rounded once; and over finite samples it is +0.0 at lag 0 and everywhere finite, not negative and below
2^270. -/
def Obligations.DirectDifferenceSumsInOrder : Prop :=
  (∀ (h τ : Nat) (x : List F64), h + τ ≤ x.length →
    directDiff h x τ = (List.range h).foldl (fun acc j =>
      addF64 acc (mulF64 (subF64 (x.getD j 0#64) (x.getD (j + τ) 0#64)) (subF64 (x.getD j 0#64) (x.getD (j + τ) 0#64))))
      0x0000000000000000#64) ∧
    ∀ (h τ : Nat) (xs : List F32), h ≤ 3200 → (∀ x ∈ xs, finite32 x = true) →
      directDiff h (xs.map f64OfF32) 0 = 0x0000000000000000#64 ∧
        finite64 (directDiff h (xs.map f64OfF32) τ) = true ∧ 0 ≤ valF64 (directDiff h (xs.map f64OfF32) τ) ∧
        valF64 (directDiff h (xs.map f64OfF32) τ) < 2 ^ 270 * 2 ^ 1074

/-- R114, R115: whatever the FFT hardware's draws are, each value of the difference function is finite, not negative, and within
2^-36 of the exact one relative to the two power terms. -/
def Obligations.FftDifferenceIsWithinTheBound : Prop :=
  ∀ (n h τ : Nat) (xs : List F32), h ≤ 3200 → (∀ x ∈ xs, finite32 x = true) →
    let c := fftDiff n h (xs.map valF32) τ
    let x := xs.map fun v => (valF32 v : ℝ) / 2 ^ 149
    let diff := (List.zipWith (fun a b => (a - b) ^ 2) (x.take h) (x.drop τ)).sum
    let power := ((x.take h).map fun a => a ^ 2).sum + (((x.drop τ).take h).map fun a => a ^ 2).sum
    finite64 c = true ∧ 0 ≤ valF64 c ∧ |(valF64 c : ℝ) / 2 ^ 1074 - diff| ≤ power / 2 ^ 36

/-- R116: the CMNDF is 1.0 at lag 0, and from lag 1 on the difference times the lag over the running sum of the differences from
lag 1, added in order from +0.0, where that sum is positive, and 1.0 elsewhere; the final sum is the one over all lags. R116,
R126: over differences that are finite and not negative, every value of it and the final sum are finite and not negative. -/
def Obligations.CmndfFollowsItsRecurrence : Prop :=
  ∀ d : List F64,
    let run := fun τ => ((d.drop 1).take τ).foldl addF64 0x0000000000000000#64
    (cmndf d).1.length = d.length ∧ (d ≠ [] → (cmndf d).1.head? = some 0x3FF0000000000000#64) ∧
    (∀ τ, 1 ≤ τ → τ < d.length →
      (cmndf d).1.getD τ 0#64 =
        if ltF64 0x0000000000000000#64 (run τ) then divF64 (mulF64 (d.getD τ 0#64) (ofIntF64 τ)) (run τ)
        else 0x3FF0000000000000#64) ∧
    (cmndf d).2 = run d.length ∧
    (d.length ≤ 3200 → (∀ x ∈ d, EnergyRange x) →
      (∀ c ∈ (cmndf d).1, finite64 c = true ∧ 0 ≤ valF64 c) ∧ finite64 (cmndf d).2 = true ∧ 0 ≤ valF64 (cmndf d).2)

/-- R118, R119, R120: where some lag from 2 on is below the threshold, 0.15 as binary64, the accepted lag is found, whether or
not the fallback is enabled, from the first such lag by walking down while the next value is strictly smaller; it stands inside
the list and is itself below the threshold. Where there is none and the fallback is disabled, no lag is accepted. -/
def Obligations.ThresholdSearchFindsTheDip : Prop :=
  ∀ (fallback : Bool) (cm : List F64),
    let below := fun u => ltF64 (cm.getD u 0#64) 0x3FC3333333333333#64
    ((∃ u, 2 ≤ u ∧ u < cm.length ∧ below u = true) →
      (∀ τ, selectLag fallback cm = some τ ↔
        ∃ t, 2 ≤ t ∧ t ≤ τ ∧ τ < cm.length ∧ below t = true ∧ (∀ u, 2 ≤ u → u < t → below u = false) ∧
          (∀ u, t ≤ u → u < τ → ltF64 (cm.getD (u + 1) 0#64) (cm.getD u 0#64) = true) ∧
          (τ + 1 < cm.length → ltF64 (cm.getD (τ + 1) 0#64) (cm.getD τ 0#64) = false)) ∧
      ∃ τ, selectLag fallback cm = some τ ∧ below τ = true) ∧
    ((∀ u, 2 ≤ u → u < cm.length → below u = false) → selectLag false cm = none)

/-- R119, R120: where no lag from 2 on is below the threshold, 0.15 as binary64, the fallback accepts the least lag of the least
value over [2, H), and there is none when that range is empty. -/
def Obligations.FallbackTakesTheGlobalMinimum : Prop :=
  ∀ cm : List F64, (∀ c ∈ cm, isNaN64 c = false) →
    (∀ u, 2 ≤ u → u < cm.length → ltF64 (cm.getD u 0#64) 0x3FC3333333333333#64 = false) →
    (cm.length ≤ 2 → selectLag true cm = none) ∧
    (2 < cm.length →
      ∃ τ, selectLag true cm = some τ ∧ 2 ≤ τ ∧ τ < cm.length ∧
        (∀ u, 2 ≤ u → u < cm.length → valF64 (cm.getD τ 0#64) ≤ valF64 (cm.getD u 0#64)) ∧
        (∀ u, 2 ≤ u → u < τ → valF64 (cm.getD τ 0#64) < valF64 (cm.getD u 0#64)))

/-! ### Arithmetic -/

/-- R11: binary64 addition, subtraction, multiplication and division of finite operands, the divisor not zero, are the exact result
rounded once. -/
def Obligations.Binary64RoundsOnce : Prop :=
  ∀ (a b : F64) (x y : ℝ), IsReal64 a x → IsReal64 b y →
    Rounds64 (x + y) (addF64 a b) ∧ Rounds64 (x - y) (subF64 a b) ∧ Rounds64 (x * y) (mulF64 a b) ∧
      (y ≠ 0 → Rounds64 (x / y) (divF64 a b))

/-- R11, R174: binary32 addition and multiplication of finite operands, as the decimator uses them, are the exact result rounded
once. -/
def Obligations.Binary32RoundsOnce : Prop :=
  ∀ (a b : F32) (x y : ℝ), IsReal32 a x → IsReal32 b y → Rounds32 (x + y) (addF32 a b) ∧ Rounds32 (x * y) (mulF32 a b)

/-- R11 to R13: a binary32 converts to binary64 exactly, a binary64 to binary32 by one rounding, an integer of at most 2^53 in
magnitude to binary64 exactly; `floor` and `abs` are exact; and comparisons are those of the real numbers. -/
def Obligations.ConversionsRoundOnce : Prop :=
  (∀ (a : F32) (x : ℝ), IsReal32 a x → IsReal64 (f64OfF32 a) x) ∧
    (∀ (a : F64) (x : ℝ), IsReal64 a x →
      Rounds32 x (f32OfF64 a) ∧ IsReal64 (floorF64 a) ⌊x⌋ ∧ IsReal64 (absF64 a) |x|) ∧
    (∀ n : Int, |n| ≤ 2 ^ 53 → IsReal64 (ofIntF64 n) n) ∧
    (∀ (a b : F64) (x y : ℝ), IsReal64 a x → IsReal64 b y →
      (ltF64 a b = true ↔ x < y) ∧ (leF64 a b = true ↔ x ≤ y) ∧ (eqF64 a b = true ↔ x = y))

/-- R12: `exp` of a finite operand is the exact real value rounded once. -/
def Obligations.ExpIsCorrectlyRounded : Prop :=
  ∀ (a : F64) (x : ℝ), IsReal64 a x → Rounds64 (Real.exp x) (expF64 a)

/-- R12: `exp2` of a finite operand is the exact real value rounded once. -/
def Obligations.Exp2IsCorrectlyRounded : Prop :=
  ∀ (a : F64) (x : ℝ), IsReal64 a x → Rounds64 ((2 : ℝ) ^ x) (exp2F64 a)

/-- R12: `log2` of a positive finite operand is the exact real value rounded once. -/
def Obligations.Log2IsCorrectlyRounded : Prop :=
  ∀ (a : F64) (x : ℝ), IsReal64 a x → 0 < x → Rounds64 (Real.logb 2 x) (log2F64 a)

/-- R136: every entry of the sine table is the exact sine rounded once to binary32, and the zeros are +0.0. -/
def Obligations.SineTableIsCorrectlyRounded : Prop :=
  ∀ i : ℕ, i ≤ 2048 →
    Rounds32 (Real.sin (2 * Real.pi * i / 2048)) (sineEntry i) ∧
      (i = 0 ∨ i = 1024 ∨ i = 2048 → sineEntry i = 0x00000000#32) ∧ (i = 512 → sineEntry i = 0x3F800000#32) ∧
      (i = 1536 → sineEntry i = 0xBF800000#32)

/-! ### The oscillator -/

/-- R137 to R139: OSC.PREPARE, OSC.SETFREQ and OSC.SETWAVE, each with all it changes. -/
def Obligations.OscillatorSettings : Prop :=
  ∀ s : State,
    exec .oscPrepare s =
      .next { s with
        osc := { s.osc with
          rate := sanitiseRate (s.arg0Hi ++ s.arg0Lo), phase := 0#64
          inc := divF64 (f64OfF32 s.osc.freq) (sanitiseRate (s.arg0Hi ++ s.arg0Lo)) } } ∧
    (finite32 s.arg1 = true →
      exec .oscSetFreq s = .next { s with osc := { s.osc with freq := s.arg1, inc := divF64 (f64OfF32 s.arg1) s.osc.rate } }) ∧
    (finite32 s.arg1 = false →
      exec .oscSetFreq s =
        .next { s with osc := { s.osc with freq := 0x00000000#32, inc := divF64 (f64OfF32 0x00000000#32) s.osc.rate } }) ∧
    ∀ w, exec (.oscSetWave w) s = .next { s with osc := { s.osc with wave := w } }

/-- R140 to R147, R150: OSC.NEXT answers the sample at the phase before the advance, a non-finite one as +0.0, and advances the
phase: the sine by linear interpolation in the table, the triangle in closed form, the square and the saw with the polyBLEP
corrections. -/
def Obligations.OscillatorNext : Prop :=
  ∀ s : State,
    let p := s.osc.phase
    let dt := s.osc.inc
    let half := 0x3FE0000000000000#64
    let one := 0x3FF0000000000000#64
    let two := 0x4000000000000000#64
    let wrap := fun q =>
      let r := subF64 q (floorF64 q)
      if leF64 one r then 0x0000000000000000#64 else r
    let correction := fun t =>
      if ltF64 0x0000000000000000#64 dt = false then 0x0000000000000000#64
      else if ltF64 t dt then
        let u := divF64 t dt
        subF64 (subF64 (addF64 u u) (mulF64 u u)) one
      else if ltF64 (subF64 one dt) t then
        let u := divF64 (subF64 t one) dt
        addF64 (addF64 (addF64 (mulF64 u u) u) u) one
      else 0x0000000000000000#64
    let position := mulF64 p 0x40A0000000000000#64
    let i := (valF64 position / 2 ^ 1074).toNat
    let a := f64OfF32 (sineEntry i)
    let b := f64OfF32 (sineEntry (i + 1))
    let v := f32OfF64 (match s.osc.wave with
      | .sine => addF64 a (mulF64 (subF64 position (ofIntF64 i)) (subF64 b a))
      | .triangle => subF64 (mulF64 two (absF64 (subF64 (mulF64 two p) one))) one
      | .square =>
        subF64 (addF64 (if ltF64 p half then one else 0xBFF0000000000000#64) (correction p)) (correction (wrap (addF64 p half)))
      | .saw => subF64 (subF64 (mulF64 two p) one) (correction p))
    exec .oscNext s =
      .next { s with
        res0 := if finite32 v then v else 0x00000000#32
        osc := { s.osc with phase := wrap (addF64 p dt) } }

/-- R146: every finite value wraps into [0, 1): a value in it stays, and of any other the whole part is taken off with one
rounding, +0.0 where that rounds to 1.0. -/
def Obligations.WrapMapsIntoTheUnitInterval : Prop :=
  ∀ (q : F64) (x : ℝ), IsReal64 q x →
    PhaseRange (wrapPhase q) ∧ (PhaseRange q → wrapPhase q = q) ∧
      ∃ r, Rounds64 (x - ⌊x⌋) r ∧ wrapPhase q = if r = 0x3FF0000000000000#64 then 0x0000000000000000#64 else r

/-- R148: at every phase the sine and the triangle stay in [-1, 1]. -/
def Obligations.SineAndTriangleStayInRange : Prop :=
  ∀ p : F64, PhaseRange p →
    finite64 (sineAt p) = true ∧ |valF64 (sineAt p)| ≤ 2 ^ 1074 ∧
      finite64 (triangleAt p) = true ∧ |valF64 (triangleAt p)| ≤ 2 ^ 1074

/-- R145, R149: with an increment that is not positive the correction is off: the square is +1 or -1 and the saw is the naive one;
and with a zero increment OSC.NEXT leaves the oscillator as it is. -/
def Obligations.NoCorrectionWithoutAPositiveIncrement : Prop :=
  ∀ p dt : F64, PhaseRange p → finite64 dt = true → valF64 dt ≤ 0 →
    squareAt p dt = (if valF64 p < 2 ^ 1073 then 0x3FF0000000000000#64 else 0xBFF0000000000000#64) ∧
    sawAt p dt = subF64 (mulF64 twoF64 p) oneF64 ∧
    (valF64 dt = 0 → wrapPhase (addF64 p dt) = p)

/-! ### The smoother -/

/-- R156 to R159: SMO.PREPARE, SMO.SETAMOUNT and SMO.SETSENS, each with all it changes. The operand rule: NaN counts as +0.0, a
value above 1 as 1.0, one in (0, 1] as itself, zero and below as a zero. Two points are the model's: that TAU_SCALE 0.2 and
TAU_EPS 1.0e-6 stand for their nearest binary64 is its reading (log entry 21), and the sign of the zero that an operand -0.0 gives
is left free (log entry 7). -/
def Obligations.SmootherSettings : Prop :=
  ∀ s : State,
    let alpha := fun (amount : F32) (rate : F64) =>
      if ltF64 (mulF64 (f64OfF32 amount) 0x3FC999999999999A#64) 0x3EB0C6F7A0B5ED8D#64 then 0x3FF0000000000000#64
      else subF64 0x3FF0000000000000#64
        (expF64 (divF64 0xBFF0000000000000#64 (mulF64 rate (mulF64 (f64OfF32 amount) 0x3FC999999999999A#64))))
    let unit := fun x : F32 => if isNaN32 x then 0x00000000#32 else minF32 (maxF32 x 0x00000000#32) 0x3F800000#32
    exec .smoPrepare s =
      .next { s with
        smo := { s.smo with
          rate := sanitiseRate (s.arg0Hi ++ s.arg0Lo)
          alpha := alpha s.smo.amount (sanitiseRate (s.arg0Hi ++ s.arg0Lo)), has := false, s := 0#64 } } ∧
    exec .smoSetAmount s =
      .next { s with smo := { s.smo with amount := unit s.arg1, alpha := alpha (unit s.arg1) s.smo.rate } } ∧
    exec .smoSetSens s = .next { s with smo := { s.smo with thr := subF64 0x3FF0000000000000#64 (f64OfF32 (unit s.arg1)) } } ∧
    ∀ x : F32,
      (isNaN32 x = true → unit x = 0x00000000#32) ∧
      (isNaN32 x = false → 2 ^ 149 < valF32 x → unit x = 0x3F800000#32) ∧
      (isNaN32 x = false → 0 < valF32 x → valF32 x ≤ 2 ^ 149 → unit x = x) ∧
      (isNaN32 x = false → valF32 x ≤ 0 → unit x = 0x00000000#32 ∨ (x = 0x80000000#32 ∧ unit x = 0x80000000#32))

/-- R160 to R164: SMO.PROCESS on an estimate that passes the gate: taken directly the first time, else moved by the coefficient, or
by 1 where the jump is above 0.08 octave; and on one that does not: the state held and the last value answered, +0.0 where
there is none. The answer is `f32(exp2(s))`, the largest finite binary32 where that is +infinity. That a confidence of +infinity
does not pass the gate is the model's choice between the spec's texts: log entry 22. -/
def Obligations.SmootherProcess : Prop :=
  ∀ s : State,
    let l := log2F64 (f64OfF32 s.arg1)
    let a := if ltF64 0x3FB47AE147AE147B#64 (absF64 (subF64 l s.smo.s)) then 0x3FF0000000000000#64 else s.smo.alpha
    let s' := addF64 s.smo.s (mulF64 a (subF64 l s.smo.s))
    let out := fun v => if f32OfF64 (exp2F64 v) = 0x7F800000#32 then 0x7F7FFFFF#32 else f32OfF64 (exp2F64 v)
    let valid := ltF64 0#64 (f64OfF32 s.arg1) && finite64 (f64OfF32 s.arg1) && finite64 (f64OfF32 s.arg2) &&
      leF64 s.smo.thr (f64OfF32 s.arg2)
    (valid = true → s.smo.has = false →
      exec .smoProcess s = .next { s with smo := { s.smo with s := l, has := true }, res0 := out l }) ∧
    (valid = true → s.smo.has = true →
      exec .smoProcess s = .next { s with smo := { s.smo with s := s' }, res0 := out s' }) ∧
    (valid = false →
      exec .smoProcess s = .next { s with res0 := if s.smo.has then out s.smo.s else 0x00000000#32 })

/-- R161, R185: the gate opens exactly for a positive finite frequency with a finite confidence of at least the threshold (that
+infinity fails it is the model's choice between R161's formula and R185's table: log entry 22); R164: and what SMO.PROCESS
answers is then finite and not negative. -/
def Obligations.SmootherGateAndOutput : Prop :=
  ∀ (s : State) (f c : F32), SmoInv s.smo →
    (smootherValid (f64OfF32 f) (f64OfF32 c) s.smo.thr = true ↔
      finite32 f = true ∧ 0 < valF32 f ∧ finite32 c = true ∧ valF64 s.smo.thr ≤ valF32 c * 2 ^ 925) ∧
    ∃ t, exec .smoProcess ((s.withArg1 f).withArg2 c) = .next t ∧ finite32 t.res0 = true ∧ signF32 t.res0 = false

/-- R165 (b): fed (0, 0), the smoother answers its last value again, bit for bit, and holds. -/
def Obligations.SmootherHoldsItsLastValue : Prop :=
  ∀ s t : State, smootherValid (f64OfF32 s.arg1) (f64OfF32 s.arg2) s.smo.thr = true → exec .smoProcess s = .next t →
    exec .smoProcess ((t.withArg1 0x00000000#32).withArg2 0x00000000#32) =
      .next ((t.withArg1 0x00000000#32).withArg2 0x00000000#32)

/-! ### The stand-alone decimator -/

/-- R171 to R174, R176: the three DEC commands, each with all it changes; a non-finite sample enters as +0.0, and the output is
computed on the calls that bring the phase back to 0. -/
def Obligations.DecimatorCommands : Prop :=
  ∀ s : State,
    let x := if finite32 s.arg1 then s.arg1 else 0x00000000#32
    let dl : DelayLine :=
      { d0 := x, d1 := s.dec.dl.d0, d2 := s.dec.dl.d1, d3 := s.dec.dl.d2, d4 := s.dec.dl.d3, d5 := s.dec.dl.d4, d6 := s.dec.dl.d5 }
    let mac := fun (y : F32) (h x : F32) => addF32 y (mulF32 h x)
    let y := mac (mac (mac (mac (mac (mac (mac 0x00000000#32 0xBD000000#32 dl.d0) 0x00000000#32 dl.d1) 0x3E900000#32 dl.d2)
      0x3F000000#32 dl.d3) 0x3E900000#32 dl.d4) 0x00000000#32 dl.d5) 0xBD000000#32 dl.d6
    exec .decReset s = .next { s with dec := Decim.reset } ∧
    (s.dec.ph = false → exec .decProcess s = .next { s with dec := { s.dec with dl := dl, ph := true }, res0 := 0x00000000#32 }) ∧
    (s.dec.ph = true →
      exec .decProcess s =
        .next { s with
          dec := { dl := dl, ph := false, out := if finite32 y then y else 0x00000000#32 }, res0 := 0x00000001#32 }) ∧
    exec .decGetOutput s = .next { s with res0 := s.dec.out }

/-- R174: from a reset decimator, for any samples: the calls that are ready are the even ones, and the delay line holds the last
seven samples, the newest first. -/
def Obligations.EverySecondCallIsReady : Prop :=
  ∀ xs : List F32,
    (decimAll Decim.reset xs).2.length = xs.length ∧
      (∀ n, 1 ≤ n → n ≤ xs.length → ((decimAll Decim.reset xs).2[n - 1]? = some true ↔ n % 2 = 0)) ∧
      (decimAll Decim.reset xs).1.dl.toList = (xs.reverse ++ List.replicate 7 0x00000000#32).take 7

/-! ### The whole machine -/

/-- R181, R188: nothing stops the block: every step answers a next state, and every command does. -/
def Obligations.EveryStepCompletes : Prop :=
  (∀ s : State, ∃ t, step s = .next t) ∧ ∀ (i : Instr) (s : State), ∃ t, exec i s = .next t

/-- R24 to R28, R208: what a command leaves alone: every command the argument registers, CMD, CTRL and the events to come; the
commands of a unit the state of the other units; RES0 and RES1 all but the commands that answer there. -/
def Obligations.CommandsKeepWhatTheyDoNotWrite : Prop :=
  ∀ (i : Instr) (s t : State), exec i s = .next t →
    (t.arg0Lo = s.arg0Lo ∧ t.arg0Hi = s.arg0Hi ∧ t.arg1 = s.arg1 ∧ t.arg2 = s.arg2 ∧ t.cmd = s.cmd ∧ t.ctrl = s.ctrl ∧
      t.rdata = s.rdata ∧ t.inbox = s.inbox) ∧
    (i ≠ .detPrepare → i ≠ .detFeed → t.det = s.det ∧ t.queue = s.queue ∧ t.acfg = s.acfg ∧ t.draws = s.draws ∧
      t.sticky = s.sticky) ∧
    (unitField (encode i) ≠ 0x2#4 → t.osc = s.osc) ∧ (unitField (encode i) ≠ 0x3#4 → t.smo = s.smo) ∧
    (unitField (encode i) ≠ 0x4#4 → t.dec = s.dec) ∧
    (i ∉ [.detGetResult, .oscNext, .smoProcess, .decProcess, .decGetOutput] → t.res0 = s.res0) ∧
    (i ≠ .detGetResult → t.res1 = s.res1)

/-- R29: the published pair changes only by an engine step, by a DET.FEED in synchronous mode, and, to two zeros, by DET.PREPARE
and by reset. -/
def Obligations.PublishedPairIsWrittenOnlyByAPublish : Prop :=
  ∀ (s t : State) (e : Event), stepOn e s = .next t →
    (t.det.pubFreq = s.det.pubFreq ∧ t.det.pubConf = s.det.pubConf) ∨ e = .engine ∨
      (t.det.pubFreq = 0x00000000#32 ∧ t.det.pubConf = 0x00000000#32 ∧
        (e = .reset ∨ e = commandWrite (encodeBytes .detPrepare))) ∨
      (s.acfg.asyncEn = false ∧ e = commandWrite (encodeBytes .detFeed))

/-! ### Invariants -/

/-- R32, R35, R38, R62, R93, R98: every step keeps the shape of the state: sizes, counters, the two memories' canonical form, the
queue's cursors. -/
def Obligations.StepKeepsTheShape : Prop := StepKeeps ShapeInv

/-- R29: every step keeps the published pair, and the confidence that waits to be published, in range. -/
def Obligations.StepKeepsThePublishedRange : Prop := StepKeeps PublishedInv

/-- R39, R146: every step keeps the oscillator's rate in range, its frequency and increment finite and its phase in [0, 1). -/
def Obligations.StepKeepsTheOscillatorRange : Prop := StepKeeps fun s => OscInv s.osc

/-- R40, R156, R164: every step keeps the smoother's rate, amount, threshold and coefficient in range, and its logarithm
bounded. -/
def Obligations.StepKeepsTheSmootherRange : Prop := StepKeeps fun s => SmoInv s.smo

/-- R96, R126, R176: every step keeps every stored sample finite. -/
def Obligations.StepKeepsSamplesFinite : Prop := StepKeeps FiniteInv

end Statements
end

