-- ==== Sys2Proof/Laws/Rounding.lean ====
section
/-! SUPPORT. The rounding of a non-negative rational to a format, said once: it is a nearest value of the format, it is
monotone, and it leaves the values of the format alone. -/

namespace Sys2Proof.Machine

/-! ### `bitLog` -/

/-- Quotients below this bound have their logarithm taken exactly by the 13 halvings `roundMagnitude` makes. -/
def hugeBound : Nat := 2 ^ 2 ^ 13

/-- A magnitude below `hugeBound`, which every finite one is. -/
theorem two_pow_lt_hugeBound {k : Nat} (hk : k < 2 ^ 13) : 2 ^ k < hugeBound :=
  Nat.pow_lt_pow_right (by norm_num) hk

@[simp] theorem bitLog_zero (j : Nat) : bitLog j 0 = 0 := by
  induction j with
  | zero => rfl
  | succ j ih => simp [bitLog, ih]

theorem two_pow_bitLog_le (j : Nat) {n : Nat} (hn : 0 < n) : 2 ^ bitLog j n ≤ n := by
  induction j generalizing n with
  | zero => simp only [bitLog, pow_zero]; omega
  | succ j ih =>
    unfold bitLog
    split
    · exact ih hn
    · next h =>
      rw [pow_add]
      calc 2 ^ 2 ^ j * 2 ^ bitLog j (n / 2 ^ 2 ^ j) ≤ 2 ^ 2 ^ j * (n / 2 ^ 2 ^ j) :=
            Nat.mul_le_mul_left _ (ih (Nat.pos_of_ne_zero h))
        _ ≤ n := Nat.mul_div_le _ _

theorem lt_two_pow_bitLog (j : Nat) {n : Nat} (hn : n < 2 ^ 2 ^ j) : n < 2 ^ (bitLog j n + 1) := by
  induction j generalizing n with
  | zero => simpa [bitLog] using hn
  | succ j ih =>
    unfold bitLog
    have hpos : 0 < 2 ^ 2 ^ j := by positivity
    split
    · next h => exact ih (by rcases (Nat.div_eq_zero_iff.1 h) with h | h <;> omega)
    · next h =>
      have hlt : n / 2 ^ 2 ^ j < 2 ^ 2 ^ j := by
        rw [Nat.div_lt_iff_lt_mul hpos, ← pow_add]
        rwa [pow_succ, Nat.mul_two] at hn
      have := ih hlt
      rw [Nat.div_lt_iff_lt_mul hpos] at this
      rw [show 2 ^ j + bitLog j (n / 2 ^ 2 ^ j) + 1 = bitLog j (n / 2 ^ 2 ^ j) + 1 + 2 ^ j by omega, pow_add]
      exact this

/-- `bitLog` is the integer logarithm below `2^2^j`. -/
theorem bitLog_eq_log2 (j : Nat) {n : Nat} (hn : 0 < n) (hj : n < 2 ^ 2 ^ j) : bitLog j n = Nat.log2 n :=
  ((Nat.log2_eq_iff hn.ne').2 ⟨two_pow_bitLog_le j hn, lt_two_pow_bitLog j hj⟩).symm

/-! ### `roundNearest` -/

/-- The three cases of a division with remainder. -/
theorem roundNearest_cases (n d : Nat) (hd : 0 < d) : ∃ q m, n = q * d + m ∧ m < d ∧
    ((2 * m < d ∧ roundNearest n d = q) ∨ (d < 2 * m ∧ roundNearest n d = q + 1) ∨
      (2 * m = d ∧ roundNearest n d = q + q % 2)) := by
  refine ⟨n / d, n % d, ?_, Nat.mod_lt _ hd, ?_⟩
  · rw [Nat.mul_comm]; exact (Nat.div_add_mod n d).symm
  · unfold roundNearest
    split
    · exact .inl ⟨‹_›, rfl⟩
    · split
      · exact .inr (.inl ⟨‹_›, rfl⟩)
      · exact .inr (.inr ⟨by omega, rfl⟩)

/-- The rounded quotient is within one half of the exact one. -/
theorem roundNearest_bounds (n d : Nat) (hd : 0 < d) :
    2 * n ≤ (2 * roundNearest n d + 1) * d ∧ 2 * roundNearest n d * d ≤ 2 * n + d := by
  obtain ⟨q, m, rfl, hm, h⟩ := roundNearest_cases n d hd
  rcases h with ⟨h, hr⟩ | ⟨h, hr⟩ | ⟨h, hr⟩
  · rw [hr]; constructor <;> nlinarith
  · rw [hr]; constructor <;> nlinarith
  · rw [hr]
    rcases Nat.mod_two_eq_zero_or_one q with hq | hq <;> rw [hq] <;> constructor <;> nlinarith

/-- On a tie the rounded quotient is even. -/
theorem roundNearest_tie (n d : Nat) (hd : 0 < d)
    (h : 2 * n = (2 * roundNearest n d + 1) * d ∨ 2 * roundNearest n d * d = 2 * n + d) : roundNearest n d % 2 = 0 := by
  obtain ⟨q, m, hn, hm, hc⟩ := roundNearest_cases n d hd
  rcases hc with ⟨h2, hr⟩ | ⟨h2, hr⟩ | ⟨h2, hr⟩
  · rw [hr] at h
    exfalso
    rcases h with h | h <;> nlinarith
  · rw [hr] at h
    exfalso
    rcases h with h | h <;> nlinarith
  · rw [hr]; omega

/-- Rounding a quotient is monotone. -/
theorem roundNearest_mono {n d n' d' : Nat} (hd : 0 < d) (hd' : 0 < d') (h : n * d' ≤ n' * d) :
    roundNearest n d ≤ roundNearest n' d' := by
  by_contra hlt
  obtain ⟨-, hb⟩ := roundNearest_bounds n d hd
  obtain ⟨hb', -⟩ := roundNearest_bounds n' d' hd'
  generalize hr : roundNearest n d = r at *
  generalize hr' : roundNearest n' d' = r' at *
  have h1 : 2 * n' * d ≤ (2 * r' + 1) * (d * d') := by nlinarith
  have h2 : (2 * r - 1) * (d * d') ≤ 2 * n * d' := by
    have : (2 * r - 1) * d ≤ 2 * n := by
      have : (2 * r - 1) * d = 2 * r * d - d := by rw [Nat.sub_mul, Nat.one_mul]
      omega
    nlinarith
  have h3 : (2 * r' + 1) * (d * d') ≤ (2 * r - 1) * (d * d') := Nat.mul_le_mul_right _ (by omega)
  have hdd : 0 < d * d' := Nat.mul_pos hd hd'
  have heq : (2 * r' + 1) * (d * d') = (2 * r - 1) * (d * d') := by nlinarith
  have hrr : 2 * r' + 1 = 2 * r - 1 := Nat.eq_of_mul_eq_mul_right hdd heq
  have e1 : 2 * n = (2 * r - 1) * d := by
    apply Nat.eq_of_mul_eq_mul_right hd'
    nlinarith
  have e2 : 2 * n' = (2 * r' + 1) * d' := by
    apply Nat.eq_of_mul_eq_mul_right hd
    nlinarith
  have p2 : r' % 2 = 0 := by
    rw [← hr'] at e2 ⊢
    exact roundNearest_tie n' d' hd' (.inl e2)
  have p1 : r % 2 = 0 := by
    have : 2 * roundNearest n d * d = 2 * n + d := by
      rw [hr, e1, Nat.sub_mul, Nat.one_mul]
      have : d ≤ 2 * r * d := Nat.le_mul_of_pos_left d (by omega)
      omega
    rw [← hr]
    exact roundNearest_tie n d hd (.inr this)
  omega

/-- An exact quotient is left alone. -/
theorem roundNearest_exact (r d : Nat) (hd : 0 < d) : roundNearest (r * d) d = r := by
  unfold roundNearest
  simp [Nat.mul_mod_left, hd, Nat.mul_div_cancel r hd]

/-! ### Magnitude patterns -/

/-- A pattern made of a shift and a significand stands for the significand times that power of two. -/
theorem magOfPattern_shift (t sh r : Nat) (hr : r ≤ 2 ^ (t + 1)) (h : sh = 0 ∨ 2 ^ t ≤ r) :
    magOfPattern t (sh * 2 ^ t + r) = r * 2 ^ sh := by
  have hpos : 0 < 2 ^ t := by positivity
  rw [pow_succ] at hr
  unfold magOfPattern
  rcases Nat.lt_or_ge r (2 ^ t) with hlt | hge
  · rcases h with rfl | h
    · simp [Nat.div_eq_of_lt hlt, Nat.mod_eq_of_lt hlt]
    · omega
  · rcases Nat.lt_or_ge r (2 ^ t * 2) with hlt2 | hge2
    · obtain ⟨u, rfl⟩ := Nat.exists_eq_add_of_le hge
      have hu : u < 2 ^ t := by omega
      have e : sh * 2 ^ t + (2 ^ t + u) = u + (sh + 1) * 2 ^ t := by ring
      rw [e, Nat.add_mul_div_right _ _ hpos, Nat.add_mul_mod_self_right, Nat.div_eq_of_lt hu, Nat.mod_eq_of_lt hu]
      simp
    · have hr2 : r = 2 ^ t * 2 := by omega
      subst hr2
      have e : sh * 2 ^ t + 2 ^ t * 2 = 0 + (sh + 2) * 2 ^ t := by ring
      rw [e, Nat.add_mul_div_right _ _ hpos, Nat.add_mul_mod_self_right]
      simp only [Nat.zero_div, Nat.zero_mod, Nat.zero_add, Nat.add_zero]
      rw [if_neg (by omega), show sh + 2 - 1 = sh + 1 by omega, pow_succ]
      ring

/-- Every pattern is a shift and a significand, the significand full unless the shift is 0. -/
theorem pattern_split (t p : Nat) : ∃ sh r, p = sh * 2 ^ t + r ∧ r < 2 ^ (t + 1) ∧ (sh = 0 ∨ 2 ^ t ≤ r) := by
  have hpos : 0 < 2 ^ t := by positivity
  rcases Nat.eq_zero_or_pos (p / 2 ^ t) with h | h
  · refine ⟨0, p, by simp, ?_, .inl rfl⟩
    have := (Nat.div_eq_zero_iff.1 h).resolve_left (by omega)
    rw [pow_succ]; omega
  · refine ⟨p / 2 ^ t - 1, 2 ^ t + p % 2 ^ t, ?_, ?_, .inr (by omega)⟩
    · have := Nat.div_add_mod p (2 ^ t)
      obtain ⟨k, hk⟩ := Nat.exists_eq_add_of_le h
      rw [hk] at this ⊢
      simp only [Nat.add_sub_cancel_left]
      nlinarith
    · have := Nat.mod_lt p hpos
      rw [pow_succ]; omega

/-- Consecutive patterns stand for rising magnitudes. -/
theorem magOfPattern_succ_lt (t p : Nat) : magOfPattern t p < magOfPattern t (p + 1) := by
  obtain ⟨sh, r, rfl, hr, h⟩ := pattern_split t p
  rw [magOfPattern_shift t sh r hr.le h, Nat.add_assoc,
    magOfPattern_shift t sh (r + 1) (by omega) (h.imp_right (by omega))]
  exact Nat.mul_lt_mul_of_pos_right (by omega) (by positivity)

theorem magOfPattern_strictMono (t : Nat) : StrictMono (magOfPattern t) := strictMono_nat_of_lt_succ (magOfPattern_succ_lt t)

@[simp] theorem magOfPattern_zero (t : Nat) : magOfPattern t 0 = 0 := by simp [magOfPattern]

/-- Every magnitude from `2^(t + sh)` up is a multiple of `2^sh`. -/
theorem magOfPattern_dvd (t sh p : Nat) (h : 2 ^ (t + sh) ≤ magOfPattern t p) : 2 ^ sh ∣ magOfPattern t p := by
  obtain ⟨k, r, rfl, hr, hk⟩ := pattern_split t p
  rw [magOfPattern_shift t k r hr.le hk] at h ⊢
  have : sh ≤ k := by
    by_contra hlt
    have h1 : r * 2 ^ k < 2 ^ (t + 1) * 2 ^ k := Nat.mul_lt_mul_of_pos_right hr (by positivity)
    have h2 : 2 ^ (t + 1) * 2 ^ k ≤ 2 ^ (t + sh) := by
      rw [← pow_add]; exact Nat.pow_le_pow_right (by norm_num) (by omega)
    omega
  exact Dvd.dvd.mul_left (pow_dvd_pow 2 this) r

/-! ### `roundMagnitude` -/

/-- The binade shift of a quotient. -/
def binadeShift (t n d : Nat) : Nat := bitLog 13 (n / d) - t

/-- The pattern before the overflow test. -/
def rawPattern (t n d : Nat) : Nat := binadeShift t n d * 2 ^ t + roundNearest n (d * 2 ^ binadeShift t n d)

theorem roundMagnitude_eq (t emax n d : Nat) : roundMagnitude t emax n d = min (rawPattern t n d) (emax * 2 ^ t) := rfl

/-- The quotient is at least the first number of its binade, when the shift is not 0. -/
theorem binadeShift_lower (t n d : Nat) (h : binadeShift t n d ≠ 0) : 2 ^ (t + binadeShift t n d) * d ≤ n := by
  unfold binadeShift at h ⊢
  have hq : 0 < n / d := by
    refine Nat.pos_of_ne_zero fun h0 => h ?_
    rw [h0, bitLog_zero, Nat.zero_sub]
  have := two_pow_bitLog_le 13 hq
  rw [show t + (bitLog 13 (n / d) - t) = bitLog 13 (n / d) by omega]
  calc 2 ^ bitLog 13 (n / d) * d ≤ n / d * d := Nat.mul_le_mul_right _ this
    _ ≤ n := Nat.div_mul_le_self n d

/-- The quotient is below the next binade, unless it is beyond every format. -/
theorem binadeShift_upper (t n d : Nat) (hd : 0 < d) (hn : n / d < hugeBound) : n < 2 ^ (t + 1 + binadeShift t n d) * d := by
  have := lt_two_pow_bitLog 13 (n := n / d) hn
  rw [Nat.div_lt_iff_lt_mul hd] at this
  refine this.trans_le (Nat.mul_le_mul_right _ (Nat.pow_le_pow_right (by norm_num) ?_))
  unfold binadeShift
  omega

theorem roundNearest_le_of (n d k : Nat) (hd : 0 < d) (h : n ≤ k * d) : roundNearest n d ≤ k := by
  have := roundNearest_mono (n := n) (d := d) (n' := k * d) (d' := d) hd hd (Nat.mul_le_mul_right d h)
  rwa [roundNearest_exact k d hd] at this

theorem le_roundNearest_of (n d k : Nat) (hd : 0 < d) (h : k * d ≤ n) : k ≤ roundNearest n d := by
  have := roundNearest_mono (n := k * d) (d := d) (n' := n) (d' := d) hd hd (Nat.mul_le_mul_right d h)
  rwa [roundNearest_exact k d hd] at this

/-- The rounded significand is full unless the shift is 0. -/
theorem significand_lower (t n d : Nat) (hd : 0 < d) :
    binadeShift t n d = 0 ∨ 2 ^ t ≤ roundNearest n (d * 2 ^ binadeShift t n d) := by
  by_cases h : binadeShift t n d = 0
  · exact .inl h
  · refine .inr (le_roundNearest_of _ _ _ (by positivity) ?_)
    have := binadeShift_lower t n d h
    rw [pow_add] at this
    calc 2 ^ t * (d * 2 ^ binadeShift t n d) = 2 ^ t * 2 ^ binadeShift t n d * d := by ring
      _ ≤ n := this

/-- The rounded significand is at most the first one of the next binade. -/
theorem significand_upper (t n d : Nat) (hd : 0 < d) (hn : n / d < hugeBound) :
    roundNearest n (d * 2 ^ binadeShift t n d) ≤ 2 ^ (t + 1) := by
  refine roundNearest_le_of _ _ _ (by positivity) ?_
  have := (binadeShift_upper t n d hd hn).le
  rw [pow_add] at this
  calc n ≤ 2 ^ (t + 1) * 2 ^ binadeShift t n d * d := this
    _ = 2 ^ (t + 1) * (d * 2 ^ binadeShift t n d) := by ring

/-- The magnitude of the pattern before the overflow test. -/
theorem magOfPattern_rawPattern (t n d : Nat) (hd : 0 < d) (hn : n / d < hugeBound) :
    magOfPattern t (rawPattern t n d) = roundNearest n (d * 2 ^ binadeShift t n d) * 2 ^ binadeShift t n d :=
  magOfPattern_shift t _ _ (significand_upper t n d hd hn) (significand_lower t n d hd)

/-- The pattern before the overflow test is monotone. -/
theorem rawPattern_mono (t : Nat) {n d n' d' : Nat} (hd : 0 < d) (hd' : 0 < d') (hn : n' / d' < hugeBound)
    (h : n * d' ≤ n' * d) : rawPattern t n d ≤ rawPattern t n' d' := by
  have hq : n / d < hugeBound := by
    rw [Nat.div_lt_iff_lt_mul hd']  at hn
    rw [Nat.div_lt_iff_lt_mul hd]
    by_contra hc
    have h1 : hugeBound * d * d' ≤ n * d' := Nat.mul_le_mul_right _ (by omega)
    have h2 : n' * d < hugeBound * d' * d := Nat.mul_lt_mul_of_pos_right hn hd
    have h3 : hugeBound * d * d' = hugeBound * d' * d := by ring
    omega
  unfold rawPattern
  have hu := significand_upper t n d hd hq
  have hl' := significand_lower t n' d' hd'
  rcases lt_trichotomy (binadeShift t n d) (binadeShift t n' d') with hlt | heq | hgt
  · have hl : 2 ^ t ≤ roundNearest n' (d' * 2 ^ binadeShift t n' d') := hl'.resolve_left (by omega)
    have : (binadeShift t n d + 1) * 2 ^ t ≤ binadeShift t n' d' * 2 ^ t := Nat.mul_le_mul_right _ hlt
    rw [pow_succ] at hu
    nlinarith
  · rw [heq]
    refine Nat.add_le_add_left (roundNearest_mono (by positivity) (by positivity) ?_) _
    calc n * (d' * 2 ^ binadeShift t n' d') = n * d' * 2 ^ binadeShift t n' d' := by ring
      _ ≤ n' * d * 2 ^ binadeShift t n' d' := Nat.mul_le_mul_right _ h
      _ = n' * (d * 2 ^ binadeShift t n' d') := by ring
  · exfalso
    have h1 := binadeShift_lower t n d (by omega)
    have h2 := binadeShift_upper t n' d' hd' hn
    have h3 : 2 ^ (t + 1 + binadeShift t n' d') ≤ 2 ^ (t + binadeShift t n d) :=
      Nat.pow_le_pow_right (by norm_num) (by omega)
    have h4 : n' * d < 2 ^ (t + 1 + binadeShift t n' d') * d' * d := Nat.mul_lt_mul_of_pos_right h2 hd
    have h5 : 2 ^ (t + 1 + binadeShift t n' d') * d' * d ≤ 2 ^ (t + binadeShift t n d) * d' * d :=
      Nat.mul_le_mul_right _ (Nat.mul_le_mul_right _ h3)
    have h6 : 2 ^ (t + binadeShift t n d) * d * d' ≤ n * d' := Nat.mul_le_mul_right _ h1
    have h7 : 2 ^ (t + binadeShift t n d) * d * d' = 2 ^ (t + binadeShift t n d) * d' * d := by ring
    omega

/-- A quotient beyond every format has a pattern beyond it. -/
theorem rawPattern_huge (t n d : Nat) (ht : t ≤ 52) (hn : hugeBound ≤ n / d) : 4096 * 2 ^ t ≤ rawPattern t n d := by
  have hlog : 2 ^ 13 - 1 ≤ bitLog 13 (n / d) := by
    have key : ∀ j m, 2 ^ 2 ^ j ≤ m → 2 ^ j - 1 ≤ bitLog j m := by
      intro j
      induction j with
      | zero => intro m _; simp
      | succ j ih =>
        intro m hm
        unfold bitLog
        have hpos : 0 < 2 ^ 2 ^ j := Nat.pow_pos (by norm_num)
        have hsplit : (2 : Nat) ^ 2 ^ (j + 1) = 2 ^ 2 ^ j * 2 ^ 2 ^ j := by rw [← pow_add, pow_succ]; congr 1; omega
        have hge : 2 ^ 2 ^ j ≤ m / 2 ^ 2 ^ j := by
          rw [Nat.le_div_iff_mul_le hpos, ← hsplit]; exact hm
        rw [if_neg (by omega)]
        have := ih _ hge
        have h1 : 1 ≤ 2 ^ j := Nat.one_le_two_pow
        have h2 : (2 : Nat) ^ (j + 1) = 2 ^ j + 2 ^ j := by ring
        omega
    exact key 13 _ hn
  have : 4096 ≤ binadeShift t n d := by
    unfold binadeShift
    norm_num at hlog
    omega
  calc 4096 * 2 ^ t ≤ binadeShift t n d * 2 ^ t := Nat.mul_le_mul_right _ this
    _ ≤ rawPattern t n d := Nat.le_add_right _ _

/-- Rounding to a format is monotone in the quotient. -/
theorem roundMagnitude_mono (t emax : Nat) (ht : t ≤ 52) (he : emax ≤ 4096) {n d n' d' : Nat} (hd : 0 < d) (hd' : 0 < d')
    (h : n * d' ≤ n' * d) : roundMagnitude t emax n d ≤ roundMagnitude t emax n' d' := by
  rw [roundMagnitude_eq, roundMagnitude_eq]
  rcases Nat.lt_or_ge (n' / d') (hugeBound) with hn | hn
  · exact min_le_min_right _ (rawPattern_mono t hd hd' hn h)
  · have := rawPattern_huge t n' d' ht hn
    have h2 : emax * 2 ^ t ≤ 4096 * 2 ^ t := Nat.mul_le_mul_right _ he
    rw [min_eq_right (h2.trans this)]
    exact min_le_right _ _

/-- A magnitude of the format is its own rounding. -/
theorem rawPattern_exact (t p d : Nat) (hd : 0 < d) (hp : magOfPattern t p < hugeBound) : rawPattern t (magOfPattern t p * d) d = p := by
  obtain ⟨sh, r, rfl, hr, h⟩ := pattern_split t p
  have hm := magOfPattern_shift t sh r hr.le h
  rw [hm] at hp ⊢
  have hq : r * 2 ^ sh * d / d = r * 2 ^ sh := Nat.mul_div_cancel _ hd
  have hsh : binadeShift t (r * 2 ^ sh * d) d = sh := by
    unfold binadeShift
    rw [hq]
    rcases Nat.eq_zero_or_pos r with rfl | hr0
    · have : sh = 0 := h.resolve_right (by have : 0 < 2 ^ t := by positivity
                                           omega)
      simp [this]
    · have hpos : 0 < r * 2 ^ sh := Nat.mul_pos hr0 (by positivity)
      have h1 := two_pow_bitLog_le 13 hpos
      have h2 := lt_two_pow_bitLog 13 (n := r * 2 ^ sh) hp
      have hlt : bitLog 13 (r * 2 ^ sh) < t + 1 + sh := by
        rw [← Nat.pow_lt_pow_iff_right (a := 2) (by norm_num), pow_add]
        exact h1.trans_lt (Nat.mul_lt_mul_of_pos_right hr (by positivity))
      rcases h with rfl | hge
      · omega
      · have : t + sh < bitLog 13 (r * 2 ^ sh) + 1 := by
          rw [← Nat.pow_lt_pow_iff_right (a := 2) (by norm_num), pow_add]
          exact (Nat.mul_le_mul_right _ hge).trans_lt h2
        omega
  unfold rawPattern
  rw [hsh, show r * 2 ^ sh * d = r * (d * 2 ^ sh) by ring, roundNearest_exact _ _ (by positivity)]

theorem roundMagnitude_exact (t emax p d : Nat) (hd : 0 < d) (hp : p ≤ emax * 2 ^ t) (hm : magOfPattern t p < hugeBound) :
    roundMagnitude t emax (magOfPattern t p * d) d = p := by
  rw [roundMagnitude_eq, rawPattern_exact t p d hd hm, min_eq_left hp]

theorem roundMagnitude_le (t emax n d : Nat) : roundMagnitude t emax n d ≤ emax * 2 ^ t := min_le_right _ _

/-! ### Nearest -/

/-- The rounded quotient is a nearest integer. -/
theorem roundNearest_nearest (n d k : Nat) (hd : 0 < d) :
    |(roundNearest n d * d : Int) - n| ≤ |(k * d : Int) - n| := by
  obtain ⟨h1, h2⟩ := roundNearest_bounds n d hd
  generalize roundNearest n d = r at *
  have h1' : (2 * n : Int) ≤ (2 * r + 1) * d := by exact_mod_cast h1
  have h2' : (2 * r * d : Int) ≤ 2 * n + d := by exact_mod_cast h2
  have hd' : (0 : Int) < d := by exact_mod_cast hd
  rcases lt_trichotomy k r with h | h | h
  · have : ((k : Int) + 1) * d ≤ r * d := by
      apply mul_le_mul_of_nonneg_right _ hd'.le
      exact_mod_cast h
    rw [abs_le]
    constructor
    · rw [abs_of_nonpos (by nlinarith)]; nlinarith
    · rw [abs_of_nonpos (by nlinarith)]; nlinarith
  · rw [h]
  · have : ((r : Int) + 1) * d ≤ k * d := by
      apply mul_le_mul_of_nonneg_right _ hd'.le
      exact_mod_cast h
    rw [abs_le]
    constructor
    · rw [abs_of_nonneg (by nlinarith)]; nlinarith
    · rw [abs_of_nonneg (by nlinarith)]; nlinarith

/-- Another integer equally near means that the rounded quotient is even. -/
theorem roundNearest_even_of_tie (n d k : Nat) (hd : 0 < d) (hk : k ≠ roundNearest n d)
    (h : |(roundNearest n d * d : Int) - n| = |(k * d : Int) - n|) : roundNearest n d % 2 = 0 := by
  obtain ⟨h1, h2⟩ := roundNearest_bounds n d hd
  apply roundNearest_tie n d hd
  generalize roundNearest n d = r at *
  have h1' : (2 * n : Int) ≤ (2 * r + 1) * d := by exact_mod_cast h1
  have h2' : (2 * r * d : Int) ≤ 2 * n + d := by exact_mod_cast h2
  have hd' : (0 : Int) < d := by exact_mod_cast hd
  rcases lt_or_gt_of_ne hk with hlt | hgt
  · right
    have h3 : ((k : Int) + 1) * d ≤ r * d := by
      apply mul_le_mul_of_nonneg_right _ hd'.le
      exact_mod_cast hlt
    rw [abs_of_nonpos (a := (k * d : Int) - n) (by nlinarith)] at h
    have : (2 * r * d : Int) = 2 * n + d := by
      rcases abs_cases ((r * d : Int) - n) with ⟨ha, _⟩ | ⟨ha, _⟩ <;> nlinarith
    exact_mod_cast this
  · left
    have h3 : ((r : Int) + 1) * d ≤ k * d := by
      apply mul_le_mul_of_nonneg_right _ hd'.le
      exact_mod_cast hgt
    rw [abs_of_nonneg (a := (k * d : Int) - n) (by nlinarith)] at h
    have : (2 * n : Int) = (2 * r + 1) * d := by
      rcases abs_cases ((r * d : Int) - n) with ⟨ha, _⟩ | ⟨ha, _⟩ <;> nlinarith
    exact_mod_cast this

/-- Every magnitude of the format is a multiple of the unit in the last place, or lies below the quotient's binade. -/
theorem magnitude_multiple_or_below (t n d q : Nat) :
    (∃ k, magOfPattern t q = k * 2 ^ binadeShift t n d) ∨
      (binadeShift t n d ≠ 0 ∧ magOfPattern t q < 2 ^ (t + binadeShift t n d)) := by
  by_cases h0 : binadeShift t n d = 0
  · exact .inl ⟨magOfPattern t q, by simp [h0]⟩
  · rcases Nat.lt_or_ge (magOfPattern t q) (2 ^ (t + binadeShift t n d)) with h | h
    · exact .inr ⟨h0, h⟩
    · obtain ⟨k, hk⟩ := magOfPattern_dvd t _ q h
      exact .inl ⟨k, by rw [hk, Nat.mul_comm]⟩

/-- No magnitude of the format is nearer to the quotient than the rounded one. -/
theorem rawPattern_nearest (t n d q : Nat) (hd : 0 < d) (hn : n / d < hugeBound) :
    |(magOfPattern t (rawPattern t n d) * d : Int) - n| ≤ |(magOfPattern t q * d : Int) - n| := by
  rw [magOfPattern_rawPattern t n d hd hn]
  have hD : 0 < d * 2 ^ binadeShift t n d := by positivity
  have e : ∀ k : Nat, ((k * 2 ^ binadeShift t n d : Nat) * d : Int) = k * ((d * 2 ^ binadeShift t n d : Nat) : Int) := by
    intro k; push_cast; ring
  rcases magnitude_multiple_or_below t n d q with ⟨k, hk⟩ | ⟨h0, hlt⟩
  · rw [hk, e, e]
    exact roundNearest_nearest n _ k hD
  · have hl := binadeShift_lower t n d h0
    have h2 := roundNearest_nearest n (d * 2 ^ binadeShift t n d) (2 ^ t) hD
    rw [e]
    refine h2.trans ?_
    have e2 : ((2 ^ t : Nat) * ((d * 2 ^ binadeShift t n d : Nat) : Int)) = ((2 ^ (t + binadeShift t n d) * d : Nat) : Int) := by
      push_cast; ring
    have hl' : ((2 ^ (t + binadeShift t n d) * d : Nat) : Int) ≤ n := by exact_mod_cast hl
    have hq : ((magOfPattern t q * d : Nat) : Int) ≤ ((2 ^ (t + binadeShift t n d) * d : Nat) : Int) := by
      exact_mod_cast Nat.mul_le_mul_right d hlt.le
    rw [e2, abs_of_nonpos (by linarith), abs_of_nonpos (by push_cast at hq hl' ⊢; linarith)]
    push_cast at hq ⊢
    linarith

/-- Where another magnitude of the format is as near, the rounded pattern is the even one. -/
theorem rawPattern_even_of_tie (t n d q : Nat) (ht : 0 < t) (hd : 0 < d) (hn : n / d < hugeBound) (hq : q ≠ rawPattern t n d)
    (h : |(magOfPattern t (rawPattern t n d) * d : Int) - n| = |(magOfPattern t q * d : Int) - n|) :
    rawPattern t n d % 2 = 0 := by
  have hmq : magOfPattern t q ≠ magOfPattern t (rawPattern t n d) := (magOfPattern_strictMono t).injective.ne hq
  rw [magOfPattern_rawPattern t n d hd hn] at h hmq
  have hD : 0 < d * 2 ^ binadeShift t n d := by positivity
  have e : ∀ k : Nat, ((k * 2 ^ binadeShift t n d : Nat) * d : Int) = k * ((d * 2 ^ binadeShift t n d : Nat) : Int) := by
    intro k; push_cast; ring
  have hr : roundNearest n (d * 2 ^ binadeShift t n d) % 2 = 0 := by
    rcases magnitude_multiple_or_below t n d q with ⟨k, hk⟩ | ⟨h0, hlt⟩
    · rw [hk, e, e] at h
      refine roundNearest_even_of_tie n _ k hD (fun hc => hmq ?_) h
      rw [hk, hc]
    · exfalso
      have hl := binadeShift_lower t n d h0
      have h2 := roundNearest_nearest n (d * 2 ^ binadeShift t n d) (2 ^ t) hD
      have e2 : ((2 ^ t : Nat) * ((d * 2 ^ binadeShift t n d : Nat) : Int)) = ((2 ^ (t + binadeShift t n d) * d : Nat) : Int) := by
        push_cast; ring
      have hl' : ((2 ^ (t + binadeShift t n d) * d : Nat) : Int) ≤ n := by exact_mod_cast hl
      have hlt' : ((magOfPattern t q * d : Nat) : Int) < ((2 ^ (t + binadeShift t n d) * d : Nat) : Int) := by
        exact_mod_cast Nat.mul_lt_mul_of_pos_right hlt hd
      rw [e] at h
      rw [h, e2, abs_of_nonpos (a := ((2 ^ (t + binadeShift t n d) * d : Nat) : Int) - n) (by linarith),
        abs_of_nonpos (by push_cast at hlt' hl' ⊢; linarith)] at h2
      push_cast at hlt' h2
      linarith
  unfold rawPattern
  have h2 : 2 ∣ 2 ^ t := dvd_pow_self 2 ht.ne'
  have h3 := Dvd.dvd.mul_left h2 (binadeShift t n d)
  omega

/-- The rounded magnitude is off by at most half a unit in the last place. -/
theorem rawPattern_error (t n d : Nat) (hd : 0 < d) (hn : n / d < hugeBound) :
    2 * |(magOfPattern t (rawPattern t n d) * d : Int) - n| ≤ d * 2 ^ binadeShift t n d := by
  have hD : 0 < d * 2 ^ binadeShift t n d := by positivity
  obtain ⟨h1, h2⟩ := roundNearest_bounds n (d * 2 ^ binadeShift t n d) hD
  rw [magOfPattern_rawPattern t n d hd hn]
  have h1' : (2 * n : Int) ≤ (2 * roundNearest n (d * 2 ^ binadeShift t n d) + 1) * (d * 2 ^ binadeShift t n d) := by
    exact_mod_cast h1
  have h2' : (2 * roundNearest n (d * 2 ^ binadeShift t n d) * (d * 2 ^ binadeShift t n d) : Int) ≤
      2 * n + d * 2 ^ binadeShift t n d := by
    exact_mod_cast h2
  push_cast
  rcases abs_cases ((roundNearest n (d * 2 ^ binadeShift t n d) : Int) * 2 ^ binadeShift t n d * d - n) with ⟨ha, _⟩ | ⟨ha, _⟩ <;>
    · rw [ha]
      nlinarith

/-- For a quotient in the normal range the rounded magnitude is off by at most `2^-(t+1)` of it. -/
theorem rawPattern_relative_error (t n d : Nat) (hd : 0 < d) (hn : n / d < hugeBound) (hl : 2 ^ t * d ≤ n) :
    2 ^ (t + 1) * |(magOfPattern t (rawPattern t n d) * d : Int) - n| ≤ n := by
  have h := rawPattern_error t n d hd hn
  have hs : d * 2 ^ binadeShift t n d * 2 ^ t ≤ n := by
    by_cases h0 : binadeShift t n d = 0
    · rw [h0]
      calc d * 2 ^ 0 * 2 ^ t = 2 ^ t * d := by ring
        _ ≤ n := hl
    · calc d * 2 ^ binadeShift t n d * 2 ^ t = 2 ^ (t + binadeShift t n d) * d := by ring
        _ ≤ n := binadeShift_lower t n d h0
  have hs' : ((d * 2 ^ binadeShift t n d * 2 ^ t : Nat) : Int) ≤ n := by exact_mod_cast hs
  have hp : (0 : Int) < 2 ^ t := by positivity
  push_cast at hs'
  calc (2 : Int) ^ (t + 1) * |(magOfPattern t (rawPattern t n d) * d : Int) - n|
      = 2 ^ t * (2 * |(magOfPattern t (rawPattern t n d) * d : Int) - n|) := by ring
    _ ≤ 2 ^ t * (d * 2 ^ binadeShift t n d) := mul_le_mul_of_nonneg_left h hp.le
    _ ≤ n := by linarith

/-! ### Nearest patterns of real numbers -/

/-- The first magnitude that rounds to infinity: halfway between the largest finite one and the power of two after it. -/
def overflowBound (t emax : Nat) : Nat := (2 ^ (t + 2) - 1) * 2 ^ (emax - 3)

/-- `p` is the magnitude pattern nearest to the real number `v >= 0`, the even one of two, and infinity's from the overflow
bound on. -/
def NearestPattern (t emax : Nat) (v : ℝ) (p : Nat) : Prop :=
  if v < overflowBound t emax then
    p < emax * 2 ^ t ∧ ∀ q, q < emax * 2 ^ t →
      |(magOfPattern t p : ℝ) - v| ≤ |(magOfPattern t q : ℝ) - v| ∧
        (|(magOfPattern t p : ℝ) - v| = |(magOfPattern t q : ℝ) - v| → q ≠ p → p % 2 = 0)
  else p = emax * 2 ^ t

theorem magOfPattern_infinity (t emax : Nat) (he : 1 ≤ emax) : magOfPattern t (emax * 2 ^ t) = 2 ^ (t + emax - 1) := by
  obtain ⟨e, rfl⟩ : ∃ e, emax = e + 1 := ⟨emax - 1, by omega⟩
  have := magOfPattern_shift t e (2 ^ t) (Nat.pow_le_pow_right (by norm_num) (by omega)) (.inr le_rfl)
  rw [show (e + 1) * 2 ^ t = e * 2 ^ t + 2 ^ t by ring, this, ← pow_add]
  rfl

theorem magOfPattern_largest (t emax : Nat) (he : 2 ≤ emax) :
    magOfPattern t (emax * 2 ^ t - 1) = (2 ^ (t + 1) - 1) * 2 ^ (emax - 2) := by
  obtain ⟨e, rfl⟩ : ∃ e, emax = e + 2 := ⟨emax - 2, by omega⟩
  have hp : 1 ≤ 2 ^ t := Nat.one_le_two_pow
  have := magOfPattern_shift t e (2 ^ (t + 1) - 1) (by omega) (.inr (by rw [pow_succ]; omega))
  rw [show (e + 2) * 2 ^ t - 1 = e * 2 ^ t + (2 ^ (t + 1) - 1) by
    rw [Nat.add_mul, pow_succ]; omega, this]
  rfl

/-- Twice the overflow bound is the sum of the largest finite magnitude and the first power of two past it. -/
theorem two_mul_overflowBound (t emax : Nat) (he : 3 ≤ emax) :
    2 * overflowBound t emax = magOfPattern t (emax * 2 ^ t - 1) + magOfPattern t (emax * 2 ^ t) := by
  rw [magOfPattern_infinity t emax (by omega), magOfPattern_largest t emax (by omega), overflowBound]
  obtain ⟨e, rfl⟩ : ∃ e, emax = e + 3 := ⟨emax - 3, by omega⟩
  have hp : 1 ≤ 2 ^ (t + 2) := Nat.one_le_two_pow
  have hp' : 1 ≤ 2 ^ (t + 1) := Nat.one_le_two_pow
  rw [show e + 3 - 3 = e from rfl, show e + 3 - 2 = e + 1 from rfl, show t + (e + 3) - 1 = t + 2 + e by omega]
  zify [hp, hp']
  ring

/-- The overflow test of the rounding. -/
theorem rawPattern_lt_iff (t emax n d : Nat) (ht : 0 < t) (he : 3 ≤ emax) (hd : 0 < d) (hn : n / d < hugeBound) :
    rawPattern t n d < emax * 2 ^ t ↔ n < overflowBound t emax * d := by
  have h2 := two_mul_overflowBound t emax he
  have hp : 1 ≤ emax * 2 ^ t := Nat.mul_pos (by omega) (by positivity)
  have hmono := magOfPattern_strictMono t
  have hlt : magOfPattern t (emax * 2 ^ t - 1) < magOfPattern t (emax * 2 ^ t) := hmono (by omega)
  constructor
  · intro hr
    by_contra hc
    have hb : 2 * n ≥ (magOfPattern t (emax * 2 ^ t - 1) + magOfPattern t (emax * 2 ^ t)) * d := by
      rw [← h2]; nlinarith
    have hq := rawPattern_nearest t n d (emax * 2 ^ t) hd hn
    have hle : magOfPattern t (rawPattern t n d) ≤ magOfPattern t (emax * 2 ^ t - 1) := hmono.monotone (by omega)
    have hle' : ((magOfPattern t (rawPattern t n d) * d : Nat) : Int) ≤ (magOfPattern t (emax * 2 ^ t - 1) * d : Nat) := by
      exact_mod_cast Nat.mul_le_mul_right d hle
    have hlt' : ((magOfPattern t (emax * 2 ^ t - 1) * d : Nat) : Int) < (magOfPattern t (emax * 2 ^ t) * d : Nat) := by
      exact_mod_cast Nat.mul_lt_mul_of_pos_right hlt hd
    have hb' : ((magOfPattern t (emax * 2 ^ t - 1) * d : Nat) : Int) + (magOfPattern t (emax * 2 ^ t) * d : Nat) ≤ 2 * n := by
      rw [Nat.add_mul] at hb
      exact_mod_cast hb
    push_cast at hle' hlt' hb'
    have e1 : |(magOfPattern t (rawPattern t n d) * d : Int) - n| = n - magOfPattern t (rawPattern t n d) * d := by
      rw [abs_of_nonpos (by linarith)]; ring
    rcases abs_cases ((magOfPattern t (emax * 2 ^ t) * d : Int) - n) with ⟨ha, _⟩ | ⟨ha, _⟩
    · -- a tie: the rounded pattern is the largest finite one and even, but that one is odd
      have heq : (magOfPattern t (rawPattern t n d) * d : Int) = magOfPattern t (emax * 2 ^ t - 1) * d := by
        rw [e1, ha] at hq; linarith
      have hraw : rawPattern t n d = emax * 2 ^ t - 1 := by
        apply hmono.injective
        have : magOfPattern t (rawPattern t n d) * d = magOfPattern t (emax * 2 ^ t - 1) * d := by exact_mod_cast heq
        exact Nat.eq_of_mul_eq_mul_right hd this
      have hev := rawPattern_even_of_tie t n d (emax * 2 ^ t) ht hd hn (by omega) (by
        rw [e1, ha]; rw [e1, ha] at hq; linarith)
      rw [hraw] at hev
      have h3 : 2 ∣ 2 ^ t := dvd_pow_self 2 ht.ne'
      have h4 := Dvd.dvd.mul_left h3 emax
      omega
    · rw [e1, ha] at hq
      linarith
  · intro hc
    by_contra hr
    have hb : 2 * n < (magOfPattern t (emax * 2 ^ t - 1) + magOfPattern t (emax * 2 ^ t)) * d := by
      rw [← h2]; nlinarith
    have hq := rawPattern_nearest t n d (emax * 2 ^ t - 1) hd hn
    have hle : magOfPattern t (emax * 2 ^ t) ≤ magOfPattern t (rawPattern t n d) := hmono.monotone (by omega)
    have hle' : ((magOfPattern t (emax * 2 ^ t) * d : Nat) : Int) ≤ (magOfPattern t (rawPattern t n d) * d : Nat) := by
      exact_mod_cast Nat.mul_le_mul_right d hle
    have hlt' : ((magOfPattern t (emax * 2 ^ t - 1) * d : Nat) : Int) < (magOfPattern t (emax * 2 ^ t) * d : Nat) := by
      exact_mod_cast Nat.mul_lt_mul_of_pos_right hlt hd
    have hb' : (2 * n : Int) < (magOfPattern t (emax * 2 ^ t - 1) * d : Nat) + (magOfPattern t (emax * 2 ^ t) * d : Nat) := by
      rw [Nat.add_mul] at hb
      exact_mod_cast hb
    push_cast at hle' hlt' hb'
    rw [abs_of_nonneg (a := (magOfPattern t (rawPattern t n d) * d : Int) - n) (by linarith)] at hq
    rcases abs_cases ((magOfPattern t (emax * 2 ^ t - 1) * d : Int) - n) with ⟨ha, _⟩ | ⟨ha, _⟩ <;> rw [ha] at hq <;> linarith

theorem overflowBound_lt_hugeBound (t emax : Nat) (ht : t ≤ 52) (he : 3 ≤ emax) (he' : emax ≤ 4096) :
    overflowBound t emax < hugeBound := by
  unfold overflowBound hugeBound
  calc (2 ^ (t + 2) - 1) * 2 ^ (emax - 3) < 2 ^ (t + 2) * 2 ^ (emax - 3) :=
        Nat.mul_lt_mul_of_pos_right (Nat.sub_lt (by positivity) (by norm_num)) (by positivity)
    _ = 2 ^ (t + emax - 1) := by rw [← pow_add]; congr 1; omega
    _ ≤ 2 ^ 2 ^ 13 := Nat.pow_le_pow_right (by norm_num) (by norm_num; omega)

theorem roundMagnitude_lt_iff (t emax n d : Nat) (ht : 0 < t) (ht' : t ≤ 52) (he : 3 ≤ emax) (he' : emax ≤ 4096) (hd : 0 < d) :
    roundMagnitude t emax n d < emax * 2 ^ t ↔ n < overflowBound t emax * d := by
  rw [roundMagnitude_eq]
  by_cases hn : n / d < hugeBound
  · rw [← rawPattern_lt_iff t emax n d ht he hd hn]
    omega
  · have h1 := rawPattern_huge t n d ht' (not_lt.1 hn)
    have h2 : emax * 2 ^ t ≤ 4096 * 2 ^ t := Nat.mul_le_mul_right _ he'
    have h3 := overflowBound_lt_hugeBound t emax ht' he he'
    constructor
    · intro h; omega
    · intro h
      have := (Nat.div_lt_iff_lt_mul hd).2 h
      omega

/-- What `roundMagnitude` answers: the nearest pattern. -/
theorem nearestPattern_roundMagnitude (t emax n d : Nat) (ht : 0 < t) (ht' : t ≤ 52) (he : 3 ≤ emax) (he' : emax ≤ 4096)
    (hd : 0 < d) : NearestPattern t emax ((n : ℝ) / d) (roundMagnitude t emax n d) := by
  have hdr : (0 : ℝ) < d := by exact_mod_cast hd
  have hiff : (n : ℝ) / d < overflowBound t emax ↔ n < overflowBound t emax * d := by
    rw [div_lt_iff₀ hdr]; exact_mod_cast Iff.rfl
  have hlt := roundMagnitude_lt_iff t emax n d ht ht' he he' hd
  unfold NearestPattern
  by_cases h : n < overflowBound t emax * d
  · rw [if_pos (hiff.2 h)]
    have hn : n / d < hugeBound :=
      ((Nat.div_lt_iff_lt_mul hd).2 h).trans (overflowBound_lt_hugeBound t emax ht' he he')
    have hr : roundMagnitude t emax n d = rawPattern t n d := by
      have h1 := (rawPattern_lt_iff t emax n d ht he hd hn).2 h
      rw [roundMagnitude_eq]; omega
    refine ⟨hlt.2 h, fun q _ => ?_⟩
    rw [hr]
    have e : ∀ m : Nat, |(m : ℝ) - n / d| = ((|(m * d : Int) - n| : Int) : ℝ) / d := by
      intro m
      rw [Int.cast_abs]
      push_cast
      rw [← abs_of_pos hdr, ← abs_div, abs_of_pos hdr, sub_div, mul_div_cancel_right₀ _ hdr.ne']
    rw [e, e]
    constructor
    · exact div_le_div_of_nonneg_right (by exact_mod_cast rawPattern_nearest t n d q hd hn) hdr.le
    · intro hc hq
      have : (|(magOfPattern t (rawPattern t n d) * d : Int) - n| : Int) = |(magOfPattern t q * d : Int) - n| := by
        exact_mod_cast (div_left_inj' hdr.ne').1 hc
      exact rawPattern_even_of_tie t n d q ht hd hn hq this
  · rw [if_neg (fun hc => h (hiff.1 hc))]
    have := roundMagnitude_le t emax n d
    omega

/-- Where two real numbers have one nearest pattern, so has every number between them. -/
theorem NearestPattern.between {t emax p : Nat} {lo v hi : ℝ} (hl : NearestPattern t emax lo p) (hh : NearestPattern t emax hi p)
    (h1 : lo ≤ v) (h2 : v ≤ hi) : NearestPattern t emax v p := by
  unfold NearestPattern at *
  by_cases hb : hi < overflowBound t emax
  · rw [if_pos hb] at hh
    rw [if_pos (h1.trans_lt (h2.trans_lt hb))] at hl
    rw [if_pos (h2.trans_lt hb)]
    refine ⟨hh.1, fun q hq => ?_⟩
    obtain ⟨a1, a2⟩ := hl.2 q hq
    obtain ⟨b1, b2⟩ := hh.2 q hq
    have key : ∀ x y z w u : ℝ, |x - y| ≤ |z - y| → |x - w| ≤ |z - w| → y ≤ u → u ≤ w →
        |x - u| ≤ |z - u| ∧ (|x - u| = |z - u| → |x - y| = |z - y| ∨ |x - w| = |z - w|) := by
      intro x y z w u hy hw hyu huw
      rcases le_total x z with hxz | hxz
      · -- `z` lies above: only the upper end matters
        have hm : w ≤ (x + z) / 2 ∨ x = z := by
          rcases hxz.eq_or_lt with h | h
          · exact .inr h
          · left
            rcases abs_cases (x - w) with ⟨c1, _⟩ | ⟨c1, _⟩ <;> rcases abs_cases (z - w) with ⟨c2, _⟩ | ⟨c2, _⟩ <;>
              rw [c1, c2] at hw <;> linarith
        rcases hm with hm | rfl
        · have hu : u ≤ (x + z) / 2 := huw.trans hm
          have c2 : |z - u| = z - u := abs_of_nonneg (by linarith)
          rw [c2]
          constructor
          · rw [abs_le]; constructor <;> linarith
          · intro hc
            by_cases hxu : x ≤ u
            · rw [abs_of_nonpos (by linarith)] at hc
              right
              have : w = (x + z) / 2 := le_antisymm hm (by linarith)
              rw [abs_of_nonpos (by linarith), abs_of_nonneg (by linarith)]
              linarith
            · rw [abs_of_nonneg (by linarith)] at hc
              right
              have : x = z := by linarith
              rw [this]
        · exact ⟨le_rfl, fun _ => .inl rfl⟩
      · have hm : (x + z) / 2 ≤ y ∨ x = z := by
          rcases hxz.eq_or_lt with h | h
          · exact .inr h.symm
          · left
            rcases abs_cases (x - y) with ⟨c1, _⟩ | ⟨c1, _⟩ <;> rcases abs_cases (z - y) with ⟨c2, _⟩ | ⟨c2, _⟩ <;>
              rw [c1, c2] at hy <;> linarith
        rcases hm with hm | rfl
        · have hu : (x + z) / 2 ≤ u := hm.trans hyu
          have c2 : |z - u| = -(z - u) := abs_of_nonpos (by linarith)
          rw [c2]
          constructor
          · rw [abs_le]; constructor <;> linarith
          · intro hc
            by_cases hxu : u ≤ x
            · rw [abs_of_nonneg (by linarith)] at hc
              left
              have : y = (x + z) / 2 := le_antisymm (by linarith) hm
              rw [abs_of_nonneg (by linarith), abs_of_nonpos (by linarith)]
              linarith
            · rw [abs_of_nonpos (by linarith)] at hc
              left
              have : x = z := by linarith
              rw [this]
        · exact ⟨le_rfl, fun _ => .inl rfl⟩
    obtain ⟨k1, k2⟩ := key _ lo _ hi v a1 b1 h1 h2
    exact ⟨k1, fun hc hne => (k2 hc).elim (fun h => a2 h hne) fun h => b2 h hne⟩
  · rw [if_neg hb] at hh
    by_cases hb' : v < overflowBound t emax
    · rw [if_pos (h1.trans_lt hb')] at hl
      omega
    · rw [if_neg hb']
      exact hh

end Sys2Proof.Machine
end

