-- ==== Sys2Proof/Laws/Signed.lean ====
section
/-! SUPPORT. Rounding of a signed quotient `v / d` to a format with `t` fraction bits and all-ones exponent `emax`, as an integer
in units of the format's least positive value: odd, monotone, exact on the format's own values, and close. -/

namespace Sys2Proof.Machine

/-- The value `v / d` rounded, infinity counting as the first power of two past the largest finite magnitude. -/
def valRound (t emax : Nat) (v : Int) (d : Nat) : Int := v.sign * magOfPattern t (roundMagnitude t emax v.natAbs d)

@[simp] theorem roundMagnitude_zero (t emax d : Nat) : roundMagnitude t emax 0 d = 0 := by
  simp [roundMagnitude, roundNearest]

@[simp] theorem valRound_zero (t emax d : Nat) : valRound t emax 0 d = 0 := by simp [valRound]

/-- Rounding is odd. -/
theorem valRound_neg (t emax : Nat) (v : Int) (d : Nat) : valRound t emax (-v) d = -valRound t emax v d := by
  simp [valRound, Int.sign_neg]

theorem valRound_natCast (t emax n d : Nat) : valRound t emax n d = magOfPattern t (roundMagnitude t emax n d) := by
  rcases Nat.eq_zero_or_pos n with rfl | h
  · simp
  · unfold valRound
    rw [Int.sign_eq_one_of_pos (by exact_mod_cast h), one_mul, Int.natAbs_natCast]

theorem valRound_nonneg (t emax : Nat) {v : Int} (d : Nat) (h : 0 ≤ v) : 0 ≤ valRound t emax v d := by
  obtain ⟨n, rfl⟩ := Int.eq_ofNat_of_zero_le h
  rw [valRound_natCast]
  positivity

/-- Rounding is monotone. -/
theorem valRound_mono (t emax : Nat) (ht : t ≤ 52) (he : emax ≤ 4096) {v v' : Int} {d d' : Nat} (hd : 0 < d) (hd' : 0 < d')
    (h : v * d' ≤ v' * d) : valRound t emax v d ≤ valRound t emax v' d' := by
  have key : ∀ {n n' d d' : Nat}, 0 < d → 0 < d' → n * d' ≤ n' * d → valRound t emax n d ≤ valRound t emax n' d' := by
    intro n n' d d' hd hd' h
    rw [valRound_natCast, valRound_natCast]
    exact_mod_cast (magOfPattern_strictMono t).monotone (roundMagnitude_mono t emax ht he hd hd' h)
  have hdi : (0 : Int) < d := by exact_mod_cast hd
  have hdi' : (0 : Int) < d' := by exact_mod_cast hd'
  rcases le_or_gt 0 v with hv | hv
  · have hv' : 0 ≤ v' := by
      by_contra hc
      nlinarith
    obtain ⟨n, rfl⟩ := Int.eq_ofNat_of_zero_le hv
    obtain ⟨n', rfl⟩ := Int.eq_ofNat_of_zero_le hv'
    exact key hd hd' (by exact_mod_cast h)
  · rcases le_or_gt 0 v' with hv' | hv'
    · refine le_trans ?_ (valRound_nonneg t emax d' hv')
      have := valRound_nonneg t emax d (v := -v) (by omega)
      rw [valRound_neg] at this
      omega
    · obtain ⟨n, hn⟩ := Int.eq_ofNat_of_zero_le (a := -v) (by omega)
      obtain ⟨n', hn'⟩ := Int.eq_ofNat_of_zero_le (a := -v') (by omega)
      have := key (n := n') (n' := n) hd' hd (by
        have : (n' : Int) * d ≤ n * d' := by
          rw [← hn, ← hn']
          nlinarith
        exact_mod_cast this)
      rw [← hn, ← hn', valRound_neg, valRound_neg] at this
      omega

/-- Rounding leaves a value of the format alone. -/
theorem valRound_exact (t emax p : Nat) {v : Int} {d : Nat} (hd : 0 < d) (hp : p ≤ emax * 2 ^ t) (hm : magOfPattern t p < hugeBound)
    (hv : v.natAbs = magOfPattern t p) : valRound t emax (v * d) d = v := by
  unfold valRound
  rw [Int.natAbs_mul, hv, Int.natAbs_natCast, roundMagnitude_exact t emax p d hd hp hm, Int.sign_mul,
    Int.sign_eq_one_of_pos (a := (d : Int)) (by exact_mod_cast hd), mul_one, ← hv, Int.sign_mul_natAbs]

/-- Below the overflow bound the rounded value is off by at most `2^-(t+1)` of the value, in the normal range, … -/
theorem valRound_relative_error (t emax : Nat) (ht : 0 < t) (ht' : t ≤ 52) (he : 3 ≤ emax) (he' : emax ≤ 4096) (v : Int) (d : Nat)
    (hd : 0 < d) (hl : 2 ^ t * d ≤ v.natAbs) (hh : v.natAbs < overflowBound t emax * d) :
    2 ^ (t + 1) * |valRound t emax v d * d - v| ≤ |v| := by
  have hn : v.natAbs / d < hugeBound :=
    ((Nat.div_lt_iff_lt_mul hd).2 hh).trans (overflowBound_lt_hugeBound t emax ht' he he')
  have hr : roundMagnitude t emax v.natAbs d = rawPattern t v.natAbs d := by
    have h1 := (rawPattern_lt_iff t emax v.natAbs d ht he hd hn).2 hh
    rw [roundMagnitude_eq]; omega
  have h := rawPattern_relative_error t v.natAbs d hd hn hl
  unfold valRound
  rw [hr]
  rcases lt_trichotomy v 0 with hv | rfl | hv
  · rw [Int.sign_eq_neg_one_of_neg hv, abs_of_neg hv]
    rw [show (v.natAbs : Int) = -v by omega] at h
    calc _ = 2 ^ (t + 1) * |(magOfPattern t (rawPattern t v.natAbs d) * d : Int) - -v| := by
            rw [← abs_neg]; congr 2; ring
      _ ≤ -v := h
  · simp
  · rw [Int.sign_eq_one_of_pos hv, abs_of_pos hv, one_mul]
    rwa [show (v.natAbs : Int) = v by omega] at h

/-- … and by at most half a unit, for a value that small. -/
theorem valRound_small_error (t emax : Nat) (ht : 0 < t) (ht' : t ≤ 52) (he : 3 ≤ emax) (he' : emax ≤ 4096) (v : Int) (d : Nat)
    (hd : 0 < d) (hl : v.natAbs < 2 ^ (t + 1) * d) : 2 * |valRound t emax v d * d - v| ≤ d := by
  have hb : 2 ^ (t + 1) ≤ overflowBound t emax := by
    unfold overflowBound
    calc 2 ^ (t + 1) ≤ 2 ^ (t + 2) - 1 := by
          have : 1 ≤ 2 ^ (t + 1) := Nat.one_le_two_pow
          rw [pow_succ 2 (t + 1)]; omega
      _ ≤ _ := Nat.le_mul_of_pos_right _ (by positivity)
  have hh : v.natAbs < overflowBound t emax * d := hl.trans_le (Nat.mul_le_mul_right d hb)
  have hn : v.natAbs / d < hugeBound :=
    ((Nat.div_lt_iff_lt_mul hd).2 hh).trans (overflowBound_lt_hugeBound t emax ht' he he')
  have hr : roundMagnitude t emax v.natAbs d = rawPattern t v.natAbs d := by
    have h1 := (rawPattern_lt_iff t emax v.natAbs d ht he hd hn).2 hh
    rw [roundMagnitude_eq]; omega
  have h := rawPattern_error t v.natAbs d hd hn
  have hs : binadeShift t v.natAbs d = 0 := by
    by_contra hc
    have h1 := binadeShift_lower t v.natAbs d hc
    have h2 : 2 ^ (t + 1) * d ≤ 2 ^ (t + binadeShift t v.natAbs d) * d :=
      Nat.mul_le_mul_right d (Nat.pow_le_pow_right (by norm_num) (by omega))
    omega
  rw [hs, pow_zero, mul_one] at h
  unfold valRound
  rw [hr]
  rcases lt_trichotomy v 0 with hv | rfl | hv
  · rw [Int.sign_eq_neg_one_of_neg hv]
    rw [show (v.natAbs : Int) = -v by omega] at h
    calc _ = 2 * |(magOfPattern t (rawPattern t v.natAbs d) * d : Int) - -v| := by
            rw [← abs_neg]; congr 2; ring
      _ ≤ d := h
  · simp
  · rw [Int.sign_eq_one_of_pos hv, one_mul]
    rwa [show (v.natAbs : Int) = v by omega] at h

/-- Every integer of at most `t + 1` bits, scaled by any power of two, is a magnitude of the format. -/
theorem exists_pattern (t e : Nat) : ∀ n, n ≤ 2 ^ (t + 1) → ∃ p, magOfPattern t p = n * 2 ^ e := by
  induction e with
  | zero => exact fun n hn => ⟨0 * 2 ^ t + n, magOfPattern_shift t 0 n hn (.inl rfl)⟩
  | succ e ih =>
    intro n hn
    rcases Nat.lt_or_ge n (2 ^ t) with h | h
    · obtain ⟨p, hp⟩ := ih (2 * n) (by rw [pow_succ]; omega)
      exact ⟨p, by rw [hp]; ring⟩
    · exact ⟨(e + 1) * 2 ^ t + n, magOfPattern_shift t (e + 1) n hn (.inr h)⟩

/-- Every magnitude of the format is such a number. -/
theorem magOfPattern_split (t p : Nat) : ∃ n e, n ≤ 2 ^ (t + 1) ∧ magOfPattern t p = n * 2 ^ e := by
  obtain ⟨sh, r, rfl, hr, h⟩ := pattern_split t p
  exact ⟨r, sh, hr.le, magOfPattern_shift t sh r hr.le h⟩

/-- Rounding leaves such a number alone, while it is not past infinity's magnitude. -/
theorem valRound_representable (t emax e : Nat) (he : 1 ≤ emax) (he' : t + emax ≤ 8000) {v : Int} {d n : Nat} (hd : 0 < d)
    (hn : n ≤ 2 ^ (t + 1)) (hv : v.natAbs = n * 2 ^ e) (hm : v.natAbs ≤ 2 ^ (t + emax - 1)) :
    valRound t emax (v * d) d = v := by
  obtain ⟨p, hp⟩ := exists_pattern t e n hn
  have hp' : p ≤ emax * 2 ^ t := by
    rw [← (magOfPattern_strictMono t).le_iff_le, magOfPattern_infinity t emax he, hp, ← hv]
    exact hm
  refine valRound_exact t emax p hd hp' ?_ (by rw [hp, hv])
  rw [hp, ← hv]
  exact hm.trans_lt (Nat.pow_lt_pow_right (by norm_num) (by norm_num; omega))

end Sys2Proof.Machine
end

