-- ==== Sys2Proof/Laws/Float.lean ====
section
/-! SUPPORT. What the binary64 operations do, said once: for finite operands the value of a result is the exact result rounded,
`valRound64`, which is monotone and leaves the values of the format alone. -/

namespace Sys2Proof.Machine

/-! ### Packing and unpacking binary64 -/

theorem toNat_packF64 (neg : Bool) {p : Nat} (hp : p < 2 ^ 63) :
    (packF64 neg p).toNat = (if neg then 2 ^ 63 else 0) + p := by
  unfold packF64
  rw [BitVec.toNat_ofNat]
  apply Nat.mod_eq_of_lt
  cases neg <;> simp <;> omega

@[simp] theorem patF64_packF64 (neg : Bool) {p : Nat} (hp : p < 2 ^ 63) : patF64 (packF64 neg p) = p := by
  unfold patF64
  rw [toNat_packF64 neg hp]
  cases neg <;> simp <;> omega

@[simp] theorem signF64_packF64 (neg : Bool) {p : Nat} (hp : p < 2 ^ 63) : signF64 (packF64 neg p) = neg := by
  unfold signF64
  rw [BitVec.msb_eq_decide, toNat_packF64 neg hp]
  cases neg <;> (simp; try omega)

theorem patF64_lt (a : F64) : patF64 a < 2 ^ 63 := Nat.mod_lt _ (by norm_num)

/-- A value is its sign and its magnitude pattern. -/
theorem packF64_sign_pat (a : F64) : packF64 (signF64 a) (patF64 a) = a := by
  apply BitVec.eq_of_toNat_eq
  rw [toNat_packF64 _ (patF64_lt a)]
  unfold signF64 patF64
  have := a.isLt
  rw [BitVec.msb_eq_decide]
  change (if decide (2 ^ 63 ≤ a.toNat) = true then 2 ^ 63 else 0) + a.toNat % 2 ^ 63 = a.toNat
  by_cases h : 2 ^ 63 ≤ a.toNat
  · rw [if_pos (decide_eq_true h)]; omega
  · rw [if_neg (by simpa using h)]; omega

theorem finite64_iff (a : F64) : finite64 a = true ↔ patF64 a < 2047 * 2 ^ 52 := by simp [finite64]
theorem isNaN64_iff (a : F64) : isNaN64 a = true ↔ 2047 * 2 ^ 52 < patF64 a := by simp [isNaN64]
theorem isInf64_iff (a : F64) : isInf64 a = true ↔ patF64 a = 2047 * 2 ^ 52 := by simp [isInf64]

theorem not_isNaN64_of_finite {a : F64} (h : finite64 a = true) : isNaN64 a = false := by
  rw [finite64_iff] at h
  rw [← Bool.not_eq_true, isNaN64_iff]
  omega

theorem not_isInf64_of_finite {a : F64} (h : finite64 a = true) : isInf64 a = false := by
  rw [finite64_iff] at h
  rw [← Bool.not_eq_true, isInf64_iff]
  omega

theorem finite64_of_not {a : F64} (h : isNaN64 a = false) (h' : isInf64 a = false) : finite64 a = true := by
  rw [← Bool.not_eq_true, isNaN64_iff] at h
  rw [← Bool.not_eq_true, isInf64_iff] at h'
  rw [finite64_iff]
  omega

/-- The magnitude of the first pattern past the finite ones. -/
theorem magOfPattern_inf64 : magOfPattern 52 (2047 * 2 ^ 52) = 2 ^ 2098 := by
  unfold magOfPattern
  rw [Nat.mul_div_cancel _ (by positivity), Nat.mul_mod_left, if_neg (by norm_num), Nat.add_zero, ← pow_add]

theorem magF64_lt_iff (a : F64) : magF64 a < 2 ^ 2098 ↔ finite64 a = true := by
  rw [finite64_iff, ← magOfPattern_inf64]
  exact (magOfPattern_strictMono 52).lt_iff_lt

theorem magF64_le_iff (a : F64) : magF64 a ≤ 2 ^ 2098 ↔ isNaN64 a = false := by
  rw [← Bool.not_eq_true, isNaN64_iff, ← magOfPattern_inf64, not_lt]
  exact (magOfPattern_strictMono 52).le_iff_le

@[simp] theorem natAbs_valF64 (a : F64) : (valF64 a).natAbs = magF64 a := by
  unfold valF64
  split <;> simp

theorem abs_valF64 (a : F64) : |valF64 a| = magF64 a := by
  rw [Int.abs_eq_natAbs, natAbs_valF64]

theorem finite64_iff_val (a : F64) : finite64 a = true ↔ |valF64 a| < 2 ^ 2098 := by
  rw [← magF64_lt_iff, abs_valF64]
  norm_cast

/-! ### Rounding to binary64 -/

theorem roundMagnitude64_lt (n d : Nat) : roundMagnitude 52 2047 n d < 2 ^ 63 :=
  lt_of_le_of_lt (roundMagnitude_le _ _ _ _) (by norm_num)

@[simp] theorem patF64_roundF64 (neg : Bool) (n d : Nat) : patF64 (roundF64 neg n d) = roundMagnitude 52 2047 n d :=
  patF64_packF64 neg (roundMagnitude64_lt n d)

@[simp] theorem signF64_roundF64 (neg : Bool) (n d : Nat) : signF64 (roundF64 neg n d) = neg :=
  signF64_packF64 neg (roundMagnitude64_lt n d)

/-- A rounded value is a number. -/
@[simp] theorem isNaN64_roundF64 (neg : Bool) (n d : Nat) : isNaN64 (roundF64 neg n d) = false := by
  rw [← Bool.not_eq_true, isNaN64_iff, patF64_roundF64]
  have := roundMagnitude_le 52 2047 n d
  omega

/-- An exact rational `v / d` rounded to binary64, as a multiple of 2^-1074. -/
abbrev valRound64 (v : Int) (d : Nat) : Int := valRound 52 2047 v d

theorem valF64_roundF64_false (n d : Nat) : valF64 (roundF64 false n d) = valRound64 n d := by
  rw [valRound64, valRound_natCast]
  unfold valF64 magF64
  rw [patF64_roundF64, signF64_roundF64]
  simp

theorem valF64_roundF64_true (n d : Nat) : valF64 (roundF64 true n d) = valRound64 (-n) d := by
  rw [valRound64, valRound_neg, valRound_natCast]
  unfold valF64 magF64
  rw [patF64_roundF64, signF64_roundF64]
  simp

/-- A rounded signed value. -/
theorem valF64_roundF64_sign (v : Int) (d : Nat) : valF64 (roundF64 (decide (v < 0)) v.natAbs d) = valRound64 v d := by
  by_cases h : v < 0
  · simp only [h, decide_true]
    rw [valF64_roundF64_true]
    congr 1
    omega
  · simp only [h, decide_false]
    rw [valF64_roundF64_false]
    congr 1
    omega

/-- Rounding is monotone. -/
theorem valRound64_mono {v v' : Int} {d d' : Nat} (hd : 0 < d) (hd' : 0 < d') (h : v * d' ≤ v' * d) :
    valRound64 v d ≤ valRound64 v' d' :=
  valRound_mono 52 2047 (by norm_num) (by norm_num) hd hd' h

/-- Rounding leaves a value of the format alone. -/
theorem valRound64_exact {a : F64} (ha : isNaN64 a = false) {d : Nat} (hd : 0 < d) : valRound64 (valF64 a * d) d = valF64 a := by
  have hp : patF64 a ≤ 2047 * 2 ^ 52 := by
    rw [← Bool.not_eq_true, isNaN64_iff] at ha
    omega
  have hm : magOfPattern 52 (patF64 a) < hugeBound :=
    lt_of_le_of_lt (show magF64 a ≤ 2 ^ 2098 from (magF64_le_iff a).2 ha) (two_pow_lt_hugeBound (by norm_num))
  exact valRound_exact 52 2047 (patF64 a) hd hp hm (natAbs_valF64 a)

/-- A bound that is a value of the format carries over to the rounded value, from above … -/
theorem valRound64_le {v : Int} {d : Nat} (hd : 0 < d) {b : F64} (hb : isNaN64 b = false) (h : v ≤ valF64 b * d) :
    valRound64 v d ≤ valF64 b := by
  rw [← valRound64_exact hb hd]
  exact valRound64_mono hd hd (by nlinarith [show (0 : Int) < d by exact_mod_cast hd])

/-- … and from below. -/
theorem le_valRound64 {v : Int} {d : Nat} (hd : 0 < d) {b : F64} (hb : isNaN64 b = false) (h : valF64 b * d ≤ v) :
    valF64 b ≤ valRound64 v d := by
  rw [← valRound64_exact hb hd]
  exact valRound64_mono hd hd (by nlinarith [show (0 : Int) < d by exact_mod_cast hd])

/-! ### The operations on finite operands -/

theorem isNaN64_packF64_zero (neg : Bool) : isNaN64 (packF64 neg 0) = false := by
  cases neg <;> decide

theorem valF64_packF64_zero (neg : Bool) : valF64 (packF64 neg 0) = 0 := by
  unfold valF64 magF64
  rw [patF64_packF64 neg (by norm_num)]
  simp

/-- The value of a sum of finite operands is the exact sum, rounded; it is a number. -/
theorem addF64_finite {a b : F64} (ha : finite64 a = true) (hb : finite64 b = true) :
    isNaN64 (addF64 a b) = false ∧ valF64 (addF64 a b) = valRound64 (valF64 a + valF64 b) 1 := by
  unfold addF64
  rw [not_isNaN64_of_finite ha, not_isNaN64_of_finite hb, not_isInf64_of_finite ha, not_isInf64_of_finite hb]
  simp only [Bool.or_self, Bool.false_eq_true, if_false]
  split
  · next h => rw [h, valRound64, valRound_zero]; exact ⟨isNaN64_packF64_zero _, valF64_packF64_zero _⟩
  · exact ⟨isNaN64_roundF64 _ _ _, valF64_roundF64_sign _ _⟩

/-- A rounded product or quotient of magnitudes with the exclusive-or of the signs. -/
theorem valF64_roundF64_xor (s s' : Bool) (n d : Nat) :
    valF64 (roundF64 (s != s') n d) = valRound64 ((if s then -1 else 1) * (if s' then -1 else 1) * n) d := by
  cases s <;> cases s' <;> simp [valF64_roundF64_false, valF64_roundF64_true]

theorem valF64_eq (a : F64) : valF64 a = (if signF64 a then -1 else 1) * magF64 a := by
  unfold valF64
  split <;> simp

/-- The value of a product of finite operands is the exact product, rounded. -/
theorem mulF64_finite {a b : F64} (ha : finite64 a = true) (hb : finite64 b = true) :
    isNaN64 (mulF64 a b) = false ∧ valF64 (mulF64 a b) = valRound64 (valF64 a * valF64 b) (2 ^ 1074) := by
  unfold mulF64
  rw [not_isNaN64_of_finite ha, not_isNaN64_of_finite hb, not_isInf64_of_finite ha, not_isInf64_of_finite hb]
  simp only [Bool.or_self, Bool.false_eq_true, if_false]
  refine ⟨isNaN64_roundF64 _ _ _, ?_⟩
  rw [valF64_roundF64_xor, valF64_eq a, valF64_eq b]
  congr 1
  push_cast
  ring

/-! ### Comparisons -/

theorem ltF64_iff (a b : F64) : ltF64 a b = true ↔ isNaN64 a = false ∧ isNaN64 b = false ∧ valF64 a < valF64 b := by
  simp [ltF64, and_assoc]

theorem leF64_iff (a b : F64) : leF64 a b = true ↔ isNaN64 a = false ∧ isNaN64 b = false ∧ valF64 a ≤ valF64 b := by
  simp [leF64, and_assoc]

theorem eqF64_iff (a b : F64) : eqF64 a b = true ↔ isNaN64 a = false ∧ isNaN64 b = false ∧ valF64 a = valF64 b := by
  simp [eqF64, and_assoc]

/-- Two patterns of one value are equal, or the two zeros. -/
theorem eq_or_zero_of_valF64_eq {a b : F64} (h : valF64 a = valF64 b) : a = b ∨ valF64 b = 0 := by
  by_cases hz : valF64 b = 0
  · exact .inr hz
  left
  have hm : magF64 a = magF64 b := by rw [← natAbs_valF64, ← natAbs_valF64, h]
  have hp : patF64 a = patF64 b := (magOfPattern_strictMono 52).injective hm
  have hm0 : (magF64 b : Int) ≠ 0 := by
    intro h0
    apply hz
    unfold valF64
    split <;> omega
  rw [← packF64_sign_pat a, ← packF64_sign_pat b, hp]
  congr 1
  unfold valF64 at h
  rw [hm] at h
  cases hsa : signF64 a <;> cases hsb : signF64 b <;> simp [hsa, hsb] at h ⊢ <;> omega

/-- The larger of two numbers. -/
theorem maxF64_number {a b : F64} (ha : isNaN64 a = false) (hb : isNaN64 b = false) :
    isNaN64 (maxF64 a b) = false ∧ valF64 (maxF64 a b) = max (valF64 a) (valF64 b) := by
  unfold maxF64
  split
  · next h => rw [h]; exact ⟨hb, by simp⟩
  split
  · next h => exact ⟨hb, (max_eq_right ((ltF64_iff a b).1 h).2.2.le).symm⟩
  split
  · next h => exact ⟨ha, (max_eq_left ((ltF64_iff b a).1 h).2.2.le).symm⟩
  · next h h1 h2 =>
    rw [ltF64_iff] at h1 h2
    have h3 : valF64 a = valF64 b := le_antisymm (not_lt.1 fun hc => h2 ⟨hb, ha, hc⟩) (not_lt.1 fun hc => h1 ⟨ha, hb, hc⟩)
    have h0 := (eq_or_zero_of_valF64_eq h3).resolve_left h
    exact ⟨isNaN64_packF64_zero _, by rw [valF64_packF64_zero, h3, h0, max_self]⟩

/-- The smaller of two numbers. -/
theorem minF64_number {a b : F64} (ha : isNaN64 a = false) (hb : isNaN64 b = false) :
    isNaN64 (minF64 a b) = false ∧ valF64 (minF64 a b) = min (valF64 a) (valF64 b) := by
  unfold minF64
  split
  · next h => rw [h]; exact ⟨hb, by simp⟩
  split
  · next h => exact ⟨ha, (min_eq_left ((ltF64_iff a b).1 h).2.2.le).symm⟩
  split
  · next h => exact ⟨hb, (min_eq_right ((ltF64_iff b a).1 h).2.2.le).symm⟩
  · next h h1 h2 =>
    rw [ltF64_iff] at h1 h2
    have h3 : valF64 a = valF64 b := le_antisymm (not_lt.1 fun hc => h2 ⟨hb, ha, hc⟩) (not_lt.1 fun hc => h1 ⟨ha, hb, hc⟩)
    have h0 := (eq_or_zero_of_valF64_eq h3).resolve_left h
    exact ⟨isNaN64_packF64_zero _, by rw [valF64_packF64_zero, h3, h0, min_self]⟩

/-! ### Negation, subtraction, division, integers -/

@[simp] theorem patF64_negF64 (a : F64) : patF64 (negF64 a) = patF64 a := by
  unfold patF64 negF64
  rw [BitVec.toNat_xor, Nat.xor_mod_two_pow]
  simp

@[simp] theorem signF64_negF64 (a : F64) : signF64 (negF64 a) = !signF64 a := by
  unfold signF64 negF64
  rw [BitVec.msb_xor]
  cases a.msb <;> rfl

@[simp] theorem valF64_negF64 (a : F64) : valF64 (negF64 a) = -valF64 a := by
  unfold valF64 magF64
  rw [patF64_negF64, signF64_negF64]
  cases signF64 a <;> simp

@[simp] theorem finite64_negF64 (a : F64) : finite64 (negF64 a) = finite64 a := by simp [finite64]
@[simp] theorem isNaN64_negF64 (a : F64) : isNaN64 (negF64 a) = isNaN64 a := by simp [isNaN64]

/-- The value of a difference of finite operands is the exact difference, rounded. -/
theorem subF64_finite {a b : F64} (ha : finite64 a = true) (hb : finite64 b = true) :
    isNaN64 (subF64 a b) = false ∧ valF64 (subF64 a b) = valRound64 (valF64 a - valF64 b) 1 := by
  have := addF64_finite (b := negF64 b) ha (by simpa using hb)
  rwa [valF64_negF64, ← sub_eq_add_neg] at this

/-- The value of a quotient of finite operands, the divisor not zero, is the exact quotient, rounded. -/
theorem divF64_finite {a b : F64} (ha : finite64 a = true) (hb : finite64 b = true) (h0 : valF64 b ≠ 0) :
    isNaN64 (divF64 a b) = false ∧
      valF64 (divF64 a b) = valRound64 (valF64 a * (valF64 b).sign * 2 ^ 1074) (valF64 b).natAbs := by
  have hm : magF64 b ≠ 0 := by
    rw [← natAbs_valF64]
    omega
  unfold divF64
  rw [not_isNaN64_of_finite ha, not_isNaN64_of_finite hb, not_isInf64_of_finite ha, not_isInf64_of_finite hb]
  simp only [Bool.or_self, Bool.false_eq_true, if_false, hm]
  refine ⟨isNaN64_roundF64 _ _ _, ?_⟩
  rw [valF64_roundF64_xor, natAbs_valF64, valF64_eq a, valF64_eq b]
  have hs : ((if signF64 b then (-1 : Int) else 1) * (magF64 b : Int)).sign = if signF64 b then -1 else 1 := by
    have : (0 : Int) < magF64 b := by omega
    split <;> simp [Int.sign_eq_one_of_pos this]
  rw [hs]
  congr 1
  push_cast
  ring

/-- An integer that binary64 holds is converted exactly: up to 2^53. -/
theorem valF64_ofIntF64 (n : Int) : isNaN64 (ofIntF64 n) = false ∧ valF64 (ofIntF64 n) = valRound64 (n * 2 ^ 1074) 1 := by
  refine ⟨isNaN64_roundF64 _ _ _, ?_⟩
  unfold ofIntF64
  have hpos : (0 : Int) < 2 ^ 1074 := by positivity
  have h1 : decide (n < 0) = decide (n * 2 ^ 1074 < 0) := by
    rw [decide_eq_decide]
    exact ⟨fun h => mul_neg_of_neg_of_pos h hpos, fun h => by
      by_contra hc
      exact absurd (mul_nonneg (not_lt.1 hc) hpos.le) (not_le.2 h)⟩
  have h2 : n.natAbs * 2 ^ 1074 = (n * 2 ^ 1074).natAbs := by
    rw [Int.natAbs_mul, Int.natAbs_pow]
    rfl
  rw [h1, h2, valF64_roundF64_sign]

end Sys2Proof.Machine
end

