-- ==== Sys2Proof/Laws/Float32.lean ====
section
/-! SUPPORT. What the binary32 operations do, said once: for finite operands the value of a result is the exact result rounded,
`valRound32`, which is monotone and leaves the values of the format alone. -/

namespace Sys2Proof.Machine

/-! ### Packing and unpacking binary32 -/

theorem toNat_packF32 (neg : Bool) {p : Nat} (hp : p < 2 ^ 31) :
    (packF32 neg p).toNat = (if neg then 2 ^ 31 else 0) + p := by
  unfold packF32
  rw [BitVec.toNat_ofNat]
  apply Nat.mod_eq_of_lt
  cases neg <;> simp <;> omega

@[simp] theorem patF32_packF32 (neg : Bool) {p : Nat} (hp : p < 2 ^ 31) : patF32 (packF32 neg p) = p := by
  unfold patF32
  rw [toNat_packF32 neg hp]
  cases neg <;> simp <;> omega

@[simp] theorem signF32_packF32 (neg : Bool) {p : Nat} (hp : p < 2 ^ 31) : signF32 (packF32 neg p) = neg := by
  unfold signF32
  rw [BitVec.msb_eq_decide, toNat_packF32 neg hp]
  cases neg <;> (simp; try omega)

theorem patF32_lt (a : F32) : patF32 a < 2 ^ 31 := Nat.mod_lt _ (by norm_num)

/-- A value is its sign and its magnitude pattern. -/
theorem packF32_sign_pat (a : F32) : packF32 (signF32 a) (patF32 a) = a := by
  apply BitVec.eq_of_toNat_eq
  rw [toNat_packF32 _ (patF32_lt a)]
  unfold signF32 patF32
  have := a.isLt
  rw [BitVec.msb_eq_decide]
  change (if decide (2 ^ 31 ≤ a.toNat) = true then 2 ^ 31 else 0) + a.toNat % 2 ^ 31 = a.toNat
  by_cases h : 2 ^ 31 ≤ a.toNat
  · rw [if_pos (decide_eq_true h)]; omega
  · rw [if_neg (by simpa using h)]; omega

theorem finite32_iff (a : F32) : finite32 a = true ↔ patF32 a < 255 * 2 ^ 23 := by simp [finite32]
theorem isNaN32_iff (a : F32) : isNaN32 a = true ↔ 255 * 2 ^ 23 < patF32 a := by simp [isNaN32]
theorem isInf32_iff (a : F32) : isInf32 a = true ↔ patF32 a = 255 * 2 ^ 23 := by simp [isInf32]

theorem not_isNaN32_of_finite {a : F32} (h : finite32 a = true) : isNaN32 a = false := by
  rw [finite32_iff] at h
  rw [← Bool.not_eq_true, isNaN32_iff]
  omega

theorem not_isInf32_of_finite {a : F32} (h : finite32 a = true) : isInf32 a = false := by
  rw [finite32_iff] at h
  rw [← Bool.not_eq_true, isInf32_iff]
  omega

theorem finite32_of_not {a : F32} (h : isNaN32 a = false) (h' : isInf32 a = false) : finite32 a = true := by
  rw [← Bool.not_eq_true, isNaN32_iff] at h
  rw [← Bool.not_eq_true, isInf32_iff] at h'
  rw [finite32_iff]
  omega

/-- The magnitude of the first pattern past the finite ones. -/
theorem magOfPattern_inf32 : magOfPattern 23 (255 * 2 ^ 23) = 2 ^ 277 := by
  unfold magOfPattern
  rw [Nat.mul_div_cancel _ (by positivity), Nat.mul_mod_left, if_neg (by norm_num), Nat.add_zero, ← pow_add]

theorem magF32_lt_iff (a : F32) : magF32 a < 2 ^ 277 ↔ finite32 a = true := by
  rw [finite32_iff, ← magOfPattern_inf32]
  exact (magOfPattern_strictMono 23).lt_iff_lt

theorem magF32_le_iff (a : F32) : magF32 a ≤ 2 ^ 277 ↔ isNaN32 a = false := by
  rw [← Bool.not_eq_true, isNaN32_iff, ← magOfPattern_inf32, not_lt]
  exact (magOfPattern_strictMono 23).le_iff_le

@[simp] theorem natAbs_valF32 (a : F32) : (valF32 a).natAbs = magF32 a := by
  unfold valF32
  split <;> simp

theorem abs_valF32 (a : F32) : |valF32 a| = magF32 a := by
  rw [Int.abs_eq_natAbs, natAbs_valF32]

theorem finite32_iff_val (a : F32) : finite32 a = true ↔ |valF32 a| < 2 ^ 277 := by
  rw [← magF32_lt_iff, abs_valF32]
  norm_cast

/-! ### Rounding to binary32 -/

theorem roundMagnitude32_lt (n d : Nat) : roundMagnitude 23 255 n d < 2 ^ 31 :=
  lt_of_le_of_lt (roundMagnitude_le _ _ _ _) (by norm_num)

@[simp] theorem patF32_roundF32 (neg : Bool) (n d : Nat) : patF32 (roundF32 neg n d) = roundMagnitude 23 255 n d :=
  patF32_packF32 neg (roundMagnitude32_lt n d)

@[simp] theorem signF32_roundF32 (neg : Bool) (n d : Nat) : signF32 (roundF32 neg n d) = neg :=
  signF32_packF32 neg (roundMagnitude32_lt n d)

/-- A rounded value is a number. -/
@[simp] theorem isNaN32_roundF32 (neg : Bool) (n d : Nat) : isNaN32 (roundF32 neg n d) = false := by
  rw [← Bool.not_eq_true, isNaN32_iff, patF32_roundF32]
  have := roundMagnitude_le 23 255 n d
  omega

/-- An exact rational `v / d` rounded to binary32, as a multiple of 2^-149. -/
abbrev valRound32 (v : Int) (d : Nat) : Int := valRound 23 255 v d

theorem valF32_roundF32_false (n d : Nat) : valF32 (roundF32 false n d) = valRound32 n d := by
  rw [valRound32, valRound_natCast]
  unfold valF32 magF32
  rw [patF32_roundF32, signF32_roundF32]
  simp

theorem valF32_roundF32_true (n d : Nat) : valF32 (roundF32 true n d) = valRound32 (-n) d := by
  rw [valRound32, valRound_neg, valRound_natCast]
  unfold valF32 magF32
  rw [patF32_roundF32, signF32_roundF32]
  simp

/-- A rounded signed value. -/
theorem valF32_roundF32_sign (v : Int) (d : Nat) : valF32 (roundF32 (decide (v < 0)) v.natAbs d) = valRound32 v d := by
  by_cases h : v < 0
  · simp only [h, decide_true]
    rw [valF32_roundF32_true]
    congr 1
    omega
  · simp only [h, decide_false]
    rw [valF32_roundF32_false]
    congr 1
    omega

/-- Rounding is monotone. -/
theorem valRound32_mono {v v' : Int} {d d' : Nat} (hd : 0 < d) (hd' : 0 < d') (h : v * d' ≤ v' * d) :
    valRound32 v d ≤ valRound32 v' d' :=
  valRound_mono 23 255 (by norm_num) (by norm_num) hd hd' h

/-- Rounding leaves a value of the format alone. -/
theorem valRound32_exact {a : F32} (ha : isNaN32 a = false) {d : Nat} (hd : 0 < d) : valRound32 (valF32 a * d) d = valF32 a := by
  have hp : patF32 a ≤ 255 * 2 ^ 23 := by
    rw [← Bool.not_eq_true, isNaN32_iff] at ha
    omega
  have hm : magOfPattern 23 (patF32 a) < hugeBound :=
    lt_of_le_of_lt (show magF32 a ≤ 2 ^ 277 from (magF32_le_iff a).2 ha) (two_pow_lt_hugeBound (by norm_num))
  exact valRound_exact 23 255 (patF32 a) hd hp hm (natAbs_valF32 a)

/-- A bound that is a value of the format carries over to the rounded value, from above … -/
theorem valRound32_le {v : Int} {d : Nat} (hd : 0 < d) {b : F32} (hb : isNaN32 b = false) (h : v ≤ valF32 b * d) :
    valRound32 v d ≤ valF32 b := by
  rw [← valRound32_exact hb hd]
  exact valRound32_mono hd hd (by nlinarith [show (0 : Int) < d by exact_mod_cast hd])

/-- … and from below. -/
theorem le_valRound32 {v : Int} {d : Nat} (hd : 0 < d) {b : F32} (hb : isNaN32 b = false) (h : valF32 b * d ≤ v) :
    valF32 b ≤ valRound32 v d := by
  rw [← valRound32_exact hb hd]
  exact valRound32_mono hd hd (by nlinarith [show (0 : Int) < d by exact_mod_cast hd])

/-! ### The operations on finite operands -/

theorem isNaN32_packF32_zero (neg : Bool) : isNaN32 (packF32 neg 0) = false := by
  cases neg <;> decide

theorem valF32_packF32_zero (neg : Bool) : valF32 (packF32 neg 0) = 0 := by
  unfold valF32 magF32
  rw [patF32_packF32 neg (by norm_num)]
  simp

/-- The value of a sum of finite operands is the exact sum, rounded; it is a number. -/
theorem addF32_finite {a b : F32} (ha : finite32 a = true) (hb : finite32 b = true) :
    isNaN32 (addF32 a b) = false ∧ valF32 (addF32 a b) = valRound32 (valF32 a + valF32 b) 1 := by
  unfold addF32
  rw [not_isNaN32_of_finite ha, not_isNaN32_of_finite hb, not_isInf32_of_finite ha, not_isInf32_of_finite hb]
  simp only [Bool.or_self, Bool.false_eq_true, if_false]
  split
  · next h => rw [h, valRound32, valRound_zero]; exact ⟨isNaN32_packF32_zero _, valF32_packF32_zero _⟩
  · exact ⟨isNaN32_roundF32 _ _ _, valF32_roundF32_sign _ _⟩

/-- A rounded product or quotient of magnitudes with the exclusive-or of the signs. -/
theorem valF32_roundF32_xor (s s' : Bool) (n d : Nat) :
    valF32 (roundF32 (s != s') n d) = valRound32 ((if s then -1 else 1) * (if s' then -1 else 1) * n) d := by
  cases s <;> cases s' <;> simp [valF32_roundF32_false, valF32_roundF32_true]

theorem valF32_eq (a : F32) : valF32 a = (if signF32 a then -1 else 1) * magF32 a := by
  unfold valF32
  split <;> simp

/-- The value of a product of finite operands is the exact product, rounded. -/
theorem mulF32_finite {a b : F32} (ha : finite32 a = true) (hb : finite32 b = true) :
    isNaN32 (mulF32 a b) = false ∧ valF32 (mulF32 a b) = valRound32 (valF32 a * valF32 b) (2 ^ 149) := by
  unfold mulF32
  rw [not_isNaN32_of_finite ha, not_isNaN32_of_finite hb, not_isInf32_of_finite ha, not_isInf32_of_finite hb]
  simp only [Bool.or_self, Bool.false_eq_true, if_false]
  refine ⟨isNaN32_roundF32 _ _ _, ?_⟩
  rw [valF32_roundF32_xor, valF32_eq a, valF32_eq b]
  congr 1
  push_cast
  ring

/-! ### Comparisons -/

theorem ltF32_iff (a b : F32) : ltF32 a b = true ↔ isNaN32 a = false ∧ isNaN32 b = false ∧ valF32 a < valF32 b := by
  simp [ltF32, and_assoc]

/-- Two patterns of one value are equal, or the two zeros. -/
theorem eq_or_zero_of_valF32_eq {a b : F32} (h : valF32 a = valF32 b) : a = b ∨ valF32 b = 0 := by
  by_cases hz : valF32 b = 0
  · exact .inr hz
  left
  have hm : magF32 a = magF32 b := by rw [← natAbs_valF32, ← natAbs_valF32, h]
  have hp : patF32 a = patF32 b := (magOfPattern_strictMono 23).injective hm
  have hm0 : (magF32 b : Int) ≠ 0 := by
    intro h0
    apply hz
    unfold valF32
    split <;> omega
  rw [← packF32_sign_pat a, ← packF32_sign_pat b, hp]
  congr 1
  unfold valF32 at h
  rw [hm] at h
  cases hsa : signF32 a <;> cases hsb : signF32 b <;> simp [hsa, hsb] at h ⊢ <;> omega

/-- The larger of two numbers. -/
theorem maxF32_number {a b : F32} (ha : isNaN32 a = false) (hb : isNaN32 b = false) :
    isNaN32 (maxF32 a b) = false ∧ valF32 (maxF32 a b) = max (valF32 a) (valF32 b) := by
  unfold maxF32
  split
  · next h => rw [h]; exact ⟨hb, by simp⟩
  split
  · next h => exact ⟨hb, (max_eq_right ((ltF32_iff a b).1 h).2.2.le).symm⟩
  split
  · next h => exact ⟨ha, (max_eq_left ((ltF32_iff b a).1 h).2.2.le).symm⟩
  · next h h1 h2 =>
    rw [ltF32_iff] at h1 h2
    have h3 : valF32 a = valF32 b := le_antisymm (not_lt.1 fun hc => h2 ⟨hb, ha, hc⟩) (not_lt.1 fun hc => h1 ⟨ha, hb, hc⟩)
    have h0 := (eq_or_zero_of_valF32_eq h3).resolve_left h
    exact ⟨isNaN32_packF32_zero _, by rw [valF32_packF32_zero, h3, h0, max_self]⟩

/-- The smaller of two numbers. -/
theorem minF32_number {a b : F32} (ha : isNaN32 a = false) (hb : isNaN32 b = false) :
    isNaN32 (minF32 a b) = false ∧ valF32 (minF32 a b) = min (valF32 a) (valF32 b) := by
  unfold minF32
  split
  · next h => rw [h]; exact ⟨hb, by simp⟩
  split
  · next h => exact ⟨ha, (min_eq_left ((ltF32_iff a b).1 h).2.2.le).symm⟩
  split
  · next h => exact ⟨hb, (min_eq_right ((ltF32_iff b a).1 h).2.2.le).symm⟩
  · next h h1 h2 =>
    rw [ltF32_iff] at h1 h2
    have h3 : valF32 a = valF32 b := le_antisymm (not_lt.1 fun hc => h2 ⟨hb, ha, hc⟩) (not_lt.1 fun hc => h1 ⟨ha, hb, hc⟩)
    have h0 := (eq_or_zero_of_valF32_eq h3).resolve_left h
    exact ⟨isNaN32_packF32_zero _, by rw [valF32_packF32_zero, h3, h0, min_self]⟩

end Sys2Proof.Machine
end

