-- ==== Sys2Proof/Laws/Convert.lean ====
section
/-! SUPPORT. What the conversions, `floor`, `abs`, the clamps and the operand rules answer, and the values of the constants. -/

namespace Sys2Proof.Machine

/-! ### Constants -/

theorem valF64_zeroF64 : valF64 zeroF64 = 0 := by decide +kernel
theorem valF64_halfF64 : valF64 halfF64 = 2 ^ 1073 := by decide +kernel
theorem valF64_oneF64 : valF64 oneF64 = 2 ^ 1074 := by decide +kernel
theorem valF64_twoF64 : valF64 twoF64 = 2 ^ 1075 := by decide +kernel
theorem valF64_negOneF64 : valF64 negOneF64 = -2 ^ 1074 := by decide +kernel
theorem valF64_minSampleRate : valF64 Config.minSampleRate = 2 ^ 1074 := by decide +kernel
theorem valF64_maxSampleRate : valF64 Config.maxSampleRate = 192000 * 2 ^ 1074 := by decide +kernel
theorem valF64_minPitchHz : valF64 Config.minPitchHz = 60 * 2 ^ 1074 := by decide +kernel
theorem valF64_freqLo : valF64 Config.freqLo = 20 * 2 ^ 1074 := by decide +kernel
theorem valF64_freqHi : valF64 Config.freqHi = 5000 * 2 ^ 1074 := by decide +kernel
theorem valF32_zeroF32 : valF32 zeroF32 = 0 := by decide +kernel
theorem valF32_oneF32 : valF32 oneF32 = 2 ^ 149 := by decide +kernel

/-! ### Exact results -/

/-- Rounding to binary64 leaves an integer of at most 53 bits times a power of two alone. -/
theorem valRound64_representable {v : Int} {d n : Nat} (e : Nat) (hd : 0 < d) (hn : n ≤ 2 ^ 53) (hv : v.natAbs = n * 2 ^ e)
    (hm : v.natAbs ≤ 2 ^ 2098) : valRound64 (v * d) d = v :=
  valRound_representable 52 2047 e (by norm_num) (by norm_num) hd hn hv hm

/-- A value that does not lie past the finite ones is finite. -/
theorem finite64_of_val {a : F64} {m : Nat} (hm : m < 2098) (h : |valF64 a| ≤ 2 ^ m) : finite64 a = true :=
  (finite64_iff_val a).2 (h.trans_lt (pow_lt_pow_right₀ (by norm_num) hm))

theorem finite32_of_val {a : F32} {m : Nat} (hm : m < 277) (h : |valF32 a| ≤ 2 ^ m) : finite32 a = true :=
  (finite32_iff_val a).2 (h.trans_lt (pow_lt_pow_right₀ (by norm_num) hm))

theorem abs_valF64_lt {a : F64} (h : finite64 a = true) : |valF64 a| < 2 ^ 2098 := (finite64_iff_val a).1 h
theorem abs_valF32_lt {a : F32} (h : finite32 a = true) : |valF32 a| < 2 ^ 277 := (finite32_iff_val a).1 h

/-! ### binary32 to binary64 -/

theorem signF64_f64OfF32 {a : F32} (h : isNaN32 a = false) : signF64 (f64OfF32 a) = signF32 a := by
  unfold f64OfF32
  rw [if_neg (by simp [h])]
  split
  · exact signF64_packF64 _ (by norm_num)
  · exact signF64_roundF64 _ _ _

/-- A finite binary32 converts exactly. -/
theorem f64OfF32_finite {a : F32} (h : finite32 a = true) :
    finite64 (f64OfF32 a) = true ∧ valF64 (f64OfF32 a) = valF32 a * 2 ^ 925 := by
  have hval : valF64 (f64OfF32 a) = valF32 a * 2 ^ 925 := by
    unfold f64OfF32
    rw [if_neg (by simp [not_isNaN32_of_finite h]), if_neg (by simp [not_isInf32_of_finite h])]
    obtain ⟨n, e, hn, he⟩ := magOfPattern_split 23 (patF32 a)
    have hm : magF32 a * 2 ^ 925 ≤ 2 ^ 2098 := by
      have h1 : magF32 a < 2 ^ 277 := (magF32_lt_iff a).2 h
      calc magF32 a * 2 ^ 925 ≤ 2 ^ 277 * 2 ^ 925 := Nat.mul_le_mul_right _ h1.le
        _ = 2 ^ 1202 := by rw [← pow_add]
        _ ≤ 2 ^ 2098 := Nat.pow_le_pow_right (by norm_num) (by norm_num)
    have key : ∀ v : Int, v.natAbs = magF32 a * 2 ^ 925 → valRound64 v 1 = v := by
      intro v hv
      have := valRound64_representable (v := v) (d := 1) (e + 925) one_pos (hn.trans (Nat.pow_le_pow_right (by norm_num) (by norm_num)))
        (by rw [hv]; unfold magF32; rw [he, pow_add]; ring) (hv ▸ hm)
      simpa using this
    unfold valF32
    cases signF32 a
    · rw [valF64_roundF64_false, key _ (Int.natAbs_natCast _), if_neg (by simp), Nat.cast_mul, Nat.cast_pow]; rfl
    · rw [valF64_roundF64_true, key _ ((Int.natAbs_neg _).trans (Int.natAbs_natCast _)), if_pos rfl, Nat.cast_mul, Nat.cast_pow,
        neg_mul]
      rfl
  refine ⟨finite64_of_val (m := 1202) (by norm_num) ?_, hval⟩
  have h1 := (abs_valF32_lt h).le
  rw [hval, abs_mul, abs_of_pos (a := (2 : Int) ^ 925) (by positivity)]
  calc |valF32 a| * 2 ^ 925 ≤ 2 ^ 277 * 2 ^ 925 := mul_le_mul_of_nonneg_right h1 (by positivity)
    _ = 2 ^ 1202 := by rw [← pow_add]

theorem isNaN64_f64OfF32 (a : F32) : isNaN64 (f64OfF32 a) = isNaN32 a := by
  by_cases hn : isNaN32 a = true
  · rw [hn]
    unfold f64OfF32
    rw [if_pos hn, isNaN64_iff]
    unfold patF64 nanF64
    have : (0x7FF8000000000000#64 ||| Config.nanBits64 3 0#64 (a.setWidth 64)).toNat =
        0x7FF8000000000000 ||| (Config.nanBits64 3 0#64 (a.setWidth 64)).toNat := BitVec.toNat_or ..
    rw [this]
    have h1 : 0x7FF8000000000000 ≤ (0x7FF8000000000000 ||| (Config.nanBits64 3 0#64 (a.setWidth 64)).toNat) % 2 ^ 63 := by
      rw [Nat.or_mod_two_pow]
      exact le_trans (by norm_num) Nat.left_le_or
    exact lt_of_lt_of_le (by norm_num) h1
  · have hn' : isNaN32 a = false := by simpa using hn
    rw [hn']
    unfold f64OfF32
    rw [if_neg hn]
    split
    · rw [← Bool.not_eq_true, isNaN64_iff]
      unfold infF64
      rw [patF64_packF64 _ (by norm_num)]
      omega
    · exact isNaN64_roundF64 _ _ _

/-! ### binary64 to binary32 -/

theorem signF32_f32OfF64 {a : F64} (h : isNaN64 a = false) : signF32 (f32OfF64 a) = signF64 a := by
  unfold f32OfF64
  rw [if_neg (by simp [h])]
  split
  · exact signF32_packF32 _ (by norm_num)
  · exact signF32_roundF32 _ _ _

/-- A number converts to a number, rounded once. -/
theorem f32OfF64_number {a : F64} (h : isNaN64 a = false) :
    isNaN32 (f32OfF64 a) = false ∧ valF32 (f32OfF64 a) = valRound32 (valF64 a) (2 ^ 925) := by
  unfold f32OfF64
  rw [if_neg (by simp [h])]
  split
  · next hi =>
    have hm : magF64 a = 2 ^ 2098 := by
      rw [isInf64_iff] at hi
      unfold magF64
      rw [hi, magOfPattern_inf64]
    have hr : roundMagnitude 23 255 (2 ^ 2098) (2 ^ 925) = 255 * 2 ^ 23 := by
      have := (roundMagnitude_lt_iff 23 255 (2 ^ 2098) (2 ^ 925) (by norm_num) (by norm_num) (by norm_num) (by norm_num)
        (by positivity)).not.2 (by
          rw [not_lt]
          calc overflowBound 23 255 * 2 ^ 925 ≤ 2 ^ 277 * 2 ^ 925 := Nat.mul_le_mul_right _ (by decide +kernel)
            _ = 2 ^ 1202 := by rw [← pow_add]
            _ ≤ 2 ^ 2098 := Nat.pow_le_pow_right (by norm_num) (by norm_num))
      have := roundMagnitude_le 23 255 (2 ^ 2098) (2 ^ 925)
      omega
    constructor
    · rw [← Bool.not_eq_true, isNaN32_iff]
      unfold infF32
      rw [patF32_packF32 _ (by norm_num)]
      omega
    · unfold infF32 valF32 valF64 magF32
      rw [signF32_packF32 _ (by norm_num), patF32_packF32 _ (by norm_num), hm]
      cases signF64 a
      · simp only [Bool.false_eq_true, if_false]
        rw [valRound32, valRound_natCast, hr]
      · simp only [if_true]
        rw [valRound32, valRound_neg, valRound_natCast, hr]
  · refine ⟨isNaN32_roundF32 _ _ _, ?_⟩
    unfold valF64
    cases signF64 a
    · rw [valF32_roundF32_false]; simp
    · rw [valF32_roundF32_true]; simp

/-! ### floor and abs -/

/-- `floor` of a finite value is exact. -/
theorem floorF64_finite {a : F64} (h : finite64 a = true) :
    isNaN64 (floorF64 a) = false ∧ valF64 (floorF64 a) = floorInt a * 2 ^ 1074 := by
  have hpos : (0 : Int) < 2 ^ 1074 := by positivity
  unfold floorF64
  rw [if_neg (by simp [h])]
  split
  · next h0 => exact ⟨isNaN64_packF64_zero _, by rw [valF64_packF64_zero, h0, zero_mul]⟩
  refine ⟨(valF64_ofIntF64 _).1, ?_⟩
  rw [(valF64_ofIntF64 _).2]
  have hdiv : floorInt a * 2 ^ 1074 ≤ valF64 a := by
    unfold floorInt
    exact Int.ediv_mul_le _ hpos.ne'
  have hdiv' : valF64 a < floorInt a * 2 ^ 1074 + 2 ^ 1074 := by
    unfold floorInt
    exact Int.lt_ediv_add_one_mul_self _ hpos |>.trans_eq (by rw [add_mul, one_mul])
  suffices hrep : ∃ n e, n ≤ 2 ^ 53 ∧ (floorInt a * 2 ^ 1074).natAbs = n * 2 ^ e ∧ (floorInt a * 2 ^ 1074).natAbs ≤ 2 ^ 2098 by
    obtain ⟨n, e, h1, h2, h3⟩ := hrep
    have := valRound64_representable (v := floorInt a * 2 ^ 1074) (d := 1) e one_pos h1 h2 h3
    simpa using this
  rcases Nat.lt_or_ge (magF64 a) (2 ^ (52 + 1074)) with hs | hs
  · -- below 2^52 the floor has at most 53 bits
    have hk : (floorInt a).natAbs ≤ 2 ^ 53 := by
      have h1 : |valF64 a| < 2 ^ 52 * 2 ^ 1074 := by
        rw [abs_valF64, ← pow_add]; exact_mod_cast hs
      rw [abs_lt] at h1
      have h2 : floorInt a < 2 ^ 52 := by
        by_contra hc
        exact absurd (h1.2.trans_le (mul_le_mul_of_nonneg_right (not_lt.1 hc) hpos.le)) (not_lt.2 hdiv)
      have h3 : -2 ^ 52 - 1 < floorInt a := by
        by_contra hc
        have h3 := mul_le_mul_of_nonneg_right (not_lt.1 hc) hpos.le
        have h4 := h1.1
        generalize (2 : Int) ^ 1074 = P at hdiv' h3 h4
        linarith
      omega
    refine ⟨(floorInt a).natAbs, 1074, hk, ?_, ?_⟩
    · rw [Int.natAbs_mul, Int.natAbs_pow]; rfl
    · rw [Int.natAbs_mul, Int.natAbs_pow]
      calc (floorInt a).natAbs * 2 ^ 1074 ≤ 2 ^ 53 * 2 ^ 1074 := Nat.mul_le_mul_right _ hk
        _ = 2 ^ 1127 := by rw [← pow_add]
        _ ≤ 2 ^ 2098 := Nat.pow_le_pow_right (by norm_num) (by norm_num)
  · -- from there on the value is an integer
    have hd : (2 : Int) ^ 1074 ∣ valF64 a := by
      have h1 : ((2 ^ 1074 : Nat) : Int) ∣ magF64 a := by exact_mod_cast magOfPattern_dvd 52 1074 (patF64 a) hs
      unfold valF64
      push_cast at h1
      split
      · exact (dvd_neg).2 h1
      · exact h1
    have hv : floorInt a * 2 ^ 1074 = valF64 a := Int.ediv_mul_cancel hd
    obtain ⟨n, e, hn, he⟩ := magOfPattern_split 52 (patF64 a)
    refine ⟨n, e, hn, ?_, ?_⟩
    · rw [hv, natAbs_valF64]; exact he
    · rw [hv, natAbs_valF64]; exact ((magF64_lt_iff a).2 h).le

@[simp] theorem patF64_absF64 (a : F64) : patF64 (absF64 a) = patF64 a := by
  unfold patF64 absF64
  rw [BitVec.toNat_and, show (0x7FFFFFFFFFFFFFFF#64).toNat = 2 ^ 63 - 1 from rfl, Nat.and_two_pow_sub_one_eq_mod, Nat.mod_mod]

@[simp] theorem signF64_absF64 (a : F64) : signF64 (absF64 a) = false := by
  unfold signF64 absF64
  rw [BitVec.msb_and, show (0x7FFFFFFFFFFFFFFF#64).msb = false from rfl, Bool.and_false]

@[simp] theorem valF64_absF64 (a : F64) : valF64 (absF64 a) = |valF64 a| := by
  rw [abs_valF64]
  unfold valF64 magF64
  simp

@[simp] theorem finite64_absF64 (a : F64) : finite64 (absF64 a) = finite64 a := by simp [finite64]
@[simp] theorem isNaN64_absF64 (a : F64) : isNaN64 (absF64 a) = isNaN64 a := by simp [isNaN64]

/-! ### Operand rules -/

/-- The rate rule: one of the two bounds, or the rate itself within them (R92). -/
theorem sanitiseRate_cases (r : F64) :
    (sanitiseRate r = Config.minSampleRate ∧ leF64 Config.minSampleRate r = false) ∨
      (sanitiseRate r = Config.maxSampleRate ∧ leF64 Config.minSampleRate r = true ∧ ltF64 Config.maxSampleRate r = true) ∨
      (sanitiseRate r = r ∧ leF64 Config.minSampleRate r = true ∧ ltF64 Config.maxSampleRate r = false) := by
  unfold sanitiseRate
  cases h : leF64 Config.minSampleRate r <;> cases h' : ltF64 Config.maxSampleRate r <;> simp

/-- Clamping to [0, 1] answers a number in [0, 1], also for a NaN. -/
theorem clampUnit64_range (v : F64) :
    isNaN64 (clampUnit64 v) = false ∧ 0 ≤ valF64 (clampUnit64 v) ∧ valF64 (clampUnit64 v) ≤ 2 ^ 1074 := by
  have h1 : isNaN64 oneF64 = false := by decide
  have h0 : isNaN64 zeroF64 = false := by decide
  have hm : isNaN64 (maxF64 v zeroF64) = false ∧ 0 ≤ valF64 (maxF64 v zeroF64) := by
    cases hv : isNaN64 v
    · obtain ⟨a, b⟩ := maxF64_number hv h0
      exact ⟨a, by rw [b, valF64_zeroF64]; exact le_max_right _ _⟩
    · have hne : v ≠ zeroF64 := fun hc => by rw [hc, h0] at hv; exact Bool.noConfusion hv
      unfold maxF64
      rw [if_neg hne, if_neg (by simp [ltF64, hv]), if_neg (by simp [ltF64, hv])]
      exact ⟨isNaN64_packF64_zero _, (valF64_packF64_zero _).ge⟩
  obtain ⟨a, b⟩ := minF64_number hm.1 h1
  unfold clampUnit64
  rw [valF64_oneF64] at b
  exact ⟨a, by rw [b]; exact le_min hm.2 (by positivity), by rw [b]; exact min_le_right _ _⟩

/-- The operand rule of the smoother's settings answers a number in [0, 1] (R158, R159). -/
theorem unitOperand_range (v : F32) :
    isNaN32 (unitOperand v) = false ∧ 0 ≤ valF32 (unitOperand v) ∧ valF32 (unitOperand v) ≤ 2 ^ 149 := by
  have h1 : isNaN32 oneF32 = false := by decide
  have h0 : isNaN32 zeroF32 = false := by decide
  unfold unitOperand
  split
  · exact ⟨h0, valF32_zeroF32.ge, by rw [valF32_zeroF32]; positivity⟩
  · next hv =>
    obtain ⟨a, b⟩ := maxF32_number (a := v) (b := zeroF32) (by simpa using hv) h0
    obtain ⟨c, d⟩ := minF32_number a h1
    rw [b, valF32_oneF32, valF32_zeroF32] at d
    exact ⟨c, by rw [d]; exact le_min (le_max_right _ _) (by positivity), by rw [d]; exact min_le_right _ _⟩

end Sys2Proof.Machine
end

