-- ==== Sys2Proof/Laws/Analysis.lean ====
section
/-! SUPPORT. The analysis pass: the window as a list, the two searches for a lag, and the arithmetic of the difference function
and of the running sum, each function's whole behaviour in one lemma. -/

namespace Sys2Proof.Machine

/-! ### The window -/

@[simp] theorem length_linearise (d : Det) : (linearise d).length = d.windowSize := by simp [linearise]

theorem getElem?_linearise (d : Det) (j : Nat) (hj : j < d.windowSize) :
    (linearise d)[j]? = some (Memory.read d.win ((d.writePos + j) % d.windowSize)) := by
  simp [linearise, hj]

/-- Every value of the window comes from it. -/
theorem mem_linearise {d : Det} {v : F32} (h : v ∈ linearise d) : ∃ k, k < d.windowSize ∧ v = Memory.read d.win k := by
  obtain ⟨j, hj, rfl⟩ := List.mem_map.1 h
  exact ⟨_, Nat.mod_lt _ (Nat.zero_lt_of_lt (List.mem_range.1 hj)), rfl⟩

/-! ### The lag searches -/

/-- `firstBelow` answers the first lag below the threshold; the list starts at lag `t`. -/
theorem firstBelow_eq_some (t τ : Nat) (l : List F64) : firstBelow t l = some τ ↔
    ∃ j, τ = t + j ∧ (∃ c, l[j]? = some c ∧ ltF64 c Config.yinThreshold = true) ∧
      ∀ k c, k < j → l[k]? = some c → ltF64 c Config.yinThreshold = false := by
  induction l generalizing t with
  | nil => simp [firstBelow]
  | cons a l ih =>
    unfold firstBelow
    by_cases ha : ltF64 a Config.yinThreshold = true
    · rw [if_pos ha]
      constructor
      · intro h
        refine ⟨0, by simpa using h.symm, ⟨a, rfl, ha⟩, fun k c hk => absurd hk (Nat.not_lt_zero k)⟩
      · rintro ⟨j, rfl, -, hall⟩
        cases j with
        | zero => rfl
        | succ j => exact absurd (hall 0 a (Nat.succ_pos j) rfl) (by simp [ha])
    · rw [if_neg ha, ih]
      have ha' : ltF64 a Config.yinThreshold = false := by simpa using ha
      constructor
      · rintro ⟨j, rfl, hc, hall⟩
        refine ⟨j + 1, by omega, hc, fun k c hk hkc => ?_⟩
        cases k with
        | zero => obtain rfl : a = c := by simpa using hkc
                  exact ha'
        | succ k => exact hall k c (by omega) hkc
      · rintro ⟨j, rfl, ⟨c, hc, hlt⟩, hall⟩
        cases j with
        | zero => obtain rfl : a = c := by simpa using hc
                  exact absurd hlt ha
        | succ j => exact ⟨j, by omega, ⟨c, hc, hlt⟩, fun k c hk hkc => hall (k + 1) c (by omega) hkc⟩

theorem firstBelow_eq_none (t : Nat) (l : List F64) :
    firstBelow t l = none ↔ ∀ c ∈ l, ltF64 c Config.yinThreshold = false := by
  induction l generalizing t with
  | nil => simp [firstBelow]
  | cons a l ih =>
    unfold firstBelow
    by_cases ha : ltF64 a Config.yinThreshold = true
    · simp [ha]
    · rw [if_neg ha, ih]
      simp [ha]

/-- `walkDown` answers the end of the strictly falling run that starts at the head of the list, which has lag `t`. -/
theorem walkDown_spec (t : Nat) (a : F64) (l : List F64) : ∃ j, walkDown t (a :: l) = t + j ∧ j < (a :: l).length ∧
    (∀ k x y, k < j → (a :: l)[k]? = some x → (a :: l)[k + 1]? = some y → ltF64 y x = true) ∧
    ∀ x y, (a :: l)[j]? = some x → (a :: l)[j + 1]? = some y → ltF64 y x = false := by
  induction l generalizing t a with
  | nil => exact ⟨0, rfl, by simp, by simp, by simp⟩
  | cons b l ih =>
    unfold walkDown
    by_cases hb : ltF64 b a = true
    · rw [if_pos hb]
      obtain ⟨j, h1, h2, h3, h4⟩ := ih (t + 1) b
      refine ⟨j + 1, by rw [h1]; omega, by simpa using h2, fun k x y hk hx hy => ?_, h4⟩
      cases k with
      | zero =>
        obtain rfl : a = x := by simpa using hx
        obtain rfl : b = y := by simpa using hy
        exact hb
      | succ k => exact h3 k x y (by omega) hx hy
    · rw [if_neg hb]
      refine ⟨0, rfl, by simp, by simp, fun x y hx hy => ?_⟩
      obtain rfl : a = x := by simpa using hx
      obtain rfl : b = y := by simpa using hy
      simpa using hb

/-- `leastLag` answers the best lag so far, where nothing is below its value, or the first lag of the least value. -/
theorem leastLag_spec (best : Nat) (m : F64) (t : Nat) (l : List F64) (hm : isNaN64 m = false) (hl : ∀ c ∈ l, isNaN64 c = false) :
    (leastLag best m t l = best ∧ ∀ c ∈ l, valF64 m ≤ valF64 c) ∨
      ∃ j c, leastLag best m t l = t + j ∧ l[j]? = some c ∧ valF64 c < valF64 m ∧ (∀ x ∈ l, valF64 c ≤ valF64 x) ∧
        ∀ k x, k < j → l[k]? = some x → valF64 c < valF64 x := by
  induction l generalizing best m t with
  | nil => exact .inl ⟨rfl, by simp⟩
  | cons a l ih =>
    have ha : isNaN64 a = false := hl a (by simp)
    have hl' : ∀ c ∈ l, isNaN64 c = false := fun c hc => hl c (by simp [hc])
    unfold leastLag
    by_cases hlt : ltF64 a m = true
    · rw [if_pos hlt]
      have hv : valF64 a < valF64 m := ((ltF64_iff a m).1 hlt).2.2
      right
      rcases ih t a (t + 1) ha hl' with ⟨h1, h2⟩ | ⟨j, c, h1, h2, h3, h4, h5⟩
      · refine ⟨0, a, h1, rfl, hv, fun x hx => ?_, fun k x hk => absurd hk (Nat.not_lt_zero k)⟩
        rcases List.mem_cons.1 hx with rfl | hx
        · exact le_rfl
        · exact h2 x hx
      · refine ⟨j + 1, c, by rw [h1]; omega, h2, h3.trans hv, fun x hx => ?_, fun k x hk hkx => ?_⟩
        · rcases List.mem_cons.1 hx with rfl | hx
          · exact h3.le
          · exact h4 x hx
        · cases k with
          | zero => obtain rfl : a = x := by simpa using hkx
                    exact h3
          | succ k => exact h5 k x (by omega) hkx
    · rw [if_neg hlt]
      have hv : valF64 m ≤ valF64 a := by
        by_contra hc
        exact hlt ((ltF64_iff a m).2 ⟨ha, hm, not_le.1 hc⟩)
      rcases ih best m (t + 1) hm hl' with ⟨h1, h2⟩ | ⟨j, c, h1, h2, h3, h4, h5⟩
      · refine .inl ⟨h1, fun c hc => ?_⟩
        rcases List.mem_cons.1 hc with rfl | hc
        · exact hv
        · exact h2 c hc
      · refine .inr ⟨j + 1, c, by rw [h1]; omega, h2, h3, fun x hx => ?_, fun k x hk hkx => ?_⟩
        · rcases List.mem_cons.1 hx with rfl | hx
          · exact h3.le.trans hv
          · exact h4 x hx
        · cases k with
          | zero => obtain rfl : a = x := by simpa using hkx
                    exact h3.trans_le hv
          | succ k => exact h5 k x (by omega) hkx

/-! ### The difference function -/

/-- A power of two of the binary64 range that rounding to binary64 leaves alone bounds a rounded value. -/
theorem valRound64_abs_le {v : Int} {d e : Nat} (hd : 0 < d) (he : e ≤ 2098) (h : |v| ≤ 2 ^ e * d) : |valRound64 v d| ≤ 2 ^ e := by
  have hx : ∀ s : Int, s = 1 ∨ s = -1 → valRound64 (s * 2 ^ e * d) d = s * 2 ^ e := by
    intro s hs
    refine valRound64_representable (n := 1) e hd (by norm_num) ?_ ?_
    · rcases hs with rfl | rfl <;> simp [Int.natAbs_pow]
    · have : 2 ^ e ≤ 2 ^ 2098 := Nat.pow_le_pow_right (by norm_num) he
      rcases hs with rfl | rfl <;> simpa [Int.natAbs_mul, Int.natAbs_pow] using this
  obtain ⟨h1, h2⟩ := abs_le.1 h
  rw [abs_le]
  constructor
  · have h3 := valRound64_mono (v := -1 * 2 ^ e * d) (v' := v) hd hd (mul_le_mul_of_nonneg_right (by linarith) (by positivity))
    rw [hx _ (.inr rfl)] at h3
    linarith
  · have h3 := valRound64_mono (v := v) (v' := 1 * 2 ^ e * d) hd hd (mul_le_mul_of_nonneg_right (by linarith) (by positivity))
    rw [hx _ (.inl rfl)] at h3
    linarith

/-- A squared difference of two converted samples: finite, not negative, at most 2^258. -/
theorem squared_difference_range {a b : F32} (ha : finite32 a = true) (hb : finite32 b = true) :
    let e := subF64 (f64OfF32 a) (f64OfF32 b)
    finite64 (mulF64 e e) = true ∧ 0 ≤ valF64 (mulF64 e e) ∧ valF64 (mulF64 e e) ≤ 2 ^ 1332 := by
  obtain ⟨fa, va⟩ := f64OfF32_finite ha
  obtain ⟨fb, vb⟩ := f64OfF32_finite hb
  obtain ⟨hn, hv⟩ := subF64_finite fa fb
  have ba := abs_valF32_lt ha
  have bb := abs_valF32_lt hb
  have he : |valF64 (subF64 (f64OfF32 a) (f64OfF32 b))| ≤ 2 ^ 1203 := by
    rw [hv]
    refine valRound64_abs_le one_pos (by norm_num) ?_
    rw [va, vb, Nat.cast_one, mul_one, ← sub_mul, abs_mul, abs_of_pos (show (0 : ℤ) < 2 ^ 925 by positivity),
      show (1203 : ℕ) = 278 + 925 from rfl, pow_add]
    refine mul_le_mul_of_nonneg_right ?_ (by positivity)
    refine (abs_sub _ _).trans ?_
    rw [show (278 : ℕ) = 277 + 1 from rfl, pow_succ]
    linarith
  have hf : finite64 (subF64 (f64OfF32 a) (f64OfF32 b)) = true := finite64_of_val (by norm_num) he
  generalize subF64 (f64OfF32 a) (f64OfF32 b) = e at *
  dsimp only
  obtain ⟨mn, mv⟩ := mulF64_finite hf hf
  have hup : |valF64 (mulF64 e e)| ≤ 2 ^ 1332 := by
    rw [mv]
    refine valRound64_abs_le (by positivity) (by norm_num) ?_
    rw [abs_mul, Nat.cast_pow, Nat.cast_ofNat, ← pow_add, show 1332 + 1074 = 1203 + 1203 from rfl, pow_add]
    exact mul_le_mul he he (abs_nonneg _) (by positivity)
  refine ⟨finite64_of_val (by norm_num) hup, ?_, (le_abs_self _).trans hup⟩
  rw [mv]
  exact valRound_nonneg _ _ _ (mul_self_nonneg _)

/-- One more term of at most `2^e` keeps a sum of at most `n` of them at most `n · 2^e`, for up to 2^13 of them. -/
theorem addF64_step {acc c : F64} {n e : Nat} (he : e ≤ 2000) (hn : n < 2 ^ 13) (fa : finite64 acc = true) (a0 : 0 ≤ valF64 acc)
    (a1 : valF64 acc ≤ n * 2 ^ e) (fc : finite64 c = true) (c0 : 0 ≤ valF64 c) (c1 : valF64 c ≤ 2 ^ e) :
    finite64 (addF64 acc c) = true ∧ 0 ≤ valF64 (addF64 acc c) ∧ valF64 (addF64 acc c) ≤ ((n + 1 : Nat) : Int) * 2 ^ e := by
  obtain ⟨-, hv⟩ := addF64_finite fa fc
  have h0 : 0 ≤ valF64 (addF64 acc c) := by
    rw [hv]; exact valRound_nonneg _ _ _ (add_nonneg a0 c0)
  have h1 : valF64 (addF64 acc c) ≤ ((n + 1 : Nat) : Int) * 2 ^ e := by
    rw [hv]
    have hrep : valRound64 ((((n + 1 : Nat) : Int) * 2 ^ e) * ((1 : Nat) : Int)) 1 = ((n + 1 : Nat) : Int) * 2 ^ e := by
      have hab : (((n + 1 : Nat) : Int) * 2 ^ e).natAbs = (n + 1) * 2 ^ e := by
        rw [Int.natAbs_mul, Int.natAbs_pow, Int.natAbs_natCast]; rfl
      refine valRound64_representable (n := n + 1) e one_pos ?_ hab ?_
      · exact (Nat.succ_le_of_lt hn).trans (Nat.pow_le_pow_right (by norm_num) (by norm_num))
      · rw [hab]
        calc (n + 1) * 2 ^ e ≤ 2 ^ 13 * 2 ^ e := Nat.mul_le_mul_right _ hn
          _ ≤ 2 ^ 2098 := by rw [← pow_add]; exact Nat.pow_le_pow_right (by norm_num) (by omega)
    rw [← hrep]
    refine valRound64_mono one_pos one_pos (mul_le_mul_of_nonneg_right ?_ (by norm_num))
    push_cast
    rw [mul_one, add_mul, one_mul]
    exact add_le_add a1 c1
  refine ⟨finite64_of_val (m := 13 + e) (by omega) ?_, h0, h1⟩
  rw [abs_of_nonneg h0]
  refine h1.trans ?_
  rw [pow_add]
  exact mul_le_mul_of_nonneg_right (by exact_mod_cast hn) (by positivity)

/-- The direct path's sum, over converted finite samples: finite, not negative, at most the number of its terms times 2^258. -/
theorem sumSquares_range (xs ys : List F32) (acc : F64) (n : Nat) (hx : ∀ x ∈ xs, finite32 x = true) (hy : ∀ y ∈ ys, finite32 y = true)
    (hn : n + xs.length ≤ 2 ^ 13) (fa : finite64 acc = true) (a0 : 0 ≤ valF64 acc) (a1 : valF64 acc ≤ n * 2 ^ 1332) :
    let r := sumSquares acc (xs.map f64OfF32) (ys.map f64OfF32)
    finite64 r = true ∧ 0 ≤ valF64 r ∧ valF64 r ≤ ((n + xs.length : Nat) : Int) * 2 ^ 1332 := by
  have stay : ∀ k : Nat, finite64 acc = true ∧ 0 ≤ valF64 acc ∧ valF64 acc ≤ ((n + k : Nat) : Int) * 2 ^ 1332 := by
    intro k
    refine ⟨fa, a0, a1.trans (mul_le_mul_of_nonneg_right ?_ (by positivity))⟩
    exact_mod_cast Nat.le_add_right n k
  induction xs generalizing ys acc n with
  | nil => exact stay 0
  | cons x xs ih =>
    cases ys with
    | nil => exact stay _
    | cons y ys =>
      obtain ⟨c0, c1, c2⟩ := squared_difference_range (hx x (by simp)) (hy y (by simp))
      rw [List.length_cons] at hn ⊢
      obtain ⟨s0, s1, s2⟩ := addF64_step (by norm_num) (by omega) fa a0 a1 c0 c1 c2
      have := ih ys _ (n + 1) (fun z hz => hx z (by simp [hz])) (fun z hz => hy z (by simp [hz])) (by omega) s0 s1 s2
        (fun k => ⟨s0, s1, s2.trans (mul_le_mul_of_nonneg_right (by exact_mod_cast Nat.le_add_right (n + 1) k) (by positivity))⟩)
      rwa [show n + (xs.length + 1) = n + 1 + xs.length by ring]

/-- A list against itself has the sum +0.0. -/
theorem sumSquares_self (xs : List F64) (hx : ∀ x ∈ xs, finite64 x = true) : sumSquares 0#64 xs xs = 0#64 := by
  induction xs with
  | nil => rfl
  | cons x xs ih =>
    have hd : subF64 x x = 0#64 := by
      have fx := hx x (by simp)
      have fn : finite64 (negF64 x) = true := by rw [finite64_negF64]; exact fx
      have hz : valF64 x + valF64 (negF64 x) = 0 := by rw [valF64_negF64]; ring
      unfold subF64 addF64
      rw [not_isNaN64_of_finite fx, not_isNaN64_of_finite fn, not_isInf64_of_finite fx, not_isInf64_of_finite fn]
      simp only [Bool.or_self, Bool.false_eq_true, if_false, hz, if_true]
      rw [signF64_negF64, Bool.and_not_self]
      rfl
    unfold sumSquares
    rw [hd, show addF64 0#64 (mulF64 0#64 0#64) = 0#64 by decide +kernel]
    exact ih fun z hz => hx z (by simp [hz])

/-! The exact quantities of the FFT path. -/

theorem exactPower_nonneg (xs : List Int) : 0 ≤ exactPower xs := by
  induction xs with
  | nil => exact le_rfl
  | cons x xs ih => exact add_nonneg (mul_self_nonneg x) ih

/-- The exact difference function is not negative and at most twice the two power terms. -/
theorem exactDiff_bounds (xs ys : List Int) : 0 ≤ exactDiff xs ys ∧ exactDiff xs ys ≤ 2 * (exactPower xs + exactPower (ys.take xs.length)) := by
  induction xs generalizing ys with
  | nil => simp [exactDiff, exactPower]
  | cons x xs ih =>
    cases ys with
    | nil =>
      have := exactPower_nonneg (x :: xs)
      simp only [exactDiff, List.take_nil, exactPower] at *
      exact ⟨le_rfl, by linarith⟩
    | cons y ys =>
      obtain ⟨h1, h2⟩ := ih ys
      simp only [exactDiff, exactPower, List.length_cons, List.take_succ_cons]
      constructor
      · nlinarith [mul_self_nonneg (x - y)]
      · nlinarith [mul_self_nonneg (x + y)]

/-- The exact difference function of samples that are multiples of 2^-149, as a real sum. -/
theorem exactDiff_real (xs ys : List F32) :
    ((exactDiff (xs.map valF32) (ys.map valF32) : Int) : ℝ) / 2 ^ 298 =
      (List.zipWith (fun a b => (a - b) ^ 2) (xs.map fun v => (valF32 v : ℝ) / 2 ^ 149) (ys.map fun v => (valF32 v : ℝ) / 2 ^ 149)).sum := by
  induction xs generalizing ys with
  | nil => simp [exactDiff]
  | cons x xs ih =>
    cases ys with
    | nil => simp [exactDiff]
    | cons y ys =>
      simp only [List.map_cons, exactDiff, List.zipWith_cons_cons, List.sum_cons]
      rw [← ih ys, Int.cast_add, Int.cast_mul, Int.cast_sub, add_div, show (298 : ℕ) = 149 + 149 from rfl, pow_add]
      congr 1
      have : (2 : ℝ) ^ 149 ≠ 0 := by positivity
      generalize (2 : ℝ) ^ 149 = q at *
      field_simp

/-- A power term as a real sum. -/
theorem exactPower_real (xs : List F32) :
    ((exactPower (xs.map valF32) : Int) : ℝ) / 2 ^ 298 = ((xs.map fun v => (valF32 v : ℝ) / 2 ^ 149).map fun a => a ^ 2).sum := by
  induction xs with
  | nil => simp [exactPower]
  | cons x xs ih =>
    simp only [List.map_cons, exactPower, List.sum_cons]
    rw [← ih, Int.cast_add, Int.cast_mul, add_div, show (298 : ℕ) = 149 + 149 from rfl, pow_add]
    congr 1
    have : (2 : ℝ) ^ 149 ≠ 0 := by positivity
    generalize (2 : ℝ) ^ 149 = q at *
    field_simp

/-- A power term of `n` finite samples is below `n · 2^256` in units of one. -/
theorem exactPower_le (xs : List F32) (hx : ∀ x ∈ xs, finite32 x = true) :
    exactPower (xs.map valF32) ≤ xs.length * 2 ^ 554 := by
  induction xs with
  | nil => simp [exactPower]
  | cons x xs ih =>
    have h1 := ih fun z hz => hx z (by simp [hz])
    have h2 := (abs_valF32_lt (hx x (by simp))).le
    have h3 : valF32 x * valF32 x ≤ 2 ^ 554 := by
      rw [← abs_mul_abs_self, show (554 : ℕ) = 277 + 277 from rfl, pow_add]
      exact mul_le_mul h2 h2 (abs_nonneg _) (by positivity)
    simp only [List.map_cons, exactPower, List.length_cons]
    push_cast
    rw [add_mul, one_mul]
    linarith

/-! ### The running sum and the CMNDF -/

/-- One step of the running sum: it does not fall, and the new sum is at least the new term. -/
theorem addF64_grows {run d : F64} (fr : finite64 run = true) (fd : finite64 d = true) (r0 : 0 ≤ valF64 run) (d0 : 0 ≤ valF64 d) :
    valF64 run ≤ valF64 (addF64 run d) ∧ valF64 d ≤ valF64 (addF64 run d) := by
  rw [(addF64_finite fr fd).2]
  constructor
  · refine le_valRound64 one_pos (not_isNaN64_of_finite fr) ?_
    push_cast; linarith
  · refine le_valRound64 one_pos (not_isNaN64_of_finite fd) ?_
    push_cast; linarith

/-- A lag as a binary64: exact. -/
theorem ofIntF64_lag {τ : Nat} (h : τ ≤ 2 ^ 13) : finite64 (ofIntF64 τ) = true ∧ valF64 (ofIntF64 τ) = τ * 2 ^ 1074 := by
  obtain ⟨-, hv⟩ := valF64_ofIntF64 (τ : Int)
  have hab : ((τ : Int) * 2 ^ 1074).natAbs = τ * 2 ^ 1074 := by
    rw [Int.natAbs_mul, Int.natAbs_pow, Int.natAbs_natCast]; rfl
  have hle : τ * 2 ^ 1074 ≤ 2 ^ 1087 := by
    calc τ * 2 ^ 1074 ≤ 2 ^ 13 * 2 ^ 1074 := Nat.mul_le_mul_right _ h
      _ = 2 ^ 1087 := by rw [show (1087 : ℕ) = 13 + 1074 from rfl, pow_add]
  have hx := valRound64_representable (v := (τ : Int) * 2 ^ 1074) (d := 1) (n := τ) 1074 one_pos
    (h.trans (Nat.pow_le_pow_right (by norm_num) (by norm_num))) hab
    (by rw [hab]; exact hle.trans (Nat.pow_le_pow_right (by norm_num) (by norm_num)))
  rw [Nat.cast_one, mul_one] at hx
  rw [hx] at hv
  refine ⟨finite64_of_val (m := 1087) (by norm_num) ?_, hv⟩
  rw [hv, Int.abs_eq_natAbs, hab, ← Nat.cast_ofNat (R := Int), ← Nat.cast_pow, Nat.cast_le]
  exact hle

/-- A value of the CMNDF: finite, not negative, at most 2^13. -/
theorem cmndf_value_range {run d : F64} {τ : Nat} (hτ : τ ≤ 2 ^ 13) (fr : finite64 run = true) (fd : finite64 d = true)
    (d0 : 0 ≤ valF64 d) (d1 : valF64 d ≤ 2 ^ 1374) (hdr : valF64 d ≤ valF64 run) (hr : 0 < valF64 run) :
    finite64 (divF64 (mulF64 d (ofIntF64 τ)) run) = true ∧ 0 ≤ valF64 (divF64 (mulF64 d (ofIntF64 τ)) run) ∧
      valF64 (divF64 (mulF64 d (ofIntF64 τ)) run) ≤ 2 ^ 1087 := by
  obtain ⟨fτ, vτ⟩ := ofIntF64_lag hτ
  obtain ⟨-, hm⟩ := mulF64_finite fd fτ
  rw [vτ, ← mul_assoc] at hm
  have hm' : valF64 (mulF64 d (ofIntF64 τ)) = valRound64 (valF64 d * τ) 1 := by
    rw [hm]
    have hpos : (0 : ℕ) < 2 ^ 1074 := by positivity
    refine le_antisymm (valRound64_mono hpos one_pos ?_) (valRound64_mono one_pos hpos ?_) <;> (push_cast; linarith)
  have hup : valF64 (mulF64 d (ofIntF64 τ)) ≤ valF64 d * 2 ^ 13 := by
    obtain ⟨n, e, hn, hne⟩ := magOfPattern_split 52 (patF64 d)
    have hd' : (valF64 d * 2 ^ 13).natAbs = n * 2 ^ (e + 13) := by
      rw [Int.natAbs_mul, natAbs_valF64, Int.natAbs_pow]
      unfold magF64
      rw [hne, pow_add, mul_assoc]
      rfl
    have hx := valRound64_representable (v := valF64 d * 2 ^ 13) (d := 1) (n := n) (e + 13) one_pos hn hd' (by
      have h1 : valF64 d * 2 ^ 13 ≤ 2 ^ 1387 := by
        rw [show (1387 : ℕ) = 1374 + 13 from rfl, pow_add]
        exact mul_le_mul_of_nonneg_right d1 (by norm_num)
      have h2 : (0 : Int) ≤ valF64 d * 2 ^ 13 := by positivity
      have h3 : ((valF64 d * 2 ^ 13).natAbs : Int) ≤ 2 ^ 1387 := by rwa [Int.natAbs_of_nonneg h2]
      have h4 : (valF64 d * 2 ^ 13).natAbs ≤ 2 ^ 1387 := by exact_mod_cast h3
      exact h4.trans (Nat.pow_le_pow_right (by norm_num) (by norm_num)))
    rw [Nat.cast_one, mul_one] at hx
    rw [hm', ← hx]
    refine valRound64_mono one_pos one_pos (mul_le_mul_of_nonneg_right (mul_le_mul_of_nonneg_left ?_ d0) (by norm_num))
    exact_mod_cast hτ
  have h0 : 0 ≤ valF64 (mulF64 d (ofIntF64 τ)) := by
    rw [hm']; exact valRound_nonneg _ _ _ (mul_nonneg d0 (Int.natCast_nonneg τ))
  have hmf : finite64 (mulF64 d (ofIntF64 τ)) = true := by
    refine finite64_of_val (m := 1387) (by norm_num) ?_
    rw [abs_of_nonneg h0, show (1387 : ℕ) = 1374 + 13 from rfl, pow_add]
    exact hup.trans (mul_le_mul_of_nonneg_right d1 (by norm_num))
  obtain ⟨-, hq⟩ := divF64_finite hmf fr hr.ne'
  rw [Int.sign_eq_one_of_pos hr, mul_one] at hq
  have hra : ((valF64 run).natAbs : Int) = valF64 run := Int.natAbs_of_nonneg hr.le
  have hrp : 0 < (valF64 run).natAbs := Int.natAbs_pos.2 hr.ne'
  have hc : |valF64 (divF64 (mulF64 d (ofIntF64 τ)) run)| ≤ 2 ^ 1087 := by
    rw [hq]
    refine valRound64_abs_le hrp (by norm_num) ?_
    rw [abs_of_nonneg (mul_nonneg h0 (by positivity)), hra, show (1087 : ℕ) = 13 + 1074 from rfl, pow_add, mul_assoc,
      mul_comm ((2 : Int) ^ 1074), ← mul_assoc]
    refine mul_le_mul_of_nonneg_right ?_ (by positivity)
    linarith
  refine ⟨finite64_of_val (by norm_num) hc, ?_, (le_abs_self _).trans hc⟩
  rw [hq]
  exact valRound_nonneg _ _ _ (mul_nonneg h0 (by positivity))

/-- The loop of the running sum over terms below 2^300, at most 2^13 of them: every value is finite and not negative, the sum
is finite and does not fall. -/
theorem cmndfLoop_range (ds : List F64) (τ n : Nat) (run : F64) (hd : ∀ d ∈ ds, finite64 d = true ∧ 0 ≤ valF64 d ∧ valF64 d ≤ 2 ^ 1374)
    (hτn : τ + ds.length ≤ 2 ^ 13) (hn : n + ds.length ≤ 2 ^ 13) (fr : finite64 run = true) (r0 : 0 ≤ valF64 run)
    (r1 : valF64 run ≤ n * 2 ^ 1374) :
    (cmndfLoop τ run ds).1.length = ds.length ∧ (∀ c ∈ (cmndfLoop τ run ds).1, finite64 c = true ∧ 0 ≤ valF64 c) ∧
      finite64 (cmndfLoop τ run ds).2 = true ∧ valF64 run ≤ valF64 (cmndfLoop τ run ds).2 := by
  induction ds generalizing τ n run with
  | nil => exact ⟨rfl, by simp [cmndfLoop], fr, le_rfl⟩
  | cons d ds ih =>
    rw [List.length_cons] at *
    obtain ⟨fd, d0, d1⟩ := hd d (by simp)
    obtain ⟨s0, s1, s2⟩ := addF64_step (e := 1374) (by norm_num) (by omega) fr r0 r1 fd d0 d1
    obtain ⟨g1, g2⟩ := addF64_grows fr fd r0 d0
    obtain ⟨i1, i2, i3, i4⟩ := ih (τ + 1) (n + 1) (addF64 run d) (fun z hz => hd z (by simp [hz])) (by omega) (by omega) s0 s1 s2
    have hc : ∀ c, c = (if ltF64 zeroF64 (addF64 run d) then divF64 (mulF64 d (ofIntF64 τ)) (addF64 run d) else oneF64) →
        finite64 c = true ∧ 0 ≤ valF64 c := by
      rintro c rfl
      split
      · next h =>
        have hpos := ((ltF64_iff _ _).1 h).2.2
        rw [valF64_zeroF64] at hpos
        obtain ⟨c0, c1, -⟩ := cmndf_value_range (τ := τ) (by omega) s0 fd d0 d1 g2 hpos
        exact ⟨c0, c1⟩
      · exact ⟨(by decide +kernel : finite64 oneF64 = true), by rw [valF64_oneF64]; positivity⟩
    refine ⟨by simp [cmndfLoop, i1], fun c hcm => ?_, i3, g1.trans i4⟩
    rcases List.mem_cons.1 (show c ∈ _ :: (cmndfLoop (τ + 1) (addF64 run d) ds).1 from hcm) with rfl | h
    · exact hc _ rfl
    · exact i2 c h

/-! ### The result -/

/-- The parts of a result at an accepted lag: no pitch, or a frequency between the two limits with the clamped confidence. -/
theorem resultAt_cases (fa : F64) (cm : List F64) (τ : Nat) :
    resultAt fa cm τ = noPitch ∨
      (isNaN64 (divF64 fa (refineLag cm τ)) = false ∧ 20 * 2 ^ 1074 ≤ valF64 (divF64 fa (refineLag cm τ)) ∧
        valF64 (divF64 fa (refineLag cm τ)) < 5000 * 2 ^ 1074 ∧
        resultAt fa cm τ = { frequency := f32OfF64 (divF64 fa (refineLag cm τ)), confidence := f32OfF64 (confidenceAt cm τ) }) := by
  unfold resultAt
  dsimp only
  split
  · exact .inl rfl
  · split
    · exact .inl rfl
    · next h =>
      rw [Bool.not_eq_true', Bool.not_eq_false, Bool.and_eq_true, leF64_iff, ltF64_iff, valF64_freqLo, valF64_freqHi] at h
      exact .inr ⟨h.1.2.1, h.1.2.2, h.2.2.2, rfl⟩

/-- The parts of a pass: silence, no lag, or the result at the accepted lag. -/
theorem resultOfDiff_cases (fallback : Bool) (fa : F64) (d : List F64) :
    (leF64 (cmndf d).2 zeroF64 = true ∧ resultOfDiff fallback fa d = noPitch) ∨
      (leF64 (cmndf d).2 zeroF64 = false ∧ selectLag fallback (cmndf d).1 = none ∧ resultOfDiff fallback fa d = noPitch) ∨
      ∃ τ, leF64 (cmndf d).2 zeroF64 = false ∧ selectLag fallback (cmndf d).1 = some τ ∧
        resultOfDiff fallback fa d = resultAt fa (cmndf d).1 τ := by
  unfold resultOfDiff
  dsimp only
  split
  · next h => exact .inl ⟨h, rfl⟩
  · next h =>
    rw [Bool.not_eq_true] at h
    split
    · next hs => exact .inr (.inl ⟨h, hs, rfl⟩)
    · next τ hs => exact .inr (.inr ⟨τ, h, hs, rfl⟩)

end Sys2Proof.Machine
end

