-- ==== Sys2Proof/Laws/Memory.lean ====
section
/-! SUPPORT. The internal memories: a write is read back at its index and nowhere else, every write keeps the canonical form,
and canonical memories with equal elements are equal. -/

namespace Sys2Proof.Machine

theorem Memory.wfAbove_mono {m : Memory} {a b : Nat} (hab : a ≤ b) (h : Memory.wfAbove b m = true) :
    Memory.wfAbove a m = true := by
  cases m with
  | nil => rfl
  | cons e rest =>
    obtain ⟨k, v⟩ := e
    simp only [Memory.wfAbove, Bool.and_eq_true, decide_eq_true_eq] at h ⊢
    exact ⟨⟨by omega, h.1.2⟩, h.2⟩

theorem Memory.wf_cons {k : Nat} {v : F32} {rest : Memory} :
    Memory.wf ((k, v) :: rest) = true ↔ v ≠ 0#32 ∧ Memory.wfAbove k rest = true := by
  simp [Memory.wf]

theorem Memory.wfAbove_cons {b k : Nat} {v : F32} {rest : Memory} :
    Memory.wfAbove b ((k, v) :: rest) = true ↔ b < k ∧ v ≠ 0#32 ∧ Memory.wfAbove k rest = true := by
  simp [Memory.wfAbove, and_assoc]

/-- A canonical memory above `b` is canonical. -/
theorem Memory.wf_of_wfAbove {m : Memory} {b : Nat} (h : Memory.wfAbove b m = true) : Memory.wf m = true := by
  cases m with
  | nil => rfl
  | cons e rest =>
    obtain ⟨k, v⟩ := e
    exact Memory.wf_cons.2 (Memory.wfAbove_cons.1 h).2

/-- A memory whose indices are all above `b` holds +0.0 up to `b`. -/
theorem Memory.read_of_wfAbove {m : Memory} {b i : Nat} (h : Memory.wfAbove b m = true) (hi : i ≤ b) :
    Memory.read m i = 0#32 := by
  induction m generalizing b with
  | nil => rfl
  | cons e rest ih =>
    obtain ⟨k, v⟩ := e
    obtain ⟨hk, -, hrest⟩ := Memory.wfAbove_cons.1 h
    simp [Memory.read, show k ≠ i by omega, ih hrest (by omega : i ≤ k)]

/-- A write keeps a memory above `b` when its index is. -/
theorem Memory.write_wfAbove {m : Memory} {b i : Nat} (v : F32) (h : Memory.wfAbove b m = true) (hi : b < i) :
    Memory.wfAbove b (Memory.write m i v) = true := by
  induction m generalizing b with
  | nil =>
    by_cases hv : v = 0#32
    · simp [Memory.write, hv, Memory.wfAbove]
    · simp [Memory.write, hv, Memory.wfAbove, hi]
  | cons e rest ih =>
    obtain ⟨k, w⟩ := e
    obtain ⟨hk, hw, hrest⟩ := Memory.wfAbove_cons.1 h
    unfold Memory.write
    split
    · split
      · exact h
      · next hlt hv =>
        exact Memory.wfAbove_cons.2 ⟨hi, hv, Memory.wfAbove_cons.2 ⟨hlt, hw, hrest⟩⟩
    · split
      · next heq =>
        split
        · exact Memory.wfAbove_mono (by omega) hrest
        · next hv => exact Memory.wfAbove_cons.2 ⟨hi, hv, by rw [heq]; exact hrest⟩
      · exact Memory.wfAbove_cons.2 ⟨hk, hw, ih hrest (by omega)⟩

/-- Every write keeps the canonical form. -/
theorem Memory.write_wf {m : Memory} (i : Nat) (v : F32) (h : Memory.wf m = true) : Memory.wf (Memory.write m i v) = true := by
  cases m with
  | nil =>
    by_cases hv : v = 0#32
    · simp [Memory.write, hv, Memory.wf]
    · simp [Memory.write, hv, Memory.wf, Memory.wfAbove]
  | cons e rest =>
    obtain ⟨k, w⟩ := e
    obtain ⟨hw, hrest⟩ := Memory.wf_cons.1 h
    unfold Memory.write
    split
    · split
      · exact h
      · next hlt hv => exact Memory.wf_cons.2 ⟨hv, Memory.wfAbove_cons.2 ⟨hlt, hw, hrest⟩⟩
    · split
      · next heq =>
        split
        · exact Memory.wf_of_wfAbove hrest
        · next hv => exact Memory.wf_cons.2 ⟨hv, by rw [heq]; exact hrest⟩
      · exact Memory.wf_cons.2 ⟨hw, Memory.write_wfAbove v hrest (by omega)⟩

/-- Reading where a canonical memory was just written answers the value written. -/
theorem Memory.read_write_same {m : Memory} (i : Nat) (v : F32) (h : Memory.wf m = true) :
    Memory.read (Memory.write m i v) i = v := by
  induction m with
  | nil =>
    by_cases hv : v = 0#32
    · simp [Memory.write, hv, Memory.read]
    · simp [Memory.write, hv, Memory.read]
  | cons e rest ih =>
    obtain ⟨k, w⟩ := e
    obtain ⟨hw, hrest⟩ := Memory.wf_cons.1 h
    unfold Memory.write
    split
    · next hlt =>
      split
      · next hv =>
        rw [hv]
        simp [Memory.read, show k ≠ i by omega, Memory.read_of_wfAbove hrest (by omega : i ≤ k)]
      · simp [Memory.read]
    · split
      · next heq =>
        split
        · next hv => rw [hv, Memory.read_of_wfAbove hrest (by omega : i ≤ k)]
        · simp [Memory.read]
      · next hlt hne => simp [Memory.read, show k ≠ i from fun e => hne e.symm, ih (Memory.wf_of_wfAbove hrest)]

/-- A write leaves every other index alone. -/
theorem Memory.read_write_other (m : Memory) {i j : Nat} (v : F32) (hij : j ≠ i) :
    Memory.read (Memory.write m i v) j = Memory.read m j := by
  induction m with
  | nil =>
    by_cases hv : v = 0#32
    · simp [Memory.write, hv]
    · simp [Memory.write, hv, Memory.read, hij.symm]
  | cons e rest ih =>
    obtain ⟨k, w⟩ := e
    unfold Memory.write
    split
    · split
      · rfl
      · simp [Memory.read, hij.symm]
    · split
      · next heq =>
        subst heq
        split <;> simp [Memory.read, hij.symm]
      · simp [Memory.read, ih]

/-- What every index holds after a write to a canonical memory. -/
theorem Memory.read_write {m : Memory} (h : Memory.wf m = true) (i j : Nat) (v : F32) :
    Memory.read (Memory.write m i v) j = if j = i then v else Memory.read m j := by
  split
  · next hji => rw [hji, Memory.read_write_same i v h]
  · next hji => exact Memory.read_write_other m v hji

/-- Above `b`, memories with equal elements are equal. -/
theorem Memory.ext_above {m m' : Memory} {b : Nat} (h : Memory.wfAbove b m = true) (h' : Memory.wfAbove b m' = true)
    (hr : ∀ i, Memory.read m i = Memory.read m' i) : m = m' := by
  induction m generalizing b m' with
  | nil =>
    cases m' with
    | nil => rfl
    | cons e' rest' =>
      obtain ⟨k', v'⟩ := e'
      have := hr k'
      simp only [Memory.read, if_true] at this
      exact absurd this.symm (Memory.wfAbove_cons.1 h').2.1
  | cons e rest ih =>
    obtain ⟨k, v⟩ := e
    obtain ⟨hk, hv, hrest⟩ := Memory.wfAbove_cons.1 h
    cases m' with
    | nil =>
      have := hr k
      simp only [Memory.read, if_true] at this
      exact absurd this hv
    | cons e' rest' =>
      obtain ⟨k', v'⟩ := e'
      obtain ⟨hk', hv', hrest'⟩ := Memory.wfAbove_cons.1 h'
      have hkk : k = k' := by
        by_contra hne
        rcases Nat.lt_or_gt_of_ne hne with hlt | hlt
        · have := hr k
          simp only [Memory.read, if_true, show k' ≠ k by omega, if_false,
            Memory.read_of_wfAbove hrest' (by omega : k ≤ k')] at this
          exact hv this
        · have := hr k'
          simp only [Memory.read, if_true, show k ≠ k' by omega, if_false,
            Memory.read_of_wfAbove hrest (by omega : k' ≤ k)] at this
          exact hv' this.symm
      subst hkk
      have hvv : v = v' := by simpa [Memory.read] using hr k
      subst hvv
      congr 1
      refine ih hrest hrest' fun i => ?_
      by_cases hi : k = i
      · subst hi
        rw [Memory.read_of_wfAbove hrest le_rfl, Memory.read_of_wfAbove hrest' le_rfl]
      · simpa [Memory.read, hi] using hr i

/-- Canonical memories with equal elements are equal. -/
theorem Memory.ext {m m' : Memory} (h : Memory.wf m = true) (h' : Memory.wf m' = true)
    (hr : ∀ i, Memory.read m i = Memory.read m' i) : m = m' := by
  cases m with
  | nil =>
    cases m' with
    | nil => rfl
    | cons e' rest' =>
      obtain ⟨k', v'⟩ := e'
      have := hr k'
      simp only [Memory.read, if_true] at this
      exact absurd this.symm (Memory.wf_cons.1 h').1
  | cons e rest =>
    obtain ⟨k, v⟩ := e
    obtain ⟨hv, hrest⟩ := Memory.wf_cons.1 h
    cases m' with
    | nil =>
      have := hr k
      simp only [Memory.read, if_true] at this
      exact absurd this hv
    | cons e' rest' =>
      obtain ⟨k', v'⟩ := e'
      obtain ⟨hv', hrest'⟩ := Memory.wf_cons.1 h'
      have hkk : k = k' := by
        by_contra hne
        rcases Nat.lt_or_gt_of_ne hne with hlt | hlt
        · have := hr k
          simp only [Memory.read, if_true, show k' ≠ k by omega, if_false,
            Memory.read_of_wfAbove hrest' (by omega : k ≤ k')] at this
          exact hv this
        · have := hr k'
          simp only [Memory.read, if_true, show k ≠ k' by omega, if_false,
            Memory.read_of_wfAbove hrest (by omega : k' ≤ k)] at this
          exact hv' this.symm
      subst hkk
      have hvv : v = v' := by simpa [Memory.read] using hr k
      subst hvv
      congr 1
      refine Memory.ext_above hrest hrest' fun i => ?_
      by_cases hi : k = i
      · subst hi
        rw [Memory.read_of_wfAbove hrest le_rfl, Memory.read_of_wfAbove hrest' le_rfl]
      · simpa [Memory.read, hi] using hr i

end Sys2Proof.Machine
end

