-- ==== Sys2Proof/Laws/State.lean ====
section
/-! SUPPORT. One lemma per field per update of the state (each true by rfl), so that no proof unfolds a record update. -/

namespace Sys2Proof.Machine

variable (s : State)

/-! ### `withCmd` -/

@[simp] theorem State.withCmd_cmd (v : Word) : (s.withCmd v).cmd = v := rfl
@[simp] theorem State.withCmd_arg0Lo (v : Word) : (s.withCmd v).arg0Lo = s.arg0Lo := rfl
@[simp] theorem State.withCmd_arg0Hi (v : Word) : (s.withCmd v).arg0Hi = s.arg0Hi := rfl
@[simp] theorem State.withCmd_arg1 (v : Word) : (s.withCmd v).arg1 = s.arg1 := rfl
@[simp] theorem State.withCmd_arg2 (v : Word) : (s.withCmd v).arg2 = s.arg2 := rfl
@[simp] theorem State.withCmd_res0 (v : Word) : (s.withCmd v).res0 = s.res0 := rfl
@[simp] theorem State.withCmd_res1 (v : Word) : (s.withCmd v).res1 = s.res1 := rfl
@[simp] theorem State.withCmd_sticky (v : Word) : (s.withCmd v).sticky = s.sticky := rfl
@[simp] theorem State.withCmd_ctrl (v : Word) : (s.withCmd v).ctrl = s.ctrl := rfl
@[simp] theorem State.withCmd_acfg (v : Word) : (s.withCmd v).acfg = s.acfg := rfl
@[simp] theorem State.withCmd_det (v : Word) : (s.withCmd v).det = s.det := rfl
@[simp] theorem State.withCmd_queue (v : Word) : (s.withCmd v).queue = s.queue := rfl
@[simp] theorem State.withCmd_osc (v : Word) : (s.withCmd v).osc = s.osc := rfl
@[simp] theorem State.withCmd_smo (v : Word) : (s.withCmd v).smo = s.smo := rfl
@[simp] theorem State.withCmd_dec (v : Word) : (s.withCmd v).dec = s.dec := rfl
@[simp] theorem State.withCmd_rdata (v : Word) : (s.withCmd v).rdata = s.rdata := rfl
@[simp] theorem State.withCmd_draws (v : Word) : (s.withCmd v).draws = s.draws := rfl
@[simp] theorem State.withCmd_inbox (v : Word) : (s.withCmd v).inbox = s.inbox := rfl

/-! ### `withArg0Lo` -/

@[simp] theorem State.withArg0Lo_cmd (v : Word) : (s.withArg0Lo v).cmd = s.cmd := rfl
@[simp] theorem State.withArg0Lo_arg0Lo (v : Word) : (s.withArg0Lo v).arg0Lo = v := rfl
@[simp] theorem State.withArg0Lo_arg0Hi (v : Word) : (s.withArg0Lo v).arg0Hi = s.arg0Hi := rfl
@[simp] theorem State.withArg0Lo_arg1 (v : Word) : (s.withArg0Lo v).arg1 = s.arg1 := rfl
@[simp] theorem State.withArg0Lo_arg2 (v : Word) : (s.withArg0Lo v).arg2 = s.arg2 := rfl
@[simp] theorem State.withArg0Lo_res0 (v : Word) : (s.withArg0Lo v).res0 = s.res0 := rfl
@[simp] theorem State.withArg0Lo_res1 (v : Word) : (s.withArg0Lo v).res1 = s.res1 := rfl
@[simp] theorem State.withArg0Lo_sticky (v : Word) : (s.withArg0Lo v).sticky = s.sticky := rfl
@[simp] theorem State.withArg0Lo_ctrl (v : Word) : (s.withArg0Lo v).ctrl = s.ctrl := rfl
@[simp] theorem State.withArg0Lo_acfg (v : Word) : (s.withArg0Lo v).acfg = s.acfg := rfl
@[simp] theorem State.withArg0Lo_det (v : Word) : (s.withArg0Lo v).det = s.det := rfl
@[simp] theorem State.withArg0Lo_queue (v : Word) : (s.withArg0Lo v).queue = s.queue := rfl
@[simp] theorem State.withArg0Lo_osc (v : Word) : (s.withArg0Lo v).osc = s.osc := rfl
@[simp] theorem State.withArg0Lo_smo (v : Word) : (s.withArg0Lo v).smo = s.smo := rfl
@[simp] theorem State.withArg0Lo_dec (v : Word) : (s.withArg0Lo v).dec = s.dec := rfl
@[simp] theorem State.withArg0Lo_rdata (v : Word) : (s.withArg0Lo v).rdata = s.rdata := rfl
@[simp] theorem State.withArg0Lo_draws (v : Word) : (s.withArg0Lo v).draws = s.draws := rfl
@[simp] theorem State.withArg0Lo_inbox (v : Word) : (s.withArg0Lo v).inbox = s.inbox := rfl

/-! ### `withArg0Hi` -/

@[simp] theorem State.withArg0Hi_cmd (v : Word) : (s.withArg0Hi v).cmd = s.cmd := rfl
@[simp] theorem State.withArg0Hi_arg0Lo (v : Word) : (s.withArg0Hi v).arg0Lo = s.arg0Lo := rfl
@[simp] theorem State.withArg0Hi_arg0Hi (v : Word) : (s.withArg0Hi v).arg0Hi = v := rfl
@[simp] theorem State.withArg0Hi_arg1 (v : Word) : (s.withArg0Hi v).arg1 = s.arg1 := rfl
@[simp] theorem State.withArg0Hi_arg2 (v : Word) : (s.withArg0Hi v).arg2 = s.arg2 := rfl
@[simp] theorem State.withArg0Hi_res0 (v : Word) : (s.withArg0Hi v).res0 = s.res0 := rfl
@[simp] theorem State.withArg0Hi_res1 (v : Word) : (s.withArg0Hi v).res1 = s.res1 := rfl
@[simp] theorem State.withArg0Hi_sticky (v : Word) : (s.withArg0Hi v).sticky = s.sticky := rfl
@[simp] theorem State.withArg0Hi_ctrl (v : Word) : (s.withArg0Hi v).ctrl = s.ctrl := rfl
@[simp] theorem State.withArg0Hi_acfg (v : Word) : (s.withArg0Hi v).acfg = s.acfg := rfl
@[simp] theorem State.withArg0Hi_det (v : Word) : (s.withArg0Hi v).det = s.det := rfl
@[simp] theorem State.withArg0Hi_queue (v : Word) : (s.withArg0Hi v).queue = s.queue := rfl
@[simp] theorem State.withArg0Hi_osc (v : Word) : (s.withArg0Hi v).osc = s.osc := rfl
@[simp] theorem State.withArg0Hi_smo (v : Word) : (s.withArg0Hi v).smo = s.smo := rfl
@[simp] theorem State.withArg0Hi_dec (v : Word) : (s.withArg0Hi v).dec = s.dec := rfl
@[simp] theorem State.withArg0Hi_rdata (v : Word) : (s.withArg0Hi v).rdata = s.rdata := rfl
@[simp] theorem State.withArg0Hi_draws (v : Word) : (s.withArg0Hi v).draws = s.draws := rfl
@[simp] theorem State.withArg0Hi_inbox (v : Word) : (s.withArg0Hi v).inbox = s.inbox := rfl

/-! ### `withArg1` -/

@[simp] theorem State.withArg1_cmd (v : F32) : (s.withArg1 v).cmd = s.cmd := rfl
@[simp] theorem State.withArg1_arg0Lo (v : F32) : (s.withArg1 v).arg0Lo = s.arg0Lo := rfl
@[simp] theorem State.withArg1_arg0Hi (v : F32) : (s.withArg1 v).arg0Hi = s.arg0Hi := rfl
@[simp] theorem State.withArg1_arg1 (v : F32) : (s.withArg1 v).arg1 = v := rfl
@[simp] theorem State.withArg1_arg2 (v : F32) : (s.withArg1 v).arg2 = s.arg2 := rfl
@[simp] theorem State.withArg1_res0 (v : F32) : (s.withArg1 v).res0 = s.res0 := rfl
@[simp] theorem State.withArg1_res1 (v : F32) : (s.withArg1 v).res1 = s.res1 := rfl
@[simp] theorem State.withArg1_sticky (v : F32) : (s.withArg1 v).sticky = s.sticky := rfl
@[simp] theorem State.withArg1_ctrl (v : F32) : (s.withArg1 v).ctrl = s.ctrl := rfl
@[simp] theorem State.withArg1_acfg (v : F32) : (s.withArg1 v).acfg = s.acfg := rfl
@[simp] theorem State.withArg1_det (v : F32) : (s.withArg1 v).det = s.det := rfl
@[simp] theorem State.withArg1_queue (v : F32) : (s.withArg1 v).queue = s.queue := rfl
@[simp] theorem State.withArg1_osc (v : F32) : (s.withArg1 v).osc = s.osc := rfl
@[simp] theorem State.withArg1_smo (v : F32) : (s.withArg1 v).smo = s.smo := rfl
@[simp] theorem State.withArg1_dec (v : F32) : (s.withArg1 v).dec = s.dec := rfl
@[simp] theorem State.withArg1_rdata (v : F32) : (s.withArg1 v).rdata = s.rdata := rfl
@[simp] theorem State.withArg1_draws (v : F32) : (s.withArg1 v).draws = s.draws := rfl
@[simp] theorem State.withArg1_inbox (v : F32) : (s.withArg1 v).inbox = s.inbox := rfl

/-! ### `withArg2` -/

@[simp] theorem State.withArg2_cmd (v : F32) : (s.withArg2 v).cmd = s.cmd := rfl
@[simp] theorem State.withArg2_arg0Lo (v : F32) : (s.withArg2 v).arg0Lo = s.arg0Lo := rfl
@[simp] theorem State.withArg2_arg0Hi (v : F32) : (s.withArg2 v).arg0Hi = s.arg0Hi := rfl
@[simp] theorem State.withArg2_arg1 (v : F32) : (s.withArg2 v).arg1 = s.arg1 := rfl
@[simp] theorem State.withArg2_arg2 (v : F32) : (s.withArg2 v).arg2 = v := rfl
@[simp] theorem State.withArg2_res0 (v : F32) : (s.withArg2 v).res0 = s.res0 := rfl
@[simp] theorem State.withArg2_res1 (v : F32) : (s.withArg2 v).res1 = s.res1 := rfl
@[simp] theorem State.withArg2_sticky (v : F32) : (s.withArg2 v).sticky = s.sticky := rfl
@[simp] theorem State.withArg2_ctrl (v : F32) : (s.withArg2 v).ctrl = s.ctrl := rfl
@[simp] theorem State.withArg2_acfg (v : F32) : (s.withArg2 v).acfg = s.acfg := rfl
@[simp] theorem State.withArg2_det (v : F32) : (s.withArg2 v).det = s.det := rfl
@[simp] theorem State.withArg2_queue (v : F32) : (s.withArg2 v).queue = s.queue := rfl
@[simp] theorem State.withArg2_osc (v : F32) : (s.withArg2 v).osc = s.osc := rfl
@[simp] theorem State.withArg2_smo (v : F32) : (s.withArg2 v).smo = s.smo := rfl
@[simp] theorem State.withArg2_dec (v : F32) : (s.withArg2 v).dec = s.dec := rfl
@[simp] theorem State.withArg2_rdata (v : F32) : (s.withArg2 v).rdata = s.rdata := rfl
@[simp] theorem State.withArg2_draws (v : F32) : (s.withArg2 v).draws = s.draws := rfl
@[simp] theorem State.withArg2_inbox (v : F32) : (s.withArg2 v).inbox = s.inbox := rfl

/-! ### `withRes0` -/

@[simp] theorem State.withRes0_cmd (v : Word) : (s.withRes0 v).cmd = s.cmd := rfl
@[simp] theorem State.withRes0_arg0Lo (v : Word) : (s.withRes0 v).arg0Lo = s.arg0Lo := rfl
@[simp] theorem State.withRes0_arg0Hi (v : Word) : (s.withRes0 v).arg0Hi = s.arg0Hi := rfl
@[simp] theorem State.withRes0_arg1 (v : Word) : (s.withRes0 v).arg1 = s.arg1 := rfl
@[simp] theorem State.withRes0_arg2 (v : Word) : (s.withRes0 v).arg2 = s.arg2 := rfl
@[simp] theorem State.withRes0_res0 (v : Word) : (s.withRes0 v).res0 = v := rfl
@[simp] theorem State.withRes0_res1 (v : Word) : (s.withRes0 v).res1 = s.res1 := rfl
@[simp] theorem State.withRes0_sticky (v : Word) : (s.withRes0 v).sticky = s.sticky := rfl
@[simp] theorem State.withRes0_ctrl (v : Word) : (s.withRes0 v).ctrl = s.ctrl := rfl
@[simp] theorem State.withRes0_acfg (v : Word) : (s.withRes0 v).acfg = s.acfg := rfl
@[simp] theorem State.withRes0_det (v : Word) : (s.withRes0 v).det = s.det := rfl
@[simp] theorem State.withRes0_queue (v : Word) : (s.withRes0 v).queue = s.queue := rfl
@[simp] theorem State.withRes0_osc (v : Word) : (s.withRes0 v).osc = s.osc := rfl
@[simp] theorem State.withRes0_smo (v : Word) : (s.withRes0 v).smo = s.smo := rfl
@[simp] theorem State.withRes0_dec (v : Word) : (s.withRes0 v).dec = s.dec := rfl
@[simp] theorem State.withRes0_rdata (v : Word) : (s.withRes0 v).rdata = s.rdata := rfl
@[simp] theorem State.withRes0_draws (v : Word) : (s.withRes0 v).draws = s.draws := rfl
@[simp] theorem State.withRes0_inbox (v : Word) : (s.withRes0 v).inbox = s.inbox := rfl

/-! ### `withRes1` -/

@[simp] theorem State.withRes1_cmd (v : Word) : (s.withRes1 v).cmd = s.cmd := rfl
@[simp] theorem State.withRes1_arg0Lo (v : Word) : (s.withRes1 v).arg0Lo = s.arg0Lo := rfl
@[simp] theorem State.withRes1_arg0Hi (v : Word) : (s.withRes1 v).arg0Hi = s.arg0Hi := rfl
@[simp] theorem State.withRes1_arg1 (v : Word) : (s.withRes1 v).arg1 = s.arg1 := rfl
@[simp] theorem State.withRes1_arg2 (v : Word) : (s.withRes1 v).arg2 = s.arg2 := rfl
@[simp] theorem State.withRes1_res0 (v : Word) : (s.withRes1 v).res0 = s.res0 := rfl
@[simp] theorem State.withRes1_res1 (v : Word) : (s.withRes1 v).res1 = v := rfl
@[simp] theorem State.withRes1_sticky (v : Word) : (s.withRes1 v).sticky = s.sticky := rfl
@[simp] theorem State.withRes1_ctrl (v : Word) : (s.withRes1 v).ctrl = s.ctrl := rfl
@[simp] theorem State.withRes1_acfg (v : Word) : (s.withRes1 v).acfg = s.acfg := rfl
@[simp] theorem State.withRes1_det (v : Word) : (s.withRes1 v).det = s.det := rfl
@[simp] theorem State.withRes1_queue (v : Word) : (s.withRes1 v).queue = s.queue := rfl
@[simp] theorem State.withRes1_osc (v : Word) : (s.withRes1 v).osc = s.osc := rfl
@[simp] theorem State.withRes1_smo (v : Word) : (s.withRes1 v).smo = s.smo := rfl
@[simp] theorem State.withRes1_dec (v : Word) : (s.withRes1 v).dec = s.dec := rfl
@[simp] theorem State.withRes1_rdata (v : Word) : (s.withRes1 v).rdata = s.rdata := rfl
@[simp] theorem State.withRes1_draws (v : Word) : (s.withRes1 v).draws = s.draws := rfl
@[simp] theorem State.withRes1_inbox (v : Word) : (s.withRes1 v).inbox = s.inbox := rfl

/-! ### `withSticky` -/

@[simp] theorem State.withSticky_cmd (v : Sticky) : (s.withSticky v).cmd = s.cmd := rfl
@[simp] theorem State.withSticky_arg0Lo (v : Sticky) : (s.withSticky v).arg0Lo = s.arg0Lo := rfl
@[simp] theorem State.withSticky_arg0Hi (v : Sticky) : (s.withSticky v).arg0Hi = s.arg0Hi := rfl
@[simp] theorem State.withSticky_arg1 (v : Sticky) : (s.withSticky v).arg1 = s.arg1 := rfl
@[simp] theorem State.withSticky_arg2 (v : Sticky) : (s.withSticky v).arg2 = s.arg2 := rfl
@[simp] theorem State.withSticky_res0 (v : Sticky) : (s.withSticky v).res0 = s.res0 := rfl
@[simp] theorem State.withSticky_res1 (v : Sticky) : (s.withSticky v).res1 = s.res1 := rfl
@[simp] theorem State.withSticky_sticky (v : Sticky) : (s.withSticky v).sticky = v := rfl
@[simp] theorem State.withSticky_ctrl (v : Sticky) : (s.withSticky v).ctrl = s.ctrl := rfl
@[simp] theorem State.withSticky_acfg (v : Sticky) : (s.withSticky v).acfg = s.acfg := rfl
@[simp] theorem State.withSticky_det (v : Sticky) : (s.withSticky v).det = s.det := rfl
@[simp] theorem State.withSticky_queue (v : Sticky) : (s.withSticky v).queue = s.queue := rfl
@[simp] theorem State.withSticky_osc (v : Sticky) : (s.withSticky v).osc = s.osc := rfl
@[simp] theorem State.withSticky_smo (v : Sticky) : (s.withSticky v).smo = s.smo := rfl
@[simp] theorem State.withSticky_dec (v : Sticky) : (s.withSticky v).dec = s.dec := rfl
@[simp] theorem State.withSticky_rdata (v : Sticky) : (s.withSticky v).rdata = s.rdata := rfl
@[simp] theorem State.withSticky_draws (v : Sticky) : (s.withSticky v).draws = s.draws := rfl
@[simp] theorem State.withSticky_inbox (v : Sticky) : (s.withSticky v).inbox = s.inbox := rfl

/-! ### `withCtrl` -/

@[simp] theorem State.withCtrl_cmd (v : Ctrl) : (s.withCtrl v).cmd = s.cmd := rfl
@[simp] theorem State.withCtrl_arg0Lo (v : Ctrl) : (s.withCtrl v).arg0Lo = s.arg0Lo := rfl
@[simp] theorem State.withCtrl_arg0Hi (v : Ctrl) : (s.withCtrl v).arg0Hi = s.arg0Hi := rfl
@[simp] theorem State.withCtrl_arg1 (v : Ctrl) : (s.withCtrl v).arg1 = s.arg1 := rfl
@[simp] theorem State.withCtrl_arg2 (v : Ctrl) : (s.withCtrl v).arg2 = s.arg2 := rfl
@[simp] theorem State.withCtrl_res0 (v : Ctrl) : (s.withCtrl v).res0 = s.res0 := rfl
@[simp] theorem State.withCtrl_res1 (v : Ctrl) : (s.withCtrl v).res1 = s.res1 := rfl
@[simp] theorem State.withCtrl_sticky (v : Ctrl) : (s.withCtrl v).sticky = s.sticky := rfl
@[simp] theorem State.withCtrl_ctrl (v : Ctrl) : (s.withCtrl v).ctrl = v := rfl
@[simp] theorem State.withCtrl_acfg (v : Ctrl) : (s.withCtrl v).acfg = s.acfg := rfl
@[simp] theorem State.withCtrl_det (v : Ctrl) : (s.withCtrl v).det = s.det := rfl
@[simp] theorem State.withCtrl_queue (v : Ctrl) : (s.withCtrl v).queue = s.queue := rfl
@[simp] theorem State.withCtrl_osc (v : Ctrl) : (s.withCtrl v).osc = s.osc := rfl
@[simp] theorem State.withCtrl_smo (v : Ctrl) : (s.withCtrl v).smo = s.smo := rfl
@[simp] theorem State.withCtrl_dec (v : Ctrl) : (s.withCtrl v).dec = s.dec := rfl
@[simp] theorem State.withCtrl_rdata (v : Ctrl) : (s.withCtrl v).rdata = s.rdata := rfl
@[simp] theorem State.withCtrl_draws (v : Ctrl) : (s.withCtrl v).draws = s.draws := rfl
@[simp] theorem State.withCtrl_inbox (v : Ctrl) : (s.withCtrl v).inbox = s.inbox := rfl

/-! ### `withAcfg` -/

@[simp] theorem State.withAcfg_cmd (v : Acfg) : (s.withAcfg v).cmd = s.cmd := rfl
@[simp] theorem State.withAcfg_arg0Lo (v : Acfg) : (s.withAcfg v).arg0Lo = s.arg0Lo := rfl
@[simp] theorem State.withAcfg_arg0Hi (v : Acfg) : (s.withAcfg v).arg0Hi = s.arg0Hi := rfl
@[simp] theorem State.withAcfg_arg1 (v : Acfg) : (s.withAcfg v).arg1 = s.arg1 := rfl
@[simp] theorem State.withAcfg_arg2 (v : Acfg) : (s.withAcfg v).arg2 = s.arg2 := rfl
@[simp] theorem State.withAcfg_res0 (v : Acfg) : (s.withAcfg v).res0 = s.res0 := rfl
@[simp] theorem State.withAcfg_res1 (v : Acfg) : (s.withAcfg v).res1 = s.res1 := rfl
@[simp] theorem State.withAcfg_sticky (v : Acfg) : (s.withAcfg v).sticky = s.sticky := rfl
@[simp] theorem State.withAcfg_ctrl (v : Acfg) : (s.withAcfg v).ctrl = s.ctrl := rfl
@[simp] theorem State.withAcfg_acfg (v : Acfg) : (s.withAcfg v).acfg = v := rfl
@[simp] theorem State.withAcfg_det (v : Acfg) : (s.withAcfg v).det = s.det := rfl
@[simp] theorem State.withAcfg_queue (v : Acfg) : (s.withAcfg v).queue = s.queue := rfl
@[simp] theorem State.withAcfg_osc (v : Acfg) : (s.withAcfg v).osc = s.osc := rfl
@[simp] theorem State.withAcfg_smo (v : Acfg) : (s.withAcfg v).smo = s.smo := rfl
@[simp] theorem State.withAcfg_dec (v : Acfg) : (s.withAcfg v).dec = s.dec := rfl
@[simp] theorem State.withAcfg_rdata (v : Acfg) : (s.withAcfg v).rdata = s.rdata := rfl
@[simp] theorem State.withAcfg_draws (v : Acfg) : (s.withAcfg v).draws = s.draws := rfl
@[simp] theorem State.withAcfg_inbox (v : Acfg) : (s.withAcfg v).inbox = s.inbox := rfl

/-! ### `withDet` -/

@[simp] theorem State.withDet_cmd (v : Det) : (s.withDet v).cmd = s.cmd := rfl
@[simp] theorem State.withDet_arg0Lo (v : Det) : (s.withDet v).arg0Lo = s.arg0Lo := rfl
@[simp] theorem State.withDet_arg0Hi (v : Det) : (s.withDet v).arg0Hi = s.arg0Hi := rfl
@[simp] theorem State.withDet_arg1 (v : Det) : (s.withDet v).arg1 = s.arg1 := rfl
@[simp] theorem State.withDet_arg2 (v : Det) : (s.withDet v).arg2 = s.arg2 := rfl
@[simp] theorem State.withDet_res0 (v : Det) : (s.withDet v).res0 = s.res0 := rfl
@[simp] theorem State.withDet_res1 (v : Det) : (s.withDet v).res1 = s.res1 := rfl
@[simp] theorem State.withDet_sticky (v : Det) : (s.withDet v).sticky = s.sticky := rfl
@[simp] theorem State.withDet_ctrl (v : Det) : (s.withDet v).ctrl = s.ctrl := rfl
@[simp] theorem State.withDet_acfg (v : Det) : (s.withDet v).acfg = s.acfg := rfl
@[simp] theorem State.withDet_det (v : Det) : (s.withDet v).det = v := rfl
@[simp] theorem State.withDet_queue (v : Det) : (s.withDet v).queue = s.queue := rfl
@[simp] theorem State.withDet_osc (v : Det) : (s.withDet v).osc = s.osc := rfl
@[simp] theorem State.withDet_smo (v : Det) : (s.withDet v).smo = s.smo := rfl
@[simp] theorem State.withDet_dec (v : Det) : (s.withDet v).dec = s.dec := rfl
@[simp] theorem State.withDet_rdata (v : Det) : (s.withDet v).rdata = s.rdata := rfl
@[simp] theorem State.withDet_draws (v : Det) : (s.withDet v).draws = s.draws := rfl
@[simp] theorem State.withDet_inbox (v : Det) : (s.withDet v).inbox = s.inbox := rfl

/-! ### `withQueue` -/

@[simp] theorem State.withQueue_cmd (v : Queue) : (s.withQueue v).cmd = s.cmd := rfl
@[simp] theorem State.withQueue_arg0Lo (v : Queue) : (s.withQueue v).arg0Lo = s.arg0Lo := rfl
@[simp] theorem State.withQueue_arg0Hi (v : Queue) : (s.withQueue v).arg0Hi = s.arg0Hi := rfl
@[simp] theorem State.withQueue_arg1 (v : Queue) : (s.withQueue v).arg1 = s.arg1 := rfl
@[simp] theorem State.withQueue_arg2 (v : Queue) : (s.withQueue v).arg2 = s.arg2 := rfl
@[simp] theorem State.withQueue_res0 (v : Queue) : (s.withQueue v).res0 = s.res0 := rfl
@[simp] theorem State.withQueue_res1 (v : Queue) : (s.withQueue v).res1 = s.res1 := rfl
@[simp] theorem State.withQueue_sticky (v : Queue) : (s.withQueue v).sticky = s.sticky := rfl
@[simp] theorem State.withQueue_ctrl (v : Queue) : (s.withQueue v).ctrl = s.ctrl := rfl
@[simp] theorem State.withQueue_acfg (v : Queue) : (s.withQueue v).acfg = s.acfg := rfl
@[simp] theorem State.withQueue_det (v : Queue) : (s.withQueue v).det = s.det := rfl
@[simp] theorem State.withQueue_queue (v : Queue) : (s.withQueue v).queue = v := rfl
@[simp] theorem State.withQueue_osc (v : Queue) : (s.withQueue v).osc = s.osc := rfl
@[simp] theorem State.withQueue_smo (v : Queue) : (s.withQueue v).smo = s.smo := rfl
@[simp] theorem State.withQueue_dec (v : Queue) : (s.withQueue v).dec = s.dec := rfl
@[simp] theorem State.withQueue_rdata (v : Queue) : (s.withQueue v).rdata = s.rdata := rfl
@[simp] theorem State.withQueue_draws (v : Queue) : (s.withQueue v).draws = s.draws := rfl
@[simp] theorem State.withQueue_inbox (v : Queue) : (s.withQueue v).inbox = s.inbox := rfl

/-! ### `withOsc` -/

@[simp] theorem State.withOsc_cmd (v : Osc) : (s.withOsc v).cmd = s.cmd := rfl
@[simp] theorem State.withOsc_arg0Lo (v : Osc) : (s.withOsc v).arg0Lo = s.arg0Lo := rfl
@[simp] theorem State.withOsc_arg0Hi (v : Osc) : (s.withOsc v).arg0Hi = s.arg0Hi := rfl
@[simp] theorem State.withOsc_arg1 (v : Osc) : (s.withOsc v).arg1 = s.arg1 := rfl
@[simp] theorem State.withOsc_arg2 (v : Osc) : (s.withOsc v).arg2 = s.arg2 := rfl
@[simp] theorem State.withOsc_res0 (v : Osc) : (s.withOsc v).res0 = s.res0 := rfl
@[simp] theorem State.withOsc_res1 (v : Osc) : (s.withOsc v).res1 = s.res1 := rfl
@[simp] theorem State.withOsc_sticky (v : Osc) : (s.withOsc v).sticky = s.sticky := rfl
@[simp] theorem State.withOsc_ctrl (v : Osc) : (s.withOsc v).ctrl = s.ctrl := rfl
@[simp] theorem State.withOsc_acfg (v : Osc) : (s.withOsc v).acfg = s.acfg := rfl
@[simp] theorem State.withOsc_det (v : Osc) : (s.withOsc v).det = s.det := rfl
@[simp] theorem State.withOsc_queue (v : Osc) : (s.withOsc v).queue = s.queue := rfl
@[simp] theorem State.withOsc_osc (v : Osc) : (s.withOsc v).osc = v := rfl
@[simp] theorem State.withOsc_smo (v : Osc) : (s.withOsc v).smo = s.smo := rfl
@[simp] theorem State.withOsc_dec (v : Osc) : (s.withOsc v).dec = s.dec := rfl
@[simp] theorem State.withOsc_rdata (v : Osc) : (s.withOsc v).rdata = s.rdata := rfl
@[simp] theorem State.withOsc_draws (v : Osc) : (s.withOsc v).draws = s.draws := rfl
@[simp] theorem State.withOsc_inbox (v : Osc) : (s.withOsc v).inbox = s.inbox := rfl

/-! ### `withSmo` -/

@[simp] theorem State.withSmo_cmd (v : Smo) : (s.withSmo v).cmd = s.cmd := rfl
@[simp] theorem State.withSmo_arg0Lo (v : Smo) : (s.withSmo v).arg0Lo = s.arg0Lo := rfl
@[simp] theorem State.withSmo_arg0Hi (v : Smo) : (s.withSmo v).arg0Hi = s.arg0Hi := rfl
@[simp] theorem State.withSmo_arg1 (v : Smo) : (s.withSmo v).arg1 = s.arg1 := rfl
@[simp] theorem State.withSmo_arg2 (v : Smo) : (s.withSmo v).arg2 = s.arg2 := rfl
@[simp] theorem State.withSmo_res0 (v : Smo) : (s.withSmo v).res0 = s.res0 := rfl
@[simp] theorem State.withSmo_res1 (v : Smo) : (s.withSmo v).res1 = s.res1 := rfl
@[simp] theorem State.withSmo_sticky (v : Smo) : (s.withSmo v).sticky = s.sticky := rfl
@[simp] theorem State.withSmo_ctrl (v : Smo) : (s.withSmo v).ctrl = s.ctrl := rfl
@[simp] theorem State.withSmo_acfg (v : Smo) : (s.withSmo v).acfg = s.acfg := rfl
@[simp] theorem State.withSmo_det (v : Smo) : (s.withSmo v).det = s.det := rfl
@[simp] theorem State.withSmo_queue (v : Smo) : (s.withSmo v).queue = s.queue := rfl
@[simp] theorem State.withSmo_osc (v : Smo) : (s.withSmo v).osc = s.osc := rfl
@[simp] theorem State.withSmo_smo (v : Smo) : (s.withSmo v).smo = v := rfl
@[simp] theorem State.withSmo_dec (v : Smo) : (s.withSmo v).dec = s.dec := rfl
@[simp] theorem State.withSmo_rdata (v : Smo) : (s.withSmo v).rdata = s.rdata := rfl
@[simp] theorem State.withSmo_draws (v : Smo) : (s.withSmo v).draws = s.draws := rfl
@[simp] theorem State.withSmo_inbox (v : Smo) : (s.withSmo v).inbox = s.inbox := rfl

/-! ### `withDec` -/

@[simp] theorem State.withDec_cmd (v : Decim) : (s.withDec v).cmd = s.cmd := rfl
@[simp] theorem State.withDec_arg0Lo (v : Decim) : (s.withDec v).arg0Lo = s.arg0Lo := rfl
@[simp] theorem State.withDec_arg0Hi (v : Decim) : (s.withDec v).arg0Hi = s.arg0Hi := rfl
@[simp] theorem State.withDec_arg1 (v : Decim) : (s.withDec v).arg1 = s.arg1 := rfl
@[simp] theorem State.withDec_arg2 (v : Decim) : (s.withDec v).arg2 = s.arg2 := rfl
@[simp] theorem State.withDec_res0 (v : Decim) : (s.withDec v).res0 = s.res0 := rfl
@[simp] theorem State.withDec_res1 (v : Decim) : (s.withDec v).res1 = s.res1 := rfl
@[simp] theorem State.withDec_sticky (v : Decim) : (s.withDec v).sticky = s.sticky := rfl
@[simp] theorem State.withDec_ctrl (v : Decim) : (s.withDec v).ctrl = s.ctrl := rfl
@[simp] theorem State.withDec_acfg (v : Decim) : (s.withDec v).acfg = s.acfg := rfl
@[simp] theorem State.withDec_det (v : Decim) : (s.withDec v).det = s.det := rfl
@[simp] theorem State.withDec_queue (v : Decim) : (s.withDec v).queue = s.queue := rfl
@[simp] theorem State.withDec_osc (v : Decim) : (s.withDec v).osc = s.osc := rfl
@[simp] theorem State.withDec_smo (v : Decim) : (s.withDec v).smo = s.smo := rfl
@[simp] theorem State.withDec_dec (v : Decim) : (s.withDec v).dec = v := rfl
@[simp] theorem State.withDec_rdata (v : Decim) : (s.withDec v).rdata = s.rdata := rfl
@[simp] theorem State.withDec_draws (v : Decim) : (s.withDec v).draws = s.draws := rfl
@[simp] theorem State.withDec_inbox (v : Decim) : (s.withDec v).inbox = s.inbox := rfl

/-! ### `withRdata` -/

@[simp] theorem State.withRdata_cmd (v : Word) : (s.withRdata v).cmd = s.cmd := rfl
@[simp] theorem State.withRdata_arg0Lo (v : Word) : (s.withRdata v).arg0Lo = s.arg0Lo := rfl
@[simp] theorem State.withRdata_arg0Hi (v : Word) : (s.withRdata v).arg0Hi = s.arg0Hi := rfl
@[simp] theorem State.withRdata_arg1 (v : Word) : (s.withRdata v).arg1 = s.arg1 := rfl
@[simp] theorem State.withRdata_arg2 (v : Word) : (s.withRdata v).arg2 = s.arg2 := rfl
@[simp] theorem State.withRdata_res0 (v : Word) : (s.withRdata v).res0 = s.res0 := rfl
@[simp] theorem State.withRdata_res1 (v : Word) : (s.withRdata v).res1 = s.res1 := rfl
@[simp] theorem State.withRdata_sticky (v : Word) : (s.withRdata v).sticky = s.sticky := rfl
@[simp] theorem State.withRdata_ctrl (v : Word) : (s.withRdata v).ctrl = s.ctrl := rfl
@[simp] theorem State.withRdata_acfg (v : Word) : (s.withRdata v).acfg = s.acfg := rfl
@[simp] theorem State.withRdata_det (v : Word) : (s.withRdata v).det = s.det := rfl
@[simp] theorem State.withRdata_queue (v : Word) : (s.withRdata v).queue = s.queue := rfl
@[simp] theorem State.withRdata_osc (v : Word) : (s.withRdata v).osc = s.osc := rfl
@[simp] theorem State.withRdata_smo (v : Word) : (s.withRdata v).smo = s.smo := rfl
@[simp] theorem State.withRdata_dec (v : Word) : (s.withRdata v).dec = s.dec := rfl
@[simp] theorem State.withRdata_rdata (v : Word) : (s.withRdata v).rdata = v := rfl
@[simp] theorem State.withRdata_draws (v : Word) : (s.withRdata v).draws = s.draws := rfl
@[simp] theorem State.withRdata_inbox (v : Word) : (s.withRdata v).inbox = s.inbox := rfl

/-! ### `withDraws` -/

@[simp] theorem State.withDraws_cmd (v : Nat) : (s.withDraws v).cmd = s.cmd := rfl
@[simp] theorem State.withDraws_arg0Lo (v : Nat) : (s.withDraws v).arg0Lo = s.arg0Lo := rfl
@[simp] theorem State.withDraws_arg0Hi (v : Nat) : (s.withDraws v).arg0Hi = s.arg0Hi := rfl
@[simp] theorem State.withDraws_arg1 (v : Nat) : (s.withDraws v).arg1 = s.arg1 := rfl
@[simp] theorem State.withDraws_arg2 (v : Nat) : (s.withDraws v).arg2 = s.arg2 := rfl
@[simp] theorem State.withDraws_res0 (v : Nat) : (s.withDraws v).res0 = s.res0 := rfl
@[simp] theorem State.withDraws_res1 (v : Nat) : (s.withDraws v).res1 = s.res1 := rfl
@[simp] theorem State.withDraws_sticky (v : Nat) : (s.withDraws v).sticky = s.sticky := rfl
@[simp] theorem State.withDraws_ctrl (v : Nat) : (s.withDraws v).ctrl = s.ctrl := rfl
@[simp] theorem State.withDraws_acfg (v : Nat) : (s.withDraws v).acfg = s.acfg := rfl
@[simp] theorem State.withDraws_det (v : Nat) : (s.withDraws v).det = s.det := rfl
@[simp] theorem State.withDraws_queue (v : Nat) : (s.withDraws v).queue = s.queue := rfl
@[simp] theorem State.withDraws_osc (v : Nat) : (s.withDraws v).osc = s.osc := rfl
@[simp] theorem State.withDraws_smo (v : Nat) : (s.withDraws v).smo = s.smo := rfl
@[simp] theorem State.withDraws_dec (v : Nat) : (s.withDraws v).dec = s.dec := rfl
@[simp] theorem State.withDraws_rdata (v : Nat) : (s.withDraws v).rdata = s.rdata := rfl
@[simp] theorem State.withDraws_draws (v : Nat) : (s.withDraws v).draws = v := rfl
@[simp] theorem State.withDraws_inbox (v : Nat) : (s.withDraws v).inbox = s.inbox := rfl

/-! ### `withInbox` -/

@[simp] theorem State.withInbox_cmd (v : List Event) : (s.withInbox v).cmd = s.cmd := rfl
@[simp] theorem State.withInbox_arg0Lo (v : List Event) : (s.withInbox v).arg0Lo = s.arg0Lo := rfl
@[simp] theorem State.withInbox_arg0Hi (v : List Event) : (s.withInbox v).arg0Hi = s.arg0Hi := rfl
@[simp] theorem State.withInbox_arg1 (v : List Event) : (s.withInbox v).arg1 = s.arg1 := rfl
@[simp] theorem State.withInbox_arg2 (v : List Event) : (s.withInbox v).arg2 = s.arg2 := rfl
@[simp] theorem State.withInbox_res0 (v : List Event) : (s.withInbox v).res0 = s.res0 := rfl
@[simp] theorem State.withInbox_res1 (v : List Event) : (s.withInbox v).res1 = s.res1 := rfl
@[simp] theorem State.withInbox_sticky (v : List Event) : (s.withInbox v).sticky = s.sticky := rfl
@[simp] theorem State.withInbox_ctrl (v : List Event) : (s.withInbox v).ctrl = s.ctrl := rfl
@[simp] theorem State.withInbox_acfg (v : List Event) : (s.withInbox v).acfg = s.acfg := rfl
@[simp] theorem State.withInbox_det (v : List Event) : (s.withInbox v).det = s.det := rfl
@[simp] theorem State.withInbox_queue (v : List Event) : (s.withInbox v).queue = s.queue := rfl
@[simp] theorem State.withInbox_osc (v : List Event) : (s.withInbox v).osc = s.osc := rfl
@[simp] theorem State.withInbox_smo (v : List Event) : (s.withInbox v).smo = s.smo := rfl
@[simp] theorem State.withInbox_dec (v : List Event) : (s.withInbox v).dec = s.dec := rfl
@[simp] theorem State.withInbox_rdata (v : List Event) : (s.withInbox v).rdata = s.rdata := rfl
@[simp] theorem State.withInbox_draws (v : List Event) : (s.withInbox v).draws = s.draws := rfl
@[simp] theorem State.withInbox_inbox (v : List Event) : (s.withInbox v).inbox = v := rfl

/-! ### `raise` -/

@[simp] theorem raise_cmd (b : StickyBit) : (raise b s).cmd = s.cmd := rfl
@[simp] theorem raise_arg0Lo (b : StickyBit) : (raise b s).arg0Lo = s.arg0Lo := rfl
@[simp] theorem raise_arg0Hi (b : StickyBit) : (raise b s).arg0Hi = s.arg0Hi := rfl
@[simp] theorem raise_arg1 (b : StickyBit) : (raise b s).arg1 = s.arg1 := rfl
@[simp] theorem raise_arg2 (b : StickyBit) : (raise b s).arg2 = s.arg2 := rfl
@[simp] theorem raise_res0 (b : StickyBit) : (raise b s).res0 = s.res0 := rfl
@[simp] theorem raise_res1 (b : StickyBit) : (raise b s).res1 = s.res1 := rfl
@[simp] theorem raise_sticky (b : StickyBit) : (raise b s).sticky = s.sticky.set b := rfl
@[simp] theorem raise_ctrl (b : StickyBit) : (raise b s).ctrl = s.ctrl := rfl
@[simp] theorem raise_acfg (b : StickyBit) : (raise b s).acfg = s.acfg := rfl
@[simp] theorem raise_det (b : StickyBit) : (raise b s).det = s.det := rfl
@[simp] theorem raise_queue (b : StickyBit) : (raise b s).queue = s.queue := rfl
@[simp] theorem raise_osc (b : StickyBit) : (raise b s).osc = s.osc := rfl
@[simp] theorem raise_smo (b : StickyBit) : (raise b s).smo = s.smo := rfl
@[simp] theorem raise_dec (b : StickyBit) : (raise b s).dec = s.dec := rfl
@[simp] theorem raise_rdata (b : StickyBit) : (raise b s).rdata = s.rdata := rfl
@[simp] theorem raise_draws (b : StickyBit) : (raise b s).draws = s.draws := rfl
@[simp] theorem raise_inbox (b : StickyBit) : (raise b s).inbox = s.inbox := rfl

/-- Two states with equal fields are equal. -/
theorem State.ext_fields {s t : State}
    (h0 : s.cmd = t.cmd) (h1 : s.arg0Lo = t.arg0Lo) (h2 : s.arg0Hi = t.arg0Hi)
    (h3 : s.arg1 = t.arg1) (h4 : s.arg2 = t.arg2) (h5 : s.res0 = t.res0)
    (h6 : s.res1 = t.res1) (h7 : s.sticky = t.sticky) (h8 : s.ctrl = t.ctrl)
    (h9 : s.acfg = t.acfg) (h10 : s.det = t.det) (h11 : s.queue = t.queue)
    (h12 : s.osc = t.osc) (h13 : s.smo = t.smo) (h14 : s.dec = t.dec)
    (h15 : s.rdata = t.rdata) (h16 : s.draws = t.draws) (h17 : s.inbox = t.inbox)
    : s = t := by
  cases s
  cases t
  simp_all

end Sys2Proof.Machine
end

