-- ==== Sys2Proof/Laws/Detector.lean ====
section
/-! SUPPORT. What the shared operations of the detector and its queue can do, said once: the queue's operations field by field, the
window insert, the decimator step, the ways a sample can go, and the engine's turn. -/

namespace Sys2Proof.Machine

/-! ### The queue -/

@[simp] theorem Queue.push_mem (q : Queue) (v : F32) : (q.push v).mem = Memory.write q.mem q.wr v := rfl
@[simp] theorem Queue.push_rd (q : Queue) (v : F32) : (q.push v).rd = q.rd := rfl
@[simp] theorem Queue.push_wr (q : Queue) (v : F32) : (q.push v).wr = (q.wr + 1) % Config.queueDepth := rfl
@[simp] theorem Queue.push_n (q : Queue) (v : F32) : (q.push v).n = q.n + 1 := rfl
@[simp] theorem Queue.pop_mem (q : Queue) : q.pop.mem = q.mem := rfl
@[simp] theorem Queue.pop_rd (q : Queue) : q.pop.rd = (q.rd + 1) % Config.queueDepth := rfl
@[simp] theorem Queue.pop_wr (q : Queue) : q.pop.wr = q.wr := rfl
@[simp] theorem Queue.pop_n (q : Queue) : q.pop.n = q.n - 1 := rfl
@[simp] theorem Queue.clear_mem (q : Queue) : q.clear.mem = q.mem := rfl
@[simp] theorem Queue.clear_rd (q : Queue) : q.clear.rd = 0 := rfl
@[simp] theorem Queue.clear_wr (q : Queue) : q.clear.wr = 0 := rfl
@[simp] theorem Queue.clear_n (q : Queue) : q.clear.n = 0 := rfl
@[simp] theorem Queue.length_contents (q : Queue) : q.contents.length = q.n := by simp [Queue.contents]

theorem Queue.getElem?_contents (q : Queue) (k : Nat) (hk : k < q.n) :
    q.contents[k]? = some (Memory.read q.mem ((q.rd + k) % Config.queueDepth)) := by
  simp [Queue.contents, hk]

/-! ### The window insert -/

section windowInsert
variable (d : Det) (v : F32)

@[simp] theorem windowInsert_win : (windowInsert d v).1.win = Memory.write d.win d.writePos v := rfl
@[simp] theorem windowInsert_writePos : (windowInsert d v).1.writePos = (d.writePos + 1) % d.windowSize := rfl
@[simp] theorem windowInsert_filled :
    (windowInsert d v).1.filled = (d.filled || decide ((d.writePos + 1) % d.windowSize = 0)) := rfl
@[simp] theorem windowInsert_rate : (windowInsert d v).1.rate = d.rate := rfl
@[simp] theorem windowInsert_fa : (windowInsert d v).1.fa = d.fa := rfl
@[simp] theorem windowInsert_halfWindow : (windowInsert d v).1.halfWindow = d.halfWindow := rfl
@[simp] theorem windowInsert_windowSize : (windowInsert d v).1.windowSize = d.windowSize := rfl
@[simp] theorem windowInsert_hopSize : (windowInsert d v).1.hopSize = d.hopSize := rfl
@[simp] theorem windowInsert_pubFreq : (windowInsert d v).1.pubFreq = d.pubFreq := rfl
@[simp] theorem windowInsert_pubConf : (windowInsert d v).1.pubConf = d.pubConf := rfl
@[simp] theorem windowInsert_estate : (windowInsert d v).1.estate = d.estate := rfl
@[simp] theorem windowInsert_pendConf : (windowInsert d v).1.pendConf = d.pendConf := rfl
@[simp] theorem windowInsert_dec : (windowInsert d v).1.dec = d.dec := rfl

/-- When an insert triggers a pass: the window is filled after it and the hop counter has reached the hop (R98). -/
theorem windowInsert_trigger : (windowInsert d v).2 =
    ((windowInsert d v).1.filled && decide (d.hopSize ≤ d.hopCount + 1)) := rfl

/-- The hop counter after an insert: restarted by a trigger, else counted. -/
theorem windowInsert_hopCount : (windowInsert d v).1.hopCount = if (windowInsert d v).2 then 0 else d.hopCount + 1 := rfl

/-- An insert depends on the counters and the window alone: the other fields pass through. -/
theorem windowInsert_other (f c p : F32) (e : EState) (dec : Decim) :
    windowInsert { d with pubFreq := f, pubConf := c, pendConf := p, estate := e, dec := dec } v =
      ({ (windowInsert d v).1 with pubFreq := f, pubConf := c, pendConf := p, estate := e, dec := dec }, (windowInsert d v).2) :=
  rfl

end windowInsert

/-- The pass reads the window, the sizes and the analysis rate alone. -/
theorem analyse_other (a : Acfg) (n : Nat) (d : Det) (f c p : F32) (e : EState) (dec : Decim) :
    analyse a n { d with pubFreq := f, pubConf := c, pendConf := p, estate := e, dec := dec } = analyse a n d := rfl

/-- Of the configuration the pass reads the two analysis policies alone. -/
theorem analyse_async (a : Acfg) (n : Nat) (d : Det) (b : Bool) : analyse { a with asyncEn := b } n d = analyse a n d := rfl

/-! ### The decimator -/

/-- A decimator step shifts the sample in; on the second phase it computes the output and is ready (R174). -/
theorem decimStep_cases (d : Decim) (x : F32) :
    (d.ph = false ∧ decimStep d x = ({ dl := d.dl.shift x, ph := true, out := d.out }, false)) ∨
      (d.ph = true ∧ decimStep d x = ({ dl := d.dl.shift x, ph := false, out := firOutput (d.dl.shift x) }, true)) := by
  unfold decimStep
  cases d.ph <;> simp

@[simp] theorem decimStep_dl (d : Decim) (x : F32) : (decimStep d x).1.dl = d.dl.shift x := by
  unfold decimStep; split <;> rfl

@[simp] theorem decimStep_ph (d : Decim) (x : F32) : (decimStep d x).1.ph = !d.ph := by
  unfold decimStep; cases d.ph <;> rfl

@[simp] theorem decimStep_ready (d : Decim) (x : F32) : (decimStep d x).2 = d.ph := by
  unfold decimStep; cases d.ph <;> rfl

theorem DelayLine.toList_shift (d : DelayLine) (x : F32) : (d.shift x).toList = (x :: d.toList).take 7 := rfl

/-- The filter's output is finite (R176). -/
theorem finite32_firOutput (d : DelayLine) : finite32 (firOutput d) = true := by
  unfold firOutput
  dsimp only
  split
  · assumption
  · decide

theorem finite32_sanitiseSample (x : F32) : finite32 (sanitiseSample x) = true := by
  unfold sanitiseSample
  split
  · assumption
  · decide

/-! ### The ways of a sample -/

/-- Insert in synchronous mode: with or without a pass, which publishes both scalars (R94, R99). -/
theorem insertSync_cases (s : State) (v : F32) :
    ((windowInsert s.det v).2 = false ∧ insertSync s v = s.withDet (windowInsert s.det v).1) ∨
      ((windowInsert s.det v).2 = true ∧
        insertSync s v =
          (s.withDet { (windowInsert s.det v).1 with
            pubFreq := (analyse s.acfg s.draws (windowInsert s.det v).1).frequency
            pubConf := (analyse s.acfg s.draws (windowInsert s.det v).1).confidence }).withDraws (s.draws + 1)) := by
  unfold insertSync
  dsimp only
  split
  · next h => exact .inr ⟨h, rfl⟩
  · next h => exact .inl ⟨by simpa using h, rfl⟩

/-- A window sample is pushed, dropped with Q_OVERFLOW, or inserted (R94, R97). -/
theorem acceptSample_cases (s : State) (v : F32) :
    (s.acfg.asyncEn = true ∧ s.queue.n < Config.queueDepth ∧ acceptSample s v = s.withQueue (s.queue.push v)) ∨
      (s.acfg.asyncEn = true ∧ Config.queueDepth ≤ s.queue.n ∧ acceptSample s v = raise .qOverflow s) ∨
      (s.acfg.asyncEn = false ∧ acceptSample s v = insertSync s v) := by
  unfold acceptSample enqueue
  cases s.acfg.asyncEn
  · exact .inr (.inr ⟨rfl, rfl⟩)
  · by_cases h : s.queue.n < Config.queueDepth
    · exact .inl ⟨rfl, h, by simp [h]⟩
    · exact .inr (.inl ⟨rfl, not_lt.1 h, by simp [h]⟩)

/-- A fed sample goes on as it is, waits in the decimator, or goes on as the decimator's output (R94). -/
theorem feedSample_cases (s : State) (x : F32) :
    (s.acfg.decimEn = false ∧ feedSample s x = acceptSample s x) ∨
      (s.acfg.decimEn = true ∧ s.det.dec.ph = false ∧
        feedSample s x = s.withDet { s.det with dec := (decimStep s.det.dec x).1 }) ∨
      (s.acfg.decimEn = true ∧ s.det.dec.ph = true ∧
        feedSample s x =
          acceptSample (s.withDet { s.det with dec := (decimStep s.det.dec x).1 }) (decimStep s.det.dec x).1.out) := by
  unfold feedSample
  cases s.acfg.decimEn
  · exact .inl ⟨rfl, rfl⟩
  · right
    rcases decimStep_cases s.det.dec x with ⟨h, e⟩ | ⟨h, e⟩
    · exact .inl ⟨rfl, h, by simp [e]⟩
    · exact .inr ⟨rfl, h, by simp [e]⟩

/-! ### The engine -/

theorem drainEnabled_iff (s : State) :
    drainEnabled s = true ↔ s.acfg.asyncEn = true ∧ s.ctrl.run = true ∧ s.det.estate = .ready ∧ 0 < s.queue.n := by
  simp [drainEnabled, and_assoc]

theorem publishEnabled_iff (s : State) : publishEnabled s = true ↔ s.acfg.asyncEn = true ∧ s.det.estate = .pubConfPending := by
  simp [publishEnabled]

theorem engineIdle_iff (s : State) : engineIdle s = true ↔ drainEnabled s = false ∧ publishEnabled s = false := by
  simp [engineIdle]

/-- The drain step: with or without a pass, which publishes the frequency (R103). -/
theorem drainStep_cases (s : State) :
    ((windowInsert s.det s.queue.front).2 = false ∧
        drainStep s = (s.withQueue s.queue.pop).withDet (windowInsert s.det s.queue.front).1) ∨
      ((windowInsert s.det s.queue.front).2 = true ∧
        drainStep s =
          ((s.withQueue s.queue.pop).withDet { (windowInsert s.det s.queue.front).1 with
            pubFreq := (analyse s.acfg s.draws (windowInsert s.det s.queue.front).1).frequency
            pendConf := (analyse s.acfg s.draws (windowInsert s.det s.queue.front).1).confidence
            estate := .pubConfPending }).withDraws (s.draws + 1)) := by
  unfold drainStep
  dsimp only
  split
  · next h => exact .inr ⟨h, rfl⟩
  · next h => exact .inl ⟨by simpa using h, rfl⟩

/-- The engine's turn: the publish, the drain step, or nothing, each with what enables it (R102). -/
theorem engineStep_cases (s : State) :
    (s.acfg.asyncEn = true ∧ s.det.estate = .pubConfPending ∧ engineStep s = publishStep s) ∨
      (s.acfg.asyncEn = true ∧ s.det.estate = .ready ∧ s.ctrl.run = true ∧ 0 < s.queue.n ∧ engineStep s = drainStep s) ∨
      (engineIdle s = true ∧ engineStep s = s) := by
  unfold engineStep
  by_cases hp : publishEnabled s = true
  · exact .inl ⟨((publishEnabled_iff s).1 hp).1, ((publishEnabled_iff s).1 hp).2, by rw [if_pos hp]⟩
  · by_cases hd : drainEnabled s = true
    · obtain ⟨h1, h2, h3, h4⟩ := (drainEnabled_iff s).1 hd
      exact .inr (.inl ⟨h1, h3, h2, h4, by rw [if_neg hp, if_pos hd]⟩)
    · exact .inr (.inr ⟨(engineIdle_iff s).2 ⟨by simpa using hd, by simpa using hp⟩, by rw [if_neg hp, if_neg hd]⟩)

end Sys2Proof.Machine
end

