-- ==== Sys2Proof/Laws/Elementary.lean ====
section
/-! SUPPORT. The elementary functions' enclosures are sound: each interval of `Machine/Elementary.lean` contains the real number
it is made for, and where its two ends round to one value, that is the value the real number rounds to. -/

namespace Sys2Proof.Machine
open scoped Nat

theorem le_ceilDiv_mul (n : Nat) {d : Nat} (hd : 0 < d) : n ≤ ceilDiv n d * d := by
  unfold ceilDiv
  have := Nat.div_add_mod (n + d - 1) d
  have h2 := Nat.mod_lt (n + d - 1) hd
  rw [Nat.mul_comm] at this
  omega

theorem ceilDiv_mul_lt (n : Nat) {d : Nat} (hd : 0 < d) : ceilDiv n d * d < n + d := by
  unfold ceilDiv
  have := Nat.div_mul_le_self (n + d - 1) d
  omega

/-- A quotient rounded down, as a real number. -/
theorem floorDiv_le_real (n d : Nat) : ((n / d : Nat) : ℝ) ≤ n / d := Nat.cast_div_le

/-- A quotient rounded up. -/
theorem le_ceilDiv_real (n : Nat) {d : Nat} (hd : 0 < d) : (n / d : ℝ) ≤ (ceilDiv n d : Nat) := by
  rw [div_le_iff₀ (by exact_mod_cast hd)]
  exact_mod_cast le_ceilDiv_mul n hd

/-! ### Factorial series -/

/-- `Σ z^j · m! / (m + k·j)!`: the exponential series from term `m` on for `k = 1`, the alternating ones of the sine and the
cosine for `k = 2`. -/
noncomputable def factorialSeries (k : ℕ) (z : ℝ) (m : ℕ) : ℝ := ∑' j : ℕ, z ^ j * ((m ! : ℝ) / ((m + k * j)! : ℝ))

theorem factorial_ratio_le (k m j : ℕ) (hk : 1 ≤ k) : ((m ! : ℝ) / ((m + k * j)! : ℝ)) ≤ 1 / (j ! : ℝ) := by
  rw [div_le_div_iff₀ (by positivity) (by positivity), one_mul]
  have h1 : m ! * j ! ≤ (m + j)! := Nat.le_of_dvd (Nat.factorial_pos _) (Nat.factorial_mul_factorial_dvd_factorial_add m j)
  have h2 : (m + j)! ≤ (m + k * j)! := Nat.factorial_le (by nlinarith)
  exact_mod_cast h1.trans h2

theorem summable_factorialSeries (k : ℕ) (hk : 1 ≤ k) (z : ℝ) (m : ℕ) :
    Summable fun j : ℕ => z ^ j * ((m ! : ℝ) / ((m + k * j)! : ℝ)) := by
  refine Summable.of_norm_bounded (g := fun j : ℕ => |z| ^ j / (j ! : ℝ)) (Real.summable_pow_div_factorial _) fun j => ?_
  have hr : 0 ≤ (m ! : ℝ) / ((m + k * j)! : ℝ) := by positivity
  rw [norm_mul, norm_pow, Real.norm_eq_abs, Real.norm_eq_abs, abs_of_nonneg hr]
  calc |z| ^ j * ((m ! : ℝ) / ((m + k * j)! : ℝ)) ≤ |z| ^ j * (1 / (j ! : ℝ)) :=
        mul_le_mul_of_nonneg_left (factorial_ratio_le k m j hk) (by positivity)
    _ = |z| ^ j / (j ! : ℝ) := by ring

/-- One term off the front. -/
theorem factorialSeries_succ (k : ℕ) (hk : 1 ≤ k) (z : ℝ) (m : ℕ) :
    factorialSeries k z m = 1 + z * ((m ! : ℝ) / ((m + k)! : ℝ)) * factorialSeries k z (m + k) := by
  unfold factorialSeries
  rw [(summable_factorialSeries k hk z m).tsum_eq_zero_add]
  congr 1
  · simp [(Nat.factorial_pos m).ne']
  · rw [← tsum_mul_left]
    congr 1
    funext j
    have : m + k * (j + 1) = m + k + k * j := by ring
    rw [this, pow_succ]
    have h1 : ((m + k)! : ℝ) ≠ 0 := by positivity
    field_simp

theorem factorialSeries_nonneg (k : ℕ) {z : ℝ} (hz : 0 ≤ z) (m : ℕ) : 0 ≤ factorialSeries k z m :=
  tsum_nonneg fun j => by positivity

/-- The exponential. -/
theorem factorialSeries_exp (z : ℝ) : factorialSeries 1 z 0 = Real.exp z := by
  unfold factorialSeries
  rw [Real.exp_eq_exp_ℝ, ← (NormedSpace.expSeries_div_hasSum_exp z).tsum_eq]
  congr 1
  funext j
  simp [div_eq_mul_inv]

/-- The cosine, in the square of the angle. -/
theorem factorialSeries_cos (θ : ℝ) : factorialSeries 2 (-(θ ^ 2)) 0 = Real.cos θ := by
  unfold factorialSeries
  rw [Real.cos_eq_tsum]
  congr 1
  funext j
  rw [neg_pow, ← pow_mul]
  simp [div_eq_mul_inv]

/-- The sine, divided by the angle. -/
theorem factorialSeries_sin (θ : ℝ) : θ * factorialSeries 2 (-(θ ^ 2)) 1 = Real.sin θ := by
  unfold factorialSeries
  rw [Real.sin_eq_tsum, ← tsum_mul_left]
  congr 1
  funext j
  rw [neg_pow, ← pow_mul, Nat.add_comm 1 (2 * j), pow_succ]
  simp
  ring

theorem factorial_step_one (m : ℕ) : ((m ! : ℝ) / ((m + 1)! : ℝ)) = 1 / (m + 1) := by
  have h : ((m)! : ℝ) ≠ 0 := by positivity
  rw [Nat.factorial_succ]; push_cast; field_simp

theorem factorial_step_two (m : ℕ) : ((m ! : ℝ) / ((m + 2)! : ℝ)) = 1 / ((m + 1) * (m + 2)) := by
  have h : ((m)! : ℝ) ≠ 0 := by positivity
  rw [show m + 2 = m + 1 + 1 from rfl, Nat.factorial_succ, Nat.factorial_succ]; push_cast; field_simp; ring

/-- The rest of the exponential series from term `m` on is at most twice its first term, for an argument of at most half of
`m + 1`. -/
theorem factorialSeries_one_le_two {z : ℝ} (hz : 0 ≤ z) {m : ℕ} (hm : 2 * z ≤ m + 1) : factorialSeries 1 z m ≤ 2 := by
  have hterm : ∀ j : ℕ, z ^ j * ((m ! : ℝ) / ((m + 1 * j)! : ℝ)) ≤ (1 / 2) ^ j := by
    intro j
    have h1 : z ^ j ≤ ((m + 1 : ℝ) / 2) ^ j := pow_le_pow_left₀ hz (by linarith) j
    have h2 : (m ! : ℝ) * (m + 1) ^ j ≤ ((m + 1 * j)! : ℝ) := by
      rw [one_mul]
      exact_mod_cast Nat.factorial_mul_pow_le_factorial (m := m) (n := j)
    rw [← mul_div_assoc, div_le_iff₀ (by positivity)]
    calc z ^ j * (m ! : ℝ) ≤ ((m + 1 : ℝ) / 2) ^ j * m ! := mul_le_mul_of_nonneg_right h1 (by positivity)
      _ = (1 / 2) ^ j * ((m ! : ℝ) * (m + 1) ^ j) := by rw [div_pow, one_div_pow]; ring
      _ ≤ (1 / 2) ^ j * ((m + 1 * j)! : ℝ) := mul_le_mul_of_nonneg_left h2 (by positivity)
  calc factorialSeries 1 z m ≤ ∑' j : ℕ, (1 / 2 : ℝ) ^ j :=
        (summable_factorialSeries 1 le_rfl z m).tsum_le_tsum hterm summable_geometric_two
    _ = 2 := tsum_geometric_two

theorem two_pow_le_factorial (j : ℕ) : 2 ^ j ≤ (2 * j)! := by
  induction j with
  | zero => simp
  | succ j ih =>
    rw [show 2 * (j + 1) = 2 * j + 1 + 1 by ring, Nat.factorial_succ, Nat.factorial_succ, pow_succ]
    calc 2 ^ j * 2 ≤ (2 * j)! * 2 := Nat.mul_le_mul_right _ ih
      _ ≤ (2 * j)! * ((2 * j + 1 + 1) * (2 * j + 1)) := Nat.mul_le_mul_left _ (by nlinarith)
      _ = (2 * j + 1 + 1) * ((2 * j + 1) * (2 * j)!) := by ring

/-- An alternating series of the sine or the cosine stays in [0, 1], for an angle of at most 1. -/
theorem factorialSeries_two_mem {u : ℝ} (hu : 0 ≤ u) (hu1 : u ≤ 1) (m : ℕ) :
    0 ≤ factorialSeries 2 (-u) m ∧ factorialSeries 2 (-u) m ≤ 1 := by
  have habs : ∀ m : ℕ, factorialSeries 2 (-u) m ≤ 2 := by
    intro m
    have hterm : ∀ j : ℕ, (-u) ^ j * ((m ! : ℝ) / ((m + 2 * j)! : ℝ)) ≤ (1 / 2) ^ j := by
      intro j
      have h1 : (-u) ^ j ≤ 1 := (le_abs_self _).trans (by rw [abs_pow, abs_neg, abs_of_nonneg hu]; exact pow_le_one₀ hu hu1)
      have h2 : ((m ! : ℝ) / ((m + 2 * j)! : ℝ)) ≤ (1 / 2) ^ j := by
        rw [div_le_iff₀ (by positivity), one_div, inv_pow, ← div_eq_inv_mul, le_div_iff₀ (by positivity)]
        have h3 : m ! * 2 ^ j ≤ (m + 2 * j)! :=
          (Nat.mul_le_mul_left _ (two_pow_le_factorial j)).trans
            (Nat.le_of_dvd (Nat.factorial_pos _) (Nat.factorial_mul_factorial_dvd_factorial_add m (2 * j)))
        exact_mod_cast h3
      calc (-u) ^ j * ((m ! : ℝ) / ((m + 2 * j)! : ℝ)) ≤ 1 * ((m ! : ℝ) / ((m + 2 * j)! : ℝ)) :=
            mul_le_mul_of_nonneg_right h1 (by positivity)
        _ ≤ (1 / 2) ^ j := by rw [one_mul]; exact h2
    calc factorialSeries 2 (-u) m ≤ ∑' j : ℕ, (1 / 2 : ℝ) ^ j :=
          (summable_factorialSeries 2 (by norm_num) (-u) m).tsum_le_tsum hterm summable_geometric_two
      _ = 2 := tsum_geometric_two
  have hstep : ∀ m : ℕ, factorialSeries 2 (-u) m = 1 - u / ((m + 1) * (m + 2)) * factorialSeries 2 (-u) (m + 2) := by
    intro m
    rw [factorialSeries_succ 2 (by norm_num), factorial_step_two]
    ring
  have hc : ∀ m : ℕ, 0 ≤ u / (((m : ℝ) + 1) * (m + 2)) ∧ u / (((m : ℝ) + 1) * (m + 2)) ≤ 1 / 2 := by
    intro m
    refine ⟨by positivity, ?_⟩
    rw [div_le_iff₀ (by positivity)]
    have : (0 : ℝ) ≤ m := Nat.cast_nonneg m
    nlinarith
  have hnn : ∀ m : ℕ, 0 ≤ factorialSeries 2 (-u) m := by
    intro m
    rw [hstep]
    obtain ⟨c0, c1⟩ := hc m
    have := habs (m + 2)
    nlinarith
  refine ⟨hnn m, ?_⟩
  rw [hstep]
  have := mul_nonneg (hc m).1 (hnn (m + 2))
  linarith


/-! ### Enclosures -/

/-- The interval of an enclosure contains the magnitude of a real number, and the sign is right. -/
structure Enclosure.Contains (e : Enclosure) (v : ℝ) : Prop where
  loDen_pos : 0 < e.loDen
  hiDen_pos : 0 < e.hiDen
  lower : (e.loNum / e.loDen : ℝ) ≤ |v|
  upper : |v| ≤ (e.hiNum / e.hiDen : ℝ)
  neg : e.neg = true → v ≤ 0
  pos : e.neg = false → 0 ≤ v

theorem Enclosure.nearest_lo (e : Enclosure) (h : 0 < e.loDen) :
    NearestPattern 52 2047 ((e.loNum / e.loDen : ℝ) * 2 ^ 1074) (patF64 e.lo64) := by
  have := nearestPattern_roundMagnitude 52 2047 (e.loNum * 2 ^ 1074) e.loDen (by norm_num) le_rfl (by norm_num) (by norm_num) h
  rw [Enclosure.lo64, patF64_roundF64]
  rwa [Nat.cast_mul, Nat.cast_pow, Nat.cast_ofNat, mul_div_right_comm] at this

theorem Enclosure.nearest_hi (e : Enclosure) (h : 0 < e.hiDen) :
    NearestPattern 52 2047 ((e.hiNum / e.hiDen : ℝ) * 2 ^ 1074) (patF64 e.hi64) := by
  have := nearestPattern_roundMagnitude 52 2047 (e.hiNum * 2 ^ 1074) e.hiDen (by norm_num) le_rfl (by norm_num) (by norm_num) h
  rw [Enclosure.hi64, patF64_roundF64]
  rwa [Nat.cast_mul, Nat.cast_pow, Nat.cast_ofNat, mul_div_right_comm] at this

/-- Where both ends round to one value, that is the value the contained number rounds to. -/
theorem Enclosure.Contains.nearest {e : Enclosure} {v : ℝ} (h : e.Contains v) (hd : e.lo64 = e.hi64) :
    signF64 e.lo64 = e.neg ∧ NearestPattern 52 2047 (|v| * 2 ^ 1074) (patF64 e.lo64) := by
  refine ⟨signF64_roundF64 _ _ _, ?_⟩
  have hh := e.nearest_hi h.hiDen_pos
  rw [← hd] at hh
  have hp : (0 : ℝ) ≤ 2 ^ 1074 := by positivity
  exact NearestPattern.between (e.nearest_lo h.loDen_pos) hh (mul_le_mul_of_nonneg_right h.lower hp)
    (mul_le_mul_of_nonneg_right h.upper hp)

/-- The sign of a number is that of its enclosure. -/
theorem Enclosure.Contains.sign {e : Enclosure} {v : ℝ} (h : e.Contains v) (hv : v ≠ 0) : e.neg = decide (v < 0) := by
  rcases hn : e.neg with _ | _
  · have := h.pos hn
    simp [this]
  · have := lt_of_le_of_ne (h.neg hn) hv
    simp [this]

/-- Where some pair of ends is one, the search answers the value of one that is. -/
theorem firstDecided_spec (ends : ℕ → F64 × F64) (h : ∃ k, (ends k).1 = (ends k).2) :
    ∃ k, (ends k).1 = (ends k).2 ∧ firstDecided ends 0 = (ends k).1 := by
  obtain ⟨n, hn⟩ := h
  have key : ∀ j k, k + j = n → ∃ i, (ends i).1 = (ends i).2 ∧ firstDecided ends k = (ends i).1 := by
    intro j
    induction j with
    | zero =>
      intro k hk
      rw [Nat.add_zero] at hk
      subst hk
      exact ⟨k, hn, by rw [firstDecided, if_pos hn]⟩
    | succ j ih =>
      intro k hk
      by_cases h0 : (ends k).1 = (ends k).2
      · exact ⟨k, h0, by rw [firstDecided, if_pos h0]⟩
      · obtain ⟨i, hi, he⟩ := ih (k + 1) (by omega)
        exact ⟨i, hi, by rw [firstDecided, if_neg h0, he]⟩
  exact key n 0 (Nat.zero_add n)

/-- What `settle64` answers: the lower end of an enclosure of the number whose two ends round to one value. -/
theorem settle64_cases {coarse fine : Enclosure} {deep : ℕ → Enclosure} {v : ℝ} (hc : coarse.Contains v) (hf : fine.Contains v)
    (hd : ∀ k, (deep k).Contains v) (h : ∃ k, (deep k).lo64 = (deep k).hi64) :
    ∃ e : Enclosure, e.Contains v ∧ e.lo64 = e.hi64 ∧ settle64 coarse fine deep = e.lo64 := by
  unfold settle64
  by_cases h1 : coarse.lo64 = coarse.hi64
  · exact ⟨coarse, hc, h1, if_pos h1⟩
  · rw [if_neg h1]
    by_cases h2 : fine.lo64 = fine.hi64
    · exact ⟨fine, hf, h2, if_pos h2⟩
    · rw [if_neg h2]
      obtain ⟨k, hk, he⟩ := firstDecided_spec (fun k => (deep k).ends64) h
      exact ⟨deep k, hd k, hk, he⟩

/-- `settle64` answers the value the contained number rounds to. -/
theorem settle64_nearest {coarse fine : Enclosure} {deep : ℕ → Enclosure} {v : ℝ} (hv : v ≠ 0) (hc : coarse.Contains v)
    (hf : fine.Contains v) (hd : ∀ k, (deep k).Contains v) (h : ∃ k, (deep k).lo64 = (deep k).hi64) :
    signF64 (settle64 coarse fine deep) = decide (v < 0) ∧
      NearestPattern 52 2047 (|v| * 2 ^ 1074) (patF64 (settle64 coarse fine deep)) := by
  obtain ⟨e, he, hr, hs⟩ := settle64_cases hc hf hd h
  rw [hs, ← he.sign hv]
  exact he.nearest hr

/-! ### exp -/

theorem taylorLo_le (p y : ℕ) {Y : ℝ} (h0 : 0 ≤ Y) (hY : (y : ℝ) ≤ Y * 2 ^ p) (n m t : ℕ) :
    (taylorLo p y n m t : ℝ) ≤ t * factorialSeries 1 Y m := by
  induction n generalizing m t with
  | zero => simpa [taylorLo] using mul_nonneg (Nat.cast_nonneg t) (factorialSeries_nonneg 1 h0 m)
  | succ n ih =>
    rw [taylorLo, Nat.cast_add, factorialSeries_succ 1 le_rfl, factorial_step_one, mul_add (t : ℝ), mul_one (t : ℝ)]
    refine add_le_add_right ((ih (m + 1) _).trans ?_) _
    rw [← mul_assoc]
    refine mul_le_mul_of_nonneg_right ((floorDiv_le_real _ _).trans ?_) (factorialSeries_nonneg 1 h0 _)
    rw [div_le_iff₀ (by positivity)]
    push_cast
    calc (t : ℝ) * y ≤ t * (Y * 2 ^ p) := mul_le_mul_of_nonneg_left hY (Nat.cast_nonneg t)
      _ = t * (Y * (1 / (m + 1))) * (2 ^ p * (m + 1)) := by field_simp

theorem le_taylorHi (p y : ℕ) {Y : ℝ} (h0 : 0 ≤ Y) (h1 : Y ≤ 1) (hY : Y * 2 ^ p ≤ y) (n m t : ℕ) (hnm : 1 ≤ m + n) :
    (t : ℝ) * factorialSeries 1 Y m ≤ taylorHi p y n m t := by
  induction n generalizing m t with
  | zero =>
    rw [taylorHi, Nat.cast_mul, Nat.cast_ofNat, mul_comm]
    exact mul_le_mul_of_nonneg_right
      (factorialSeries_one_le_two h0 (by have : (1 : ℝ) ≤ m := by exact_mod_cast hnm
                                         linarith)) (Nat.cast_nonneg t)
  | succ n ih =>
    rw [taylorHi, Nat.cast_add, factorialSeries_succ 1 le_rfl, factorial_step_one, mul_add (t : ℝ), mul_one (t : ℝ)]
    refine add_le_add_right (le_trans ?_ (ih (m + 1) _ (by omega))) _
    rw [← mul_assoc]
    refine mul_le_mul_of_nonneg_right (le_trans ?_ (le_ceilDiv_real _ (by positivity))) (factorialSeries_nonneg 1 h0 _)
    rw [le_div_iff₀ (by positivity)]
    push_cast
    calc (t : ℝ) * (Y * (1 / (m + 1))) * (2 ^ p * (m + 1)) = t * (Y * 2 ^ p) := by field_simp
      _ ≤ t * y := mul_le_mul_of_nonneg_left hY (Nat.cast_nonneg t)

/-- `expLo` is at most the exponential, also of anything larger. -/
theorem expLo_le (p n y : ℕ) {Y : ℝ} (h0 : 0 ≤ Y) (hY : (y : ℝ) ≤ Y * 2 ^ p) : (expLo p n y : ℝ) ≤ Real.exp Y * 2 ^ p := by
  have := taylorLo_le p y h0 hY n 0 (2 ^ p)
  rw [factorialSeries_exp, Nat.cast_pow, Nat.cast_ofNat, mul_comm] at this
  exact this

/-- `expHi` is at least the exponential, also of anything smaller. -/
theorem le_expHi (p n y : ℕ) (hn : 1 ≤ n) {Y : ℝ} (h0 : 0 ≤ Y) (h1 : Y ≤ 1) (hY : Y * 2 ^ p ≤ y) :
    Real.exp Y * 2 ^ p ≤ expHi p n y := by
  have := le_taylorHi p y h0 h1 hY n 0 (2 ^ p) (by omega)
  rw [factorialSeries_exp, Nat.cast_pow, Nat.cast_ofNat, mul_comm] at this
  exact this

theorem le_expLo (p n y : ℕ) (hn : 1 ≤ n) : 2 ^ p ≤ expLo p n y := by
  obtain ⟨k, rfl⟩ : ∃ k, n = k + 1 := ⟨n - 1, by omega⟩
  unfold expLo taylorLo
  omega

theorem squareLo_le (p n a : ℕ) {A : ℝ} (hA : (a : ℝ) ≤ A * 2 ^ p) : (squareLo p n a : ℝ) ≤ A ^ 2 ^ n * 2 ^ p := by
  induction n generalizing a A with
  | zero => simpa [squareLo] using hA
  | succ n ih =>
    have : ((a * a / 2 ^ p : ℕ) : ℝ) ≤ A ^ 2 * 2 ^ p := by
      refine (floorDiv_le_real _ _).trans ?_
      push_cast
      rw [div_le_iff₀ (by positivity)]
      calc (a : ℝ) * a ≤ (A * 2 ^ p) * (A * 2 ^ p) := mul_self_le_mul_self (Nat.cast_nonneg a) hA
        _ = A ^ 2 * 2 ^ p * 2 ^ p := by ring
    have := ih _ this
    rwa [← pow_mul, ← pow_succ'] at this

theorem le_squareHi (p n a : ℕ) {A : ℝ} (h0 : 0 ≤ A) (hA : A * 2 ^ p ≤ a) : A ^ 2 ^ n * 2 ^ p ≤ squareHi p n a := by
  induction n generalizing a A with
  | zero => simpa [squareHi] using hA
  | succ n ih =>
    have : A ^ 2 * 2 ^ p ≤ (ceilDiv (a * a) (2 ^ p) : ℕ) := by
      refine le_trans ?_ (le_ceilDiv_real _ (by positivity))
      push_cast
      rw [le_div_iff₀ (by positivity)]
      calc A ^ 2 * 2 ^ p * 2 ^ p = (A * 2 ^ p) * (A * 2 ^ p) := by ring
        _ ≤ (a : ℝ) * a := mul_self_le_mul_self (by positivity) hA
    have := ih _ (by positivity) this
    rwa [← pow_mul, ← pow_succ'] at this

theorem le_squareLo (p n a : ℕ) (ha : 2 ^ p ≤ a) : 2 ^ p ≤ squareLo p n a := by
  induction n generalizing a with
  | zero => exact ha
  | succ n ih =>
    refine ih _ ?_
    rw [Nat.le_div_iff_mul_le (by positivity)]
    exact Nat.mul_le_mul ha ha

/-- The enclosure of `exp` contains it, up to 1024 in magnitude. -/
theorem expEnclosure_contains (p n : ℕ) (hn : 1 ≤ n) (x : F64) (v : ℝ) (hv : (valF64 x : ℝ) = v * 2 ^ 1074) (h : |v| ≤ 1024) :
    (expEnclosure p n x).Contains (Real.exp v) := by
  have hmag : (magF64 x : ℝ) = |v| * 2 ^ 1074 := by
    rw [← abs_of_pos (show (0 : ℝ) < 2 ^ 1074 by positivity), ← abs_mul, ← hv, ← Int.cast_abs, abs_valF64, Int.cast_natCast]
  set lo := squareLo p 10 (expLo p n (magF64 x * 2 ^ p / 2 ^ 1084)) with hlo
  set hi := squareHi p 10 (expHi p n (ceilDiv (magF64 x * 2 ^ p) (2 ^ 1084))) with hhi
  have hY0 : 0 ≤ |v| / 1024 := by positivity
  have hY1 : |v| / 1024 ≤ 1 := by rw [div_le_one (by norm_num)]; exact h
  have harg : ((magF64 x * 2 ^ p : ℕ) : ℝ) / ((2 ^ 1084 : ℕ) : ℝ) = |v| / 1024 * 2 ^ p := by
    rw [Nat.cast_mul, hmag, Nat.cast_pow, Nat.cast_pow, Nat.cast_ofNat, show (1084 : ℕ) = 1074 + 10 from rfl, pow_add]
    have : (0 : ℝ) < 2 ^ 1074 := by positivity
    generalize (2 : ℝ) ^ 1074 = q at *
    field_simp
    norm_num
  have hE : Real.exp (|v| / 1024) ^ 2 ^ 10 = Real.exp |v| := by
    rw [← Real.exp_nat_mul]
    congr 1
    push_cast
    ring
  have h1 : (lo : ℝ) ≤ Real.exp |v| * 2 ^ p := by
    rw [← hE]
    refine squareLo_le _ _ _ (expLo_le _ _ _ hY0 ?_)
    rw [← harg]
    exact floorDiv_le_real _ _
  have h2 : Real.exp |v| * 2 ^ p ≤ hi := by
    rw [← hE]
    refine le_squareHi _ _ _ (Real.exp_pos _).le (le_expHi _ _ _ hn hY0 hY1 ?_)
    rw [← harg]
    exact le_ceilDiv_real _ (by positivity)
  have h3 : 2 ^ p ≤ lo := le_squareLo _ _ _ (le_expLo _ _ _ hn)
  have hp : 0 < 2 ^ p := by positivity
  have hpr : (0 : ℝ) < 2 ^ p := by positivity
  have hlopos : (0 : ℝ) < lo := by exact_mod_cast hp.trans_le h3
  have hhipos : (0 : ℝ) < hi := lt_of_lt_of_le (by positivity) h2
  have he : expEnclosure p n x =
      if signF64 x then { neg := false, loNum := 2 ^ p, loDen := hi, hiNum := 2 ^ p, hiDen := lo }
      else { neg := false, loNum := lo, loDen := 2 ^ p, hiNum := hi, hiDen := 2 ^ p } := rfl
  clear_value lo hi
  rw [he]
  have hval := valF64_eq x
  split
  · next hs =>
    have hneg : |v| = -v := by
      refine abs_of_nonpos ?_
      have h3 : (valF64 x : ℝ) ≤ 0 := by
        rw [hval, hs]; push_cast; simp
      have : v * 2 ^ 1074 ≤ 0 := hv ▸ h3
      by_contra hc
      exact absurd this (not_le.2 (mul_pos (not_le.1 hc) (by positivity)))
    have hev : Real.exp |v| = (Real.exp v)⁻¹ := by rw [hneg, Real.exp_neg]
    rw [hev] at h1 h2
    have hpos := Real.exp_pos v
    rw [inv_mul_eq_div] at h1 h2
    refine ⟨by exact_mod_cast hhipos, by exact_mod_cast hlopos, ?_, ?_, by simp, fun _ => hpos.le⟩
    · rw [abs_of_pos hpos, Nat.cast_pow, Nat.cast_ofNat, div_le_iff₀ hhipos]
      rwa [div_le_iff₀ hpos, mul_comm] at h2
    · rw [abs_of_pos hpos, Nat.cast_pow, Nat.cast_ofNat, le_div_iff₀ hlopos]
      rwa [le_div_iff₀ hpos, mul_comm] at h1
  · next hs =>
    have hpos' : |v| = v := by
      refine abs_of_nonneg ?_
      have h3 : (0 : ℝ) ≤ valF64 x := by
        rw [hval, if_neg hs]; push_cast; simp
      have : 0 ≤ v * 2 ^ 1074 := hv ▸ h3
      by_contra hc
      exact absurd this (not_le.2 (mul_neg_of_neg_of_pos (not_le.1 hc) (by positivity)))
    rw [hpos'] at h1 h2
    have hpos := Real.exp_pos v
    refine ⟨hp, hp, ?_, ?_, by simp, fun _ => hpos.le⟩
    · rw [abs_of_pos hpos, Nat.cast_pow, Nat.cast_ofNat, div_le_iff₀ hpr]; exact h1
    · rw [abs_of_pos hpos, Nat.cast_pow, Nat.cast_ofNat, le_div_iff₀ hpr]; exact h2

/-! ### exp2 -/

/-- The rest of `ln 2 = Σ 1 / (m · 2^m)` from term `m` on. -/
noncomputable def ln2Tail (m : ℕ) : ℝ := ∑' j : ℕ, (1 / 2 : ℝ) ^ (m + j) / ((m + j : ℕ) : ℝ)

theorem ln2Tail_term_le {m : ℕ} (hm : 1 ≤ m) (j : ℕ) :
    (1 / 2 : ℝ) ^ (m + j) / ((m + j : ℕ) : ℝ) ≤ (1 / 2) ^ m * (1 / 2) ^ j := by
  rw [← pow_add]
  refine div_le_self (by positivity) ?_
  exact_mod_cast (by omega : 1 ≤ m + j)

theorem summable_ln2Tail {m : ℕ} (hm : 1 ≤ m) : Summable fun j : ℕ => (1 / 2 : ℝ) ^ (m + j) / ((m + j : ℕ) : ℝ) :=
  Summable.of_nonneg_of_le (fun j => by positivity) (ln2Tail_term_le hm) (summable_geometric_two.mul_left _)

theorem ln2Tail_one : ln2Tail 1 = Real.log 2 := by
  have h := (Real.hasSum_pow_div_log_of_abs_lt_one (x := 1 / 2) (by norm_num [abs_of_pos])).tsum_eq
  have h2 : -Real.log (1 - 1 / 2) = Real.log 2 := by
    rw [show (1 : ℝ) - 1 / 2 = 2⁻¹ by norm_num, Real.log_inv, neg_neg]
  rw [h2] at h
  rw [← h]
  unfold ln2Tail
  congr 1
  funext j
  rw [Nat.add_comm 1 j]
  push_cast
  rfl

theorem ln2Tail_succ {m : ℕ} (hm : 1 ≤ m) : ln2Tail m = 1 / (m * 2 ^ m) + ln2Tail (m + 1) := by
  unfold ln2Tail
  rw [(summable_ln2Tail hm).tsum_eq_zero_add]
  congr 1
  · rw [Nat.add_zero, one_div_pow]; field_simp
  · congr 1
    funext j
    rw [show m + (j + 1) = m + 1 + j by ring]

theorem ln2Tail_nonneg (m : ℕ) : 0 ≤ ln2Tail m := tsum_nonneg fun j => by positivity

theorem ln2Tail_le {m : ℕ} (hm : 1 ≤ m) : ln2Tail m ≤ (1 / 2) ^ m * 2 := by
  unfold ln2Tail
  calc ∑' j : ℕ, (1 / 2 : ℝ) ^ (m + j) / ((m + j : ℕ) : ℝ) ≤ ∑' j : ℕ, (1 / 2 : ℝ) ^ m * (1 / 2) ^ j :=
        (summable_ln2Tail hm).tsum_le_tsum (ln2Tail_term_le hm) (summable_geometric_two.mul_left _)
    _ = (1 / 2) ^ m * 2 := by rw [tsum_mul_left, tsum_geometric_two]

theorem ln2Sum_bounds (p k : ℕ) {m : ℕ} (hm : 1 ≤ m) :
    (ln2Sum p k m : ℝ) ≤ ln2Tail m * 2 ^ p ∧ ln2Tail m * 2 ^ p ≤ ln2Sum p k m + k + ln2Tail (m + k) * 2 ^ p := by
  induction k generalizing m with
  | zero => simpa [ln2Sum] using mul_nonneg (ln2Tail_nonneg m) (by positivity : (0 : ℝ) ≤ 2 ^ p)
  | succ k ih =>
    obtain ⟨h1, h2⟩ := ih (m := m + 1) (by omega)
    have hpos : 0 < m * 2 ^ m := by positivity
    have h3 := floorDiv_le_real (2 ^ p) (m * 2 ^ m)
    have h4 : ((2 ^ p : ℕ) : ℝ) / ((m * 2 ^ m : ℕ) : ℝ) < (2 ^ p / (m * 2 ^ m) : ℕ) + 1 := by
      rw [div_lt_iff₀ (by exact_mod_cast hpos)]
      exact_mod_cast Nat.lt_div_mul_add hpos |>.trans_le (by rw [Nat.add_mul, one_mul])
    rw [ln2Sum, ln2Tail_succ hm, Nat.cast_add, add_mul, Nat.cast_succ k]
    have e : ((2 ^ p : ℕ) : ℝ) / ((m * 2 ^ m : ℕ) : ℝ) = 1 / (m * 2 ^ m) * 2 ^ p := by push_cast; ring
    rw [e] at h3 h4
    rw [show m + 1 + k = m + (k + 1) by ring] at h2
    constructor <;> linarith

/-- `ln 2` lies between its two integer bounds. -/
theorem ln2_bounds (p : ℕ) : (ln2Lo p : ℝ) ≤ Real.log 2 * 2 ^ p ∧ Real.log 2 * 2 ^ p ≤ ln2Hi p := by
  obtain ⟨h1, h2⟩ := ln2Sum_bounds p p (m := 1) le_rfl
  rw [ln2Tail_one] at h1 h2
  refine ⟨h1, h2.trans ?_⟩
  have h3 := ln2Tail_le (m := 1 + p) (by omega)
  have h4 : ln2Tail (1 + p) * 2 ^ p ≤ 1 := by
    calc ln2Tail (1 + p) * 2 ^ p ≤ (1 / 2) ^ (1 + p) * 2 * 2 ^ p := mul_le_mul_of_nonneg_right h3 (by positivity)
      _ = (1 / 2 * 2) ^ (1 + p) := by rw [mul_pow, pow_add, pow_add]; ring
      _ = 1 := by norm_num
  unfold ln2Hi ln2Lo
  push_cast
  linarith

/-- A finite value is its integer part and its fraction. -/
theorem floorInt_add_fracF64 (s : F64) : valF64 s = floorInt s * 2 ^ 1074 + fracF64 s ∧ (fracF64 s : ℤ) < 2 ^ 1074 := by
  have hp : (0 : ℤ) < 2 ^ 1074 := by positivity
  unfold floorInt fracF64
  generalize (2 : ℤ) ^ 1074 = q at *
  have h1 := Int.emod_nonneg (valF64 s) hp.ne'
  have h2 := Int.emod_lt_of_pos (valF64 s) hp
  rw [Int.toNat_of_nonneg h1]
  refine ⟨?_, h2⟩
  have := Int.emod_add_mul_ediv (valF64 s) q
  rw [mul_comm] at this
  omega

/-- The two ends of `exp2Ends` as real numbers. -/
theorem exp2Ends_real (s : F64) (lo hi den : ℕ) (hd : 0 < den) :
    (exp2Ends s lo hi den).neg = false ∧ 0 < (exp2Ends s lo hi den).loDen ∧ 0 < (exp2Ends s lo hi den).hiDen ∧
      ((exp2Ends s lo hi den).loNum / (exp2Ends s lo hi den).loDen : ℝ) = lo / den * 2 ^ floorInt s ∧
      ((exp2Ends s lo hi den).hiNum / (exp2Ends s lo hi den).hiDen : ℝ) = hi / den * 2 ^ floorInt s := by
  have hdr : (den : ℝ) ≠ 0 := by exact_mod_cast hd.ne'
  unfold exp2Ends
  dsimp only
  generalize floorInt s = k
  split
  · next hk =>
    obtain ⟨j, rfl⟩ := Int.eq_ofNat_of_zero_le hk
    refine ⟨rfl, hd, hd, ?_, ?_⟩ <;> (rw [Int.toNat_natCast, zpow_natCast]; push_cast; ring)
  · next hk =>
    obtain ⟨j, hj⟩ := Int.eq_ofNat_of_zero_le (by omega : 0 ≤ -k)
    obtain rfl : k = -(j : ℤ) := by omega
    have hp : 0 < den * 2 ^ j := by positivity
    rw [neg_neg, Int.toNat_natCast]
    refine ⟨rfl, hp, hp, ?_, ?_⟩ <;> (rw [zpow_neg, zpow_natCast]; push_cast; field_simp)

/-- A power of two is that of the integer part times that of the fraction. -/
theorem rpow_floorInt (s : F64) (v : ℝ) (hv : (valF64 s : ℝ) = v * 2 ^ 1074) :
    (2 : ℝ) ^ v = (2 : ℝ) ^ ((fracF64 s : ℝ) / 2 ^ 1074) * 2 ^ floorInt s := by
  have hq : (0 : ℝ) < 2 ^ 1074 := by positivity
  have hs' : (valF64 s : ℝ) = floorInt s * 2 ^ 1074 + fracF64 s := by
    rw [(floorInt_add_fracF64 s).1, Int.cast_add, Int.cast_mul, Int.cast_pow, Int.cast_ofNat, Int.cast_natCast]
  have hvf : v = fracF64 s / 2 ^ 1074 + floorInt s := by
    rw [← mul_right_cancel_iff_of_pos hq, ← hv, add_mul, div_mul_cancel₀ _ hq.ne', hs', add_comm]
  conv_lhs => rw [hvf]
  rw [Real.rpow_add (by norm_num), Real.rpow_intCast]

/-- Bounds on the power of two of the fraction give an enclosure of the whole. -/
theorem exp2Ends_contains (s : F64) (v : ℝ) (hv : (valF64 s : ℝ) = v * 2 ^ 1074) {lo hi den : ℕ} (hd : 0 < den)
    (hl : (lo : ℝ) ≤ (2 : ℝ) ^ ((fracF64 s : ℝ) / 2 ^ 1074) * den) (hh : (2 : ℝ) ^ ((fracF64 s : ℝ) / 2 ^ 1074) * den ≤ hi) :
    (exp2Ends s lo hi den).Contains ((2 : ℝ) ^ v) := by
  obtain ⟨hn, h1, h2, h3, h4⟩ := exp2Ends_real s lo hi den hd
  have hdr : (0 : ℝ) < den := by exact_mod_cast hd
  have hpos : (0 : ℝ) < 2 ^ v := by positivity
  have hk : (0 : ℝ) < 2 ^ floorInt s := by positivity
  refine ⟨h1, h2, ?_, ?_, fun h => absurd h (by rw [hn]; simp), fun _ => hpos.le⟩
  · rw [abs_of_pos hpos, h3, rpow_floorInt s v hv]
    exact mul_le_mul_of_nonneg_right ((div_le_iff₀ hdr).2 hl) hk.le
  · rw [abs_of_pos hpos, h4, rpow_floorInt s v hv]
    exact mul_le_mul_of_nonneg_right ((le_div_iff₀ hdr).2 hh) hk.le

/-- The enclosure of `exp2` contains it. -/
theorem exp2Enclosure_contains (p n : ℕ) (hn : 1 ≤ n) (s : F64) (v : ℝ) (hv : (valF64 s : ℝ) = v * 2 ^ 1074) :
    (exp2Enclosure p n s).Contains ((2 : ℝ) ^ v) := by
  have hq : (0 : ℝ) < 2 ^ 1074 := by positivity
  have hf1' : (fracF64 s : ℝ) < 2 ^ 1074 := by exact_mod_cast (floorInt_add_fracF64 s).2
  obtain ⟨l1, l2⟩ := ln2_bounds p
  have hln : 0 < Real.log 2 := Real.log_pos (by norm_num)
  have hln1 : Real.log 2 ≤ 1 := by
    have := Real.log_two_lt_d9; linarith
  have hlo : ((fracF64 s * ln2Lo p / 2 ^ 1074 : ℕ) : ℝ) ≤ fracF64 s / 2 ^ 1074 * Real.log 2 * 2 ^ p := by
    refine (floorDiv_le_real _ _).trans ?_
    rw [Nat.cast_mul, Nat.cast_pow, Nat.cast_ofNat, mul_div_right_comm, mul_assoc]
    exact mul_le_mul_of_nonneg_left l1 (by positivity)
  have hhi : (fracF64 s : ℝ) / 2 ^ 1074 * Real.log 2 * 2 ^ p ≤ (ceilDiv (fracF64 s * ln2Hi p) (2 ^ 1074) : ℕ) := by
    refine le_trans ?_ (le_ceilDiv_real _ (by positivity))
    rw [Nat.cast_mul, Nat.cast_pow, Nat.cast_ofNat, mul_div_right_comm, mul_assoc]
    exact mul_le_mul_of_nonneg_left l2 (by positivity)
  have hf0 : (0 : ℝ) ≤ fracF64 s / 2 ^ 1074 := by positivity
  have hf2 : (fracF64 s : ℝ) / 2 ^ 1074 ≤ 1 := by rw [div_le_one hq]; exact hf1'.le
  have he : (2 : ℝ) ^ ((fracF64 s : ℝ) / 2 ^ 1074) = Real.exp (fracF64 s / 2 ^ 1074 * Real.log 2) := by
    rw [mul_comm, Real.exp_mul, Real.exp_log (by norm_num)]
  refine exp2Ends_contains s v hv (by positivity) ?_ ?_
  · rw [he, Nat.cast_pow, Nat.cast_ofNat]
    exact expLo_le p n _ (by positivity) hlo
  · rw [he, Nat.cast_pow, Nat.cast_ofNat]
    exact le_expHi p n _ hn (by positivity) (by nlinarith) hhi

/-! ### log2 -/

/-- The digits of a base-2 logarithm bound it. -/
theorem log2Digits_bounds (p n : ℕ) : ∀ (lo hi b i : ℕ) (z : ℝ), 1 ≤ z → z ≤ 2 → (lo : ℝ) ≤ z * 2 ^ p → z * 2 ^ p ≤ hi →
    i ≤ (log2Digits p n lo hi b i).2 ∧
      ((log2Digits p n lo hi b i).1 : ℝ) ≤ (b + Real.logb 2 z) * 2 ^ ((log2Digits p n lo hi b i).2 - i) ∧
      (b + Real.logb 2 z) * 2 ^ ((log2Digits p n lo hi b i).2 - i) ≤ (log2Digits p n lo hi b i).1 + 1 := by
  have base : ∀ (b i : ℕ) (z : ℝ), 1 ≤ z → z ≤ 2 →
      i ≤ i ∧ (b : ℝ) ≤ (b + Real.logb 2 z) * 2 ^ (i - i) ∧ (b + Real.logb 2 z) * 2 ^ (i - i) ≤ b + 1 := by
    intro b i z h1 h2
    have l0 : 0 ≤ Real.logb 2 z := Real.logb_nonneg (by norm_num) h1
    have l1 : Real.logb 2 z ≤ 1 := by
      have := Real.logb_le_logb_of_le (b := 2) (by norm_num) (by linarith) h2
      rwa [Real.logb_self_eq_one (by norm_num)] at this
    rw [Nat.sub_self, pow_zero, mul_one]
    exact ⟨le_rfl, by linarith, by linarith⟩
  induction n with
  | zero => intro lo hi b i z h1 h2 _ _; exact base b i z h1 h2
  | succ n ih =>
    intro lo hi b i z h1 h2 hlo hhi
    have hz : 0 < z := by linarith
    have hp : (0 : ℝ) < 2 ^ p := by positivity
    have hl : ((lo * lo / 2 ^ p : ℕ) : ℝ) ≤ z ^ 2 * 2 ^ p := by
      refine (floorDiv_le_real _ _).trans ?_
      push_cast
      rw [div_le_iff₀ hp]
      calc (lo : ℝ) * lo ≤ (z * 2 ^ p) * (z * 2 ^ p) := mul_self_le_mul_self (Nat.cast_nonneg _) hlo
        _ = z ^ 2 * 2 ^ p * 2 ^ p := by ring
    have hh : z ^ 2 * 2 ^ p ≤ (ceilDiv (hi * hi) (2 ^ p) : ℕ) := by
      refine le_trans ?_ (le_ceilDiv_real _ (by positivity))
      push_cast
      rw [le_div_iff₀ hp]
      calc z ^ 2 * 2 ^ p * 2 ^ p = (z * 2 ^ p) * (z * 2 ^ p) := by ring
        _ ≤ (hi : ℝ) * hi := mul_self_le_mul_self (by positivity) hhi
    have hlog : Real.logb 2 (z ^ 2) = 2 * Real.logb 2 z := by
      rw [← Real.rpow_natCast, Real.logb_rpow_eq_mul_logb_of_pos hz]; norm_num
    have hz2 : z ^ 2 ≤ 4 := by nlinarith
    have hz1 : 1 ≤ z ^ 2 := by nlinarith
    rw [log2Digits]
    generalize lo * lo / 2 ^ p = lo' at *
    generalize ceilDiv (hi * hi) (2 ^ p) = hi' at *
    have scale : ∀ (b' : ℕ) (z' : ℝ), (b' : ℝ) + Real.logb 2 z' = 2 * (b + Real.logb 2 z) → ∀ r : ℕ × ℕ,
        (i + 1 ≤ r.2 ∧ (r.1 : ℝ) ≤ (b' + Real.logb 2 z') * 2 ^ (r.2 - (i + 1)) ∧
          (b' + Real.logb 2 z') * 2 ^ (r.2 - (i + 1)) ≤ r.1 + 1) →
        i ≤ r.2 ∧ (r.1 : ℝ) ≤ (b + Real.logb 2 z) * 2 ^ (r.2 - i) ∧ (b + Real.logb 2 z) * 2 ^ (r.2 - i) ≤ r.1 + 1 := by
      rintro b' z' hb r ⟨hr, ha, hb'⟩
      have hpow : (2 : ℝ) ^ (r.2 - i) = 2 ^ (r.2 - (i + 1)) * 2 := by
        rw [← pow_succ]; congr 1; omega
      rw [hb] at ha hb'
      rw [hpow]
      refine ⟨by omega, ?_, ?_⟩ <;> linarith
    split
    · next hd =>
      have h4 : (2 : ℝ) ≤ z ^ 2 := by
        have h5 : ((2 ^ (p + 1) : ℕ) : ℝ) ≤ lo' := by exact_mod_cast hd
        push_cast at h5
        rw [pow_succ] at h5
        nlinarith
      refine scale (2 * b + 1) (z ^ 2 / 2) ?_ _
        (ih (lo' / 2) (ceilDiv hi' 2) (2 * b + 1) (i + 1) (z ^ 2 / 2) (by linarith) (by linarith) ?_ ?_)
      · rw [Real.logb_div (by positivity) (by norm_num), Real.logb_self_eq_one (by norm_num), hlog]
        push_cast; ring
      · refine (floorDiv_le_real _ _).trans ?_
        push_cast; linarith
      · refine le_trans ?_ (le_ceilDiv_real _ (by norm_num))
        push_cast; linarith
    · split
      · next hd =>
        have h4 : z ^ 2 ≤ 2 := by
          have h5 : (hi' : ℝ) ≤ ((2 ^ (p + 1) : ℕ) : ℝ) := by exact_mod_cast hd
          push_cast at h5
          rw [pow_succ] at h5
          nlinarith
        refine scale (2 * b) (z ^ 2) ?_ _ (ih lo' hi' (2 * b) (i + 1) (z ^ 2) hz1 h4 hl hh)
        rw [hlog]; push_cast; ring
      · exact base b i z h1 h2

/-- A positive finite value is a power of two times a number in [1, 2]. -/
theorem log2_split (x : F64) (hf : finite64 x = true) (v : ℝ) (h0 : 0 < v) (hv : (valF64 x : ℝ) = v * 2 ^ 1074) :
    (magF64 x : ℝ) = v * 2 ^ 1074 ∧ 1 ≤ (magF64 x / 2 ^ bitLog 13 (magF64 x) : ℝ) ∧
      (magF64 x / 2 ^ bitLog 13 (magF64 x) : ℝ) ≤ 2 ∧
      Real.logb 2 v = Real.logb 2 (magF64 x / 2 ^ bitLog 13 (magF64 x)) + bitLog 13 (magF64 x) - 1074 := by
  have hq : (0 : ℝ) < 2 ^ 1074 := by positivity
  have hmag : (magF64 x : ℝ) = v * 2 ^ 1074 := by
    have h1 : (magF64 x : ℝ) = |v * 2 ^ 1074| := by rw [← hv, ← Int.cast_abs, abs_valF64, Int.cast_natCast]
    rw [h1, abs_of_pos (by positivity)]
  have hpos : 0 < magF64 x := by
    have : (0 : ℝ) < magF64 x := by rw [hmag]; positivity
    exact_mod_cast this
  have hlt : magF64 x < 2 ^ 2 ^ 13 := ((magF64_lt_iff x).2 hf).trans (two_pow_lt_hugeBound (by norm_num))
  have hm1 := two_pow_bitLog_le 13 hpos
  have hm2 := lt_two_pow_bitLog 13 hlt
  generalize bitLog 13 (magF64 x) = m at *
  generalize magF64 x = g at *
  have hm : (0 : ℝ) < 2 ^ m := by positivity
  have hm1' : (2 : ℝ) ^ m ≤ g := by exact_mod_cast hm1
  have hm2' : (g : ℝ) ≤ 2 * 2 ^ m := by
    have : (g : ℝ) ≤ 2 ^ (m + 1) := by exact_mod_cast hm2.le
    rwa [pow_succ, mul_comm] at this
  refine ⟨hmag, by rw [le_div_iff₀ hm, one_mul]; exact hm1', by rw [div_le_iff₀ hm]; exact hm2', ?_⟩
  have hvg : v = g / 2 ^ m * 2 ^ m / 2 ^ 1074 := by
    rw [div_mul_cancel₀ _ hm.ne', hmag, mul_div_cancel_right₀ _ hq.ne']
  have hg : (0 : ℝ) < g := hm.trans_le hm1'
  have hlp : ∀ k : ℕ, Real.logb 2 ((2 : ℝ) ^ k) = k := fun k => by
    rw [← Real.rpow_natCast, Real.logb_rpow (by norm_num) (by norm_num)]
  conv_lhs => rw [hvg]
  rw [Real.logb_div (by positivity) hq.ne', Real.logb_mul (by positivity) hm.ne', hlp, hlp]
  norm_num

/-- Digits of a logarithm in [0, 1] give an enclosure of the whole, no wider than the last digit's unit. -/
theorem log2Ends_contains (m B I : ℕ) {l : ℝ} (l0 : 0 ≤ l) (l1 : l ≤ 1) (d1 : (B : ℝ) ≤ l * 2 ^ I) (d2 : l * 2 ^ I ≤ B + 1) :
    (log2Ends m B I).Contains (l + m - 1074) ∧
      ((log2Ends m B I).hiNum / (log2Ends m B I).hiDen : ℝ) - (log2Ends m B I).loNum / (log2Ends m B I).loDen ≤ 1 / 2 ^ I := by
  have hI : (0 : ℝ) < 2 ^ I := by positivity
  unfold log2Ends
  split
  · next hk =>
    obtain ⟨j, rfl⟩ := Nat.exists_eq_add_of_le hk
    have e : l + ((1074 + j : ℕ) : ℝ) - 1074 = j + l := by push_cast; ring
    have hn : 0 ≤ (j : ℝ) + l := by positivity
    rw [e, Nat.add_sub_cancel_left]
    refine ⟨⟨by positivity, by positivity, ?_, ?_, by simp, fun _ => hn⟩, ?_⟩
    · rw [abs_of_nonneg hn]; push_cast
      rw [div_le_iff₀ hI]
      linarith
    · rw [abs_of_nonneg hn]; push_cast
      rw [le_div_iff₀ hI]
      linarith
    · push_cast
      rw [← sub_div]
      exact div_le_div_of_nonneg_right (by linarith) hI.le
  · next hk =>
    obtain ⟨j, hj⟩ : ∃ j, 1074 = m + (j + 1) := ⟨1074 - m - 1, by omega⟩
    have e : l + (m : ℝ) - 1074 = l - (j + 1) := by
      have : (1074 : ℝ) = m + (j + 1) := by exact_mod_cast hj
      linarith
    have hj0 : (0 : ℝ) ≤ j := Nat.cast_nonneg j
    have hn : l - ((j : ℝ) + 1) ≤ 0 := by linarith
    have hBI : B ≤ (j + 1) * 2 ^ I := by
      have h2 : (B : ℝ) ≤ (j + 1) * 2 ^ I := d1.trans (mul_le_mul_of_nonneg_right (by linarith) hI.le)
      exact_mod_cast h2
    rw [e, show 1074 - m = j + 1 by omega]
    refine ⟨⟨by positivity, by positivity, ?_, ?_, fun _ => hn, by simp⟩, ?_⟩
    · rw [abs_of_nonpos hn, div_le_iff₀ (by positivity)]
      rcases Nat.lt_or_ge ((j + 1) * 2 ^ I) (B + 1) with h | h
      · rw [Nat.sub_eq_zero_of_le h.le, Nat.cast_zero]
        have : (0 : ℝ) ≤ -(l - (j + 1)) := by linarith
        positivity
      · rw [Nat.cast_sub h]; push_cast; linarith
    · rw [abs_of_nonpos hn, le_div_iff₀ (by positivity), Nat.cast_sub hBI]; push_cast; linarith
    · have hsub : (((j + 1) * 2 ^ I - B : ℕ) : ℝ) ≤ (((j + 1) * 2 ^ I - (B + 1) : ℕ) : ℝ) + 1 := by
        exact_mod_cast (by omega : (j + 1) * 2 ^ I - B ≤ (j + 1) * 2 ^ I - (B + 1) + 1)
      rw [Nat.cast_pow, Nat.cast_ofNat, ← sub_div]
      exact div_le_div_of_nonneg_right (by linarith) hI.le

/-- The enclosure of `log2` contains it, at a positive finite value. -/
theorem log2Enclosure_contains (p n : ℕ) (x : F64) (hf : finite64 x = true) (v : ℝ) (h0 : 0 < v)
    (hv : (valF64 x : ℝ) = v * 2 ^ 1074) : (log2Enclosure p n x).Contains (Real.logb 2 v) := by
  obtain ⟨-, hz1, hz2, hlog⟩ := log2_split x hf v h0 hv
  rw [hlog]
  unfold log2Enclosure
  dsimp only
  generalize bitLog 13 (magF64 x) = m at *
  generalize magF64 x = g at *
  have hlo : ((g * 2 ^ p / 2 ^ m : ℕ) : ℝ) ≤ g / 2 ^ m * 2 ^ p := by
    refine (floorDiv_le_real _ _).trans (le_of_eq ?_)
    push_cast; ring
  have hhi : (g : ℝ) / 2 ^ m * 2 ^ p ≤ (ceilDiv (g * 2 ^ p) (2 ^ m) : ℕ) := by
    refine le_trans (le_of_eq ?_) (le_ceilDiv_real _ (by positivity))
    push_cast; ring
  obtain ⟨-, d1, d2⟩ := log2Digits_bounds p n _ _ 0 0 (g / 2 ^ m : ℝ) hz1 hz2 hlo hhi
  rw [Nat.sub_zero, Nat.cast_zero, zero_add] at d1 d2
  have l0 : 0 ≤ Real.logb 2 (g / 2 ^ m : ℝ) := Real.logb_nonneg (by norm_num) hz1
  have l1 : Real.logb 2 (g / 2 ^ m : ℝ) ≤ 1 := by
    have := Real.logb_le_logb_of_le (b := 2) (by norm_num) (by linarith) hz2
    rwa [Real.logb_self_eq_one (by norm_num)] at this
  exact (log2Ends_contains m _ _ l0 l1 d1 d2).1

/-! ### The sine table -/

/-- The nested alternating series, cut off, as an interval around the whole series. -/
theorem altSeries_bounds (uLo uHi : ℕ) {u : ℝ} (h0 : 0 ≤ u) (h1 : u ≤ 1) (hlo : (uLo : ℝ) ≤ u * 2 ^ sinePrecision)
    (hhi : u * 2 ^ sinePrecision ≤ uHi) (k m : ℕ) :
    ((altSeries uLo uHi k m).1 : ℝ) ≤ factorialSeries 2 (-u) m * 2 ^ sinePrecision ∧
      factorialSeries 2 (-u) m * 2 ^ sinePrecision ≤ (altSeries uLo uHi k m).2 := by
  have hP : (0 : ℝ) < 2 ^ sinePrecision := by positivity
  induction k generalizing m with
  | zero =>
    obtain ⟨s0, s1⟩ := factorialSeries_two_mem h0 h1 m
    unfold altSeries
    push_cast
    exact ⟨by positivity, mul_le_of_le_one_left hP.le s1⟩
  | succ k ih =>
    obtain ⟨i1, i2⟩ := ih (m + 2)
    obtain ⟨s0, s1⟩ := factorialSeries_two_mem h0 h1 m
    obtain ⟨t0, t1⟩ := factorialSeries_two_mem h0 h1 (m + 2)
    have hstep : factorialSeries 2 (-u) m = 1 - u * factorialSeries 2 (-u) (m + 2) / ((m + 1) * (m + 2)) := by
      rw [factorialSeries_succ 2 (by norm_num), factorial_step_two]
      ring
    have hc : (0 : ℝ) < (m + 1) * (m + 2) := by positivity
    have hd : 0 < 2 ^ sinePrecision * ((m + 1) * (m + 2)) := by positivity
    have hup : u * factorialSeries 2 (-u) (m + 2) / ((m + 1) * (m + 2)) * 2 ^ sinePrecision ≤
        (ceilDiv (uHi * (altSeries uLo uHi k (m + 2)).2) (2 ^ sinePrecision * ((m + 1) * (m + 2))) : ℕ) := by
      refine le_trans ?_ (le_ceilDiv_real _ hd)
      rw [le_div_iff₀ (by exact_mod_cast hd)]
      push_cast
      calc u * factorialSeries 2 (-u) (m + 2) / ((m + 1) * (m + 2)) * 2 ^ sinePrecision *
            (2 ^ sinePrecision * ((m + 1) * (m + 2)))
          = (u * 2 ^ sinePrecision) * (factorialSeries 2 (-u) (m + 2) * 2 ^ sinePrecision) := by field_simp
        _ ≤ (uHi : ℝ) * (altSeries uLo uHi k (m + 2)).2 := mul_le_mul hhi i2 (by positivity) (by positivity)
    have hdown : ((uLo * (altSeries uLo uHi k (m + 2)).1 / (2 ^ sinePrecision * ((m + 1) * (m + 2))) : ℕ) : ℝ) ≤
        u * factorialSeries 2 (-u) (m + 2) / ((m + 1) * (m + 2)) * 2 ^ sinePrecision := by
      refine (floorDiv_le_real _ _).trans ?_
      rw [div_le_iff₀ (by exact_mod_cast hd)]
      push_cast
      calc (uLo : ℝ) * (altSeries uLo uHi k (m + 2)).1
          ≤ (u * 2 ^ sinePrecision) * (factorialSeries 2 (-u) (m + 2) * 2 ^ sinePrecision) :=
            mul_le_mul hlo i1 (by positivity) (by positivity)
        _ = u * factorialSeries 2 (-u) (m + 2) / ((m + 1) * (m + 2)) * 2 ^ sinePrecision *
            (2 ^ sinePrecision * ((m + 1) * (m + 2))) := by field_simp
    rw [altSeries]
    dsimp only
    generalize ceilDiv (uHi * (altSeries uLo uHi k (m + 2)).2) (2 ^ sinePrecision * ((m + 1) * (m + 2))) = c at *
    generalize uLo * (altSeries uLo uHi k (m + 2)).1 / (2 ^ sinePrecision * ((m + 1) * (m + 2))) = b at *
    generalize u * factorialSeries 2 (-u) (m + 2) / ((m + 1) * (m + 2)) = w at *
    generalize factorialSeries 2 (-u) m = y at *
    have hb : b ≤ 2 ^ sinePrecision := by
      have : (b : ℝ) ≤ 2 ^ sinePrecision := by nlinarith
      exact_mod_cast this
    constructor
    · rcases Nat.lt_or_ge (2 ^ sinePrecision) c with h | h
      · rw [Nat.sub_eq_zero_of_le h.le, Nat.cast_zero]; positivity
      · rw [Nat.cast_sub h]; push_cast; nlinarith
    · rw [Nat.cast_sub hb]; push_cast; nlinarith

/-- The bounds on π stand for π. -/
theorem pi_bounds : (piLo : ℝ) ≤ Real.pi * 10 ^ 20 ∧ Real.pi * 10 ^ 20 ≤ ((piLo + 1 : ℕ) : ℝ) := by
  have h1 := Real.pi_gt_d20
  have h2 := Real.pi_lt_d20
  unfold piLo
  constructor
  · push_cast; linarith
  · push_cast; linarith

/-- The angle's two ends, for the angle `π·r / 1024`. -/
theorem angle_bounds (r : ℕ) : (angleLo r : ℝ) ≤ Real.pi * r / 1024 * 2 ^ sinePrecision ∧
    Real.pi * r / 1024 * 2 ^ sinePrecision ≤ angleHi r := by
  obtain ⟨h1, h2⟩ := pi_bounds
  have hP : (0 : ℝ) < 2 ^ sinePrecision := by positivity
  have hr : (0 : ℝ) ≤ r := Nat.cast_nonneg r
  constructor
  · refine (floorDiv_le_real _ _).trans ?_
    rw [Nat.cast_mul, Nat.cast_mul, Nat.cast_pow, Nat.cast_ofNat, show ((1024 * 10 ^ 20 : ℕ) : ℝ) = 1024 * 10 ^ 20 by norm_num,
      div_le_iff₀ (by norm_num)]
    calc (r : ℝ) * piLo * 2 ^ sinePrecision = piLo * (r * 2 ^ sinePrecision) := by ring
      _ ≤ Real.pi * 10 ^ 20 * (r * 2 ^ sinePrecision) := mul_le_mul_of_nonneg_right h1 (by positivity)
      _ = Real.pi * r / 1024 * 2 ^ sinePrecision * (1024 * 10 ^ 20) := by ring
  · refine le_trans ?_ (le_ceilDiv_real _ (by norm_num))
    rw [Nat.cast_mul, Nat.cast_mul, Nat.cast_pow, Nat.cast_ofNat, show ((1024 * 10 ^ 20 : ℕ) : ℝ) = 1024 * 10 ^ 20 by norm_num,
      le_div_iff₀ (by norm_num)]
    calc Real.pi * r / 1024 * 2 ^ sinePrecision * (1024 * 10 ^ 20) = Real.pi * 10 ^ 20 * (r * 2 ^ sinePrecision) := by ring
      _ ≤ ((piLo + 1 : ℕ) : ℝ) * (r * 2 ^ sinePrecision) := mul_le_mul_of_nonneg_right h2 (by positivity)
      _ = r * ((piLo + 1 : ℕ) : ℝ) * 2 ^ sinePrecision := by ring

theorem angleSq_bounds (r : ℕ) : (angleSqLo r : ℝ) ≤ (Real.pi * r / 1024) ^ 2 * 2 ^ sinePrecision ∧
    (Real.pi * r / 1024) ^ 2 * 2 ^ sinePrecision ≤ angleSqHi r := by
  obtain ⟨h1, h2⟩ := angle_bounds r
  have hP : (0 : ℝ) < 2 ^ sinePrecision := by positivity
  have h0 : 0 ≤ Real.pi * r / 1024 := by positivity
  generalize Real.pi * r / 1024 = θ at *
  constructor
  · refine (floorDiv_le_real _ _).trans ?_
    push_cast
    rw [div_le_iff₀ hP]
    calc (angleLo r : ℝ) * angleLo r ≤ (θ * 2 ^ sinePrecision) * (θ * 2 ^ sinePrecision) := mul_self_le_mul_self (Nat.cast_nonneg _) h1
      _ = θ ^ 2 * 2 ^ sinePrecision * 2 ^ sinePrecision := by ring
  · refine le_trans ?_ (le_ceilDiv_real _ (by positivity))
    push_cast
    rw [le_div_iff₀ hP]
    calc θ ^ 2 * 2 ^ sinePrecision * 2 ^ sinePrecision = (θ * 2 ^ sinePrecision) * (θ * 2 ^ sinePrecision) := by ring
      _ ≤ (angleHi r : ℝ) * angleHi r := mul_self_le_mul_self (by positivity) h2

/-- Up to a quarter of π the square of the angle is at most 1. -/
theorem angle_sq_le_one {r : ℕ} (hr : r ≤ 256) : (Real.pi * r / 1024) ^ 2 ≤ 1 := by
  have h1 : (r : ℝ) ≤ 256 := by exact_mod_cast hr
  have h2 := Real.pi_lt_four
  have h3 := Real.pi_pos
  have h0 : 0 ≤ Real.pi * r / 1024 := by positivity
  have : Real.pi * r / 1024 ≤ 1 := by
    rw [div_le_one (by norm_num)]
    nlinarith [Nat.cast_nonneg (α := ℝ) r]
  nlinarith

theorem sinInterval_contains {r : ℕ} (hr : r ≤ 256) : ((sinInterval r).1 : ℝ) ≤ Real.sin (Real.pi * r / 1024) * 2 ^ sinePrecision ∧
    Real.sin (Real.pi * r / 1024) * 2 ^ sinePrecision ≤ (sinInterval r).2 := by
  have hP : (0 : ℝ) < 2 ^ sinePrecision := by positivity
  obtain ⟨a1, a2⟩ := angle_bounds r
  obtain ⟨q1, q2⟩ := angleSq_bounds r
  have h0 : 0 ≤ Real.pi * r / 1024 := by positivity
  have hu := angle_sq_le_one hr
  rw [← factorialSeries_sin]
  generalize Real.pi * r / 1024 = θ at *
  obtain ⟨s1, s2⟩ := altSeries_bounds (angleSqLo r) (angleSqHi r) (sq_nonneg θ) hu q1 q2 12 1
  obtain ⟨t0, -⟩ := factorialSeries_two_mem (sq_nonneg θ) hu 1
  unfold sinInterval
  dsimp only
  generalize altSeries (angleSqLo r) (angleSqHi r) 12 1 = s at *
  generalize factorialSeries 2 (-θ ^ 2) 1 = y at *
  constructor
  · refine (floorDiv_le_real _ _).trans ?_
    push_cast
    rw [div_le_iff₀ hP]
    calc (angleLo r : ℝ) * s.1 ≤ (θ * 2 ^ sinePrecision) * (y * 2 ^ sinePrecision) :=
          mul_le_mul a1 s1 (by positivity) (by positivity)
      _ = θ * y * 2 ^ sinePrecision * 2 ^ sinePrecision := by ring
  · refine le_trans ?_ (le_ceilDiv_real _ (by positivity))
    push_cast
    rw [le_div_iff₀ hP]
    calc θ * y * 2 ^ sinePrecision * 2 ^ sinePrecision = (θ * 2 ^ sinePrecision) * (y * 2 ^ sinePrecision) := by ring
      _ ≤ (angleHi r : ℝ) * s.2 := mul_le_mul a2 s2 (by positivity) (by positivity)

theorem cosInterval_contains {r : ℕ} (hr : r ≤ 256) : ((cosInterval r).1 : ℝ) ≤ Real.cos (Real.pi * r / 1024) * 2 ^ sinePrecision ∧
    Real.cos (Real.pi * r / 1024) * 2 ^ sinePrecision ≤ (cosInterval r).2 := by
  obtain ⟨q1, q2⟩ := angleSq_bounds r
  have hu := angle_sq_le_one hr
  rw [← factorialSeries_cos]
  exact altSeries_bounds (angleSqLo r) (angleSqHi r) (sq_nonneg _) hu q1 q2 12 0

/-- A quarter of the period of the sine, in units of 2^-sinePrecision. -/
theorem quarterInterval_contains {r : ℕ} (hr : r ≤ 512) :
    ((quarterInterval r).1 : ℝ) ≤ Real.sin (2 * Real.pi * r / 2048) * 2 ^ sinePrecision ∧
      Real.sin (2 * Real.pi * r / 2048) * 2 ^ sinePrecision ≤ (quarterInterval r).2 := by
  have e : 2 * Real.pi * r / 2048 = Real.pi * r / 1024 := by ring
  rw [e]
  unfold quarterInterval
  split
  · next h => exact sinInterval_contains h
  · next h =>
    have := cosInterval_contains (r := 512 - r) (by omega)
    rw [Nat.cast_sub hr, show Real.pi * ((512 : ℕ) - (r : ℝ)) / 1024 = Real.pi / 2 - Real.pi * r / 1024 by push_cast; ring,
      Real.cos_pi_div_two_sub] at this
    exact this

/-- The two ends of every interval of the quarter period, but the zero's, round to one binary32. -/
theorem quarterInterval_decided : ∀ r, r < 513 → r = 0 ∨ roundMagnitude 23 255 ((quarterInterval r).1 * 2 ^ 149) (2 ^ sinePrecision) =
    roundMagnitude 23 255 ((quarterInterval r).2 * 2 ^ 149) (2 ^ sinePrecision) := by decide +kernel

/-- The rounding of a lower end is the rounding of the sine (R136), a quarter of a period at most from zero. -/
theorem roundSine_nearest (neg : Bool) {r : ℕ} (h0 : 0 < r) (hr : r ≤ 512) :
    signF32 (roundSine neg (quarterInterval r).1) = neg ∧
      NearestPattern 23 255 (Real.sin (2 * Real.pi * r / 2048) * 2 ^ 149) (patF32 (roundSine neg (quarterInterval r).1)) := by
  obtain ⟨h1, h2⟩ := quarterInterval_contains hr
  have hd := (quarterInterval_decided r (by omega)).resolve_left h0.ne'
  have hP : (0 : ℝ) < 2 ^ sinePrecision := by positivity
  have near : ∀ a : ℕ, NearestPattern 23 255 ((a : ℝ) * 2 ^ 149 / 2 ^ sinePrecision)
      (roundMagnitude 23 255 (a * 2 ^ 149) (2 ^ sinePrecision)) := by
    intro a
    have := nearestPattern_roundMagnitude 23 255 (a * 2 ^ 149) (2 ^ sinePrecision) (by norm_num) (by norm_num) (by norm_num)
      (by norm_num) (by positivity)
    exact_mod_cast this
  have n1 := near (quarterInterval r).1
  have n2 := near (quarterInterval r).2
  rw [← hd] at n2
  rw [roundSine, patF32_roundF32]
  refine ⟨signF32_roundF32 _ _ _, NearestPattern.between n1 n2 ?_ ?_⟩
  · rw [div_le_iff₀ hP]; nlinarith [show (0 : ℝ) < 2 ^ 149 by positivity]
  · rw [le_div_iff₀ hP]; nlinarith [show (0 : ℝ) < 2 ^ 149 by positivity]

end Sys2Proof.Machine
end

