-- ==== Sys2Proof/Laws/Step.lean ====
section
/-! SUPPORT. What a host access and a step can do, said once: an access is malformed, a read, or a write of one register; a step is
one event of the schedule or, with none left, the engine's turn. -/

namespace Sys2Proof.Machine

/-- The bytes of a word are read back as the word. -/
@[simp] theorem wordOfList_bytesOfWord (v : Word) : wordOfList (bytesOfWord v) = v := by
  unfold wordOfList bytesOfWord wordOfBytes
  apply BitVec.eq_of_getLsbD_eq
  intro i hi
  simp only [BitVec.getLsbD_append, BitVec.getLsbD_extractLsb']
  rcases Nat.lt_or_ge i 8 with h | h
  · simp [h]
  rcases Nat.lt_or_ge i 16 with h' | h'
  · simp [h.not_gt, show i - 8 < 8 by omega, show 8 + (i - 8) = i by omega]
  rcases Nat.lt_or_ge i 24 with h'' | h''
  · simp [h.not_gt, show ¬ i - 8 < 8 by omega, show i - 8 - 8 < 8 by omega, show 16 + (i - 8 - 8) = i by omega]
  · simp [h.not_gt, show ¬ i - 8 < 8 by omega, show ¬ i - 8 - 8 < 8 by omega, show i - 8 - 8 - 8 < 8 by omega,
      show 24 + (i - 8 - 8 - 8) = i by omega]

@[simp] theorem length_bytesOfWord (v : Word) : (bytesOfWord v).length = 4 := rfl

/-- What the checks of R186 let through. -/
theorem firstFailure_eq_none (w : Bool) (off size : Nat) :
    firstFailure w off size = none ↔
      size = 4 ∧ off % 4 = 0 ∧ off < 0x34 ∧ (w = true → readOnlyRegister off = false) := by
  unfold firstFailure
  by_cases h1 : size = 4
  · by_cases h2 : off % 4 = 0
    · by_cases h3 : 0x34 ≤ off
      · simp [h1, h2, h3, not_lt.2 h3]
      · cases w <;> cases h : readOnlyRegister off <;> simp [h1, h2, h3, not_le.1 h3]
    · simp [h1, h2]
  · simp [h1]

theorem withInbox_cons_self (s : State) (e : Event) : (s.withInbox (e :: s.inbox)).withInbox s.inbox = s := rfl

/-- A step performs the first event of the schedule, … -/
theorem step_event (s : State) (e : Event) (rest : List Event) (h : s.inbox = e :: rest) :
    step s = performEvent e (s.withInbox rest) := by
  unfold step nextStep
  rw [h]

/-- … or, with an empty schedule, the engine's turn. -/
theorem step_empty (s : State) (h : s.inbox = []) : step s = .next (engineStep s) := by
  unfold step nextStep
  rw [h]

/-- What a step can be. -/
theorem step_cases {s t : State} (h : step s = .next t) :
    (s.inbox = [] ∧ t = engineStep s) ∨ ∃ e rest, s.inbox = e :: rest ∧ performEvent e (s.withInbox rest) = .next t := by
  rcases hi : s.inbox with _ | ⟨e, rest⟩
  · rw [step_empty s hi] at h
    exact .inl ⟨rfl, (Host.Outcome.next.inj h).symm⟩
  · rw [step_event s e rest hi] at h
    exact .inr ⟨e, rest, rfl, h⟩

/-- What an event can do: an access, the engine's turn, or the reset. -/
theorem performEvent_cases {e : Event} {s t : State} (h : performEvent e s = .next t) :
    (∃ a, e = .host a ∧ hostAccess a s = .next t) ∨ (e = .engine ∧ t = engineStep s) ∨ (e = .reset ∧ t = resetBlock s) := by
  cases e with
  | host a => exact .inl ⟨a, rfl, h⟩
  | engine => exact .inr (.inl ⟨rfl, (Host.Outcome.next.inj h).symm⟩)
  | reset => exact .inr (.inr ⟨rfl, (Host.Outcome.next.inj h).symm⟩)

/-- What a legal write can do: run a command word, or store in one register. -/
theorem writeRegister_cases {s t : State} {off : Nat} {v : Word} (h : writeRegister s off v = .next t) :
    (off = 0x00 ∧ runCommand v s = .next t) ∨ t = s.withArg0Lo v ∨ t = s.withArg0Hi v ∨ t = s.withArg1 v ∨ t = s.withArg2 v ∨
      t = s.withSticky (s.sticky.clear v) ∨ t = s.withCtrl (ctrlOfWord v) ∨ t = raise .errAccess s := by
  unfold writeRegister at h
  split at h
  · exact .inl ⟨rfl, h⟩
  all_goals
    have := (Host.Outcome.next.inj h).symm
    simp only [this, true_or, or_true]

/-- What a command word can do: one command's meaning, or ERR_CMD. -/
theorem runCommand_cases {c : Word} {s t : State} (h : runCommand c s = .next t) :
    (∃ i, decode c = .ok i ∧ exec i (s.withCmd c) = .next t) ∨
      ((∃ e, decode c = .error e) ∧ t = raise .errCmd (s.withCmd c)) := by
  unfold runCommand at h
  split at h
  · next i hi => exact .inl ⟨i, hi, h⟩
  · next e he => exact .inr ⟨⟨e, he⟩, (Host.Outcome.next.inj h).symm⟩

/-- What a host access can do: raise ERR_ACCESS, answer a read, or write. -/
theorem hostAccess_cases {a : Access} {s t : State} (h : hostAccess a s = .next t) :
    t = (raise .errAccess s).withRdata 0#32 ∨ t = raise .errAccess s ∨
      (∃ off, t = s.withRdata (readRegister s off)) ∨
      ∃ off bytes, a = .write off bytes ∧ accessFailure a = none ∧
        writeRegister s off.toNat (wordOfList bytes) = .next t := by
  unfold hostAccess at h
  split at h
  · exact .inl (Host.Outcome.next.inj h).symm
  · exact .inr (.inl (Host.Outcome.next.inj h).symm)
  · exact .inr (.inr (.inl ⟨_, (Host.Outcome.next.inj h).symm⟩))
  · next off bytes hf => exact .inr (.inr (.inr ⟨off, bytes, rfl, hf, h⟩))

end Sys2Proof.Machine
end

