-- ==== Sys2Proof/Laws/Invariant.lean ====
section
/-! SUPPORT. How an invariant of the units is shown to be kept: by the commands, by the engine's turn and by reset; every other
part of a step leaves the units alone. -/

namespace Sys2Proof.Machine

/-- Two states with the same units and the same active configuration. -/
structure SameUnits (s t : State) : Prop where
  det : t.det = s.det
  queue : t.queue = s.queue
  acfg : t.acfg = s.acfg
  osc : t.osc = s.osc
  smo : t.smo = s.smo
  dec : t.dec = s.dec

/-- A predicate of the units that the commands, the engine's turn and the reset keep is kept by every step. -/
theorem stepKeeps_of {P : State → Prop} (hframe : ∀ s t, SameUnits s t → P s → P t)
    (hexec : ∀ i s t, P s → exec i s = .next t → P t) (hengine : ∀ s, P s → P (engineStep s)) (hreset : P State.reset) :
    StepKeeps P := by
  intro s t hs h
  rcases step_cases h with ⟨-, rfl⟩ | ⟨e, rest, -, he⟩
  · exact hengine s hs
  · have hs' : P (s.withInbox rest) := hframe s _ ⟨rfl, rfl, rfl, rfl, rfl, rfl⟩ hs
    generalize s.withInbox rest = u at *
    rcases performEvent_cases he with ⟨a, -, ha⟩ | ⟨-, rfl⟩ | ⟨-, rfl⟩
    · rcases hostAccess_cases ha with rfl | rfl | ⟨off, rfl⟩ | ⟨off, bytes, -, -, hw⟩
      · exact hframe u _ ⟨rfl, rfl, rfl, rfl, rfl, rfl⟩ hs'
      · exact hframe u _ ⟨rfl, rfl, rfl, rfl, rfl, rfl⟩ hs'
      · exact hframe u _ ⟨rfl, rfl, rfl, rfl, rfl, rfl⟩ hs'
      · rcases writeRegister_cases hw with ⟨-, hc⟩ | rfl | rfl | rfl | rfl | rfl | rfl | rfl
        · rcases runCommand_cases hc with ⟨i, -, hi⟩ | ⟨-, rfl⟩
          · exact hexec i (u.withCmd (wordOfList bytes)) _ (hframe u _ ⟨rfl, rfl, rfl, rfl, rfl, rfl⟩ hs') hi
          · exact hframe u _ ⟨rfl, rfl, rfl, rfl, rfl, rfl⟩ hs'
        all_goals exact hframe u _ ⟨rfl, rfl, rfl, rfl, rfl, rfl⟩ hs'
    · exact hengine u hs'
    · exact hframe State.reset _ ⟨rfl, rfl, rfl, rfl, rfl, rfl⟩ hreset

end Sys2Proof.Machine
end

