-- ==== Sys2Proof/Laws/PerInstr.lean ====
section
/-! SUPPORT. What holds of every command as syntax: its word keeps the reserved bits zero, carries a waveform only for
OSC.SETWAVE, and decodes back to it (30_encoding.md R73, R74, R81). -/

namespace Sys2Proof.Laws.EncodeLegal

/-- The command is well formed; its word has RSV zero, and WAVE zero unless the command is OSC.SETWAVE; and the word decodes
to the command. -/
def Statement (i : Instr) : Prop :=
  i.wf = true ∧ rsvField (encode i) = 0#22 ∧ (usesWave i = false → waveField (encode i) = 0#2) ∧ decode (encode i) = .ok i

theorem detPrepare : Statement .detPrepare := by refine ⟨?_, ?_, ?_, ?_⟩ <;> decide
theorem detFeed : Statement .detFeed := by refine ⟨?_, ?_, ?_, ?_⟩ <;> decide
theorem detGetResult : Statement .detGetResult := by refine ⟨?_, ?_, ?_, ?_⟩ <;> decide
theorem oscPrepare : Statement .oscPrepare := by refine ⟨?_, ?_, ?_, ?_⟩ <;> decide
theorem oscSetFreq : Statement .oscSetFreq := by refine ⟨?_, ?_, ?_, ?_⟩ <;> decide
theorem oscSetWave (w : Wave) : Statement (.oscSetWave w) := by cases w <;> (refine ⟨?_, ?_, ?_, ?_⟩ <;> decide)
theorem oscNext : Statement .oscNext := by refine ⟨?_, ?_, ?_, ?_⟩ <;> decide
theorem smoPrepare : Statement .smoPrepare := by refine ⟨?_, ?_, ?_, ?_⟩ <;> decide
theorem smoSetAmount : Statement .smoSetAmount := by refine ⟨?_, ?_, ?_, ?_⟩ <;> decide
theorem smoSetSens : Statement .smoSetSens := by refine ⟨?_, ?_, ?_, ?_⟩ <;> decide
theorem smoProcess : Statement .smoProcess := by refine ⟨?_, ?_, ?_, ?_⟩ <;> decide
theorem decReset : Statement .decReset := by refine ⟨?_, ?_, ?_, ?_⟩ <;> decide
theorem decProcess : Statement .decProcess := by refine ⟨?_, ?_, ?_, ?_⟩ <;> decide
theorem decGetOutput : Statement .decGetOutput := by refine ⟨?_, ?_, ?_, ?_⟩ <;> decide

end Sys2Proof.Laws.EncodeLegal
end

