-- ==== Sys2Proof/Laws/Settling.lean ====
section
/-! SUPPORT. The search of `settle64` ends: `exp` of a rational other than 0, a power of two to a fraction that is no integer, and
the binary logarithm of what is no power of two are irrational, and enclosures that narrow to an irrational number come to lie
between two halfway points of adjacent binary64 numbers. So `exp`, `exp2` and `log2` are correctly rounded (R12). -/

namespace Sys2Proof.Machine

/-! ### Irrational values -/

open Polynomial in
/-- `b^k` clears the denominators of an integer polynomial of degree at most `k` at `a / b`. -/
theorem exists_int_eval_div (g : ℤ[X]) (a b : ℤ) (hb : b ≠ 0) {k : ℕ} (hk : g.natDegree ≤ k) :
    ∃ z : ℤ, (b : ℂ) ^ k * aeval ((a : ℂ) / b) g = z := by
  refine ⟨∑ i ∈ Finset.range (k + 1), g.coeff i * a ^ i * b ^ (k - i), ?_⟩
  rw [aeval_eq_sum_range' (Nat.lt_succ_of_le hk), Finset.mul_sum]
  push_cast
  refine Finset.sum_congr rfl fun i hi => ?_
  have hi' : i ≤ k := Nat.lt_succ_iff.1 (Finset.mem_range.1 hi)
  have hb' : (b : ℂ) ≠ 0 := by exact_mod_cast hb
  rw [zsmul_eq_mul, div_pow]
  conv_lhs => rw [← Nat.sub_add_cancel hi', pow_add]
  field_simp

open Polynomial Nat in
/-- The exponential of a rational number other than 0 is irrational. -/
theorem irrational_exp_div {a b : ℤ} (ha : a ≠ 0) (hb : b ≠ 0) : Irrational (Real.exp (a / b)) := by
  rintro ⟨q, hq⟩
  obtain ⟨c, hc⟩ := LindemannWeierstrass.exp_polynomial_approx (C b * X - C a) (by simpa using ha)
  -- the bound on the approximation's error, once denominators are cleared, falls below 1
  have hlim : Filter.Tendsto (fun n : ℕ => |(q.den : ℝ) * c| * (|(b * c : ℝ)| ^ n / n !)) Filter.atTop (nhds 0) := by
    simpa using (FloorSemiring.tendsto_pow_div_factorial_atTop |(b * c : ℝ)|).const_mul (|(q.den : ℝ) * c|)
  obtain ⟨N, hN⟩ := Filter.eventually_atTop.1 (hlim.eventually_lt_const one_pos)
  obtain ⟨p, hpN, hp⟩ := Nat.exists_infinite_primes (N + a.natAbs + b.natAbs + q.num.natAbs + 2)
  obtain ⟨n, hn, g, hdeg, happ⟩ := hc p (by simp; omega) hp
  have hdeg' : g.natDegree ≤ p - 1 := by
    refine hdeg.trans ?_
    have : (C b * X - C a : ℤ[X]).natDegree ≤ 1 := by compute_degree
    exact Nat.sub_le_sub_right (by simpa using Nat.mul_le_mul_left p this) 1
  have hb' : (b : ℂ) ≠ 0 := by exact_mod_cast hb
  have hroot : ((a : ℂ) / b) ∈ (C b * X - C a : ℤ[X]).aroots ℂ := by
    rw [mem_aroots]
    refine ⟨fun h => ha ?_, by simp [mul_div_cancel₀ _ hb']⟩
    have := congrArg (eval 0) h
    simpa using this
  have happ := happ hroot
  obtain ⟨z, hz⟩ := exists_int_eval_div g a b hb hdeg'
  have hexp : Complex.exp ((a : ℂ) / b) = q.num / q.den := by
    have h1 : Complex.exp ((a : ℂ) / b) = ((Real.exp (a / b) : ℝ) : ℂ) := by push_cast; rfl
    rw [h1, ← hq]
    push_cast
    rw [← Rat.cast_natCast, ← Rat.cast_intCast, ← Rat.cast_div, Rat.num_div_den]
  have hden : (q.den : ℂ) ≠ 0 := by exact_mod_cast q.den_ne_zero
  -- an integer below 1 in magnitude is 0
  have hint : n * q.num * b ^ (p - 1) - p * q.den * z = 0 := by
    rw [← Int.abs_lt_one_iff, ← Int.cast_lt (R := ℝ), Int.cast_abs, Int.cast_one, ← Complex.norm_intCast]
    have e : ((n * q.num * b ^ (p - 1) - p * q.den * z : ℤ) : ℂ) =
        q.den * b ^ (p - 1) * (n • Complex.exp ((a : ℂ) / b) - p • aeval ((a : ℂ) / b) g) := by
      push_cast
      rw [← hz, hexp, nsmul_eq_mul, zsmul_eq_mul]
      field_simp
    rw [e, norm_mul, norm_mul, norm_pow]
    refine lt_of_le_of_lt ?_ (hN (p - 1) (by omega))
    calc ‖(q.den : ℂ)‖ * ‖(b : ℂ)‖ ^ (p - 1) * ‖n • Complex.exp ((a : ℂ) / b) - p • aeval ((a : ℂ) / b) g‖
        ≤ ‖(q.den : ℂ)‖ * ‖(b : ℂ)‖ ^ (p - 1) * (c ^ p / (p - 1)!) := mul_le_mul_of_nonneg_left happ (by positivity)
      _ ≤ ‖(q.den : ℂ)‖ * ‖(b : ℂ)‖ ^ (p - 1) * (|c| ^ p / (p - 1)!) := by
          refine mul_le_mul_of_nonneg_left (div_le_div_of_nonneg_right ?_ (by positivity)) (by positivity)
          exact (le_abs_self _).trans (abs_pow c p).le
      _ = |(q.den : ℝ) * c| * (|(b * c : ℝ)| ^ (p - 1) / (p - 1)!) := by
          rw [Complex.norm_natCast, Complex.norm_intCast, abs_mul, abs_mul, mul_pow, Nat.abs_cast]
          conv_lhs => rw [← Nat.sub_add_cancel hp.one_le, pow_succ]
          simp only [Nat.add_sub_cancel]
          ring
  have hdvd : (p : ℤ) ∣ n * q.num * b ^ (p - 1) := ⟨q.den * z, by linarith⟩
  have hpi : Prime (p : ℤ) := Nat.prime_iff_prime_int.1 hp
  have small : ∀ m : ℤ, m ≠ 0 → m.natAbs < p → ¬ (p : ℤ) ∣ m := by
    intro m hm hlt h
    exact absurd (Nat.le_of_dvd (Int.natAbs_pos.2 hm) (Int.natCast_dvd.1 h)) (by omega)
  have hnum : q.num ≠ 0 := by
    intro h0
    have : q = 0 := Rat.num_eq_zero.1 h0
    rw [this, Rat.cast_zero] at hq
    exact (Real.exp_pos _).ne hq
  rcases hpi.dvd_or_dvd hdvd with h | h
  · rcases hpi.dvd_or_dvd h with h | h
    · exact hn h
    · exact small _ hnum (by omega) h
  · exact small _ hb (by omega) (hpi.dvd_of_dvd_pow h)

/-- A power of two to a rational exponent that is no integer is irrational. -/
theorem irrational_two_rpow_div {a b : ℕ} (hb : 0 < b) (hlt : a < b) (ha : a ≠ 0) : Irrational ((2 : ℝ) ^ ((a : ℝ) / b)) := by
  have hbr : (b : ℝ) ≠ 0 := by exact_mod_cast hb.ne'
  have hlt' : (a : ℝ) < b := by exact_mod_cast hlt
  have ha' : (0 : ℝ) < a := by exact_mod_cast Nat.pos_of_ne_zero ha
  refine irrational_nrt_of_notint_nrt b ((2 : ℤ) ^ a) ?_ ?_ hb
  · rw [← Real.rpow_natCast, ← Real.rpow_mul (by norm_num), div_mul_cancel₀ _ hbr]
    push_cast
    rw [Real.rpow_natCast]
  · rintro ⟨y, hy⟩
    have h1 : (1 : ℝ) < (2 : ℝ) ^ ((a : ℝ) / b) := Real.one_lt_rpow (by norm_num) (by positivity)
    have h2 : (2 : ℝ) ^ ((a : ℝ) / b) < (2 : ℝ) ^ (1 : ℝ) :=
      Real.rpow_lt_rpow_of_exponent_lt (by norm_num) (by rw [div_lt_one (by positivity)]; exact hlt')
    rw [Real.rpow_one] at h2
    rw [hy] at h1 h2
    have h3 : (1 : ℤ) < y := by exact_mod_cast h1
    have h4 : y < (2 : ℤ) := by exact_mod_cast h2
    omega

/-- The binary logarithm of `g / 2^m` is irrational, where `g` lies strictly between `2^m` and `2^(m+1)`. -/
theorem irrational_logb_div {g m : ℕ} (h1 : 2 ^ m < g) (h2 : g < 2 ^ (m + 1)) : Irrational (Real.logb 2 ((g : ℝ) / 2 ^ m)) := by
  rintro ⟨q, hq⟩
  have hg : (0 : ℝ) < (g : ℝ) / 2 ^ m := by
    have : 0 < g := lt_of_le_of_lt (Nat.zero_le _) h1
    positivity
  have hg1 : (1 : ℝ) < (g : ℝ) / 2 ^ m := by rw [lt_div_iff₀ (by positivity), one_mul]; exact_mod_cast h1
  have hq0 : (0 : ℝ) < (q : ℝ) := by rw [hq]; exact Real.logb_pos (by norm_num) hg1
  have hnum : 0 < q.num := Rat.num_pos.2 (by exact_mod_cast hq0)
  obtain ⟨u, hu⟩ := Int.eq_ofNat_of_zero_le hnum.le
  -- `(g / 2^m)^den = 2^num`
  have hpow : ((g : ℝ) / 2 ^ m) ^ q.den = 2 ^ u := by
    have hh : (2 : ℝ) ^ (q : ℝ) = (g : ℝ) / 2 ^ m := by rw [hq]; exact Real.rpow_logb (by norm_num) (by norm_num) hg
    rw [← hh, ← Real.rpow_natCast, ← Real.rpow_mul (by norm_num)]
    have : (q : ℝ) * (q.den : ℕ) = (u : ℕ) := by
      have h3 : ((q * q.den : ℚ) : ℝ) = ((q.num : ℚ) : ℝ) := by rw [Rat.mul_den_eq_num]
      push_cast at h3
      rw [h3, hu]; simp
    rw [this, Real.rpow_natCast]
  have hpow' : g ^ q.den = 2 ^ (u + m * q.den) := by
    rw [div_pow, div_eq_iff (by positivity), ← pow_mul, ← pow_add] at hpow
    exact_mod_cast hpow
  -- so `g` is a power of two
  obtain ⟨k, -, hk⟩ := (Nat.dvd_prime_pow Nat.prime_two).1 (hpow' ▸ dvd_pow_self g q.den_ne_zero)
  rw [hk] at h1 h2
  have h3 := (Nat.pow_lt_pow_iff_right (by norm_num : 1 < 2)).1 h1
  have h4 := (Nat.pow_lt_pow_iff_right (by norm_num : 1 < 2)).1 h2
  omega

/-! ### Irrational numbers are decided

A real number that is no rational one stands between no two adjacent binary64 magnitudes halfway, so enclosures that narrow to it
end on one side of every such halfway point. -/

/-- Between two reals with different nearest patterns stands a halfway point of two adjacent magnitudes. -/
theorem NearestPattern.exists_halfway {t emax p q : ℕ} {v w : ℝ} (he : 3 ≤ emax) (hv : NearestPattern t emax v p)
    (hw : NearestPattern t emax w q) (h : p < q) :
    p < emax * 2 ^ t ∧ v ≤ ((magOfPattern t p + magOfPattern t (p + 1) : ℕ) : ℝ) / 2 ∧
      ((magOfPattern t p + magOfPattern t (p + 1) : ℕ) : ℝ) / 2 ≤ w := by
  have hmono := magOfPattern_strictMono t
  have hbound : (2 : ℝ) * overflowBound t emax =
      magOfPattern t (emax * 2 ^ t - 1) + magOfPattern t (emax * 2 ^ t) := by
    exact_mod_cast two_mul_overflowBound t emax he
  have hq : q ≤ emax * 2 ^ t := by
    unfold NearestPattern at hw
    split at hw
    · exact hw.1.le
    · exact hw.le
  have hp : p < emax * 2 ^ t := h.trans_le hq
  have m1 : (magOfPattern t p : ℝ) < magOfPattern t (p + 1) := by exact_mod_cast hmono (Nat.lt_succ_self p)
  have m2 : (magOfPattern t p : ℝ) ≤ magOfPattern t (emax * 2 ^ t - 1) := by exact_mod_cast hmono.monotone (by omega)
  have m3 : (magOfPattern t (p + 1) : ℝ) ≤ magOfPattern t (emax * 2 ^ t) := by exact_mod_cast hmono.monotone (by omega)
  have m4 : (magOfPattern t (p + 1) : ℝ) ≤ magOfPattern t q := by exact_mod_cast hmono.monotone (by omega)
  push_cast
  refine ⟨hp, ?_, ?_⟩
  · unfold NearestPattern at hv
    split at hv
    · next hlt =>
      rcases Nat.lt_or_ge (p + 1) (emax * 2 ^ t) with h1 | h1
      · have := (hv.2 (p + 1) h1).1
        by_contra hc
        rw [not_le] at hc
        rw [abs_of_nonpos (by linarith)] at this
        rcases abs_cases ((magOfPattern t (p + 1) : ℝ) - v) with ⟨c, _⟩ | ⟨c, _⟩ <;> rw [c] at this <;> linarith
      · rw [show emax * 2 ^ t - 1 = p by omega, show emax * 2 ^ t = p + 1 by omega] at hbound
        linarith
    · omega
  · unfold NearestPattern at hw
    split at hw
    · have := (hw.2 p hp).1
      by_contra hc
      rw [not_le] at hc
      rw [abs_of_nonneg (by linarith)] at this
      rcases abs_cases ((magOfPattern t p : ℝ) - w) with ⟨c, _⟩ | ⟨c, _⟩ <;> rw [c] at this <;> linarith
    · next hlt =>
      rw [not_lt] at hlt
      linarith

/-- The nearest pattern grows with the number. -/
theorem NearestPattern.mono {t emax p q : ℕ} {v w : ℝ} (he : 3 ≤ emax) (hv : NearestPattern t emax v p)
    (hw : NearestPattern t emax w q) (h : v ≤ w) : p ≤ q := by
  by_contra hc
  rw [not_le] at hc
  obtain ⟨hq, h1, h2⟩ := NearestPattern.exists_halfway he hw hv hc
  have e : w = v := le_antisymm (h1.trans h2) h
  rw [e] at hw
  unfold NearestPattern at hv hw
  split at hv
  · next hlt =>
    rw [if_pos hlt] at hw
    obtain ⟨a1, a2⟩ := hv.2 q hw.1
    obtain ⟨b1, b2⟩ := hw.2 p hv.1
    have heq := le_antisymm a1 b1
    have e1 := a2 heq hc.ne
    have e2 := b2 heq.symm hc.ne'
    -- two even patterns are not adjacent: the one between them is nearer
    obtain ⟨c1, -⟩ := hw.2 (q + 1) (by have := hv.1; omega)
    have m1 : (magOfPattern t q : ℝ) < magOfPattern t (q + 1) := by exact_mod_cast magOfPattern_strictMono t (Nat.lt_succ_self q)
    have m2 : (magOfPattern t (q + 1) : ℝ) < magOfPattern t p := by exact_mod_cast magOfPattern_strictMono t (by omega)
    rcases abs_cases ((magOfPattern t p : ℝ) - v) with ⟨d1, _⟩ | ⟨d1, _⟩ <;>
      rcases abs_cases ((magOfPattern t q : ℝ) - v) with ⟨d2, _⟩ | ⟨d2, _⟩ <;>
      rcases abs_cases ((magOfPattern t (q + 1) : ℝ) - v) with ⟨d3, _⟩ | ⟨d3, _⟩ <;>
      rw [d1, d2] at heq <;> rw [d2, d3] at c1 <;> linarith
  · next hlt =>
    rw [if_neg hlt] at hw
    omega

/-- Enclosures of an irrational number that narrow to it: one of them decides. -/
theorem exists_decided {deep : ℕ → Enclosure} {v : ℝ} (hv : Irrational v) (hc : ∀ k, (deep k).Contains v)
    (hw : Filter.Tendsto (fun k => ((deep k).hiNum / (deep k).hiDen : ℝ) - (deep k).loNum / (deep k).loDen) Filter.atTop (nhds 0)) :
    ∃ k, (deep k).lo64 = (deep k).hi64 := by
  have hq : (0 : ℝ) < 2 ^ 1074 := by positivity
  generalize hQ : (2 : ℝ) ^ 1074 = Q at hq
  have hQr : ∃ z : ℕ, Q = z := ⟨2 ^ 1074, by rw [← hQ, Nat.cast_pow, Nat.cast_ofNat]⟩
  -- the halfway points, and the distance of the number to the nearest of them
  let half : Finset ℝ := (Finset.range (2047 * 2 ^ 52)).image fun p => ((magOfPattern 52 p + magOfPattern 52 (p + 1) : ℕ) : ℝ) / 2
  have hmem : |v| * Q ∉ half := by
    intro h
    obtain ⟨p, -, hp⟩ := Finset.mem_image.1 h
    obtain ⟨z, hz⟩ := hQr
    have hz0 : (z : ℝ) ≠ 0 := by rw [← hz]; exact hq.ne'
    have habs : Irrational |v| := by
      rcases abs_choice v with h | h <;> rw [h]
      · exact hv
      · exact hv.neg
    refine habs ⟨((magOfPattern 52 p + magOfPattern 52 (p + 1) : ℕ) : ℚ) / 2 / z, ?_⟩
    rw [hz] at hp
    push_cast at hp ⊢
    rw [hp, mul_div_cancel_right₀ _ hz0]
  obtain ⟨ε, hε, hball⟩ := Metric.isOpen_iff.1 half.finite_toSet.isClosed.isOpen_compl _ hmem
  obtain ⟨k, hk⟩ := (hw.eventually_lt_const (show (0 : ℝ) < ε / Q by positivity)).exists
  refine ⟨k, ?_⟩
  obtain ⟨h1, h2, lower, upper, -, -⟩ := hc k
  have nlo := (deep k).nearest_lo h1
  have nhi := (deep k).nearest_hi h2
  rw [hQ] at nlo nhi
  have hpat : patF64 (deep k).lo64 = patF64 (deep k).hi64 := by
    refine le_antisymm (NearestPattern.mono (by norm_num) nlo nhi (mul_le_mul_of_nonneg_right (lower.trans upper) hq.le)) ?_
    by_contra hlt
    rw [not_le] at hlt
    obtain ⟨hp, b1, b2⟩ := NearestPattern.exists_halfway (by norm_num) nlo nhi hlt
    refine hball ?_ (Finset.mem_coe.2 (Finset.mem_image.2 ⟨patF64 (deep k).lo64, Finset.mem_range.2 hp, rfl⟩))
    rw [Metric.mem_ball, Real.dist_eq]
    rw [lt_div_iff₀ hq, sub_mul] at hk
    have l := mul_le_mul_of_nonneg_right lower hq.le
    have u := mul_le_mul_of_nonneg_right upper hq.le
    generalize ((magOfPattern 52 (patF64 (deep k).lo64) + magOfPattern 52 (patF64 (deep k).lo64 + 1) : ℕ) : ℝ) / 2 = b at *
    rw [abs_lt]
    constructor <;> linarith
  have hsign : signF64 (deep k).lo64 = signF64 (deep k).hi64 := (signF64_roundF64 _ _ _).trans (signF64_roundF64 _ _ _).symm
  rw [← packF64_sign_pat (deep k).lo64, ← packF64_sign_pat (deep k).hi64, hpat, hsign]

/-! ### exp -/

/-- The exact Taylor sum, and what is left of the series. -/
theorem expNum_add_rest (a b : ℕ) (hb : 0 < b) (n : ℕ) :
    Real.exp (a / b) * expDen b n = expNum a b n + a ^ n * factorialSeries 1 (a / b) n := by
  induction n with
  | zero => simp [expNum, expDen, factorialSeries_exp]
  | succ n ih =>
    have hb' : (b : ℝ) ≠ 0 := by exact_mod_cast hb.ne'
    rw [factorialSeries_succ 1 le_rfl, factorial_step_one] at ih
    rw [expNum, expDen]
    push_cast
    rw [← mul_assoc, ih, pow_succ]
    field_simp
    ring

theorem expDen_pos (b : ℕ) (hb : 0 < b) (n : ℕ) : 0 < expDen b n := by
  induction n with
  | zero => exact Nat.one_pos
  | succ n ih => rw [expDen]; positivity

theorem expDen_eq (b n : ℕ) : expDen b n = b ^ n * n.factorial := by
  induction n with
  | zero => rfl
  | succ n ih => rw [expDen, ih, Nat.factorial_succ, pow_succ]; ring

theorem expDen_le_expNum (a b : ℕ) (n : ℕ) : expDen b (n + 1) ≤ expNum a b (n + 1) := by
  induction n with
  | zero => simp [expDen, expNum]
  | succ n ih => exact Nat.mul_le_mul_right _ (ih.trans (Nat.le_add_right _ _))

/-- An enclosure of the exponential of `t >= 0`, turned over, is one of the exponential of `-t`. -/
theorem inverse_bounds {E lo hi den : ℝ} (hE : 0 < E) (hden : 0 < den) (hlo : den ≤ lo) (h1 : lo ≤ E * den) (h2 : E * den ≤ hi) :
    den / hi ≤ E⁻¹ ∧ E⁻¹ ≤ den / lo ∧ den / lo - den / hi ≤ (hi - lo) / den := by
  have hlo0 : 0 < lo := hden.trans_le hlo
  have hhi0 : 0 < hi := (hlo0.trans_le h1).trans_le h2
  refine ⟨?_, ?_, ?_⟩
  · rw [div_le_iff₀ hhi0, inv_mul_eq_div, le_div_iff₀ hE, mul_comm]; exact h2
  · rw [le_div_iff₀ hlo0, inv_mul_eq_div, div_le_iff₀ hE, mul_comm]; exact h1
  · rw [div_sub_div _ _ hlo0.ne' hhi0.ne', div_le_div_iff₀ (by positivity) hden]
    calc (den * hi - lo * den) * den = (hi - lo) * (den * den) := by ring
      _ ≤ (hi - lo) * (lo * hi) :=
        mul_le_mul_of_nonneg_left (mul_le_mul hlo (hlo.trans (h1.trans h2)) hden.le hlo0.le) (by linarith)

/-- The sum of the terms that `expDeep` takes, the bound above it and their distance. -/
theorem expSum_bounds (a b : ℕ) (hb : 0 < b) (k n : ℕ) (hn : n = k + 2 * (a / b + 1)) :
    0 < expDen b n ∧ (expDen b n : ℝ) ≤ expNum a b n ∧ (expNum a b n : ℝ) ≤ Real.exp (a / b) * expDen b n ∧
      Real.exp (a / b) * expDen b n ≤ ((expNum a b n + 2 * a ^ n : ℕ) : ℝ) ∧
      (((expNum a b n + 2 * a ^ n : ℕ) : ℝ) - expNum a b n) / expDen b n = 2 * (((a : ℝ) / b) ^ n / n.factorial) := by
  have hb' : (0 : ℝ) < b := by exact_mod_cast hb
  have ht0 : (0 : ℝ) ≤ a / b := by positivity
  have hrest := factorialSeries_nonneg 1 ht0 n
  have hrest2 : factorialSeries 1 (a / b) n ≤ 2 := by
    refine factorialSeries_one_le_two ht0 ?_
    have h1 : (a / b : ℝ) ≤ (a / b : ℕ) + 1 := by
      rw [div_le_iff₀ hb']
      have := (Nat.lt_mul_div_succ a hb).le
      rw [mul_comm] at this
      exact_mod_cast this
    have h2 : (2 * ((a / b : ℕ) + 1) : ℝ) ≤ n := by exact_mod_cast (hn ▸ Nat.le_add_left _ _ : 2 * (a / b + 1) ≤ n)
    linarith
  have hsum := expNum_add_rest a b hb n
  obtain ⟨j, hj⟩ : ∃ j, n = j + 1 := ⟨k + 2 * (a / b) + 1, by rw [hn]; ring⟩
  refine ⟨expDen_pos b hb n, by rw [hj]; exact_mod_cast expDen_le_expNum a b j, ?_, ?_, ?_⟩
  · rw [hsum]
    exact le_add_of_nonneg_right (by positivity)
  · rw [hsum]
    push_cast
    have : (a : ℝ) ^ n * factorialSeries 1 (a / b) n ≤ a ^ n * 2 := mul_le_mul_of_nonneg_left hrest2 (by positivity)
    linarith
  · rw [expDen_eq, div_pow]
    push_cast
    field_simp
    ring

/-- The rest of the series vanishes. -/
theorem expSum_tendsto (t : ℝ) (m : ℕ) : Filter.Tendsto (fun k => 2 * (t ^ (k + m) / (k + m).factorial)) Filter.atTop (nhds 0) := by
  have h1 := (FloorSemiring.tendsto_pow_div_factorial_atTop t).const_mul 2
  rw [mul_zero] at h1
  exact h1.comp (Filter.tendsto_add_atTop_nat m)

/-- The exact sums of Taylor terms enclose `exp`, and narrow to it. -/
theorem expDeep_spec (x : F64) (v : ℝ) (hv : (valF64 x : ℝ) = v * 2 ^ 1074) :
    (∀ k, (expDeep x k).Contains (Real.exp v)) ∧
      Filter.Tendsto (fun k => ((expDeep x k).hiNum / (expDeep x k).hiDen : ℝ) - (expDeep x k).loNum / (expDeep x k).loDen)
        Filter.atTop (nhds 0) := by
  have hsgn := valF64_eq x
  have hlim := expSum_tendsto ((magF64 x : ℝ) / ((2 ^ 1074 : ℕ) : ℝ)) (2 * (magF64 x / 2 ^ 1074 + 1))
  have bounds := fun k => expSum_bounds (magF64 x) (2 ^ 1074) (by positivity) k _ rfl
  have hb : (0 : ℝ) < ((2 ^ 1074 : ℕ) : ℝ) := by positivity
  rw [show (2 : ℝ) ^ 1074 = ((2 ^ 1074 : ℕ) : ℝ) by rw [Nat.cast_pow, Nat.cast_ofNat]] at hv
  by_cases hs : signF64 x = true
  · have he : ∀ k, expDeep x k =
        { neg := false, loNum := expDen (2 ^ 1074) (k + 2 * (magF64 x / 2 ^ 1074 + 1))
          loDen := expNum (magF64 x) (2 ^ 1074) (k + 2 * (magF64 x / 2 ^ 1074 + 1)) +
            2 * magF64 x ^ (k + 2 * (magF64 x / 2 ^ 1074 + 1))
          hiNum := expDen (2 ^ 1074) (k + 2 * (magF64 x / 2 ^ 1074 + 1))
          hiDen := expNum (magF64 x) (2 ^ 1074) (k + 2 * (magF64 x / 2 ^ 1074 + 1)) } := by
      intro k; unfold expDeep; dsimp only; rw [if_pos hs]
    simp only [he]
    clear he
    generalize 2 ^ 1074 = b at *
    generalize magF64 x = a at *
    have htv : v = -(a / b) := by
      rw [hsgn, if_pos hs] at hv
      push_cast at hv
      rw [← neg_div, eq_div_iff hb.ne']
      linarith
    rw [htv, Real.exp_neg]
    generalize 2 * (a / b + 1) = m at *
    have h0 : 0 < (Real.exp (a / b : ℝ))⁻¹ := by positivity
    have key : ∀ k, 0 < expNum a b (k + m) ∧ 0 < expNum a b (k + m) + 2 * a ^ (k + m) ∧
        (expDen b (k + m) : ℝ) / ((expNum a b (k + m) + 2 * a ^ (k + m) : ℕ) : ℝ) ≤ (Real.exp (a / b : ℝ))⁻¹ ∧
        (Real.exp (a / b : ℝ))⁻¹ ≤ (expDen b (k + m) : ℝ) / expNum a b (k + m) ∧
        (expDen b (k + m) : ℝ) / expNum a b (k + m) - (expDen b (k + m) : ℝ) / ((expNum a b (k + m) + 2 * a ^ (k + m) : ℕ) : ℝ) ≤
          2 * (((a : ℝ) / b) ^ (k + m) / (k + m).factorial) := by
      intro k
      obtain ⟨b0, b1, b2, b3, b4⟩ := bounds k
      have b0' : (0 : ℝ) < expDen b (k + m) := by exact_mod_cast b0
      obtain ⟨i1, i2, i3⟩ := inverse_bounds (Real.exp_pos (a / b : ℝ)) b0' b1 b2 b3
      rw [b4] at i3
      have p1 : 0 < expNum a b (k + m) := by exact_mod_cast b0'.trans_le b1
      exact ⟨p1, Nat.add_pos_left p1 _, i1, i2, i3⟩
    constructor
    · intro k
      obtain ⟨p1, p2, i1, i2, -⟩ := key k
      exact ⟨p2, p1, by rw [abs_of_pos h0]; exact i1, by rw [abs_of_pos h0]; exact i2, by simp, fun _ => h0.le⟩
    · refine squeeze_zero (fun k => ?_) (fun k => (key k).2.2.2.2) hlim
      exact sub_nonneg.2 ((key k).2.2.1.trans (key k).2.2.2.1)
  · have he : ∀ k, expDeep x k =
        { neg := false, loNum := expNum (magF64 x) (2 ^ 1074) (k + 2 * (magF64 x / 2 ^ 1074 + 1))
          loDen := expDen (2 ^ 1074) (k + 2 * (magF64 x / 2 ^ 1074 + 1))
          hiNum := expNum (magF64 x) (2 ^ 1074) (k + 2 * (magF64 x / 2 ^ 1074 + 1)) +
            2 * magF64 x ^ (k + 2 * (magF64 x / 2 ^ 1074 + 1))
          hiDen := expDen (2 ^ 1074) (k + 2 * (magF64 x / 2 ^ 1074 + 1)) } := by
      intro k; unfold expDeep; dsimp only; rw [if_neg hs]
    simp only [he]
    clear he
    generalize 2 ^ 1074 = b at *
    generalize magF64 x = a at *
    have htv : v = a / b := by
      rw [hsgn, if_neg hs] at hv
      push_cast at hv
      rw [eq_div_iff hb.ne']
      linarith
    rw [htv]
    generalize 2 * (a / b + 1) = m at *
    have h0 : 0 < Real.exp (a / b : ℝ) := Real.exp_pos _
    constructor
    · intro k
      obtain ⟨b0, -, b2, b3, -⟩ := bounds k
      have b0' : (0 : ℝ) < expDen b (k + m) := by exact_mod_cast b0
      exact ⟨b0, b0, by rw [abs_of_pos h0, div_le_iff₀ b0']; exact b2, by rw [abs_of_pos h0, le_div_iff₀ b0']; exact b3, by simp,
        fun _ => h0.le⟩
    · refine hlim.congr fun k => ?_
      rw [← (bounds k).2.2.2.2, sub_div]

/-! ### exp2 -/

/-- The largest power below a power of two: the digits of `2^(f/q)`. -/
theorem findGreatest_root (f q k : ℕ) (hq : 0 < q) (hf : f < q) :
    ((Nat.findGreatest (fun z => z ^ q ≤ 2 ^ (f + k * q)) (2 ^ (k + 1)) : ℕ) : ℝ) ≤ (2 : ℝ) ^ ((f : ℝ) / q) * 2 ^ k ∧
      (2 : ℝ) ^ ((f : ℝ) / q) * 2 ^ k < (Nat.findGreatest (fun z => z ^ q ≤ 2 ^ (f + k * q)) (2 ^ (k + 1)) : ℕ) + 1 ∧
      (f = 0 → Nat.findGreatest (fun z => z ^ q ≤ 2 ^ (f + k * q)) (2 ^ (k + 1)) = 2 ^ k) := by
  have hqr : (0 : ℝ) < q := by exact_mod_cast hq
  -- a number is at most the root exactly where its power is at most the power of two
  have hpow : ((2 : ℝ) ^ ((f : ℝ) / q) * 2 ^ k) ^ q = ((2 ^ (f + k * q) : ℕ) : ℝ) := by
    rw [mul_pow, ← Real.rpow_natCast, ← Real.rpow_mul (by norm_num), div_mul_cancel₀ _ hqr.ne', Real.rpow_natCast, ← pow_mul,
      ← pow_add]
    push_cast
    rfl
  have hiff : ∀ z : ℕ, z ^ q ≤ 2 ^ (f + k * q) ↔ (z : ℝ) ≤ (2 : ℝ) ^ ((f : ℝ) / q) * 2 ^ k := by
    intro z
    rw [← pow_le_pow_iff_left₀ (Nat.cast_nonneg z : (0 : ℝ) ≤ z) (by positivity) hq.ne', hpow, ← Nat.cast_pow, Nat.cast_le]
  have hlt : (2 : ℝ) ^ ((f : ℝ) / q) * 2 ^ k < ((2 ^ (k + 1) : ℕ) : ℝ) := by
    have h1 : (2 : ℝ) ^ ((f : ℝ) / q) < 2 ^ (1 : ℝ) :=
      Real.rpow_lt_rpow_of_exponent_lt (by norm_num) (by rw [div_lt_one hqr]; exact_mod_cast hf)
    rw [Real.rpow_one] at h1
    push_cast
    rw [pow_succ, mul_comm]
    exact mul_lt_mul_of_pos_left h1 (by positivity)
  have hspec := Nat.findGreatest_spec (P := fun z => z ^ q ≤ 2 ^ (f + k * q)) (n := 2 ^ (k + 1)) (Nat.zero_le _)
    (by rw [zero_pow hq.ne']; exact Nat.zero_le _)
  have hgr := fun n h1 h2 => Nat.findGreatest_is_greatest (P := fun z => z ^ q ≤ 2 ^ (f + k * q)) (k := n) (n := 2 ^ (k + 1)) h1 h2
  generalize Nat.findGreatest (fun z => z ^ q ≤ 2 ^ (f + k * q)) (2 ^ (k + 1)) = g at *
  have h1 := (hiff g).1 hspec
  have h2 : (2 : ℝ) ^ ((f : ℝ) / q) * 2 ^ k < g + 1 := by
    by_contra hc
    rw [not_lt] at hc
    have hc' : ((g + 1 : ℕ) : ℝ) ≤ (2 : ℝ) ^ ((f : ℝ) / q) * 2 ^ k := by push_cast; exact hc
    exact hgr (g + 1) (Nat.lt_succ_self g) (by exact_mod_cast (hc'.trans_lt hlt).le) ((hiff _).2 hc')
  refine ⟨h1, h2, fun h0 => ?_⟩
  rw [h0, Nat.cast_zero, zero_div, Real.rpow_zero, one_mul] at h1 h2
  have h1' : g ≤ 2 ^ k := by exact_mod_cast h1
  have h2' : 2 ^ k < g + 1 := by exact_mod_cast h2
  omega

theorem exp2Digits_spec (s : F64) (k : ℕ) :
    (exp2Digits (fracF64 s) k : ℝ) ≤ (2 : ℝ) ^ ((fracF64 s : ℝ) / 2 ^ 1074) * 2 ^ k ∧
      (2 : ℝ) ^ ((fracF64 s : ℝ) / 2 ^ 1074) * 2 ^ k < exp2Digits (fracF64 s) k + 1 ∧
      (fracF64 s = 0 → exp2Digits (fracF64 s) k = 2 ^ k) := by
  have := findGreatest_root (fracF64 s) (2 ^ 1074) k (by positivity) (by exact_mod_cast (floorInt_add_fracF64 s).2)
  rwa [Nat.cast_pow, Nat.cast_ofNat] at this

/-- The exact digits of `exp2` enclose it, and narrow to it. -/
theorem exp2Deep_spec (s : F64) (v : ℝ) (hv : (valF64 s : ℝ) = v * 2 ^ 1074) :
    (∀ k, (exp2Deep s k).Contains ((2 : ℝ) ^ v)) ∧
      Filter.Tendsto (fun k => ((exp2Deep s k).hiNum / (exp2Deep s k).hiDen : ℝ) - (exp2Deep s k).loNum / (exp2Deep s k).loDen)
        Filter.atTop (nhds 0) := by
  constructor
  · intro k
    obtain ⟨h1, h2, h3⟩ := exp2Digits_spec s k
    unfold exp2Deep
    refine exp2Ends_contains s v hv (by positivity) (by push_cast; exact h1) ?_
    split
    · next h0 =>
      rw [h3 h0, Nat.add_zero, h0, Nat.cast_zero, zero_div, Real.rpow_zero, one_mul]
    · push_cast
      exact h2.le
  · have hlim : Filter.Tendsto (fun k : ℕ => (1 / 2 : ℝ) ^ k * 2 ^ floorInt s) Filter.atTop (nhds 0) := by
      have := (tendsto_pow_atTop_nhds_zero_of_lt_one (r := (1 / 2 : ℝ)) (by norm_num) (by norm_num)).mul_const ((2 : ℝ) ^ floorInt s)
      rwa [zero_mul] at this
    have hw : ∀ k, ((exp2Deep s k).hiNum / (exp2Deep s k).hiDen : ℝ) - (exp2Deep s k).loNum / (exp2Deep s k).loDen =
        ((if fracF64 s = 0 then 0 else 1 : ℕ) : ℝ) * ((1 / 2 : ℝ) ^ k * 2 ^ floorInt s) := by
      intro k
      unfold exp2Deep
      obtain ⟨-, -, -, e1, e2⟩ := exp2Ends_real s (exp2Digits (fracF64 s) k)
        (exp2Digits (fracF64 s) k + if fracF64 s = 0 then 0 else 1) (2 ^ k) (by positivity)
      rw [e1, e2, ← sub_mul, ← sub_div, Nat.cast_add, add_sub_cancel_left, one_div_pow]
      push_cast
      ring
    simp only [hw]
    refine squeeze_zero (fun k => by positivity) (fun k => ?_) hlim
    refine mul_le_of_le_one_left (by positivity) ?_
    split <;> norm_num

/-- An enclosure of `exp2` decides: at an integer the first, whose ends are one, elsewhere because the power is irrational. -/
theorem exp2Deep_decides (s : F64) (v : ℝ) (hv : (valF64 s : ℝ) = v * 2 ^ 1074) : ∃ k, (exp2Deep s k).lo64 = (exp2Deep s k).hi64 := by
  by_cases h0 : fracF64 s = 0
  · refine ⟨0, ?_⟩
    unfold exp2Deep Enclosure.lo64 Enclosure.hi64
    rw [if_pos h0, Nat.add_zero]
    unfold exp2Ends
    dsimp only
    split <;> rfl
  · obtain ⟨hc, hw⟩ := exp2Deep_spec s v hv
    refine exists_decided ?_ hc hw
    rw [rpow_floorInt s v hv]
    have hirr := irrational_two_rpow_div (a := fracF64 s) (b := 2 ^ 1074) (by positivity)
      (by exact_mod_cast (floorInt_add_fracF64 s).2) h0
    rw [Nat.cast_pow, Nat.cast_ofNat] at hirr
    have e : ((2 : ℝ) ^ floorInt s) = (((2 : ℚ) ^ floorInt s : ℚ) : ℝ) := by push_cast; rfl
    rw [e]
    exact hirr.mul_ratCast (by positivity)

/-! ### log2 -/

/-- The largest power of two below a power: the digits of the binary logarithm of `g / 2^m`. -/
theorem log2DigitsExact_spec (g m k : ℕ) (h1 : 1 ≤ (g / 2 ^ m : ℝ)) (h2 : (g / 2 ^ m : ℝ) ≤ 2) :
    (log2DigitsExact g m k : ℝ) ≤ Real.logb 2 (g / 2 ^ m : ℝ) * 2 ^ k ∧
      Real.logb 2 (g / 2 ^ m : ℝ) * 2 ^ k ≤ log2DigitsExact g m k + 1 := by
  have hz : (0 : ℝ) < g / 2 ^ m := by linarith
  have l1 : Real.logb 2 (g / 2 ^ m : ℝ) ≤ 1 := by
    have := Real.logb_le_logb_of_le (b := 2) (by norm_num) hz h2
    rwa [Real.logb_self_eq_one (by norm_num)] at this
  have hiff : ∀ d : ℕ, 2 ^ d * 2 ^ (m * 2 ^ k) ≤ g ^ 2 ^ k ↔ (d : ℝ) ≤ Real.logb 2 (g / 2 ^ m : ℝ) * 2 ^ k := by
    intro d
    have e : Real.logb 2 (g / 2 ^ m : ℝ) * 2 ^ k = Real.logb 2 ((g / 2 ^ m : ℝ) ^ 2 ^ k) := by
      rw [Real.logb_pow, mul_comm]; push_cast; rfl
    rw [e, Real.le_logb_iff_rpow_le (by norm_num) (by positivity), Real.rpow_natCast, div_pow, le_div_iff₀ (by positivity), ← pow_mul]
    exact_mod_cast Iff.rfl
  unfold log2DigitsExact
  have hspec := Nat.findGreatest_spec (P := fun d => 2 ^ d * 2 ^ (m * 2 ^ k) ≤ g ^ 2 ^ k) (n := 2 ^ k) (Nat.zero_le _)
    ((hiff 0).2 (by rw [Nat.cast_zero]; exact mul_nonneg (Real.logb_nonneg (by norm_num) h1) (by positivity)))
  have hgr := fun n h1 h2 => Nat.findGreatest_is_greatest (P := fun d => 2 ^ d * 2 ^ (m * 2 ^ k) ≤ g ^ 2 ^ k) (k := n) (n := 2 ^ k) h1 h2
  generalize Nat.findGreatest (fun d => 2 ^ d * 2 ^ (m * 2 ^ k) ≤ g ^ 2 ^ k) (2 ^ k) = b at *
  refine ⟨(hiff b).1 hspec, ?_⟩
  by_contra hc
  rw [not_le] at hc
  have hc' : ((b + 1 : ℕ) : ℝ) ≤ Real.logb 2 (g / 2 ^ m : ℝ) * 2 ^ k := by push_cast; exact hc.le
  refine hgr (b + 1) (Nat.lt_succ_self b) ?_ ((hiff _).2 hc')
  have : ((b + 1 : ℕ) : ℝ) ≤ ((2 ^ k : ℕ) : ℝ) := hc'.trans (by push_cast; exact mul_le_of_le_one_left (by positivity) l1)
  exact_mod_cast this

/-- The exact digits of `log2` enclose it, and narrow to it. -/
theorem log2Deep_spec (x : F64) (hf : finite64 x = true) (v : ℝ) (h0 : 0 < v) (hv : (valF64 x : ℝ) = v * 2 ^ 1074) :
    (∀ k, (log2Deep x k).Contains (Real.logb 2 v)) ∧
      Filter.Tendsto (fun k => ((log2Deep x k).hiNum / (log2Deep x k).hiDen : ℝ) - (log2Deep x k).loNum / (log2Deep x k).loDen)
        Filter.atTop (nhds 0) := by
  obtain ⟨-, hz1, hz2, hlog⟩ := log2_split x hf v h0 hv
  rw [hlog]
  unfold log2Deep
  dsimp only
  generalize bitLog 13 (magF64 x) = m at *
  generalize magF64 x = g at *
  have l0 : 0 ≤ Real.logb 2 (g / 2 ^ m : ℝ) := Real.logb_nonneg (by norm_num) hz1
  have l1 : Real.logb 2 (g / 2 ^ m : ℝ) ≤ 1 := by
    have := Real.logb_le_logb_of_le (b := 2) (by norm_num) (by linarith) hz2
    rwa [Real.logb_self_eq_one (by norm_num)] at this
  have key := fun k => log2Ends_contains m (log2DigitsExact g m k) k l0 l1 (log2DigitsExact_spec g m k hz1 hz2).1
    (log2DigitsExact_spec g m k hz1 hz2).2
  refine ⟨fun k => (key k).1, squeeze_zero (fun k => ?_) (fun k => (key k).2) ?_⟩
  · exact sub_nonneg.2 ((key k).1.lower.trans (key k).1.upper)
  · simp only [← one_div_pow]
    exact tendsto_pow_atTop_nhds_zero_of_lt_one (by norm_num) (by norm_num)

/-- An enclosure of `log2` decides where the argument is no power of two. -/
theorem log2Deep_decides (x : F64) (hf : finite64 x = true) (v : ℝ) (h0 : 0 < v) (hv : (valF64 x : ℝ) = v * 2 ^ 1074)
    (hne : magF64 x ≠ 2 ^ bitLog 13 (magF64 x)) : Irrational (Real.logb 2 v) ∧ ∃ k, (log2Deep x k).lo64 = (log2Deep x k).hi64 := by
  obtain ⟨hc, hw⟩ := log2Deep_spec x hf v h0 hv
  have hirr : Irrational (Real.logb 2 v) := by
    obtain ⟨hmag, -, -, hlog⟩ := log2_split x hf v h0 hv
    have hpos : 0 < magF64 x := by
      have : (0 : ℝ) < magF64 x := by rw [hmag]; positivity
      exact_mod_cast this
    have hlt : magF64 x < 2 ^ 2 ^ 13 := ((magF64_lt_iff x).2 hf).trans (two_pow_lt_hugeBound (by norm_num))
    have h := irrational_logb_div (lt_of_le_of_ne (two_pow_bitLog_le 13 hpos) hne.symm) (lt_two_pow_bitLog 13 hlt)
    rw [hlog]
    generalize bitLog 13 (magF64 x) = m at *
    have := (h.add_natCast m).sub_natCast 1074
    exact_mod_cast this
  exact ⟨hirr, exists_decided hirr hc hw⟩

/-! ### What the three functions answer -/

/-- A magnitude is nearest to itself. -/
theorem nearestPattern_self {p : ℕ} (hp : p ≤ 2047 * 2 ^ 52) : NearestPattern 52 2047 (magOfPattern 52 p) p := by
  have hm : magOfPattern 52 p < hugeBound :=
    ((magOfPattern_strictMono 52).monotone hp).trans_lt (by rw [magOfPattern_inf64]; exact two_pow_lt_hugeBound (by norm_num))
  have h := nearestPattern_roundMagnitude 52 2047 (magOfPattern 52 p * 1) 1 (by norm_num) le_rfl (by norm_num) (by norm_num) one_pos
  rw [roundMagnitude_exact 52 2047 p 1 one_pos hp hm] at h
  rwa [Nat.cast_one, div_one, mul_one] at h

/-- The binary64 of the sign and nearest pattern of a real number keeps its place among the binary64 numbers. -/
theorem nearest64_order {r c : F64} {v : ℝ} (hs : signF64 r = decide (v < 0))
    (hn : NearestPattern 52 2047 (|v| * 2 ^ 1074) (patF64 r)) (hc : isNaN64 c = false) :
    isNaN64 r = false ∧ (v * 2 ^ 1074 ≤ valF64 c → valF64 r ≤ valF64 c) ∧ ((valF64 c : ℝ) ≤ v * 2 ^ 1074 → valF64 c ≤ valF64 r) := by
  have hq : (0 : ℝ) < 2 ^ 1074 := by positivity
  have hpc : patF64 c ≤ 2047 * 2 ^ 52 := by
    by_contra h
    rw [(isNaN64_iff c).2 (not_le.1 h)] at hc
    cases hc
  have hnc := nearestPattern_self hpc
  have hnan : isNaN64 r = false := by
    rw [Bool.eq_false_iff, Ne, isNaN64_iff, not_lt]
    unfold NearestPattern at hn
    split at hn
    · exact hn.1.le
    · exact hn.le
  have up : |v| * 2 ^ 1074 ≤ magF64 c → magF64 r ≤ magF64 c := fun h =>
    (magOfPattern_strictMono 52).monotone (NearestPattern.mono (by norm_num) hn hnc h)
  have down : (magF64 c : ℝ) ≤ |v| * 2 ^ 1074 → magF64 c ≤ magF64 r := fun h =>
    (magOfPattern_strictMono 52).monotone (NearestPattern.mono (by norm_num) hnc hn h)
  have hvr := valF64_eq r
  have hvc := valF64_eq c
  generalize (2 : ℝ) ^ 1074 = Q at *
  refine ⟨hnan, fun h => ?_, fun h => ?_⟩
  · by_cases h0 : v < 0
    · rw [hs, if_pos (by simpa using h0)] at hvr
      rw [abs_of_neg h0] at down
      by_cases hcs : signF64 c = true
      · rw [if_pos hcs] at hvc
        rw [hvc] at h
        push_cast at h
        have := down (by linarith)
        omega
      · rw [if_neg hcs] at hvc
        omega
    · rw [hs, if_neg (by simpa using h0)] at hvr
      rw [abs_of_nonneg (not_lt.1 h0)] at up
      have h1 : (0 : ℝ) ≤ valF64 c := le_trans (mul_nonneg (not_lt.1 h0) hq.le) h
      have h2 : (valF64 c : ℝ) = magF64 c := by
        have := abs_valF64 c
        rw [abs_of_nonneg (by exact_mod_cast h1)] at this
        exact_mod_cast this
      have h3 := up (by rw [← h2]; exact h)
      have h4 : valF64 c = magF64 c := by exact_mod_cast h2
      omega
  · by_cases h0 : v < 0
    · rw [hs, if_pos (by simpa using h0)] at hvr
      rw [abs_of_neg h0] at up
      have h1 : (valF64 c : ℝ) ≤ 0 := h.trans (mul_neg_of_neg_of_pos h0 hq).le
      have h2 : (valF64 c : ℝ) = -magF64 c := by
        have := abs_valF64 c
        rw [abs_of_nonpos (by exact_mod_cast h1)] at this
        have h5 : valF64 c = -(magF64 c : ℤ) := by omega
        rw [h5]; push_cast; rfl
      have h3 := up (by linarith)
      have h4 : valF64 c = -(magF64 c : ℤ) := by exact_mod_cast h2
      omega
    · rw [hs, if_neg (by simpa using h0)] at hvr
      rw [abs_of_nonneg (not_lt.1 h0)] at down
      by_cases hcs : signF64 c = true
      · rw [if_pos hcs] at hvc
        omega
      · rw [if_neg hcs] at hvc
        rw [hvc] at h
        push_cast at h
        have := down (by linarith)
        omega

/-- `exp` of a number below 1024 in magnitude has the sign and the pattern nearest to the exponential. -/
theorem expF64_nearest {x : F64} (hf : finite64 x = true) {v : ℝ} (hv : (valF64 x : ℝ) = v * 2 ^ 1074) (h : |v| < 1024) :
    signF64 (expF64 x) = decide (Real.exp v < 0) ∧ NearestPattern 52 2047 (|Real.exp v| * 2 ^ 1074) (patF64 (expF64 x)) := by
  have hq : (0 : ℝ) < 2 ^ 1074 := by positivity
  have hmag : (magF64 x : ℝ) = |v| * 2 ^ 1074 := by
    rw [← abs_of_pos hq, ← abs_mul, ← hv, ← Int.cast_abs, abs_valF64, Int.cast_natCast]
  have hlt : ¬ 2 ^ 1084 ≤ magF64 x := by
    intro hc
    have h1 : (((2 ^ 1084 : ℕ)) : ℝ) ≤ magF64 x := Nat.cast_le.2 hc
    rw [hmag, Nat.cast_pow, Nat.cast_ofNat, show (1084 : ℕ) = 10 + 1074 from rfl, pow_add, mul_le_mul_iff_left₀ hq] at h1
    norm_num at h1
    linarith
  unfold expF64
  rw [not_isNaN64_of_finite hf, if_neg Bool.false_ne_true, if_neg hlt]
  split
  · next h0 =>
    have hv0 : v = 0 := by
      rw [h0, Nat.cast_zero] at hmag
      rcases mul_eq_zero.1 hmag.symm with h1 | h1
      · exact abs_eq_zero.1 h1
      · exact absurd h1 hq.ne'
    rw [hv0, Real.exp_zero]
    refine ⟨by rw [decide_eq_false (by norm_num)]; decide +kernel, ?_⟩
    have h1 := nearestPattern_self (p := patF64 oneF64) (by decide +kernel)
    have h2 : magOfPattern 52 (patF64 oneF64) = 2 ^ 1074 := by decide +kernel
    rw [h2, Nat.cast_pow, Nat.cast_ofNat] at h1
    rwa [abs_one, one_mul]
  · next h0 =>
    have hirr : Irrational (Real.exp v) := by
      have hv' : v = (valF64 x : ℝ) / ((2 ^ 1074 : ℤ) : ℝ) := by
        rw [hv, Int.cast_pow, Int.cast_ofNat, mul_div_cancel_right₀ _ hq.ne']
      rw [hv']
      refine irrational_exp_div ?_ (by positivity)
      rw [← natAbs_valF64, Int.natAbs_eq_zero] at h0
      exact h0
    obtain ⟨hc, hw⟩ := expDeep_spec x v hv
    exact settle64_nearest (Real.exp_pos v).ne' (expEnclosure_contains 192 50 (by norm_num) x v hv h.le)
      (expEnclosure_contains 512 110 (by norm_num) x v hv h.le) hc (exists_decided hirr hc hw)

/-- `exp2` of an operand from -1100 to below 1024 has the sign and the pattern nearest to the power of two. -/
theorem exp2F64_nearest {s : F64} (hs : isNaN64 s = false) {v : ℝ} (hv : (valF64 s : ℝ) = v * 2 ^ 1074)
    (h1 : -1100 ≤ floorInt s) (h2 : floorInt s < 1024) :
    signF64 (exp2F64 s) = decide ((2 : ℝ) ^ v < 0) ∧ NearestPattern 52 2047 (|(2 : ℝ) ^ v| * 2 ^ 1074) (patF64 (exp2F64 s)) := by
  unfold exp2F64
  rw [hs, if_neg Bool.false_ne_true, if_neg (not_le.2 h2), if_neg (not_lt.2 h1)]
  exact settle64_nearest (by positivity) (exp2Enclosure_contains 192 50 (by norm_num) s v hv)
    (exp2Enclosure_contains 512 110 (by norm_num) s v hv) (exp2Deep_spec s v hv).1 (exp2Deep_decides s v hv)

/-- `log2` of a positive number that is no power of two has the sign and the pattern nearest to the logarithm. -/
theorem log2F64_nearest {x : F64} (hf : finite64 x = true) {v : ℝ} (hv : (valF64 x : ℝ) = v * 2 ^ 1074) (h0 : 0 < v)
    (hne : magF64 x ≠ 2 ^ bitLog 13 (magF64 x)) :
    signF64 (log2F64 x) = decide (Real.logb 2 v < 0) ∧
      NearestPattern 52 2047 (|Real.logb 2 v| * 2 ^ 1074) (patF64 (log2F64 x)) := by
  have hq : (0 : ℝ) < 2 ^ 1074 := by positivity
  have hpos : 0 < valF64 x := by
    have : (0 : ℝ) < valF64 x := by rw [hv]; positivity
    exact_mod_cast this
  have hm : magF64 x ≠ 0 := by
    have := natAbs_valF64 x
    omega
  have hs : signF64 x = false := by
    by_contra hc
    have := valF64_eq x
    rw [if_pos (by simpa using hc)] at this
    omega
  obtain ⟨hirr, hdec⟩ := log2Deep_decides x hf v h0 hv hne
  unfold log2F64
  rw [not_isNaN64_of_finite hf, if_neg Bool.false_ne_true, if_neg hm, hs, if_neg Bool.false_ne_true,
    not_isInf64_of_finite hf, if_neg Bool.false_ne_true, if_neg hne]
  exact settle64_nearest hirr.ne_zero (log2Enclosure_contains 352 176 x hf v h0 hv) (log2Enclosure_contains 1056 512 x hf v h0 hv)
    (log2Deep_spec x hf v h0 hv).1 hdec

end Sys2Proof.Machine
end

