-- ==== Sys2Proof/Laws/Smoothing.lean ====
section
/-! SUPPORT. The ranges of the elementary functions' results, which follow from their being the nearest values, and of the
smoother's output. -/

namespace Sys2Proof.Machine

/-- The real number of any pattern's value. -/
theorem valF64_real (a : F64) : (valF64 a : ℝ) = (valF64 a / 2 ^ 1074 : ℝ) * 2 ^ 1074 :=
  (div_mul_cancel₀ _ (by positivity)).symm

/-- The largest binary64 below 1 used as a bound: `1 - 2^-21`. -/
theorem valF64_belowOne : isNaN64 0x3FEFFFFF00000000#64 = false ∧ valF64 0x3FEFFFFF00000000#64 = (2 ^ 21 - 1) * 2 ^ 1053 := by
  decide +kernel

theorem exp_le_belowOne {v : ℝ} (h : v ≤ -(1 / 2 ^ 20)) : Real.exp v ≤ 1 - 1 / 2 ^ 21 := by
  have h1 : Real.exp v ≤ Real.exp (-(1 / 2 ^ 20)) := Real.exp_le_exp.2 h
  have h2 : (1 / 2 ^ 20 : ℝ) + 1 ≤ Real.exp (1 / 2 ^ 20) := Real.add_one_le_exp _
  have h3 : Real.exp (-(1 / 2 ^ 20)) * Real.exp (1 / 2 ^ 20) = 1 := by rw [← Real.exp_add]; norm_num
  have h4 : 0 < Real.exp (-(1 / 2 ^ 20 : ℝ)) := Real.exp_pos _
  nlinarith

/-- `exp` of a negative value of at least 2^-20 in magnitude is a number in [0, 1). -/
theorem expF64_negative_range {x : F64} (hf : finite64 x = true) (hs : signF64 x = true) (hm : 2 ^ 1054 ≤ magF64 x) :
    isNaN64 (expF64 x) = false ∧ 0 ≤ valF64 (expF64 x) ∧ valF64 (expF64 x) < 2 ^ 1074 := by
  have hQ : (2 : ℝ) ^ 1074 = 2 ^ 20 * 2 ^ 1054 := by rw [← pow_add]
  have hv := valF64_real x
  have hmag := abs_valF64 x
  have hval : valF64 x = -(magF64 x : ℤ) := by rw [valF64_eq, if_pos hs]; ring
  by_cases hbig : 2 ^ 1084 ≤ magF64 x
  · unfold expF64
    rw [not_isNaN64_of_finite hf, if_neg Bool.false_ne_true, if_pos hbig, hs, if_pos rfl, isNaN64_packF64_zero, valF64_packF64_zero]
    exact ⟨rfl, le_rfl, by positivity⟩
  · have h20 : (valF64 x / 2 ^ 1074 : ℝ) ≤ -(1 / 2 ^ 20) := by
      have h1 : (((2 ^ 1054 : ℕ)) : ℝ) ≤ magF64 x := Nat.cast_le.2 hm
      rw [Nat.cast_pow, Nat.cast_ofNat] at h1
      rw [hval, hQ, div_le_iff₀ (by positivity), neg_mul, ← mul_assoc, one_div_mul_cancel (by positivity), one_mul]
      push_cast
      linarith
    have habs : |(valF64 x / 2 ^ 1074 : ℝ)| < 1024 := by
      have h1 : (magF64 x : ℝ) < ((2 ^ 1084 : ℕ) : ℝ) := Nat.cast_lt.2 (not_le.1 hbig)
      rw [abs_div, abs_of_pos (show (0 : ℝ) < 2 ^ 1074 by positivity), div_lt_iff₀ (by positivity), ← Int.cast_abs, hmag,
        Int.cast_natCast]
      rwa [Nat.cast_pow, Nat.cast_ofNat, show (1084 : ℕ) = 10 + 1074 from rfl, pow_add,
        show (2 : ℝ) ^ 10 = 1024 by norm_num] at h1
    obtain ⟨n1, n2⟩ := expF64_nearest hf hv habs
    generalize (valF64 x / 2 ^ 1074 : ℝ) = v at *
    obtain ⟨hnan, -, hlow⟩ := nearest64_order (c := zeroF64) n1 n2 (by decide +kernel)
    obtain ⟨-, hup, -⟩ := nearest64_order n1 n2 valF64_belowOne.1
    rw [valF64_zeroF64] at hlow
    rw [valF64_belowOne.2] at hup
    have hexp := exp_le_belowOne h20
    refine ⟨hnan, hlow (by rw [Int.cast_zero]; positivity), lt_of_le_of_lt (hup ?_) ?_⟩
    · have hE : (2 : ℝ) ^ 1074 = 2 ^ 21 * 2 ^ 1053 := by rw [← pow_add]
      rw [Int.cast_mul, Int.cast_pow, Int.cast_ofNat, hE, ← mul_assoc]
      refine mul_le_mul_of_nonneg_right ?_ (by positivity)
      push_cast
      linarith
    · rw [show (2 : ℤ) ^ 1074 = 2 ^ 21 * 2 ^ 1053 by rw [← pow_add]]
      exact mul_lt_mul_of_pos_right (by norm_num) (by positivity)

/-! ### log2 -/

/-- An integer of at most 13 bits times one: rounding leaves it alone. -/
theorem valRound64_integer {k : Int} (hk : k.natAbs ≤ 2 ^ 13) {d : ℕ} (hd : 0 < d) : valRound64 (k * 2 ^ 1074 * d) d = k * 2 ^ 1074 := by
  have hab : (k * 2 ^ 1074).natAbs = k.natAbs * 2 ^ 1074 := by rw [Int.natAbs_mul, Int.natAbs_pow]; rfl
  refine valRound64_representable (n := k.natAbs) 1074 hd (hk.trans (Nat.pow_le_pow_right (by norm_num) (by norm_num))) hab ?_
  rw [hab]
  calc k.natAbs * 2 ^ 1074 ≤ 2 ^ 13 * 2 ^ 1074 := Nat.mul_le_mul_right _ hk
    _ ≤ 2 ^ 2098 := by rw [← pow_add]; exact Nat.pow_le_pow_right (by norm_num) (by norm_num)

/-- An integer of at most 13 bits as a binary64. -/
theorem ofIntF64_small {k : Int} (hk : k.natAbs ≤ 2 ^ 13) : isNaN64 (ofIntF64 k) = false ∧ valF64 (ofIntF64 k) = k * 2 ^ 1074 := by
  obtain ⟨n1, n2⟩ := valF64_ofIntF64 k
  have hx := valRound64_integer hk one_pos
  rw [Nat.cast_one, mul_one] at hx
  exact ⟨n1, n2.trans hx⟩

/-- `log2` of a positive finite value between two powers of two lies between their exponents. -/
theorem log2F64_range {x : F64} (hf : finite64 x = true) (hs : signF64 x = false) {j k : ℕ} (h1 : 2 ^ j ≤ magF64 x)
    (h2 : magF64 x ≤ 2 ^ k) (hk : k < 2 ^ 12) :
    isNaN64 (log2F64 x) = false ∧ ((j : Int) - 1074) * 2 ^ 1074 ≤ valF64 (log2F64 x) ∧
      valF64 (log2F64 x) ≤ ((k : Int) - 1074) * 2 ^ 1074 := by
  have hjk : j ≤ k := (Nat.pow_le_pow_iff_right (by norm_num : 1 < 2)).1 (h1.trans h2)
  obtain ⟨nj, vj⟩ := ofIntF64_small (k := (j : Int) - 1074) (by omega)
  obtain ⟨nk, vk⟩ := ofIntF64_small (k := (k : Int) - 1074) (by omega)
  have hpos : 0 < magF64 x := lt_of_lt_of_le (by positivity) h1
  by_cases hne : magF64 x = 2 ^ bitLog 13 (magF64 x)
  · unfold log2F64
    rw [not_isNaN64_of_finite hf, if_neg Bool.false_ne_true, if_neg hpos.ne', hs, if_neg Bool.false_ne_true,
      not_isInf64_of_finite hf, if_neg Bool.false_ne_true, if_pos hne]
    have hjm : j ≤ bitLog 13 (magF64 x) := (Nat.pow_le_pow_iff_right (by norm_num : 1 < 2)).1 (hne ▸ h1)
    have hmk : bitLog 13 (magF64 x) ≤ k := (Nat.pow_le_pow_iff_right (by norm_num : 1 < 2)).1 (hne ▸ h2)
    obtain ⟨n, v⟩ := ofIntF64_small (k := (bitLog 13 (magF64 x) : Int) - 1074) (by omega)
    rw [v]
    exact ⟨n, mul_le_mul_of_nonneg_right (by omega) (by positivity), mul_le_mul_of_nonneg_right (by omega) (by positivity)⟩
  · have hq : (0 : ℝ) < 2 ^ 1074 := by positivity
    have hval : valF64 x = magF64 x := by rw [valF64_eq, hs]; simp
    have hv := valF64_real x
    have h0 : (0 : ℝ) < valF64 x / 2 ^ 1074 := by
      rw [hval, Int.cast_natCast]
      have : (0 : ℝ) < magF64 x := by exact_mod_cast hpos
      positivity
    obtain ⟨n1, n2⟩ := log2F64_nearest hf hv h0 hne
    have hpow : ∀ n : ℕ, Real.logb 2 ((2 : ℝ) ^ n / 2 ^ 1074) = n - 1074 := by
      intro n
      rw [Real.logb_div (by positivity) (by positivity), Real.logb_pow, Real.logb_pow, Real.logb_self_eq_one (by norm_num)]
      norm_num
    have l1 : ((j : ℝ) - 1074) ≤ Real.logb 2 (valF64 x / 2 ^ 1074) := by
      rw [← hpow j]
      refine Real.logb_le_logb_of_le (by norm_num) (by positivity) (div_le_div_of_nonneg_right ?_ hq.le)
      rw [hval]; exact_mod_cast h1
    have l2 : Real.logb 2 (valF64 x / 2 ^ 1074) ≤ (k : ℝ) - 1074 := by
      rw [← hpow k]
      refine Real.logb_le_logb_of_le (by norm_num) h0 (div_le_div_of_nonneg_right ?_ hq.le)
      rw [hval]; exact_mod_cast h2
    generalize Real.logb 2 (valF64 x / 2 ^ 1074) = l at *
    obtain ⟨hn, -, hlow⟩ := nearest64_order n1 n2 nj
    obtain ⟨-, hup, -⟩ := nearest64_order n1 n2 nk
    rw [vj, Int.cast_mul, Int.cast_pow, Int.cast_ofNat] at hlow
    rw [vk, Int.cast_mul, Int.cast_pow, Int.cast_ofNat] at hup
    refine ⟨hn, hlow (mul_le_mul_of_nonneg_right ?_ hq.le), hup (mul_le_mul_of_nonneg_right ?_ hq.le)⟩
    · push_cast; exact l1
    · push_cast; exact l2

/-! ### exp2 and the output -/

/-- `exp2` of a number is a number with a positive sign. -/
theorem exp2F64_sign {s : F64} (h : isNaN64 s = false) : isNaN64 (exp2F64 s) = false ∧ signF64 (exp2F64 s) = false := by
  by_cases h1 : 1024 ≤ floorInt s
  · unfold exp2F64
    rw [h, if_neg Bool.false_ne_true, if_pos h1]
    exact ⟨by decide +kernel, by decide +kernel⟩
  · by_cases h2 : floorInt s < -1100
    · unfold exp2F64
      rw [h, if_neg Bool.false_ne_true, if_neg h1, if_pos h2]
      exact ⟨by decide +kernel, by decide +kernel⟩
    · obtain ⟨n1, n2⟩ := exp2F64_nearest h (valF64_real s) (not_lt.1 h2) (not_le.1 h1)
      obtain ⟨hn, -, -⟩ := nearest64_order (c := zeroF64) n1 n2 (by decide +kernel)
      exact ⟨hn, by rw [n1]; exact decide_eq_false (by have : (0 : ℝ) < 2 ^ (valF64 s / 2 ^ 1074 : ℝ) := by positivity
                                                       exact not_lt.2 this.le)⟩

/-- The smoother's output is finite and not negative (R164). -/
theorem smootherOut_range {l : F64} (h : isNaN64 l = false) : finite32 (smootherOut l) = true ∧ signF32 (smootherOut l) = false := by
  obtain ⟨h1, h2⟩ := exp2F64_sign h
  have hs : signF32 (f32OfF64 (exp2F64 l)) = false := (signF32_f32OfF64 h1).trans h2
  obtain ⟨hn, -⟩ := f32OfF64_number h1
  unfold smootherOut
  dsimp only
  generalize f32OfF64 (exp2F64 l) = y at *
  split
  · exact ⟨by decide, by decide⟩
  · next hy =>
    refine ⟨finite32_of_not hn ?_, hs⟩
    by_contra hi
    rw [Bool.not_eq_false, isInf32_iff] at hi
    refine hy ?_
    rw [← packF32_sign_pat y, hs, hi]
    rfl

end Sys2Proof.Machine
end

