-- ==== Sys2Proof/Tests/Slice0.lean ====
section
/-! SUPPORT. The model's own tests: the words of spec/30_encoding.md R77 and the vectors of spec/95_test_vectors.md, one step each,
and a witness for the hypotheses of each statement. -/

namespace Sys2Proof.Tests

open Sys2Proof.Machine

-- one kernel evaluation after the other
set_option Elab.async false

/-! ### Decoding: R77's words and EN-9 to EN-16 -/

theorem test_decode_det : [0x10000000#32, 0x11000000#32, 0x12000000#32].map decode =
    [.ok .detPrepare, .ok .detFeed, .ok .detGetResult] := by decide

theorem test_decode_osc : [0x20000000#32, 0x21000000#32, 0x22000000#32, 0x22000001#32, 0x22000002#32, 0x22000003#32,
      0x23000000#32].map decode =
    [.ok .oscPrepare, .ok .oscSetFreq, .ok (.oscSetWave .sine), .ok (.oscSetWave .triangle), .ok (.oscSetWave .square),
      .ok (.oscSetWave .saw), .ok .oscNext] := by decide

theorem test_decode_smo : [0x30000000#32, 0x31000000#32, 0x32000000#32, 0x33000000#32].map decode =
    [.ok .smoPrepare, .ok .smoSetAmount, .ok .smoSetSens, .ok .smoProcess] := by decide

theorem test_decode_dec : [0x40000000#32, 0x41000000#32, 0x42000000#32].map decode =
    [.ok .decReset, .ok .decProcess, .ok .decGetOutput] := by decide

theorem test_decode_unassigned : [0x00000000#32, 0x13000000#32, 0x24000000#32, 0x50000000#32, 0xF2000000#32].map decode =
    [.error .unassigned, .error .unassigned, .error .unassigned, .error .unassigned, .error .unassigned] := by decide

theorem test_decode_reserved : [0x10000004#32, 0x22800003#32].map decode = [.error .reservedBits, .error .reservedBits] := by
  decide

theorem test_decode_stray_wave : decode 0x11000001#32 = .error .strayWave := by decide

/-- Little-endian (R46): OSC.SETWAVE Saw as its four bytes. -/
theorem test_decode_bytes : decodeBytes [0x03#8, 0x00#8, 0x00#8, 0x22#8] = .ok (.oscSetWave .saw) := by decide

/-! ### Well-formedness: an ill-formed access for each check, and a legal one -/

theorem test_wf_size : (Access.read 0x30#8 2).wf = false := by decide
theorem test_wf_write_size : (Access.write 0x00#8 [0x00#8]).wf = false := by decide
theorem test_wf_alignment : (Access.read 0x31#8 4).wf = false := by decide
theorem test_wf_reserved : (Access.read 0x34#8 4).wf = false ∧ (Access.write 0xFC#8 [0#8, 0#8, 0#8, 0#8]).wf = false := by decide
theorem test_wf_read_only : (Access.write 0x14#8 [0#8, 0#8, 0#8, 0#8]).wf = false ∧ (Access.read 0x14#8 4).wf = true := by decide
theorem test_wf_command : (Instr.oscSetWave .saw).wf = true ∧ Instr.detFeed.wf = true := by decide

/-! ### Constants and parameters: R7 and R8 -/

/-- Seven coefficients and seven taps; the queue holds QUEUE_SECONDS_MIN at the highest rate. -/
theorem test_constants : Config.decimCoeffs.length = Config.decimTaps ∧ Decim.reset.dl.toList.length = Config.decimTaps ∧
    valF64 (mulF64 Config.queueSecondsMin Config.maxSampleRate) ≤ Config.queueDepth * 2 ^ 1074 := by decide +kernel

/-- MAX_HALF_WINDOW is R93's half-window at the highest rate, MAX_WINDOW twice it, MAX_FFT_SIZE its transform; and N = 4096 for
the window of 1470. -/
theorem test_sizes : (preparedDet false Config.maxSampleRate).halfWindow = Config.maxHalfWindow ∧
    Config.maxWindow = 2 * Config.maxHalfWindow ∧ fftSize Config.maxWindow = Config.maxFftSize ∧ fftSize 1470 = 4096 := by
  decide +kernel

/-! ### Host accesses and reset: MA, ER, RS -/

/-- The word a read answers in the state after reset. -/
def readAfterReset (off : Offset) (size : Nat) : Option (Word × Sticky) :=
  match stepOn (.host (.read off size)) State.reset with
  | .next t => some (t.rdata, t.sticky)
  | _ => none

/-- MA-1. -/
theorem test_read_id : readAfterReset 0x30#8 4 = some (0x50444554#32, { errCmd := false, errAccess := false, qOverflow := false }) := by
  decide +kernel

/-- MA-2 to MA-4. -/
theorem test_read_malformed : [readAfterReset 0x31#8 4, readAfterReset 0x30#8 2, readAfterReset 0x40#8 4] =
    List.replicate 3 (some (0x00000000#32, { errCmd := false, errAccess := true, qOverflow := false })) := by decide +kernel

/-- RS-1. -/
theorem test_read_status : readAfterReset 0x1C#8 4 = some (0x00000010#32, { errCmd := false, errAccess := false, qOverflow := false }) := by
  decide +kernel

/-- MA-7. -/
theorem test_write_ctrl : ctrlWord (ctrlOfWord 0xFFFFFFFF#32) = 0x0000001F#32 := by decide

/-- ER-1: CMD and the sticky bits after the illegal word 0x50000000. -/
theorem test_illegal_command :
    (match stepOn (commandWrite (bytesOfWord 0x50000000#32)) State.reset with
      | .next t => some (t.cmd, t.sticky)
      | _ => none) = some (0x50000000#32, { errCmd := true, errAccess := false, qOverflow := false }) := by decide +kernel

/-- MA-6: a one-byte write at CMD's offset executes nothing. -/
theorem test_short_command_write :
    (match stepOn (.host (.write 0x00#8 [0x00#8])) State.reset with
      | .next t => some (t.cmd, t.sticky)
      | _ => none) = some (0x00000000#32, { errCmd := false, errAccess := true, qOverflow := false }) := by decide +kernel

/-! ### One command on a small state -/

/-- The state after a command, for the tests. -/
def after (i : Instr) (s : State) : State :=
  match exec i s with
  | .next t => t
  | _ => s

/-- A state after reset with the argument registers set. -/
def withArgs (hi lo arg1 arg2 : Word) : State :=
  (((State.reset.withArg0Hi hi).withArg0Lo lo).withArg1 arg1).withArg2 arg2

/-- CTRL for a synchronous, direct detector. -/
def directCtrl (fallback decim : Bool) : Ctrl := { fallbackEn := fallback, decimEn := decim, asyncEn := false, diffFft := false, run := true }

/-- The sizes DET.PREPARE derives. -/
def preparedSizes (decim : Bool) (hi lo : Word) : F64 × Nat × Nat × Nat :=
  let d := (after .detPrepare ((withArgs hi lo 0#32 0#32).withCtrl (directCtrl true decim))).det
  (d.fa, d.halfWindow, d.windowSize, d.hopSize)

/-- DS-1, DS-2, DS-9, DS-12 (infinity) and DS-13. -/
theorem test_detPrepare_sizes :
    [preparedSizes false 0x40E58880#32 0#32, preparedSizes true 0x40E58880#32 0#32, preparedSizes false 0x4082C000#32 0#32,
      preparedSizes false 0x7FF00000#32 0#32, preparedSizes false 0x40590000#32 0#32] =
    [(0x40E5888000000000#64, 735, 1470, 133), (0x40D5888000000000#64, 368, 736, 67), (0x4082C00000000000#64, 10, 20, 2),
      (0x4107700000000000#64, 3200, 6400, 576), (0x4059000000000000#64, 2, 4, 1)] := by decide +kernel

/-- DS-10 and DS-11: 0.0, -1.0, NaN and 0.5. -/
theorem test_detPrepare_clamped :
    [preparedSizes false 0#32 0#32, preparedSizes false 0xBFF00000#32 0#32, preparedSizes false 0x7FF80000#32 0#32,
      preparedSizes true 0x3FE00000#32 0#32] =
    [(0x3FF0000000000000#64, 1, 2, 1), (0x3FF0000000000000#64, 1, 2, 1), (0x3FF0000000000000#64, 1, 2, 1),
      (0x3FE0000000000000#64, 1, 2, 1)] := by decide +kernel

/-- A window of 20 samples, oldest first, with the last one still to be fed, at the analysis rate 600.0. -/
def smallDet (samples : List F32) : Det :=
  { preparedDet false 0x4082C00000000000#64 with
    win := samples.zipIdx.foldl (fun m x => Memory.write m x.2 x.1) [], writePos := 19, hopCount := 19 }

/-- The published pair after the feed of the twentieth sample. -/
def pairAfterFeed (fallback : Bool) (samples : List F32) (last : F32) : F32 × F32 :=
  let s := (withArgs 0#32 0#32 last 0#32).withAcfg { fallbackEn := fallback, decimEn := false, asyncEn := false, diffFft := false }
  let t := after .detFeed (s.withDet (smallDet samples))
  (t.det.pubFreq, t.det.pubConf)

/-- DA-1: 1, 0, -1, 0 repeated. -/
theorem test_detFeed_period_four :
    pairAfterFeed true ((List.replicate 5 [0x3F800000#32, 0#32, 0xBF800000#32, 0#32]).flatten.take 19) 0#32 =
      (0x4318BA2F#32, 0x3F800000#32) := by decide +kernel

/-- DA-4: 1, -1, 0 repeated. -/
theorem test_detFeed_period_three :
    pairAfterFeed false ((List.replicate 7 [0x3F800000#32, 0xBF800000#32, 0#32]).flatten.take 19) 0xBF800000#32 =
      (0x434EFA38#32, 0x3F800000#32) := by decide +kernel

/-- DET.GETRESULT (R95). -/
theorem test_detGetResult :
    let t := after .detGetResult (State.reset.withDet { Det.reset with pubFreq := 0x4318BA2F#32, pubConf := 0x3F800000#32 })
    t.res0 = 0x4318BA2F#32 ∧ t.res1 = 0x3F800000#32 := by decide +kernel

/-- OSC.PREPARE at 8.0 with frequency 1.5 (R137). -/
theorem test_oscPrepare :
    (after .oscPrepare ((withArgs 0x40200000#32 0#32 0#32 0#32).withOsc { Osc.reset with freq := 0x3FC00000#32 })).osc.inc =
      0x3FC8000000000000#64 := by decide +kernel

/-- OS-5: 440 Hz at 44100 Hz, and OS-8: a NaN. -/
theorem test_oscSetFreq :
    (after .oscSetFreq (withArgs 0#32 0#32 0x43DC0000#32 0#32)).osc.inc = 0x3F846EFDCB4A6B82#64 ∧
      (after .oscSetFreq (withArgs 0#32 0#32 0x7FC00000#32 0#32)).osc.freq = 0#32 := by decide +kernel

theorem test_oscSetWave : (after (.oscSetWave .square) State.reset).osc.wave = .square := by decide +kernel

/-- The sample and the next phase at the phase 0.375 with the increment 0.1875. -/
def sampleAt (w : Wave) (phase : F64) : F32 :=
  (after .oscNext (State.reset.withOsc { Osc.reset with phase := phase, inc := 0x3FC8000000000000#64, wave := w })).res0

/-- OS-1 to OS-4, the third sample (phase 0.375). -/
theorem test_oscNext_third : [Wave.sine, .triangle, .square, .saw].map (fun w => sampleAt w 0x3FD8000000000000#64) =
    [0x3F3504F3#32, 0xBF000000#32, 0x3F638E39#32, 0xBE800000#32] := by decide +kernel

/-- OS-1 to OS-4, the sixth sample (phase 0.9375). -/
theorem test_oscNext_sixth : [Wave.sine, .triangle, .square, .saw].map (fun w => sampleAt w 0x3FEE000000000000#64) =
    [0xBEC3EF15#32, 0x3F400000#32, 0xBF0E38E4#32, 0x3EDC71C7#32] := by decide +kernel

/-- SM-1's coefficient: rate 1000.0, amount f32(0.1). -/
theorem test_smoPrepare :
    (after .smoPrepare ((withArgs 0x408F4000#32 0#32 0#32 0#32).withSmo { Smo.reset with amount := 0x3DCCCCCD#32 })).smo.alpha =
      0x3FA8F874EF771720#64 := by decide +kernel

/-- SM-6: a NaN amount counts as 0. -/
theorem test_smoSetAmount :
    (after .smoSetAmount (withArgs 0#32 0#32 0x7FC00000#32 0#32)).smo.alpha = 0x3FF0000000000000#64 ∧
      (after .smoSetAmount (withArgs 0#32 0#32 0x3DCCCCCD#32 0#32)).smo.amount = 0x3DCCCCCD#32 := by decide +kernel

/-- SM-6: sensitivities 2.0 and -1.0, and 0.5. -/
theorem test_smoSetSens :
    [0x40000000#32, 0xBF800000#32, 0x3F000000#32].map (fun v => (after .smoSetSens (withArgs 0#32 0#32 v 0#32)).smo.thr) =
      [0#64, 0x3FF0000000000000#64, 0x3FE0000000000000#64] := by decide +kernel

/-- SM-1, row 3: 450 after 440 at the coefficient of that vector. -/
theorem test_smoProcess_smooths :
    let m := { Smo.reset with alpha := 0x3FA8F874EF771720#64 }
    let s := after .smoProcess ((withArgs 0#32 0#32 0x43DC0000#32 0x3F666666#32).withSmo m)
    s.res0 = 0x43DC0000#32 ∧ (after .smoProcess (s.withArg1 0x43E10000#32)).res0 = 0x43DC3DC3#32 := by decide +kernel

/-- SM-5, SM-6 and SM-7: saturation, an infinite frequency, and confidence 0.99 at threshold 1. -/
theorem test_smoProcess_gate :
    (after .smoProcess (withArgs 0#32 0#32 0x7F7FFFFF#32 0x3F800000#32)).res0 = 0x7F7FFFFF#32 ∧
      (after .smoProcess (withArgs 0#32 0#32 0x7F800000#32 0x3F800000#32)).smo.has = false ∧
      (after .smoProcess ((withArgs 0#32 0#32 0x43DC0000#32 0x3F7D70A4#32).withSmo
        { Smo.reset with thr := 0x3FF0000000000000#64 })).res0 = 0#32 := by decide +kernel

/-- D39 and R185: a confidence of +infinity fails the gate (log entry 22). -/
theorem test_smoProcess_infinite_confidence :
    (after .smoProcess (withArgs 0#32 0#32 0x43DC0000#32 0x7F800000#32)).smo.has = false := by decide +kernel

/-- A decimator that has just taken the given samples, the newest first, and is about to answer. -/
def decimHolding (d0 d1 d2 d3 d4 d5 : F32) : Decim :=
  { dl := { d0 := d0, d1 := d1, d2 := d2, d3 := d3, d4 := d4, d5 := d5, d6 := 0#32 }, ph := true, out := 0#32 }

theorem test_decReset : (after .decReset (State.reset.withDec (decimHolding 1#32 2#32 3#32 4#32 5#32 6#32))).dec = Decim.reset := by
  decide +kernel

/-- DC-5: a ramp comes out delayed by three samples. -/
theorem test_decProcess_ready :
    let t := after .decProcess ((withArgs 0#32 0#32 0x40E00000#32 0#32).withDec
      (decimHolding 0x40C00000#32 0x40A00000#32 0x40800000#32 0x40400000#32 0x40000000#32 0x3F800000#32))
    t.res0 = 1#32 ∧ t.dec.out = 0x40800000#32 ∧ t.dec.ph = false := by decide +kernel

/-- DC-7: a NaN enters as +0.0, and the first call is not ready. -/
theorem test_decProcess_nan :
    let t := after .decProcess (withArgs 0#32 0#32 0x7FC00000#32 0#32)
    t.res0 = 0#32 ∧ t.dec.dl.d0 = 0#32 ∧ t.dec.ph = true := by decide +kernel

theorem test_decGetOutput : (after .decGetOutput (State.reset.withDec { Decim.reset with out := 0xBD000000#32 })).res0 = 0xBD000000#32 := by
  decide +kernel

/-- `withFetchWord` places the command that the very next step runs. -/
theorem test_withFetchWord :
    (match step (State.reset.withFetchWord 32 0x22000002) with
      | .next t => some (t.osc.wave, t.cmd)
      | _ => none) = some (.square, 0x22000002#32) := by decide +kernel

/-! ### Witnesses: states and operands that meet the hypotheses of the statements, each clause at a boundary -/

/-- A block in the middle of its work: one sample in a window of 20, one waiting at the queue's last place, an engine turn to
come, the smoother and the oscillator set, one sample in each decimator. -/
def busy : State :=
  { State.reset with
    ctrl := { fallbackEn := true, decimEn := false, asyncEn := true, diffFft := false, run := true }
    acfg := { fallbackEn := true, decimEn := false, asyncEn := true, diffFft := false }
    det := { Det.reset with
      rate := 0x4082C00000000000#64, fa := 0x4082C00000000000#64, halfWindow := 10, windowSize := 20, hopSize := 2
      writePos := 1, hopCount := 1, win := [(0, 0x3F800000#32)], pubFreq := 0x43DC0000#32, pubConf := 0x3F800000#32
      pendConf := 0x3F000000#32 }
    queue := { mem := [(524287, 0xBF800000#32)], rd := 524287, wr := 0, n := 1 }
    osc := { rate := 0x40E5888000000000#64, freq := 0x43DC0000#32, inc := 0x3F846EFDCB4A6B82#64, phase := 0x3FD8000000000000#64
             wave := .saw }
    smo := { rate := 0x408F400000000000#64, amount := 0x3DCCCCCD#32, thr := 0x3FE0000000000000#64, alpha := 0x3FA8F874EF771720#64
             has := true, s := 0x4020000000000000#64 }
    dec := { dl := { d0 := 0x3F800000#32, d1 := 0#32, d2 := 0#32, d3 := 0#32, d4 := 0#32, d5 := 0#32, d6 := 0#32 }, ph := true, out := 0#32 }
    inbox := [.engine] }

/-- `busy` in another analysis configuration, with another occupancy and phase of the private decimator. -/
def busyWith (decim async phase : Bool) (n : Nat) : State :=
  { busy with
    acfg := { fallbackEn := true, decimEn := decim, asyncEn := async, diffFft := false }
    det := { busy.det with dec := { Decim.reset with ph := phase } }
    queue := { busy.queue with n := n } }

theorem witness_encoding : Instr.detFeed.wf = true ∧ 0x11000000#32 = encode .detFeed ∧ decode 0x11000000#32 = .ok .detFeed := by decide +kernel

theorem witness_wrongLength : ([] : List Byte).length ≠ 4 ∧ (List.replicate 5 (0x00#8 : Byte)).length ≠ 4 := by decide +kernel

theorem witness_illegalWord : decode 0x13000000#32 = .error .unassigned := by decide +kernel

/-- Each way an access is malformed, at the first value that is. -/
theorem witness_malformed : (2 ≠ 4 ∧ (0x31#8 : Offset).toNat % 4 ≠ 0 ∧ 0x34 ≤ (0x34#8 : Offset).toNat) ∧
    ([0x00#8, 0x00#8, 0x00#8] : List Byte).length ≠ 4 ∧
      (0x14#8 : Offset) ∈ [0x14#8, 0x18#8, 0x24#8, 0x28#8, 0x2C#8, 0x30#8] ∧
      (0x30#8 : Offset) ∈ [0x14#8, 0x18#8, 0x24#8, 0x28#8, 0x2C#8, 0x30#8] := by decide +kernel

/-- An engine turn, and a command that sets a bit. -/
theorem witness_step : (∃ t, stepOn .engine busy = .next t) ∧
    ∃ t, stepOn (commandWrite (bytesOfWord 0x13000000#32)) busy = .next t ∧ t.sticky.errCmd = true :=
  ⟨⟨_, rfl⟩, _, rfl, rfl⟩

/-- The rate operands at the two ends: NaN, the last value below 1.0, the first above 192000.0, and both ends. -/
theorem witness_rates : isNaN64 0x7FF8000000000000#64 = true ∧ valF64 0x3FEFFFFFFFFFFFFF#64 < 2 ^ 1074 ∧
    (isNaN64 0x4107700000000001#64 = false ∧ 192000 * 2 ^ 1074 < valF64 0x4107700000000001#64) ∧
    RateRange 0x3FF0000000000000#64 ∧ RateRange 0x4107700000000000#64 := by
  unfold RateRange; decide +kernel

/-- DET.FEED's clauses: the last room in the queue, the full queue, both phases, both modes. -/
theorem witness_feed :
    ((busyWith false true false 524287).acfg.asyncEn = true ∧ (busyWith false true false 524287).acfg.decimEn = false ∧
      (busyWith false true false 524287).queue.n < 524288 ∧ 524288 ≤ (busyWith false true false 524288).queue.n) ∧
    ((busyWith true true false 0).acfg.decimEn = true ∧ (busyWith true true false 0).det.dec.ph = false ∧
      (busyWith true true true 524287).det.dec.ph = true ∧ (busyWith true true true 524287).queue.n < 524288 ∧
      524288 ≤ (busyWith true true true 524288).queue.n ∧ (busyWith true false true 0).acfg.asyncEn = false) := by
  decide +kernel

/-- A synchronous insert that triggers no pass, and one that does, without decimation and with it. -/
theorem witness_feed_synchronous :
    let full := fun s : State => { s with det := { s.det with writePos := 19, hopCount := 19 } }
    let s := busyWith false false false 0
    let decimated := busyWith true false true 0
    let out := (decimStep decimated.det.dec (if finite32 decimated.arg1 then decimated.arg1 else 0x00000000#32)).1.out
    (s.acfg.asyncEn = false ∧ s.acfg.decimEn = false ∧
      (insertOf s.det (if finite32 s.arg1 then s.arg1 else 0x00000000#32)).2 = false ∧
      (insertOf (full s).det (if finite32 (full s).arg1 then (full s).arg1 else 0x00000000#32)).2 = true) ∧
    (decimated.acfg.decimEn = true ∧ decimated.acfg.asyncEn = false ∧ decimated.det.dec.ph = true ∧
      (insertOf decimated.det out).2 = false ∧ (insertOf (full decimated).det out).2 = true) := by
  decide +kernel

theorem witness_prepare : ∃ t, exec .detPrepare busy = .next t := ⟨_, rfl⟩

/-- At the least rate the window has two entries: the first insert triggers nothing and the second a pass. -/
theorem witness_triggers : (insertAll (preparedDet false (sanitiseRate 0x3FF0000000000000#64)) [0x3F800000#32, 0x3F800000#32]).2 =
    [false, true] := by decide +kernel

theorem memory_below_single {n k : Nat} {v : F32} (hk : k < n) : Memory.below n [(k, v)] := by
  intro i hi
  have : k ≠ i := by omega
  simp [Memory.read, this]

theorem witness_queue : QueueInv busy.queue ∧ busy.queue.n < 524288 ∧ 0 < busy.queue.n :=
  ⟨⟨by decide +kernel, memory_below_single (by decide +kernel), by decide +kernel, by decide +kernel, by decide +kernel⟩, by decide +kernel, by decide +kernel⟩

/-- The engine's clauses: a publish due, a drain without a pass, one with a pass; and stopped with work waiting. -/
theorem witness_engine :
    let publish : State := { busy with det := { busy.det with estate := .pubConfPending } }
    let full : State := { busy with det := { busy.det with writePos := 19, hopCount := 19 } }
    let stopped : State := { publish with ctrl := { publish.ctrl with run := false } }
    (publish.acfg.asyncEn = true ∧ publish.det.estate = .pubConfPending) ∧
      (busy.acfg.asyncEn = true ∧ busy.det.estate = .ready ∧ busy.ctrl.run = true ∧ 0 < busy.queue.n) ∧
      (insertOf busy.det busy.queue.front).2 = false ∧ (insertOf full.det full.queue.front).2 = true ∧
      (stopped.ctrl.run = false ∧ engineIdle stopped = false) := by
  decide +kernel

theorem witness_drain : QueueInv (busy.withInbox []).queue ∧ (busy.withInbox []).inbox = [] ∧
    (busy.withInbox []).acfg.asyncEn = true ∧ (busy.withInbox []).ctrl.run = true :=
  ⟨witness_queue.1, rfl, rfl, rfl⟩

theorem witness_asynchronous : QueueInv busy.queue ∧ busy.acfg.asyncEn = true ∧ busy.ctrl.run = true ∧ busy.queue.n < 524288 ∧
    ∃ t, exec .detFeed busy = .next t :=
  ⟨witness_queue.1, rfl, rfl, by decide +kernel, _, rfl⟩

/-- A full window at the analysis rate 600.0, the oldest sample first. -/
def windowOf (samples : List F32) : Det :=
  { preparedDet false 0x4082C00000000000#64 with win := samples.zipIdx.foldl (fun m x => Memory.write m x.2 x.1) [], filled := true }

/-- What the steps of a pass see on the direct path: silence, the accepted lag, and whether the result is accepted. -/
def passOf (fallback : Bool) (d : Det) : Bool × Option Nat × Bool :=
  let cm := cmndf ((List.range d.halfWindow).map (directDiff d.halfWindow ((linearise d).map f64OfF32)))
  (leF64 cm.2 0x0000000000000000#64, selectLag fallback cm.1, match selectLag fallback cm.1 with
    | none => false
    | some τ =>
      let s0 := cm.1.getD (τ - 1) 0#64
      let s2 := cm.1.getD (τ + 1) 0#64
      let den := subF64 (addF64 s0 s2) (mulF64 0x4000000000000000#64 (cm.1.getD τ 0#64))
      let τr := if τ + 1 < cm.1.length ∧ eqF64 den 0x0000000000000000#64 = false then
          addF64 (ofIntF64 τ) (divF64 (subF64 s0 s2) (mulF64 0x4000000000000000#64 den)) else ofIntF64 τ
      !isNaN64 (cm.1.getD τ 0#64) && !ltF64 τr 0x3FF0000000000000#64 &&
        leF64 0x4034000000000000#64 (divF64 d.fa τr) && ltF64 (divF64 d.fa τr) 0x40B3880000000000#64)

/-- R128's window has its lag 4 accepted; at the rate 192000.0 the frequency is out of range; one sample in silence gives no lag
without the fallback; and an empty window is silent. -/
theorem witness_pass :
    let periodic := windowOf (List.replicate 5 [0x3F800000#32, 0#32, 0xBF800000#32, 0#32]).flatten
    passOf true periodic = (false, some 4, true) ∧
      passOf true { periodic with fa := 0x4107700000000000#64 } = (false, some 4, false) ∧
      passOf false (windowOf [0x3F800000#32]) = (false, none, false) ∧ (passOf false (windowOf [])).1 = true := by
  decide +kernel

/-- Silence, a constant window, and a half-window of 2 next to one of 3. -/
theorem witness_no_pitch :
    let silent : Det := { busy.det with win := [] }
    let level : Det := { busy.det with halfWindow := 1, windowSize := 2, win := [(0, 0x3F800000#32), (1, 0x3F800000#32)] }
    (preparedDet false 0x4059000000000000#64).halfWindow = 2 ∧
      (silent.windowSize = 2 * silent.halfWindow ∧ ∀ k, Memory.read silent.win k = 0x00000000#32) ∧
      (level.windowSize = 2 * level.halfWindow ∧ finite32 0x3F800000#32 = true ∧
        ∀ k, k < level.windowSize → Memory.read level.win k = 0x3F800000#32) := by
  refine ⟨by decide +kernel, ⟨rfl, fun k => rfl⟩, rfl, by decide +kernel, ?_⟩
  decide +kernel

/-- The last sum inside a list. -/
theorem witness_direct : 2 + 1 ≤ ([0x3FF0000000000000#64, 0#64, 0x3FF0000000000000#64] : List F64).length := by decide

/-- The longest half-window, with the largest finite samples of both signs. -/
theorem witness_samples : 3200 ≤ 3200 ∧ ∀ x ∈ ([0x7F7FFFFF#32, 0xFF7FFFFF#32] : List F32), finite32 x = true := by
  simp only [List.forall_mem_cons, List.not_mem_nil, false_implies, implies_true, and_true]; decide +kernel

/-- The first and the last value of the range, and a lag of the list. -/
theorem witness_energy : 1 < ([0x0000000000000000#64, 0x52AFFFFFFFFFFFFF#64] : List F64).length ∧ ([0x0000000000000000#64, 0x52AFFFFFFFFFFFFF#64] : List F64).length ≤ 3200 ∧
    ∀ x ∈ ([0x0000000000000000#64, 0x52AFFFFFFFFFFFFF#64] : List F64), EnergyRange x := by
  simp only [List.forall_mem_cons, List.not_mem_nil, false_implies, implies_true, and_true, EnergyRange]; decide +kernel

/-- A function whose values never fall below the threshold, on three lags and on two. -/
theorem witness_fallback :
    let cm : List F64 := [0x3FF0000000000000#64, 0x3FF0000000000000#64, 0x3FE0000000000000#64]
    ((∀ c ∈ cm, isNaN64 c = false) ∧ 2 < cm.length ∧
      ∀ u, u < cm.length → 2 ≤ u → ltF64 (cm.getD u 0#64) 0x3FC3333333333333#64 = false) ∧
    (cm.take 2).length ≤ 2 := by
  simp only [List.forall_mem_cons, List.not_mem_nil, false_implies, implies_true, and_true]; decide +kernel

/-- A function that falls below the threshold at lag 2 and further at lag 3, with the fallback and without it. -/
theorem witness_threshold :
    let cm : List F64 := [0x3FF0000000000000#64, 0x3FF0000000000000#64, 0x3FB999999999999A#64, 0x3F847AE147AE147B#64]
    2 < cm.length ∧ ltF64 (cm.getD 2 0#64) 0x3FC3333333333333#64 = true ∧ selectLag false cm = some 3 ∧
      selectLag true cm = some 3 := by decide +kernel

theorem real64_one : IsReal64 0x3FF0000000000000#64 1 :=
  ⟨by decide +kernel, by rw [show valF64 0x3FF0000000000000#64 = 2 ^ 1074 from valF64_oneF64]; simp only [Int.cast_pow, Int.cast_ofNat, one_mul]⟩

theorem real32_one : IsReal32 0x3F800000#32 1 :=
  ⟨by decide +kernel, by rw [show valF32 0x3F800000#32 = 2 ^ 149 from valF32_oneF32]; simp only [Int.cast_pow, Int.cast_ofNat, one_mul]⟩

/-- 1.0 + 2^-52, which is no power of two. -/
theorem real64_above_one : IsReal64 0x3FF0000000000001#64 ((2 ^ 52 + 1) * (2 ^ 52)⁻¹) :=
  ⟨by decide +kernel, by
    rw [show valF64 0x3FF0000000000001#64 = (2 ^ 52 + 1) * 2 ^ 1022 by decide +kernel, show (1074 : ℕ) = 52 + 1022 from rfl, pow_add,
      ← mul_assoc, mul_assoc _ _ (2 ^ 52), inv_mul_cancel₀ (by positivity), mul_one]
    simp only [Int.cast_mul, Int.cast_add, Int.cast_pow, Int.cast_ofNat, Int.cast_one]⟩

theorem witness_arithmetic : IsReal64 0x3FF0000000000000#64 1 ∧ IsReal32 0x3F800000#32 1 ∧ (1 : ℝ) ≠ 0 :=
  ⟨real64_one, real32_one, one_ne_zero⟩

/-- -2^-60, which less its floor rounds to 1.0. -/
theorem real64_tiny : IsReal64 0xBC30000000000000#64 (-(2 ^ 60)⁻¹) :=
  ⟨by decide +kernel, by
    rw [show valF64 0xBC30000000000000#64 = -2 ^ 1014 by decide +kernel, show (1074 : ℕ) = 60 + 1014 from rfl, pow_add, neg_mul,
      ← mul_assoc, inv_mul_cancel₀ (by positivity), one_mul, Int.cast_neg, Int.cast_pow, Int.cast_ofNat]⟩

/-- An integer at the bound. -/
theorem witness_integer : |(2 ^ 53 : Int)| ≤ 2 ^ 53 := by decide

/-- The elementary functions' operands: a power of two and the next number. -/
theorem witness_log2 : (IsReal64 0x3FF0000000000001#64 ((2 ^ 52 + 1) * (2 ^ 52)⁻¹) ∧ (0 : ℝ) < (2 ^ 52 + 1) * (2 ^ 52)⁻¹) ∧
    IsReal64 0x3FF0000000000000#64 1 ∧ (0 : ℝ) < 1 :=
  ⟨⟨real64_above_one, by positivity⟩, real64_one, one_pos⟩

/-- The last phase, a zero phase, and increments zero and below. -/
theorem witness_phases : PhaseRange 0x3FEFFFFFFFFFFFFF#64 ∧ PhaseRange 0x0000000000000000#64 ∧
    finite64 0x3FEFFFFFFFFFFFFF#64 = true ∧ (finite64 0x8000000000000000#64 = true ∧ valF64 0x8000000000000000#64 = 0) ∧
    (finite64 0xBF846EFDCB4A6B82#64 = true ∧ valF64 0xBF846EFDCB4A6B82#64 ≤ 0) := by
  unfold PhaseRange; decide +kernel

/-- OSC.SETFREQ's two clauses at the last finite value and at the first that is not. -/
theorem witness_setFreq : finite32 (busy.withArg1 0x7F7FFFFF#32).arg1 = true ∧ finite32 (busy.withArg1 0x7F800000#32).arg1 = false := by
  decide +kernel

/-- The operand rule's clauses: a NaN, the first value above 1, the ends of (0, 1], and both zeros. -/
theorem witness_unit : isNaN32 0x7FC00000#32 = true ∧ (isNaN32 0x3F800001#32 = false ∧ 2 ^ 149 < valF32 0x3F800001#32) ∧
    (isNaN32 0x00000001#32 = false ∧ 0 < valF32 0x00000001#32 ∧ valF32 0x3F800000#32 ≤ 2 ^ 149) ∧
    valF32 0x00000000#32 ≤ 0 ∧ valF32 0x80000000#32 ≤ 0 := by decide +kernel

/-- SMO.PROCESS's three clauses: 440 Hz at the threshold, with and without a value held, and at the confidence just below it. -/
theorem witness_smoother :
    let gate := fun s : State => ltF64 0#64 (f64OfF32 s.arg1) && finite64 (f64OfF32 s.arg1) && finite64 (f64OfF32 s.arg2) && leF64 s.smo.thr (f64OfF32 s.arg2)
    let s := (busy.withArg1 0x43DC0000#32).withArg2 0x3F000000#32
    (gate s = true ∧ s.smo.has = true ∧ (s.withSmo { s.smo with has := false }).smo.has = false) ∧
      gate (s.withArg2 0x3EFFFFFF#32) = false ∧ smootherValid (f64OfF32 s.arg1) (f64OfF32 s.arg2) s.smo.thr = true := by
  decide +kernel

theorem witness_smootherInv : SmoInv busy.smo :=
  ⟨by unfold RateRange; decide +kernel, by decide +kernel, by decide +kernel, by decide +kernel, by decide +kernel⟩

theorem smoProcess_next (s : State) : ∃ t, exec .smoProcess s = .next t := by
  show ∃ t, execSmoProcess s = .next t
  unfold execSmoProcess
  dsimp only
  split <;> exact ⟨_, rfl⟩

theorem witness_smootherHolds : let s := (busy.withArg1 0x43DC0000#32).withArg2 0x3F000000#32
    smootherValid (f64OfF32 s.arg1) (f64OfF32 s.arg2) s.smo.thr = true ∧ ∃ t, exec .smoProcess s = .next t := by
  exact ⟨by decide +kernel, smoProcess_next _⟩

theorem witness_decimator : (busy.withDec Decim.reset).dec.ph = false ∧ busy.dec.ph = true := by decide +kernel

/-- A command that writes one unit only, and DET.FEED in synchronous mode. -/
theorem witness_frames : (∃ t, exec .oscPrepare busy = .next t) ∧ unitField (encode .oscPrepare) = 0x2#4 ∧
    ∃ t, stepOn (commandWrite (encodeBytes .detFeed)) (busyWith false false false 0) = .next t :=
  ⟨⟨_, rfl⟩, by decide +kernel, _, rfl⟩

/-! The invariants at `busy`, whose next step is an engine turn. -/

theorem witness_nextStep : ∃ t, step busy = .next t := ⟨_, rfl⟩

theorem witness_shape : ShapeInv busy where
  queue := witness_queue.1
  det := by
    constructor
    case below => exact memory_below_single (by decide +kernel)
    all_goals decide +kernel
  sync_empty := by decide +kernel
  sync_ready := by decide +kernel

theorem witness_published : PublishedInv busy :=
  ⟨by unfold FrequencyRange; decide +kernel, by unfold ConfidenceRange; decide +kernel, by unfold ConfidenceRange; decide +kernel⟩

theorem witness_oscillator : OscInv busy.osc :=
  ⟨by unfold RateRange; decide +kernel, by decide +kernel, by decide +kernel, by unfold PhaseRange; decide +kernel⟩

theorem memory_finite_single {k : Nat} {v : F32} (hv : finite32 v = true) : Memory.finite [(k, v)] := by
  intro i
  unfold Memory.read
  split
  · exact hv
  · rfl

theorem witness_finite : FiniteInv busy :=
  ⟨⟨by simp only [busy, DelayLine.toList, List.forall_mem_cons, List.not_mem_nil, false_implies, implies_true, and_true]; decide +kernel, by decide +kernel⟩,
    ⟨by simp only [busy, Det.reset, Decim.reset, DelayLine.toList, List.forall_mem_cons, List.not_mem_nil, false_implies, implies_true, and_true]; decide +kernel,
      by decide +kernel⟩,
    memory_finite_single (by decide +kernel), memory_finite_single (by decide +kernel), by decide +kernel, by decide +kernel⟩

end Sys2Proof.Tests
end

/-! PROOFS. The arithmetic of 00_scope.md R11 to R13 and the rate rule R92. The laws above give a result's sign and nearest
magnitude pattern (`NearestPattern`); here such a result is shown to be the real number rounded once (`Rounds64`, `Rounds32`),
and every operation is brought into that form. -/

namespace Sys2Proof.Machine

/-! ### A sign and a nearest magnitude pattern -/

/-- The integer that a sign and a magnitude pattern stand for. -/
def signedMag (t : ℕ) (neg : Bool) (p : ℕ) : ℤ := if neg then -(magOfPattern t p : ℤ) else magOfPattern t p

theorem valF64_eq_signedMag (a : F64) : valF64 a = signedMag 52 (signF64 a) (patF64 a) := rfl

theorem valF32_eq_signedMag (a : F32) : valF32 a = signedMag 23 (signF32 a) (patF32 a) := rfl

theorem abs_signedMag (t : ℕ) (neg : Bool) (p : ℕ) : |(signedMag t neg p : ℝ)| = magOfPattern t p := by
  cases neg <;> simp [signedMag]

theorem NearestPattern.lt_infinity {t emax p : ℕ} {w : ℝ} (hn : NearestPattern t emax w p) (hb : w < overflowBound t emax) :
    p < emax * 2 ^ t := by
  unfold NearestPattern at hn
  rw [if_pos hb] at hn
  exact hn.1

theorem NearestPattern.nearest {t emax p q : ℕ} {w : ℝ} (hn : NearestPattern t emax w p) (hb : w < overflowBound t emax)
    (hq : q < emax * 2 ^ t) : |(magOfPattern t p : ℝ) - w| ≤ |(magOfPattern t q : ℝ) - w| ∧
      (|(magOfPattern t p : ℝ) - w| = |(magOfPattern t q : ℝ) - w| → q ≠ p → p % 2 = 0) := by
  unfold NearestPattern at hn
  rw [if_pos hb] at hn
  exact hn.2 q hq

theorem NearestPattern.eq_infinity {t emax p : ℕ} {w : ℝ} (hn : NearestPattern t emax w p)
    (hb : ¬ w < overflowBound t emax) : p = emax * 2 ^ t := by
  unfold NearestPattern at hn
  rwa [if_neg hb] at hn

/-- With the sign of the real number `w`, a pattern is as far from `w` as its magnitude is from `|w|`. -/
theorem abs_signedMag_sub (t p : ℕ) {neg : Bool} {w : ℝ} (hs : w ≠ 0 → neg = decide (w < 0)) :
    |(signedMag t neg p : ℝ) - w| = |(magOfPattern t p : ℝ) - (|w|)| := by
  rcases lt_trichotomy w 0 with hw | rfl | hw
  · rw [hs hw.ne, decide_eq_true hw, abs_of_neg hw, ← abs_neg]
    simp only [signedMag, if_true]
    push_cast
    ring_nf
  · rw [abs_zero, sub_zero, sub_zero, abs_signedMag, Nat.abs_cast]
  · rw [hs hw.ne', decide_eq_false hw.le.not_gt, abs_of_pos hw]
    simp [signedMag]

theorem mag_of_signedMag {t p : ℕ} {neg : Bool} {x u : ℝ} (hu : 0 < u) (h : (signedMag t neg p : ℝ) = x * u) :
    (magOfPattern t p : ℝ) = |x| * u := by
  rw [← abs_signedMag t neg p, h, abs_mul, abs_of_pos hu]

theorem sign_of_signedMag {t p : ℕ} {neg : Bool} {x u : ℝ} (hu : 0 < u) (h : (signedMag t neg p : ℝ) = x * u)
    (hx : x ≠ 0) : neg = decide (x < 0) := by
  cases neg
  · have h0 : 0 ≤ x * u := by rw [← h]; simp [signedMag]
    exact (decide_eq_false (nonneg_of_mul_nonneg_left h0 hu).not_gt).symm
  · have h0 : x * u ≤ 0 := by rw [← h]; simp [signedMag]
    exact (decide_eq_true ((nonpos_of_mul_nonpos_left h0 hu).lt_of_ne hx)).symm

/-- Two opposite values are equally near only to 0 or when both are 0, so that the nearest pattern is that of 0. -/
theorem NearestPattern.eq_zero_of_opposite {t emax p : ℕ} {w : ℝ} {neg : Bool} (hn : NearestPattern t emax (|w|) p)
    (hb : |w| < overflowBound t emax) (h : |(signedMag t neg p : ℝ) - w| = |-(signedMag t neg p : ℝ) - w|) : p = 0 := by
  have hp := hn.lt_infinity hb
  have hm : magOfPattern t p = 0 := by
    rcases abs_eq_abs.1 h with h | h
    · have h0 : (signedMag t neg p : ℝ) = 0 := by linarith
      rw [← Nat.cast_eq_zero (R := ℝ), ← abs_signedMag t neg p, h0, abs_zero]
    · obtain rfl : w = 0 := by linarith
      have h0 := (hn.nearest hb (q := 0) (by omega)).1
      simp only [abs_zero, sub_zero, magOfPattern_zero, Nat.cast_zero, Nat.abs_cast] at h0
      exact_mod_cast le_antisymm h0 (Nat.cast_nonneg _)
  exact (magOfPattern_strictMono t).injective (hm.trans (magOfPattern_zero t).symm)

/-- A nearest pattern of `|v|` in units of `1 / u`, with the sign of `v`, is nearest to `v` among the values of both signs, and
even where another one is as near. -/
theorem NearestPattern.signed {t emax p q : ℕ} {v u : ℝ} {neg : Bool} (hu : 0 < u) (hn : NearestPattern t emax (|v| * u) p)
    (hb : |v| * u < overflowBound t emax) (hs : v ≠ 0 → neg = decide (v < 0)) (neg' : Bool) (hq : q < emax * 2 ^ t) :
    |(signedMag t neg p : ℝ) - v * u| ≤ |(signedMag t neg' q : ℝ) - v * u| ∧
      (|(signedMag t neg p : ℝ) - v * u| = |(signedMag t neg' q : ℝ) - v * u| → signedMag t neg' q ≠ signedMag t neg p →
        p % 2 = 0) := by
  have hw : |v| * u = |v * u| := by rw [abs_mul, abs_of_pos hu]
  have hs : v * u ≠ 0 → neg = decide (v * u < 0) := fun h => by
    rw [hs (left_ne_zero_of_mul h), decide_eq_decide]
    simp [mul_neg_iff, hu, hu.not_gt]
  rw [hw] at hn hb
  generalize v * u = w at *
  obtain ⟨hle, htie⟩ := hn.nearest hb hq
  have hq' : |(magOfPattern t q : ℝ) - (|w|)| ≤ |(signedMag t neg' q : ℝ) - w| := by
    rw [← abs_signedMag t neg' q]
    exact abs_abs_sub_abs_le _ _
  rw [abs_signedMag_sub t p hs]
  refine ⟨hle.trans hq', fun heq hne => ?_⟩
  by_cases hqp : q = p
  · subst hqp
    have hopp : signedMag t neg' q = -signedMag t neg q := by
      cases neg <;> cases neg' <;> simp_all [signedMag]
    rw [← abs_signedMag_sub t q hs, hopp, Int.cast_neg] at heq
    rw [hn.eq_zero_of_opposite hb heq]
  · exact htie (le_antisymm hle (hq'.trans heq.ge)) hqp

/-- A real number of at most half a unit has the pattern of zero as its nearest. -/
theorem nearestPattern_zero {t emax : ℕ} {w : ℝ} (he : 0 < emax) (h0 : 0 ≤ w) (hw : w ≤ 1 / 2) :
    NearestPattern t emax w 0 := by
  have hb : (1 : ℝ) ≤ overflowBound t emax := by
    have h1 : 2 ≤ 2 ^ (t + 2) := Nat.le_self_pow (by omega) 2
    have h2 : 0 < overflowBound t emax := Nat.mul_pos (by omega) (by positivity)
    exact_mod_cast h2
  unfold NearestPattern
  rw [if_pos (by linarith)]
  refine ⟨by positivity, fun q _ => ⟨?_, fun _ _ => rfl⟩⟩
  rw [magOfPattern_zero, Nat.cast_zero, zero_sub, abs_neg, abs_of_nonneg h0]
  rcases Nat.eq_zero_or_pos (magOfPattern t q) with hq | hq
  · rw [hq, Nat.cast_zero, zero_sub, abs_neg, abs_of_nonneg h0]
  · have hq' : (1 : ℝ) ≤ magOfPattern t q := by exact_mod_cast hq
    rw [abs_of_nonneg (by linarith)]
    linarith

theorem overflowBound_cast (t emax : ℕ) : (overflowBound t emax : ℝ) = (2 ^ (t + 2) - 1) * 2 ^ (emax - 3) := by
  unfold overflowBound
  push_cast [Nat.one_le_two_pow]
  rfl

/-! ### Rounding to binary64 -/

theorem unit64_pos : (0 : ℝ) < 2 ^ 1074 := by positivity

/-- The overflow bound of binary64 as a real number and in units. -/
theorem overflowBound64_iff (v : ℝ) : |v| * 2 ^ 1074 < overflowBound 52 2047 ↔ |v| < (2 ^ 54 - 1) * 2 ^ 970 := by
  rw [overflowBound_cast, show 2047 - 3 = 970 + 1074 from rfl, pow_add _ 970, ← mul_assoc, mul_lt_mul_iff_left₀ unit64_pos]

/-- A nearest pattern with the sign of the number is the number rounded once. -/
theorem rounds64_of_nearest {v : ℝ} {r : F64} (hs : v ≠ 0 → signF64 r = decide (v < 0))
    (hn : NearestPattern 52 2047 (|v| * 2 ^ 1074) (patF64 r)) : Rounds64 v r := by
  unfold Rounds64
  by_cases hb : |v| < (2 ^ 54 - 1) * 2 ^ 970
  · have hb' := (overflowBound64_iff v).2 hb
    rw [if_pos hb, finite64_iff]
    exact ⟨hn.lt_infinity hb', fun c hc => hn.signed unit64_pos hb' hs (signF64 c) ((finite64_iff c).1 hc)⟩
  · have hv : v ≠ 0 := by
      rintro rfl
      exact hb (by rw [abs_zero]; positivity)
    rw [if_neg hb, isInf64_iff, hs hv, decide_eq_true_iff]
    exact ⟨hn.eq_infinity (mt (overflowBound64_iff v).1 hb), Iff.rfl⟩

/-- What `roundF64` answers for a quotient of `v`'s magnitude and `v`'s sign. -/
theorem rounds64_roundF64 {v : ℝ} {neg : Bool} {n d : ℕ} (hd : 0 < d) (hs : v ≠ 0 → neg = decide (v < 0))
    (hv : |v| * 2 ^ 1074 = n / d) : Rounds64 v (roundF64 neg n d) := by
  refine rounds64_of_nearest (by rwa [signF64_roundF64]) ?_
  rw [patF64_roundF64, hv]
  exact nearestPattern_roundMagnitude 52 2047 n d (by norm_num) le_rfl (by norm_num) (by norm_num) hd

/-! ### The real number of a finite binary64 -/

theorem IsReal64.mag_eq {a : F64} {x : ℝ} (h : IsReal64 a x) : (magF64 a : ℝ) = |x| * 2 ^ 1074 :=
  mag_of_signedMag unit64_pos (by rw [← valF64_eq_signedMag]; exact h.2)

theorem IsReal64.sign_eq {a : F64} {x : ℝ} (h : IsReal64 a x) (hx : x ≠ 0) : signF64 a = decide (x < 0) :=
  sign_of_signedMag unit64_pos (by rw [← valF64_eq_signedMag]; exact h.2) hx

/-- A binary64 that stands for `v` is `v` rounded once. -/
theorem IsReal64.rounds {v : ℝ} {r : F64} (h : IsReal64 r v) : Rounds64 v r := by
  refine rounds64_of_nearest h.sign_eq ?_
  rw [← h.mag_eq]
  exact nearestPattern_self ((finite64_iff r).1 h.1).le

theorem IsReal64.valF64_eq_zero_iff {a : F64} {x : ℝ} (h : IsReal64 a x) : valF64 a = 0 ↔ x = 0 := by
  rw [← Int.cast_eq_zero (α := ℝ), h.2, mul_eq_zero, or_iff_left unit64_pos.ne']

theorem IsReal64.neg {a : F64} {x : ℝ} (h : IsReal64 a x) : IsReal64 (negF64 a) (-x) :=
  ⟨by rw [finite64_negF64]; exact h.1, by rw [valF64_negF64, Int.cast_neg, h.2, neg_mul]⟩

theorem isReal64_zero (neg : Bool) : IsReal64 (packF64 neg 0) 0 := by
  refine ⟨?_, by rw [valF64_packF64_zero, Int.cast_zero, zero_mul]⟩
  rw [finite64_iff, patF64_packF64 neg (by norm_num)]
  norm_num

/-! ### The binary64 operations (R11) -/

/-- The sign of a product is the exclusive-or of the signs. -/
theorem bne_decide_neg_eq_mul {x y : ℝ} (hx : x ≠ 0) (hy : y ≠ 0) :
    (decide (x < 0) != decide (y < 0)) = decide (x * y < 0) := by
  rcases hx.lt_or_gt with h | h <;> rcases hy.lt_or_gt with h' | h' <;> simp [mul_neg_iff, h, h', h.not_gt, h'.not_gt]

theorem addF64_rounds {a b : F64} {x y : ℝ} (ha : IsReal64 a x) (hb : IsReal64 b y) : Rounds64 (x + y) (addF64 a b) := by
  have hsum : ((valF64 a + valF64 b : ℤ) : ℝ) = (x + y) * 2 ^ 1074 := by
    rw [Int.cast_add, ha.2, hb.2, add_mul]
  unfold addF64
  rw [not_isNaN64_of_finite ha.1, not_isNaN64_of_finite hb.1, not_isInf64_of_finite ha.1, not_isInf64_of_finite hb.1]
  simp only [Bool.or_self, Bool.false_eq_true, if_false]
  split
  · next h0 =>
    rw [h0, Int.cast_zero, zero_eq_mul, or_iff_left unit64_pos.ne'] at hsum
    rw [hsum]
    exact (isReal64_zero _).rounds
  · refine rounds64_roundF64 one_pos (fun _ => ?_) ?_
    · rw [decide_eq_decide, ← Int.cast_lt_zero (R := ℝ), hsum]
      simp [mul_neg_iff, unit64_pos.not_gt]
    · rw [Nat.cast_one, div_one, Nat.cast_natAbs, Int.cast_abs, hsum, abs_mul, abs_of_pos unit64_pos]

theorem subF64_rounds {a b : F64} {x y : ℝ} (ha : IsReal64 a x) (hb : IsReal64 b y) : Rounds64 (x - y) (subF64 a b) := by
  rw [sub_eq_add_neg]
  exact addF64_rounds ha hb.neg

theorem mulF64_rounds {a b : F64} {x y : ℝ} (ha : IsReal64 a x) (hb : IsReal64 b y) : Rounds64 (x * y) (mulF64 a b) := by
  unfold mulF64
  rw [not_isNaN64_of_finite ha.1, not_isNaN64_of_finite hb.1, not_isInf64_of_finite ha.1, not_isInf64_of_finite hb.1]
  simp only [Bool.or_self, Bool.false_eq_true, if_false]
  refine rounds64_roundF64 (by positivity) (fun h => ?_) ?_
  · rw [ha.sign_eq (left_ne_zero_of_mul h), hb.sign_eq (right_ne_zero_of_mul h),
      bne_decide_neg_eq_mul (left_ne_zero_of_mul h) (right_ne_zero_of_mul h)]
  · rw [Nat.cast_mul, ha.mag_eq, hb.mag_eq, abs_mul, Nat.cast_pow, Nat.cast_ofNat, eq_div_iff unit64_pos.ne',
      mul_mul_mul_comm, mul_assoc]

theorem divF64_rounds {a b : F64} {x y : ℝ} (ha : IsReal64 a x) (hb : IsReal64 b y) (hy : y ≠ 0) :
    Rounds64 (x / y) (divF64 a b) := by
  have hm : magF64 b ≠ 0 := by rwa [← natAbs_valF64, Int.natAbs_ne_zero, Ne, hb.valF64_eq_zero_iff]
  unfold divF64
  rw [not_isNaN64_of_finite ha.1, not_isNaN64_of_finite hb.1, not_isInf64_of_finite ha.1, not_isInf64_of_finite hb.1]
  simp only [Bool.or_self, Bool.false_eq_true, if_false, hm]
  refine rounds64_roundF64 (Nat.pos_of_ne_zero hm) (fun h => ?_) ?_
  · have hx : x ≠ 0 := (div_ne_zero_iff.1 h).1
    rw [ha.sign_eq hx, hb.sign_eq hy, div_eq_mul_inv, ← bne_decide_neg_eq_mul hx (inv_ne_zero hy)]
    simp only [inv_neg'']
  · rw [Nat.cast_mul, ha.mag_eq, hb.mag_eq, abs_div, Nat.cast_pow, Nat.cast_ofNat,
      mul_div_mul_right _ _ unit64_pos.ne', mul_div_right_comm]

/-- Settles O35: each operation is a rounded exact magnitude with the exact result's sign, or an exact zero sum. -/
theorem binary64RoundsOnce : Obligations.Binary64RoundsOnce := by
  intro a b x y ha hb
  exact ⟨addF64_rounds ha hb, subF64_rounds ha hb, mulF64_rounds ha hb, divF64_rounds ha hb⟩

/-! ### The binary32 operations (R11, R174) -/

theorem unit32_pos : (0 : ℝ) < 2 ^ 149 := by positivity

/-- The overflow bound of binary32 as a real number and in units. -/
theorem overflowBound32_iff (v : ℝ) : |v| * 2 ^ 149 < overflowBound 23 255 ↔ |v| < (2 ^ 25 - 1) * 2 ^ 103 := by
  rw [overflowBound_cast, show 255 - 3 = 103 + 149 from rfl, pow_add _ 103, ← mul_assoc, mul_lt_mul_iff_left₀ unit32_pos]

/-- A nearest pattern with the sign of the number is the number rounded once. -/
theorem rounds32_of_nearest {v : ℝ} {r : F32} (hs : v ≠ 0 → signF32 r = decide (v < 0))
    (hn : NearestPattern 23 255 (|v| * 2 ^ 149) (patF32 r)) : Rounds32 v r := by
  unfold Rounds32
  by_cases hb : |v| < (2 ^ 25 - 1) * 2 ^ 103
  · have hb' := (overflowBound32_iff v).2 hb
    rw [if_pos hb, finite32_iff]
    exact ⟨hn.lt_infinity hb', fun c hc => hn.signed unit32_pos hb' hs (signF32 c) ((finite32_iff c).1 hc)⟩
  · have hv : v ≠ 0 := by
      rintro rfl
      exact hb (by rw [abs_zero]; positivity)
    rw [if_neg hb, isInf32_iff, hs hv, decide_eq_true_iff]
    exact ⟨hn.eq_infinity (mt (overflowBound32_iff v).1 hb), Iff.rfl⟩

/-- What `roundF32` answers for a quotient of `v`'s magnitude and `v`'s sign. -/
theorem rounds32_roundF32 {v : ℝ} {neg : Bool} {n d : ℕ} (hd : 0 < d) (hs : v ≠ 0 → neg = decide (v < 0))
    (hv : |v| * 2 ^ 149 = n / d) : Rounds32 v (roundF32 neg n d) := by
  refine rounds32_of_nearest (by rwa [signF32_roundF32]) ?_
  rw [patF32_roundF32, hv]
  exact nearestPattern_roundMagnitude 23 255 n d (by norm_num) (by norm_num) (by norm_num) (by norm_num) hd

theorem rounds32_zero (neg : Bool) : Rounds32 0 (packF32 neg 0) := by
  refine rounds32_of_nearest (fun h => absurd rfl h) ?_
  rw [patF32_packF32 neg (by norm_num), abs_zero, zero_mul]
  exact nearestPattern_zero (by norm_num) le_rfl (by norm_num)

theorem IsReal32.mag_eq {a : F32} {x : ℝ} (h : IsReal32 a x) : (magF32 a : ℝ) = |x| * 2 ^ 149 :=
  mag_of_signedMag unit32_pos (by rw [← valF32_eq_signedMag]; exact h.2)

theorem IsReal32.sign_eq {a : F32} {x : ℝ} (h : IsReal32 a x) (hx : x ≠ 0) : signF32 a = decide (x < 0) :=
  sign_of_signedMag unit32_pos (by rw [← valF32_eq_signedMag]; exact h.2) hx

theorem addF32_rounds {a b : F32} {x y : ℝ} (ha : IsReal32 a x) (hb : IsReal32 b y) : Rounds32 (x + y) (addF32 a b) := by
  have hsum : ((valF32 a + valF32 b : ℤ) : ℝ) = (x + y) * 2 ^ 149 := by
    rw [Int.cast_add, ha.2, hb.2, add_mul]
  unfold addF32
  rw [not_isNaN32_of_finite ha.1, not_isNaN32_of_finite hb.1, not_isInf32_of_finite ha.1, not_isInf32_of_finite hb.1]
  simp only [Bool.or_self, Bool.false_eq_true, if_false]
  split
  · next h0 =>
    rw [h0, Int.cast_zero, zero_eq_mul, or_iff_left unit32_pos.ne'] at hsum
    rw [hsum]
    exact rounds32_zero _
  · refine rounds32_roundF32 one_pos (fun _ => ?_) ?_
    · rw [decide_eq_decide, ← Int.cast_lt_zero (R := ℝ), hsum]
      simp [mul_neg_iff, unit32_pos.not_gt]
    · rw [Nat.cast_one, div_one, Nat.cast_natAbs, Int.cast_abs, hsum, abs_mul, abs_of_pos unit32_pos]

theorem mulF32_rounds {a b : F32} {x y : ℝ} (ha : IsReal32 a x) (hb : IsReal32 b y) : Rounds32 (x * y) (mulF32 a b) := by
  unfold mulF32
  rw [not_isNaN32_of_finite ha.1, not_isNaN32_of_finite hb.1, not_isInf32_of_finite ha.1, not_isInf32_of_finite hb.1]
  simp only [Bool.or_self, Bool.false_eq_true, if_false]
  refine rounds32_roundF32 (by positivity) (fun h => ?_) ?_
  · rw [ha.sign_eq (left_ne_zero_of_mul h), hb.sign_eq (right_ne_zero_of_mul h),
      bne_decide_neg_eq_mul (left_ne_zero_of_mul h) (right_ne_zero_of_mul h)]
  · rw [Nat.cast_mul, ha.mag_eq, hb.mag_eq, abs_mul, Nat.cast_pow, Nat.cast_ofNat, eq_div_iff unit32_pos.ne',
      mul_mul_mul_comm, mul_assoc]

/-- Settles O36: the sum and the product are rounded exact magnitudes with the exact result's sign, or an exact zero sum. -/
theorem binary32RoundsOnce : Obligations.Binary32RoundsOnce := by
  intro a b x y ha hb
  exact ⟨addF32_rounds ha hb, mulF32_rounds ha hb⟩

/-! ### Conversions, `floor`, `abs` and comparisons (R11 to R13) -/

/-- A unit of binary32 is 2^925 units of binary64. -/
theorem unit64_eq : (2 : ℝ) ^ 1074 = 2 ^ 149 * 2 ^ 925 := by rw [← pow_add]

theorem f64OfF32_isReal {a : F32} {x : ℝ} (h : IsReal32 a x) : IsReal64 (f64OfF32 a) x := by
  obtain ⟨hf, hv⟩ := f64OfF32_finite h.1
  refine ⟨hf, ?_⟩
  rw [hv, Int.cast_mul, h.2, Int.cast_pow, Int.cast_ofNat, unit64_eq, mul_assoc]

theorem f32OfF64_rounds {a : F64} {x : ℝ} (h : IsReal64 a x) : Rounds32 x (f32OfF64 a) := by
  unfold f32OfF64
  rw [not_isNaN64_of_finite h.1, not_isInf64_of_finite h.1, if_neg Bool.false_ne_true, if_neg Bool.false_ne_true]
  refine rounds32_roundF32 (by positivity) h.sign_eq ?_
  rw [h.mag_eq, Nat.cast_pow, Nat.cast_ofNat, unit64_eq, ← mul_assoc, mul_div_cancel_right₀ _ (by positivity)]

/-- The model's integer `floor` is the real one. -/
theorem IsReal64.floorInt_eq {a : F64} {x : ℝ} (h : IsReal64 a x) : floorInt a = ⌊x⌋ := by
  have hx : x = (valF64 a : ℝ) / ((2 ^ 1074 : ℕ) : ℝ) := by
    rw [h.2, Nat.cast_pow, Nat.cast_ofNat, mul_div_cancel_right₀ _ unit64_pos.ne']
  rw [hx, Int.floor_div_natCast, Int.floor_intCast, Nat.cast_pow, Nat.cast_ofNat, floorInt]

theorem natAbs_ediv_mul_le {v : ℤ} {m P : ℕ} (hP : 0 < P) (hd : P ∣ m) (h : v.natAbs ≤ m) : (v / P * P).natAbs ≤ m := by
  obtain ⟨k, rfl⟩ := hd
  have hP' : (0 : ℤ) < P := by exact_mod_cast hP
  have hv : |v| ≤ k * P := by
    rw [Int.abs_eq_natAbs, mul_comm]
    exact_mod_cast h
  obtain ⟨hlow, hhigh⟩ := abs_le.1 hv
  have hlow' : -(k : ℤ) ≤ v / P := Int.le_ediv_of_mul_le hP' (by rwa [neg_mul])
  have habs : |v / P * P| ≤ k * P := abs_le.2 ⟨by nlinarith, (Int.ediv_mul_le v hP'.ne').trans hhigh⟩
  rw [Int.abs_eq_natAbs, mul_comm (k : ℤ)] at habs
  exact_mod_cast habs

/-- The largest finite magnitude is an integer, so that no `floor` of a finite value lies past it. -/
theorem finite64_floorF64 {a : F64} (h : finite64 a = true) : finite64 (floorF64 a) = true := by
  have hle : (valF64 a).natAbs ≤ magOfPattern 52 (2047 * 2 ^ 52 - 1) := by
    rw [natAbs_valF64]
    exact (magOfPattern_strictMono 52).monotone (Nat.le_sub_one_of_lt ((finite64_iff a).1 h))
  have hd : 2 ^ 1074 ∣ magOfPattern 52 (2047 * 2 ^ 52 - 1) := by
    rw [magOfPattern_largest 52 2047 (by norm_num)]
    exact Dvd.dvd.mul_left (pow_dvd_pow 2 (by norm_num)) _
  have hlt : magOfPattern 52 (2047 * 2 ^ 52 - 1) < 2 ^ 2098 := by
    rw [← magOfPattern_inf64]
    exact magOfPattern_strictMono 52 (by norm_num)
  have hval : valF64 (floorF64 a) = valF64 a / ((2 ^ 1074 : ℕ) : ℤ) * ((2 ^ 1074 : ℕ) : ℤ) := by
    rw [(floorF64_finite h).2, Nat.cast_pow, Nat.cast_ofNat, floorInt]
  rw [← magF64_lt_iff, ← natAbs_valF64, hval]
  exact (natAbs_ediv_mul_le (by positivity) hd hle).trans_lt hlt

theorem floorF64_isReal {a : F64} {x : ℝ} (h : IsReal64 a x) : IsReal64 (floorF64 a) ⌊x⌋ := by
  refine ⟨finite64_floorF64 h.1, ?_⟩
  rw [(floorF64_finite h.1).2, h.floorInt_eq, Int.cast_mul, Int.cast_pow, Int.cast_ofNat]

theorem absF64_isReal {a : F64} {x : ℝ} (h : IsReal64 a x) : IsReal64 (absF64 a) |x| :=
  ⟨by rw [finite64_absF64]; exact h.1, by rw [valF64_absF64, Int.cast_abs, h.2, abs_mul, abs_of_pos unit64_pos]⟩

theorem ofIntF64_isReal {n : ℤ} (hn : |n| ≤ 2 ^ 53) : IsReal64 (ofIntF64 n) n := by
  have hn' : n.natAbs ≤ 2 ^ 53 := by zify; exact hn
  have hab : (n * 2 ^ 1074).natAbs = n.natAbs * 2 ^ 1074 := by rw [Int.natAbs_mul, Int.natAbs_pow]; rfl
  have hle : n.natAbs * 2 ^ 1074 ≤ 2 ^ 1127 := by
    rw [show (1127 : ℕ) = 53 + 1074 from rfl, pow_add]
    exact Nat.mul_le_mul_right _ hn'
  have hval : valF64 (ofIntF64 n) = n * 2 ^ 1074 := by
    have hx := valRound64_representable 1074 one_pos hn' hab
      (hab.trans_le (hle.trans (Nat.pow_le_pow_right (by norm_num) (by norm_num))))
    rw [Nat.cast_one, mul_one] at hx
    rw [(valF64_ofIntF64 n).2, hx]
  refine ⟨?_, by rw [hval, Int.cast_mul, Int.cast_pow, Int.cast_ofNat]⟩
  rw [← magF64_lt_iff, ← natAbs_valF64, hval, hab]
  exact hle.trans_lt (Nat.pow_lt_pow_right (by norm_num) (by norm_num))

theorem ltF64_iff_real {a b : F64} {x y : ℝ} (ha : IsReal64 a x) (hb : IsReal64 b y) : ltF64 a b = true ↔ x < y := by
  rw [ltF64_iff, and_iff_right (not_isNaN64_of_finite ha.1), and_iff_right (not_isNaN64_of_finite hb.1),
    ← Int.cast_lt (R := ℝ), ha.2, hb.2, mul_lt_mul_iff_left₀ unit64_pos]

theorem leF64_iff_real {a b : F64} {x y : ℝ} (ha : IsReal64 a x) (hb : IsReal64 b y) : leF64 a b = true ↔ x ≤ y := by
  rw [leF64_iff, and_iff_right (not_isNaN64_of_finite ha.1), and_iff_right (not_isNaN64_of_finite hb.1),
    ← Int.cast_le (R := ℝ), ha.2, hb.2, mul_le_mul_iff_left₀ unit64_pos]

theorem eqF64_iff_real {a b : F64} {x y : ℝ} (ha : IsReal64 a x) (hb : IsReal64 b y) : eqF64 a b = true ↔ x = y := by
  rw [eqF64_iff, and_iff_right (not_isNaN64_of_finite ha.1), and_iff_right (not_isNaN64_of_finite hb.1),
    ← Int.cast_inj (α := ℝ), ha.2, hb.2, mul_left_inj' unit64_pos.ne']

/-- Settles O37: one lemma for each conversion, for `floor`, `abs` and small integers, and for each comparison. -/
theorem conversionsRoundOnce : Obligations.ConversionsRoundOnce :=
  ⟨fun _ _ h => f64OfF32_isReal h,
    fun _ _ h => ⟨f32OfF64_rounds h, floorF64_isReal h, absF64_isReal h⟩,
    fun _ hn => ofIntF64_isReal hn,
    fun _ _ _ _ ha hb => ⟨ltF64_iff_real ha hb, leF64_iff_real ha hb, eqF64_iff_real ha hb⟩⟩

/-! ### `exp`, `exp2` and `log2` (R12) -/

/-- From 2^1024 up a number rounds to infinity. -/
theorem rounds64_infinity {v : ℝ} (h : 2 ^ 1024 ≤ v) : Rounds64 v (infF64 false) := by
  have hb : ((2 : ℝ) ^ 54 - 1) * 2 ^ 970 ≤ v := by
    refine le_trans ?_ h
    rw [show (1024 : ℕ) = 54 + 970 from rfl, pow_add _ 54]
    exact mul_le_mul_of_nonneg_right (by norm_num) (by positivity)
  have hv : 0 ≤ v := le_trans (by positivity) h
  unfold Rounds64
  rw [abs_of_nonneg hv, if_neg hb.not_gt]
  refine ⟨by decide +kernel, ?_⟩
  rw [show signF64 (infF64 false) = false by decide +kernel]
  simp [hv]

/-- Up to 2^-1075, half the least positive value, a number rounds to zero. -/
theorem rounds64_underflow {v : ℝ} (h0 : 0 ≤ v) (h : v * 2 ^ 1075 ≤ 1) : Rounds64 v (packF64 false 0) := by
  refine rounds64_of_nearest (fun _ => ?_) ?_
  · rw [signF64_packF64 false (by norm_num), decide_eq_false h0.not_gt]
  · rw [patF64_packF64 false (by norm_num), abs_of_nonneg h0]
    refine nearestPattern_zero (by norm_num) (by positivity) ?_
    rwa [show (1075 : ℕ) = 1074 + 1 from rfl, pow_succ _ 1074, ← mul_assoc, ← le_div_iff₀ two_pos] at h

theorem two_pow_le_exp : (2 : ℝ) ^ 1280 ≤ Real.exp 1024 := by
  have h4 : (2 : ℝ) ^ 5 ≤ Real.exp 1 ^ 4 :=
    le_trans (by norm_num) (pow_le_pow_left₀ (by norm_num) (Real.exp_one_gt_d9.le) 4)
  calc (2 : ℝ) ^ 1280 = (2 ^ 5) ^ 256 := by rw [← pow_mul]
    _ ≤ (Real.exp 1 ^ 4) ^ 256 := pow_le_pow_left₀ (by positivity) h4 256
    _ = Real.exp 1024 := by rw [← pow_mul, ← Real.exp_nat_mul]; norm_num

theorem expF64_rounds {a : F64} {x : ℝ} (h : IsReal64 a x) : Rounds64 (Real.exp x) (expF64 a) := by
  by_cases hx : |x| < 1024
  · obtain ⟨hs, hn⟩ := expF64_nearest h.1 h.2 hx
    exact rounds64_of_nearest (fun _ => hs) hn
  have hx' : 1024 ≤ |x| := not_lt.1 hx
  have hx0 : x ≠ 0 := by
    rintro rfl
    norm_num at hx
  have hm : 2 ^ 1084 ≤ magF64 a := by
    have hr : (2 : ℝ) ^ 1084 ≤ magF64 a := by
      rw [h.mag_eq, show (1084 : ℕ) = 10 + 1074 from rfl, pow_add _ 10]
      exact mul_le_mul_of_nonneg_right (le_trans (by norm_num) hx') unit64_pos.le
    exact_mod_cast hr
  unfold expF64
  rw [not_isNaN64_of_finite h.1, if_neg Bool.false_ne_true, if_pos hm, h.sign_eq hx0]
  by_cases hneg : x < 0
  · rw [if_pos (decide_eq_true hneg)]
    refine rounds64_underflow (Real.exp_pos x).le ?_
    rw [abs_of_neg hneg] at hx'
    calc Real.exp x * 2 ^ 1075 ≤ Real.exp x * Real.exp 1024 := by
          refine mul_le_mul_of_nonneg_left (le_trans ?_ two_pow_le_exp) (Real.exp_pos x).le
          exact pow_le_pow_right₀ (by norm_num) (by norm_num)
      _ = Real.exp (x + 1024) := (Real.exp_add _ _).symm
      _ ≤ 1 := Real.exp_le_one_iff.2 (by linarith)
  · rw [if_neg (by simpa using hneg)]
    rw [abs_of_nonneg (not_lt.1 hneg)] at hx'
    refine rounds64_infinity (le_trans ?_ (two_pow_le_exp.trans (Real.exp_le_exp.2 hx')))
    exact pow_le_pow_right₀ (by norm_num) (by norm_num)

/-- Settles O38: within 1024 by the enclosures' nearest pattern, past it by overflow or underflow. -/
theorem expIsCorrectlyRounded : Obligations.ExpIsCorrectlyRounded := fun _ _ h => expF64_rounds h

theorem exp2F64_rounds {a : F64} {x : ℝ} (h : IsReal64 a x) : Rounds64 ((2 : ℝ) ^ x) (exp2F64 a) := by
  have hnan := not_isNaN64_of_finite h.1
  by_cases hover : 1024 ≤ floorInt a
  · unfold exp2F64
    rw [hnan, if_neg Bool.false_ne_true, if_pos hover]
    rw [h.floorInt_eq, Int.le_floor] at hover
    refine rounds64_infinity ?_
    rw [← Real.rpow_natCast]
    exact Real.rpow_le_rpow_of_exponent_le (by norm_num) (by exact_mod_cast hover)
  by_cases hunder : floorInt a < -1100
  · unfold exp2F64
    rw [hnan, if_neg Bool.false_ne_true, if_neg hover, if_pos hunder]
    rw [h.floorInt_eq, Int.floor_lt] at hunder
    refine rounds64_underflow (by positivity) ?_
    rw [← Real.rpow_natCast, ← Real.rpow_add two_pos]
    push_cast at hunder ⊢
    exact Real.rpow_le_one_of_one_le_of_nonpos (by norm_num) (by linarith)
  · obtain ⟨hs, hn⟩ := exp2F64_nearest hnan h.2 (not_lt.1 hunder) (not_le.1 hover)
    exact rounds64_of_nearest (fun _ => hs) hn

/-- Settles O39: in the range of the exponents by the enclosures' nearest pattern, outside by overflow or underflow. -/
theorem exp2IsCorrectlyRounded : Obligations.Exp2IsCorrectlyRounded := fun _ _ h => exp2F64_rounds h

/-- At a power of two the logarithm is an integer of binary64. -/
theorem log2F64_two_pow {a : F64} {x : ℝ} (h : IsReal64 a x) (hx : 0 < x) {m : ℕ} (hm : m = bitLog 13 (magF64 a))
    (hp : magF64 a = 2 ^ m) : IsReal64 (log2F64 a) (Real.logb 2 x) := by
  have hlt : m < 2098 := by
    have hfin := (magF64_lt_iff a).2 h.1
    rw [hp] at hfin
    exact (Nat.pow_lt_pow_iff_right (by norm_num)).1 hfin
  have hlog : Real.logb 2 x = ((m - 1074 : ℤ) : ℝ) := by
    have hx2 : x = 2 ^ m / 2 ^ 1074 := by
      have hr := h.mag_eq
      rw [hp, abs_of_pos hx, Nat.cast_pow, Nat.cast_ofNat] at hr
      rw [hr, mul_div_cancel_right₀ _ unit64_pos.ne']
    rw [hx2, Real.logb_div (by positivity) (by positivity), Real.logb_pow, Real.logb_pow,
      Real.logb_self_eq_one (by norm_num)]
    push_cast
    ring
  have hval : log2F64 a = ofIntF64 (m - 1074) := by
    unfold log2F64
    rw [not_isNaN64_of_finite h.1, if_neg Bool.false_ne_true, if_neg (by rw [hp]; positivity), h.sign_eq hx.ne',
      decide_eq_false hx.not_gt, if_neg Bool.false_ne_true, not_isInf64_of_finite h.1, if_neg Bool.false_ne_true,
      ← hm, if_pos hp]
  rw [hval, hlog]
  exact ofIntF64_isReal (abs_le.2 ⟨by omega, by omega⟩)

theorem log2F64_rounds {a : F64} {x : ℝ} (h : IsReal64 a x) (hx : 0 < x) : Rounds64 (Real.logb 2 x) (log2F64 a) := by
  by_cases hp : magF64 a = 2 ^ bitLog 13 (magF64 a)
  · exact (log2F64_two_pow h hx rfl hp).rounds
  · obtain ⟨hs, hn⟩ := log2F64_nearest h.1 h.2 hx hp
    exact rounds64_of_nearest (fun _ => hs) hn

/-- Settles O40: exact at a power of two, elsewhere by the enclosures' nearest pattern. -/
theorem log2IsCorrectlyRounded : Obligations.Log2IsCorrectlyRounded := fun _ _ h hx => log2F64_rounds h hx

/-! ### The rate rule (R92) -/

theorem leF64_minSampleRate_iff (r : F64) :
    leF64 Config.minSampleRate r = true ↔ isNaN64 r = false ∧ 2 ^ 1074 ≤ valF64 r := by
  rw [leF64_iff, valF64_minSampleRate, and_iff_right (by decide)]

theorem ltF64_maxSampleRate_iff (r : F64) :
    ltF64 Config.maxSampleRate r = true ↔ isNaN64 r = false ∧ 192000 * 2 ^ 1074 < valF64 r := by
  rw [ltF64_iff, valF64_maxSampleRate, and_iff_right (by decide)]

theorem sanitiseRate_low {r : F64} (h : isNaN64 r = true ∨ valF64 r < 2 ^ 1074) : sanitiseRate r = Config.minSampleRate := by
  have hle : leF64 Config.minSampleRate r = false := by
    rw [Bool.eq_false_iff, Ne, leF64_minSampleRate_iff]
    rintro ⟨hn, hv⟩
    rcases h with h | h
    · exact Bool.false_ne_true (hn.symm.trans h)
    · exact h.not_ge hv
  unfold sanitiseRate
  rw [hle]
  rfl

theorem sanitiseRate_high {r : F64} (hn : isNaN64 r = false) (h : 192000 * 2 ^ 1074 < valF64 r) :
    sanitiseRate r = Config.maxSampleRate := by
  have hle : leF64 Config.minSampleRate r = true := by
    refine (leF64_minSampleRate_iff r).2 ⟨hn, le_trans ?_ h.le⟩
    exact le_mul_of_one_le_left (by positivity) (by norm_num)
  unfold sanitiseRate
  rw [hle, (ltF64_maxSampleRate_iff r).2 ⟨hn, h⟩]
  rfl

theorem sanitiseRate_inRange {r : F64} (h : RateRange r) : sanitiseRate r = r := by
  obtain ⟨hn, hlow, hhigh⟩ := h
  have hlt : ltF64 Config.maxSampleRate r = false := by
    rw [Bool.eq_false_iff, Ne, ltF64_maxSampleRate_iff]
    exact fun hc => hc.2.not_ge hhigh
  unfold sanitiseRate
  rw [(leF64_minSampleRate_iff r).2 ⟨hn, hlow⟩, hlt]
  rfl

/-- Settles O15, by the three ranges of a rate. -/
theorem sanitiseRateClamps : Obligations.SanitiseRateClamps :=
  fun _ => ⟨sanitiseRate_low, sanitiseRate_high, sanitiseRate_inRange⟩

end Sys2Proof.Machine

/-! PROOFS. The state and its steps (10_state.md R17 to R43): what a command may write, the register window and its words of
named bits, how a command word decodes, and who writes the published pair. -/

namespace Sys2Proof.Machine

/-! ### What a command may write (R24 to R28) -/

/-- `s` with the fields that the command `i` may write taken from `t`. -/
def overlay (i : Instr) (s t : State) : State :=
  match i with
  | .detPrepare => ((s.withAcfg t.acfg).withDet t.det).withQueue t.queue
  | .detFeed => (((s.withDet t.det).withQueue t.queue).withSticky t.sticky).withDraws t.draws
  | .detGetResult => (s.withRes0 t.res0).withRes1 t.res1
  | .oscPrepare | .oscSetFreq | .oscSetWave _ => s.withOsc t.osc
  | .oscNext => (s.withRes0 t.res0).withOsc t.osc
  | .smoPrepare | .smoSetAmount | .smoSetSens => s.withSmo t.smo
  | .smoProcess => (s.withSmo t.smo).withRes0 t.res0
  | .decReset => s.withDec t.dec
  | .decProcess => (s.withDec t.dec).withRes0 t.res0
  | .decGetOutput => s.withRes0 t.res0

/-- `t` differs from `s` at most in what the command `i` may write. -/
def Writes (i : Instr) (s t : State) : Prop := t = overlay i s t

/-- A sample that leaves the input path changes the detector, the queue, Q_OVERFLOW and the count of passes alone (R94). -/
theorem acceptSample_writes (s : State) (v : F32) : Writes .detFeed s (acceptSample s v) := by
  rcases acceptSample_cases s v with ⟨-, -, h⟩ | ⟨-, -, h⟩ | ⟨-, h⟩
  · rw [h]; rfl
  · rw [h]; rfl
  · rcases insertSync_cases s v with ⟨-, h'⟩ | ⟨-, h'⟩ <;> rw [h, h'] <;> rfl

theorem feedSample_writes (s : State) (x : F32) : Writes .detFeed s (feedSample s x) := by
  rcases feedSample_cases s x with ⟨-, h⟩ | ⟨-, -, h⟩ | ⟨-, -, h⟩
  · rw [h]; exact acceptSample_writes s x
  · rw [h]; rfl
  · rw [h]; exact acceptSample_writes (s.withDet _) _

/-- SMO.PROCESS on a valid estimate, and on any other (R160). -/
theorem exec_smoProcess_cases {s t : State} (h : exec .smoProcess s = .next t) :
    (smootherValid (f64OfF32 s.arg1) (f64OfF32 s.arg2) s.smo.thr = true ∧
        ∃ u, t = (s.withSmo (smootherUpdate s.smo (log2F64 (f64OfF32 s.arg1)))).withRes0 u) ∨ ∃ u, t = s.withRes0 u := by
  change execSmoProcess s = .next t at h
  unfold execSmoProcess at h
  dsimp only at h
  split at h
  · next hv => exact .inl ⟨hv, _, (Host.Outcome.next.inj h).symm⟩
  · exact .inr ⟨_, (Host.Outcome.next.inj h).symm⟩

/-- Every command writes only what it may. -/
theorem writes_of_exec {i : Instr} {s t : State} (h : exec i s = .next t) : Writes i s t := by
  cases i
  case smoProcess => rcases exec_smoProcess_cases h with ⟨-, u, rfl⟩ | ⟨u, rfl⟩ <;> rfl
  case detFeed =>
    obtain rfl := Host.Outcome.next.inj h
    exact feedSample_writes s _
  all_goals
    obtain rfl := Host.Outcome.next.inj h
    rfl

/-- UNIT of a command's word, written out from R77. -/
def unitOf : Instr → BitVec 4
  | .detPrepare | .detFeed | .detGetResult => 0x1#4
  | .oscPrepare | .oscSetFreq | .oscSetWave _ | .oscNext => 0x2#4
  | .smoPrepare | .smoSetAmount | .smoSetSens | .smoProcess => 0x3#4
  | .decReset | .decProcess | .decGetOutput => 0x4#4

theorem unitField_encode (i : Instr) : unitField (encode i) = unitOf i := by
  cases i with
  | oscSetWave w => cases w <;> decide
  | _ => decide

section frames
variable {i : Instr} {s t : State}

theorem Writes.keeps_registers (h : Writes i s t) :
    t.arg0Lo = s.arg0Lo ∧ t.arg0Hi = s.arg0Hi ∧ t.arg1 = s.arg1 ∧ t.arg2 = s.arg2 ∧ t.cmd = s.cmd ∧ t.ctrl = s.ctrl ∧
      t.rdata = s.rdata ∧ t.inbox = s.inbox := by
  cases i
  all_goals exact ⟨(congrArg State.arg0Lo h :), (congrArg State.arg0Hi h :), (congrArg State.arg1 h :),
    (congrArg State.arg2 h :), (congrArg State.cmd h :), (congrArg State.ctrl h :), (congrArg State.rdata h :), (congrArg State.inbox h :)⟩

theorem Writes.keeps_detector (h : Writes i s t) (hp : i ≠ .detPrepare) (hf : i ≠ .detFeed) :
    t.det = s.det ∧ t.queue = s.queue ∧ t.acfg = s.acfg ∧ t.draws = s.draws ∧ t.sticky = s.sticky := by
  cases i
  case detPrepare => exact absurd rfl hp
  case detFeed => exact absurd rfl hf
  all_goals exact ⟨(congrArg State.det h :), (congrArg State.queue h :), (congrArg State.acfg h :), (congrArg State.draws h :),
    (congrArg State.sticky h :)⟩

theorem Writes.keeps_osc (h : Writes i s t) (hu : unitOf i ≠ 0x2#4) : t.osc = s.osc := by
  cases i
  case oscPrepare | oscSetFreq | oscSetWave | oscNext => exact absurd rfl hu
  all_goals exact (congrArg State.osc h :)

theorem Writes.keeps_smo (h : Writes i s t) (hu : unitOf i ≠ 0x3#4) : t.smo = s.smo := by
  cases i
  case smoPrepare | smoSetAmount | smoSetSens | smoProcess => exact absurd rfl hu
  all_goals exact (congrArg State.smo h :)

theorem Writes.keeps_dec (h : Writes i s t) (hu : unitOf i ≠ 0x4#4) : t.dec = s.dec := by
  cases i
  case decReset | decProcess | decGetOutput => exact absurd rfl hu
  all_goals exact (congrArg State.dec h :)

theorem Writes.keeps_res0 (h : Writes i s t)
    (hi : i ∉ [.detGetResult, .oscNext, .smoProcess, .decProcess, .decGetOutput]) : t.res0 = s.res0 := by
  cases i
  case detGetResult | oscNext | smoProcess | decProcess | decGetOutput => exact absurd (by simp) hi
  all_goals exact (congrArg State.res0 h :)

theorem Writes.keeps_res1 (h : Writes i s t) (hi : i ≠ .detGetResult) : t.res1 = s.res1 := by
  cases i
  case detGetResult => exact absurd rfl hi
  all_goals exact (congrArg State.res1 h :)

end frames

/-- Settles O54: each command writes only what `Writes` lists for it. -/
theorem commandsKeepWhatTheyDoNotWrite : Obligations.CommandsKeepWhatTheyDoNotWrite := by
  intro i s t h
  have hw := writes_of_exec h
  rw [unitField_encode]
  exact ⟨hw.keeps_registers, hw.keeps_detector, hw.keeps_osc, hw.keeps_smo, hw.keeps_dec, hw.keeps_res0, hw.keeps_res1⟩

/-! ### The events of the schedule (R22, R50, R57) -/

/-- The step of the state in which `e` comes next performs `e`. -/
theorem stepOn_eq (e : Event) (s : State) : stepOn e s = performEvent e s := step_event _ e s.inbox rfl

theorem hostAccess_read {off : Offset} (s : State) (h : accessFailure (.read off 4) = none) :
    hostAccess (.read off 4) s = .next (s.withRdata (readRegister s off.toNat)) := by
  unfold hostAccess
  rw [h]

theorem hostAccess_write {off : Offset} (s : State) (v : Word) (h : accessFailure (.write off (bytesOfWord v)) = none) :
    hostAccess (.write off (bytesOfWord v)) s = writeRegister s off.toNat v := by
  unfold hostAccess
  rw [h, ← wordOfList_bytesOfWord v]
  simp only [wordOfList_bytesOfWord]

theorem stepOn_read {off : Offset} (s : State) (h : accessFailure (.read off 4) = none) :
    stepOn (.host (.read off 4)) s = .next (s.withRdata (readRegister s off.toNat)) :=
  (stepOn_eq _ s).trans (hostAccess_read s h)

theorem stepOn_write {off : Offset} (s : State) (v : Word) (h : accessFailure (.write off (bytesOfWord v)) = none) :
    stepOn (.host (.write off (bytesOfWord v))) s = writeRegister s off.toNat v :=
  (stepOn_eq _ s).trans (hostAccess_write s v h)

/-- Settles O7: each of the thirteen offsets passes the checks of R186, and `readRegister` gives its register. -/
theorem legalReadAnswersTheRegister : Obligations.LegalReadAnswersTheRegister := by
  intro s
  refine ⟨?_, ?_, ?_, ?_, ?_, ?_, ?_, ?_, ?_, ?_, ?_, ?_, ?_⟩
  all_goals exact stepOn_read s (by decide)

theorem runCommand_decoded {c : Word} {i : Instr} (s : State) (h : decode c = .ok i) :
    runCommand c s = exec i (s.withCmd c) := by
  unfold runCommand
  rw [h]

theorem stepOn_commandWrite {c : Word} {i : Instr} (s : State) (h : decode c = .ok i) :
    stepOn (commandWrite (bytesOfWord c)) s = exec i (s.withCmd c) :=
  (stepOn_write s c rfl).trans (runCommand_decoded s h)

/-- `withFetchWord` places the write of the word to CMD in front of the schedule. -/
theorem step_withFetchWord (s : State) (c : Word) :
    step (s.withFetchWord 32 c.toNat) = stepOn (commandWrite (bytesOfWord c)) s := by
  have hb : tableWordBytes 32 c.toNat = bytesOfWord c := by
    rw [tableWordBytes, Nat.mod_eq_of_lt c.isLt, BitVec.ofNat_toNat, BitVec.setWidth_eq]
  unfold State.withFetchWord stepOn
  rw [hb]

/-- Settles O4: the write to CMD passes the checks and runs the decoded command. -/
theorem stepRunsTheDecodedCommand : Obligations.StepRunsTheDecodedCommand := fun s c _ h =>
  ⟨stepOn_commandWrite s h, (step_withFetchWord s c).trans (stepOn_commandWrite s h)⟩

/-! ### The words of named bits (R30, R31, R106) -/

theorem getLsbD_bitAt (b : Bool) {j : Nat} (hj : j < 32) (k : Nat) : (bitAt b j).getLsbD k = (b && decide (k = j)) := by
  unfold bitAt
  cases b
  · simp
  · simp only [if_true, Bool.true_and, BitVec.getLsbD_ofNat, Nat.testBit_two_pow]
    by_cases h : k = j
    · simp [h, hj]
    · simp [h, Ne.symm h]

/-- Five named bits, read back one by one; no other bit is set. -/
theorem getLsbD_namedBits (b0 b1 b2 b3 b4 : Bool) (k : Nat) :
    (bitAt b0 0 ||| bitAt b1 1 ||| bitAt b2 2 ||| bitAt b3 3 ||| bitAt b4 4).getLsbD k =
      match k with | 0 => b0 | 1 => b1 | 2 => b2 | 3 => b3 | 4 => b4 | _ => false := by
  simp only [BitVec.getLsbD_or, getLsbD_bitAt _ (show 0 < 32 by decide), getLsbD_bitAt _ (show 1 < 32 by decide),
    getLsbD_bitAt _ (show 2 < 32 by decide), getLsbD_bitAt _ (show 3 < 32 by decide), getLsbD_bitAt _ (show 4 < 32 by decide)]
  rcases k with _ | _ | _ | _ | _ | k <;> simp

theorem ctrlWord_bits (c : Ctrl) :
    (ctrlWord c).getLsbD 0 = c.fallbackEn ∧ (ctrlWord c).getLsbD 1 = c.decimEn ∧ (ctrlWord c).getLsbD 2 = c.asyncEn ∧
      (ctrlWord c).getLsbD 3 = c.diffFft ∧ (ctrlWord c).getLsbD 4 = c.run ∧ ∀ k, 5 ≤ k → (ctrlWord c).getLsbD k = false := by
  have h := getLsbD_namedBits c.fallbackEn c.decimEn c.asyncEn c.diffFft c.run
  refine ⟨h 0, h 1, h 2, h 3, h 4, fun k hk => ?_⟩
  obtain ⟨k, rfl⟩ := Nat.exists_eq_add_of_le' hk
  exact h (k + 5)

/-- Settles O8: each of the six offsets passes the checks, `writeRegister` stores the value, and CTRL's word holds its bits. -/
theorem legalWriteStoresTheValue : Obligations.LegalWriteStoresTheValue := by
  intro s v
  refine ⟨?_, ?_, ?_, ?_, ?_, ?_, ctrlWord_bits⟩
  all_goals exact stepOn_write s v rfl

/-- R106's formula: the engine has no enabled step in synchronous mode, or when it is ready and has nothing to drain. -/
theorem engineIdle_formula (s : State) : engineIdle s = true ↔
    s.acfg.asyncEn = false ∨ (s.det.estate = .ready ∧ (s.queue.n = 0 ∨ s.ctrl.run = false)) := by
  rw [engineIdle_iff, ← Bool.not_eq_true, ← Bool.not_eq_true, drainEnabled_iff, publishEnabled_iff]
  cases s.acfg.asyncEn <;> cases s.det.estate <;> cases s.ctrl.run <;> simp

/-- Settles O9: STATUS is a word of five named bits, the fifth by R106's formula. -/
theorem statusBits : Obligations.StatusBits := by
  intro s
  have h := getLsbD_namedBits s.sticky.errCmd s.sticky.errAccess s.sticky.qOverflow s.det.filled (engineIdle s)
  refine ⟨h 0, h 1, h 2, h 3, ?_, fun k hk => ?_⟩
  · rw [← engineIdle_formula, show (statusWord s).getLsbD 4 = engineIdle s from h 4]
  · obtain ⟨k, rfl⟩ := Nat.exists_eq_add_of_le' hk
    exact h (k + 5)

/-! ### A decoded word is the encoded command (R70, R77, R81) -/

/-- A word is its four fields. -/
theorem word_fields (c : Word) : unitField c ++ opField c ++ rsvField c ++ waveField c = c := by
  unfold unitField opField rsvField waveField
  rw [BitVec.extractLsb'_append_extractLsb'_eq_extractLsb' (by norm_num),
    BitVec.extractLsb'_append_extractLsb'_eq_extractLsb' (by norm_num),
    BitVec.extractLsb'_append_extractLsb'_eq_extractLsb' (by norm_num)]
  exact BitVec.extractLsb'_eq_self

theorem eq_ofNat_of_toNat {u : BitVec 4} {n : Nat} (h : u.toNat = n) : u = BitVec.ofNat 4 n := by
  rw [← h, BitVec.ofNat_toNat, BitVec.setWidth_eq]

/-- A row of the command map, with a waveform only where the command takes one, is packed as the command is encoded. -/
theorem packCommand_of_select {u o : BitVec 4} {w : BitVec 2} {i : Instr} (h : selectCommand u o w = some i)
    (hw : w = 0#2 ∨ usesWave i = true) : packCommand u o w = encode i := by
  unfold selectCommand at h
  split at h
  case h_15 => exact nomatch h
  all_goals
    rename_i hu ho
    rw [eq_ofNat_of_toNat hu, eq_ofNat_of_toNat ho]
    obtain rfl := Option.some.inj h
  case h_6 =>
    clear hw h
    revert w
    decide
  all_goals
    rw [hw.resolve_right Bool.false_ne_true]
    rfl

/-- The tests of R70 leave only the word that the command is encoded as. -/
theorem eq_encode_of_decode {c : Word} {i : Instr} (h : decode c = .ok i) : c = encode i := by
  unfold decode at h
  split at h
  · exact nomatch h
  next j hj =>
  split at h
  · exact nomatch h
  next hr =>
  split at h
  · exact nomatch h
  next hw =>
  obtain rfl := Except.ok.inj h
  have hw' : waveField c = 0#2 ∨ usesWave j = true := by
    rw [Bool.and_eq_true, not_and_or] at hw
    simpa using hw
  rw [← packCommand_of_select hj hw', packCommand, ← not_not.1 hr, word_fields]

theorem bytesOfWord_wordOfBytes (b0 b1 b2 b3 : Byte) : bytesOfWord (wordOfBytes b0 b1 b2 b3) = [b0, b1, b2, b3] := by
  have h0 : (b3 ++ b2 ++ b1 ++ b0).extractLsb' 0 8 = b0 := BitVec.extractLsb'_append_eq_right
  have h1 : (b3 ++ b2 ++ b1 ++ b0).extractLsb' 8 8 = b1 :=
    (BitVec.extractLsb'_append_eq_of_le le_rfl).trans BitVec.extractLsb'_append_eq_right
  have h2 : (b3 ++ b2 ++ b1 ++ b0).extractLsb' 16 8 = b2 :=
    (BitVec.extractLsb'_append_eq_of_le (by norm_num)).trans
      ((BitVec.extractLsb'_append_eq_of_le le_rfl).trans BitVec.extractLsb'_append_eq_right)
  have h3 : (b3 ++ b2 ++ b1 ++ b0).extractLsb' 24 8 = b3 :=
    (BitVec.extractLsb'_append_eq_of_le (by norm_num)).trans
      ((BitVec.extractLsb'_append_eq_of_le (by norm_num)).trans BitVec.extractLsb'_append_eq_left)
  exact congrArg₂ List.cons h0 (congrArg₂ List.cons h1 (congrArg₂ List.cons h2 (congrArg₂ List.cons h3 rfl)))

/-- Four bytes are those of the word they make (R46). -/
theorem bytesOfWord_wordOfList {bytes : List Byte} (h : bytes.length = 4) : bytesOfWord (wordOfList bytes) = bytes := by
  match bytes, h with
  | [b0, b1, b2, b3], _ => exact bytesOfWord_wordOfBytes b0 b1 b2 b3

/-- A legal write at offset 0 whose word decodes is the host's write of that command. -/
theorem write_eq_commandWrite {off : Offset} {bytes : List Byte} {i : Instr} (hf : accessFailure (.write off bytes) = none)
    (ho : off.toNat = 0) (hd : decode (wordOfList bytes) = .ok i) :
    Event.host (.write off bytes) = commandWrite (encodeBytes i) := by
  obtain ⟨hlen, -⟩ := (firstFailure_eq_none true off.toNat bytes.length).1 hf
  obtain rfl : off = 0x00#8 := BitVec.eq_of_toNat_eq ho
  rw [encodeBytes, ← eq_encode_of_decode hd, bytesOfWord_wordOfList hlen]
  rfl

/-! ### Who writes the published pair (R29) -/

/-- The published pair is the same in both states. -/
def SamePair (s t : State) : Prop := t.det.pubFreq = s.det.pubFreq ∧ t.det.pubConf = s.det.pubConf

/-- In asynchronous mode a sample is pushed or dropped, so that no pass runs (R94). -/
theorem acceptSample_samePair {s : State} (v : F32) (ha : s.acfg.asyncEn = true) : SamePair s (acceptSample s v) := by
  rcases acceptSample_cases s v with ⟨-, -, h⟩ | ⟨-, -, h⟩ | ⟨hc, -⟩
  · rw [h]; exact ⟨rfl, rfl⟩
  · rw [h]; exact ⟨rfl, rfl⟩
  · exact absurd (ha.symm.trans hc) Bool.noConfusion

theorem feedSample_samePair {s : State} (x : F32) (ha : s.acfg.asyncEn = true) : SamePair s (feedSample s x) := by
  rcases feedSample_cases s x with ⟨-, h⟩ | ⟨-, -, h⟩ | ⟨-, -, h⟩
  · rw [h]; exact acceptSample_samePair x ha
  · rw [h]; exact ⟨rfl, rfl⟩
  · rw [h]; exact acceptSample_samePair (s := s.withDet _) _ ha

theorem exec_published_cases {i : Instr} {s t : State} (h : exec i s = .next t) :
    SamePair s t ∨ (i = .detPrepare ∧ t.det.pubFreq = 0x00000000#32 ∧ t.det.pubConf = 0x00000000#32) ∨
      (i = .detFeed ∧ s.acfg.asyncEn = false) := by
  by_cases hp : i = .detPrepare
  · subst hp
    obtain rfl := Host.Outcome.next.inj h
    exact .inr (.inl ⟨rfl, rfl, rfl⟩)
  by_cases hf : i = .detFeed
  · subst hf
    obtain rfl := Host.Outcome.next.inj h
    cases ha : s.acfg.asyncEn
    · exact .inr (.inr ⟨rfl, rfl⟩)
    · exact .inl (feedSample_samePair _ ha)
  · obtain ⟨hdet, -⟩ := (writes_of_exec h).keeps_detector hp hf
    exact .inl ⟨by rw [hdet], by rw [hdet]⟩

/-- Settles O55: of the events, the engine's turn and the reset stand in the statement; an access changes the pair only by a
command, and of the commands only DET.PREPARE and a synchronous DET.FEED do. -/
theorem publishedPairIsWrittenOnlyByAPublish : Obligations.PublishedPairIsWrittenOnlyByAPublish := by
  intro s t e h
  rw [stepOn_eq] at h
  rcases performEvent_cases h with ⟨a, rfl, ha⟩ | ⟨rfl, -⟩ | ⟨rfl, rfl⟩
  · rcases hostAccess_cases ha with rfl | rfl | ⟨off, rfl⟩ | ⟨off, bytes, rfl, hf, hw⟩
    iterate 3 exact .inl ⟨rfl, rfl⟩
    rcases writeRegister_cases hw with ⟨ho, hc⟩ | rfl | rfl | rfl | rfl | rfl | rfl | rfl
    · rcases runCommand_cases hc with ⟨i, hd, hi⟩ | ⟨-, rfl⟩
      · rw [write_eq_commandWrite hf ho hd]
        rcases exec_published_cases hi with hsame | ⟨rfl, hfreq, hconf⟩ | ⟨rfl, hasync⟩
        · exact .inl hsame
        · exact .inr (.inr (.inl ⟨hfreq, hconf, .inr rfl⟩))
        · exact .inr (.inr (.inr ⟨hasync, rfl⟩))
      · exact .inl ⟨rfl, rfl⟩
    all_goals exact .inl ⟨rfl, rfl⟩
  · exact .inr (.inl rfl)
  · exact .inr (.inr (.inl ⟨rfl, rfl, .inl rfl⟩))

end Sys2Proof.Machine

/-! PROOFS. The range of the oscillator (10_state.md R39; 42_oscillator.md R146), kept by every step. -/

namespace Sys2Proof.Machine

/-! ### Rates and increments -/

theorem rateRange_sanitiseRate (r : F64) : RateRange (sanitiseRate r) := by
  rcases sanitiseRate_cases r with ⟨h, -⟩ | ⟨h, -, -⟩ | ⟨h, hle, hlt⟩ <;> rw [h]
  · exact ⟨by decide, valF64_minSampleRate.ge, by rw [valF64_minSampleRate]; norm_num⟩
  · exact ⟨by decide, by rw [valF64_maxSampleRate]; norm_num, valF64_maxSampleRate.le⟩
  · obtain ⟨hn, hlow⟩ := (leF64_minSampleRate_iff r).1 hle
    refine ⟨hn, hlow, not_lt.1 fun hc => ?_⟩
    rw [(ltF64_maxSampleRate_iff r).2 ⟨hn, hc⟩] at hlt
    exact Bool.noConfusion hlt

theorem RateRange.pos {r : F64} (h : RateRange r) : 0 < valF64 r := lt_of_lt_of_le (by positivity) h.2.1

/-- A value from 0 to the highest rate is finite. -/
theorem finite64_of_le_maxRate {a : F64} (h0 : 0 ≤ valF64 a) (h1 : valF64 a ≤ 192000 * 2 ^ 1074) : finite64 a = true := by
  refine finite64_of_val (m := 1092) (by norm_num) ?_
  rw [abs_of_nonneg h0]
  calc valF64 a ≤ 192000 * 2 ^ 1074 := h1
    _ ≤ 2 ^ 18 * 2 ^ 1074 := mul_le_mul_of_nonneg_right (by norm_num) (by positivity)
    _ = 2 ^ 1092 := by rw [← pow_add]

theorem RateRange.finite {r : F64} (h : RateRange r) : finite64 r = true := finite64_of_le_maxRate h.pos.le h.2.2

/-- Dividing by at least 1.0 leaves the bound of the dividend. -/
theorem abs_divF64_le {a b : F64} {e : ℕ} (he : e ≤ 2098) (ha : finite64 a = true) (hb : finite64 b = true)
    (hab : |valF64 a| ≤ 2 ^ e) (h1 : 2 ^ 1074 ≤ valF64 b) : |valF64 (divF64 a b)| ≤ 2 ^ e := by
  have hpos : 0 < valF64 b := lt_of_lt_of_le (by positivity) h1
  have hd : ((valF64 b).natAbs : ℤ) = valF64 b := Int.natAbs_of_nonneg hpos.le
  rw [(divF64_finite ha hb hpos.ne').2, Int.sign_eq_one_of_pos hpos, mul_one]
  refine valRound64_abs_le (Int.natAbs_pos.2 hpos.ne') he ?_
  rw [hd, abs_mul, abs_of_pos (a := (2 : ℤ) ^ 1074) (by positivity)]
  exact mul_le_mul hab h1 (by positivity) (by positivity)

theorem finite64_phaseIncrement {f : F32} {r : F64} (hf : finite32 f = true) (hr : RateRange r) :
    finite64 (phaseIncrement f r) = true := by
  obtain ⟨hfin, hval⟩ := f64OfF32_finite hf
  refine finite64_of_val (m := 277 + 925) (by norm_num) (abs_divF64_le (by norm_num) hfin hr.finite ?_ hr.2.1)
  rw [hval, abs_mul, abs_of_pos (a := (2 : ℤ) ^ 925) (by positivity), pow_add]
  exact mul_le_mul_of_nonneg_right (abs_valF32_lt hf).le (by positivity)

/-! ### The phase (R146) -/

theorem PhaseRange.finite {p : F64} (h : PhaseRange p) : finite64 p = true := by
  obtain ⟨-, hs, hlt⟩ := h
  refine finite64_of_val (m := 1074) (by norm_num) ?_
  have hv : valF64 p = magF64 p := by rw [valF64_eq, hs]; simp
  rw [abs_of_nonneg ((Int.natCast_nonneg _).trans_eq hv.symm)]
  exact hlt.le

theorem phaseRange_zero : PhaseRange zeroF64 := by
  refine ⟨by decide, by decide, ?_⟩
  rw [valF64_zeroF64]
  positivity

/-- A sum below the overflow bound is finite. -/
theorem finite64_addF64 {a b : F64} (ha : finite64 a = true) (hb : finite64 b = true)
    (h : (valF64 a + valF64 b).natAbs < overflowBound 52 2047) : finite64 (addF64 a b) = true := by
  unfold addF64
  rw [not_isNaN64_of_finite ha, not_isNaN64_of_finite hb, not_isInf64_of_finite ha, not_isInf64_of_finite hb]
  simp only [Bool.or_self, Bool.false_eq_true, if_false]
  split
  · exact (isReal64_zero _).1
  · rw [finite64_iff, patF64_roundF64,
      roundMagnitude_lt_iff 52 2047 _ 1 (by norm_num) le_rfl (by norm_num) (by norm_num) one_pos, mul_one]
    exact h

/-- A phase added to a finite increment does not overflow: it is below half a unit of the largest finite value. -/
theorem finite64_addF64_phase {p a : F64} (hp : PhaseRange p) (ha : finite64 a = true) : finite64 (addF64 p a) = true := by
  refine finite64_addF64 hp.finite ha ?_
  have hmag : magF64 a ≤ (2 ^ 53 - 1) * 2 ^ 2045 := by
    rw [← magOfPattern_largest 52 2047 (by norm_num)]
    exact (magOfPattern_strictMono 52).monotone (Nat.le_sub_one_of_lt ((finite64_iff a).1 ha))
  have hphase : magF64 p < 2 ^ 2044 := by
    have h := hp.2.2
    rw [valF64_eq, hp.2.1] at h
    have h' : magF64 p < 2 ^ 1074 := by exact_mod_cast (one_mul (magF64 p : ℤ)) ▸ h
    exact h'.trans (Nat.pow_lt_pow_right (by norm_num) (by norm_num))
  calc (valF64 p + valF64 a).natAbs ≤ magF64 p + magF64 a := by
        rw [← natAbs_valF64 p, ← natAbs_valF64 a]; exact Int.natAbs_add_le _ _
    _ < 2 ^ 2044 + (2 ^ 53 - 1) * 2 ^ 2045 := Nat.add_lt_add_of_lt_of_le hphase hmag
    _ = overflowBound 52 2047 := by
        rw [overflowBound, show 2047 - 3 = 2044 from rfl, pow_succ 2 2044]
        generalize 2 ^ 2044 = u
        omega

theorem signF64_floorF64_of_zero {q : F64} (hq : finite64 q = true) (h : valF64 (floorF64 q) = 0) :
    signF64 (floorF64 q) = signF64 q := by
  have hz : floorInt q = 0 := by
    rw [(floorF64_finite hq).2] at h
    exact (mul_eq_zero.1 h).resolve_right (by positivity)
  unfold floorF64
  rw [hq, hz]
  exact signF64_packF64 _ (by norm_num)

/-- A value less its floor is a number with a positive sign. -/
theorem subF64_floor_sign {q : F64} (hq : finite64 q = true) :
    isNaN64 (subF64 q (floorF64 q)) = false ∧ signF64 (subF64 q (floorF64 q)) = false := by
  have hf := finite64_floorF64 hq
  have hfrac : 0 ≤ valF64 q - valF64 (floorF64 q) := by
    rw [(floorF64_finite hq).2, floorInt]
    exact sub_nonneg.2 (Int.ediv_mul_le _ (by positivity))
  refine ⟨(subF64_finite hq hf).1, ?_⟩
  unfold subF64 addF64
  rw [isNaN64_negF64, not_isNaN64_of_finite hq, not_isNaN64_of_finite hf, not_isInf64_of_finite hq,
    not_isInf64_of_finite (a := negF64 _) (by rwa [finite64_negF64]), valF64_negF64, ← sub_eq_add_neg, signF64_negF64]
  simp only [Bool.or_self, Bool.false_eq_true, if_false]
  split
  · next h0 =>
    have hs : signF64 (floorF64 q) = signF64 q := by
      rcases eq_or_zero_of_valF64_eq (sub_eq_zero.1 h0) with he | hz
      · rw [← he]
      · exact signF64_floorF64_of_zero hq hz
    rw [hs, signF64_packF64 _ (by norm_num), Bool.and_not_self]
  · rw [signF64_roundF64, decide_eq_false hfrac.not_gt]

theorem wrapPhase_range {q : F64} (hq : finite64 q = true) : PhaseRange (wrapPhase q) := by
  obtain ⟨hn, hs⟩ := subF64_floor_sign hq
  unfold wrapPhase
  dsimp only
  split
  · exact phaseRange_zero
  · next h =>
    refine ⟨hn, hs, ?_⟩
    rw [leF64_iff, valF64_oneF64] at h
    exact not_le.1 fun hc => h ⟨by decide, hn, hc⟩

/-! ### The invariant -/

theorem OscInv.prepare {o : Osc} {r : F64} (h : OscInv o) (hr : RateRange r) :
    OscInv { o with rate := r, phase := zeroF64, inc := phaseIncrement o.freq r } :=
  ⟨hr, h.freq, finite64_phaseIncrement h.freq hr, phaseRange_zero⟩

theorem OscInv.setFreq {o : Osc} {f : F32} (h : OscInv o) (hf : finite32 f = true) :
    OscInv { o with freq := f, inc := phaseIncrement f o.rate } :=
  ⟨h.rate, hf, finite64_phaseIncrement hf h.rate, h.phase⟩

theorem OscInv.setWave {o : Osc} (w : Wave) (h : OscInv o) : OscInv { o with wave := w } := ⟨h.rate, h.freq, h.inc, h.phase⟩

theorem OscInv.next {o : Osc} (h : OscInv o) : OscInv { o with phase := wrapPhase (addF64 o.phase o.inc) } :=
  ⟨h.rate, h.freq, h.inc, wrapPhase_range (finite64_addF64_phase h.phase h.inc)⟩

theorem oscInv_reset : OscInv Osc.reset := by
  have hr : RateRange 0x40E5888000000000#64 := by unfold RateRange; decide +kernel
  exact ⟨hr, by decide, by decide, phaseRange_zero⟩

theorem exec_keeps_oscInv {i : Instr} {s t : State} (hs : OscInv s.osc) (h : exec i s = .next t) : OscInv t.osc := by
  cases i
  case oscPrepare =>
    obtain rfl := Host.Outcome.next.inj h
    exact hs.prepare (rateRange_sanitiseRate _)
  case oscSetFreq =>
    obtain rfl := Host.Outcome.next.inj h
    exact hs.setFreq (finite32_sanitiseSample _)
  case oscSetWave w =>
    obtain rfl := Host.Outcome.next.inj h
    exact hs.setWave w
  case oscNext =>
    obtain rfl := Host.Outcome.next.inj h
    exact hs.next
  all_goals
    rw [(writes_of_exec h).keeps_osc (by simp [unitOf])]
    exact hs

/-- The engine's turn leaves the oscillator and the smoother alone. -/
theorem engineStep_keeps_units (s : State) : (engineStep s).osc = s.osc ∧ (engineStep s).smo = s.smo := by
  rcases engineStep_cases s with ⟨-, -, h⟩ | ⟨-, -, -, -, h⟩ | ⟨-, h⟩
  · rw [h]; exact ⟨rfl, rfl⟩
  · rcases drainStep_cases s with ⟨-, h'⟩ | ⟨-, h'⟩ <;> rw [h, h'] <;> exact ⟨rfl, rfl⟩
  · rw [h]; exact ⟨rfl, rfl⟩

/-- Settles O58: of the commands only OSC's write the oscillator, each keeping its range; the engine leaves it alone. -/
theorem stepKeepsTheOscillatorRange : Obligations.StepKeepsTheOscillatorRange := by
  refine stepKeeps_of (fun s t hsame hs => ?_) (fun i s t hs h => exec_keeps_oscInv hs h) (fun s hs => ?_) oscInv_reset
  · rw [hsame.osc]; exact hs
  · rw [(engineStep_keeps_units s).1]; exact hs

end Sys2Proof.Machine

/-! PROOFS. The range of the smoother (10_state.md R40; 43_smoother.md R156, R164), kept by every step. -/

namespace Sys2Proof.Machine

/-! ### Settings (R156, R159) -/

theorem signF64_of_val_pos {a : F64} (h : 0 < valF64 a) : signF64 a = false := by
  by_contra hs
  rw [Bool.not_eq_false] at hs
  rw [valF64_eq, if_pos hs] at h
  omega

theorem signF64_of_val_neg {a : F64} (h : valF64 a < 0) : signF64 a = true := by
  by_contra hs
  rw [valF64_eq, if_neg hs, one_mul] at h
  exact absurd h (Int.natCast_nonneg _).not_gt

/-- A binary32 in [0, 1] as a binary64. -/
theorem f64OfF32_unit {v : F32} (h0 : 0 ≤ valF32 v) (h1 : valF32 v ≤ 2 ^ 149) :
    finite64 (f64OfF32 v) = true ∧ 0 ≤ valF64 (f64OfF32 v) ∧ valF64 (f64OfF32 v) ≤ 2 ^ 1074 := by
  have hf : finite32 v = true := finite32_of_val (m := 149) (by norm_num) (by rwa [abs_of_nonneg h0])
  obtain ⟨hfin, hval⟩ := f64OfF32_finite hf
  refine ⟨hfin, by rw [hval]; positivity, ?_⟩
  calc valF64 (f64OfF32 v) = valF32 v * 2 ^ 925 := hval
    _ ≤ 2 ^ 149 * 2 ^ 925 := mul_le_mul_of_nonneg_right h1 (by positivity)
    _ = 2 ^ 1074 := by rw [← pow_add]

theorem finite64_oneF64 : finite64 oneF64 = true := by decide

/-- One less a value in [0, 1] is in [0, 1]. -/
theorem one_sub_range {a : F64} (hf : finite64 a = true) (h0 : 0 ≤ valF64 a) (h1 : valF64 a ≤ 2 ^ 1074) :
    isNaN64 (subF64 oneF64 a) = false ∧ 0 ≤ valF64 (subF64 oneF64 a) ∧ valF64 (subF64 oneF64 a) ≤ 2 ^ 1074 := by
  obtain ⟨hn, hval⟩ := subF64_finite finite64_oneF64 hf
  rw [valF64_oneF64] at hval
  refine ⟨hn, ?_, ?_⟩
  · rw [hval]
    exact valRound_nonneg 52 2047 1 (sub_nonneg.2 h1)
  · rw [hval, ← valF64_oneF64]
    refine valRound64_le one_pos (by decide) ?_
    rw [valF64_oneF64, Nat.cast_one, mul_one]
    exact sub_le_self _ h0

/-- A value of at least the least positive one does not round to zero. -/
theorem valRound64_pos {v : ℤ} {d : ℕ} (hd : 0 < d) (h : d ≤ v) : 0 < valRound64 v d := by
  have hone : isNaN64 0x1#64 = false ∧ valF64 0x1#64 = 1 := by decide +kernel
  refine lt_of_lt_of_le one_pos (hone.2 ▸ le_valRound64 hd hone.1 ?_)
  rwa [hone.2, one_mul]

/-- One less a value below 1 is positive. -/
theorem one_sub_pos {a : F64} (hf : finite64 a = true) (h1 : valF64 a < 2 ^ 1074) : 0 < valF64 (subF64 oneF64 a) := by
  rw [(subF64_finite finite64_oneF64 hf).2, valF64_oneF64]
  exact valRound64_pos one_pos (Int.sub_pos.2 h1)

/-- The time constant of an amount in [0, 1] is finite and below 1/4. -/
theorem smoothingTau_range {m : F32} (h0 : 0 ≤ valF32 m) (h1 : valF32 m ≤ 2 ^ 149) :
    finite64 (mulF64 (f64OfF32 m) Config.tauScale) = true ∧ |valF64 (mulF64 (f64OfF32 m) Config.tauScale)| ≤ 2 ^ 1072 := by
  obtain ⟨hf, hm0, hm1⟩ := f64OfF32_unit h0 h1
  have hs : finite64 Config.tauScale = true ∧ |valF64 Config.tauScale| ≤ 2 ^ 1072 := by decide +kernel
  have hval : |valF64 (mulF64 (f64OfF32 m) Config.tauScale)| ≤ 2 ^ 1072 := by
    rw [(mulF64_finite hf hs.1).2]
    refine valRound64_abs_le (by positivity) (by norm_num) ?_
    rw [abs_mul, abs_of_nonneg hm0, mul_comm, Nat.cast_pow, Nat.cast_ofNat]
    exact mul_le_mul hs.2 hm1 hm0 (by positivity)
  exact ⟨finite64_of_val (by norm_num) hval, hval⟩

/-- The product of a rate and a time constant `t` of at least 2^-20 is no less than `t` and below 2^16. -/
theorem rate_mul_tau_range {r t : F64} (hr : RateRange r) (ht : finite64 t = true) (h0 : 2 ^ 1054 ≤ valF64 t)
    (h1 : valF64 t ≤ 2 ^ 1072) :
    finite64 (mulF64 r t) = true ∧ 2 ^ 1054 ≤ valF64 (mulF64 r t) ∧ valF64 (mulF64 r t) ≤ 2 ^ 1090 := by
  have htpos : 0 < valF64 t := lt_of_lt_of_le (by positivity) h0
  have hval := (mulF64_finite hr.finite ht).2
  have hlow : valF64 t ≤ valF64 (mulF64 r t) := by
    rw [hval]
    refine le_valRound64 (by positivity) (not_isNaN64_of_finite ht) ?_
    rw [mul_comm, Nat.cast_pow, Nat.cast_ofNat]
    exact mul_le_mul_of_nonneg_right hr.2.1 htpos.le
  have hr18 : valF64 r ≤ 2 ^ 18 * 2 ^ 1074 := hr.2.2.trans (mul_le_mul_of_nonneg_right (by norm_num) (by positivity))
  have habs : |valF64 (mulF64 r t)| ≤ 2 ^ 1090 := by
    rw [hval]
    refine valRound64_abs_le (by positivity) (by norm_num) ?_
    rw [abs_of_pos (mul_pos hr.pos htpos), Nat.cast_pow, Nat.cast_ofNat]
    calc valF64 r * valF64 t ≤ 2 ^ 18 * 2 ^ 1074 * 2 ^ 1072 := mul_le_mul hr18 h1 htpos.le (by positivity)
      _ = 2 ^ 1090 * 2 ^ 1074 := by rw [← pow_add, ← pow_add, ← pow_add]
  exact ⟨finite64_of_val (by norm_num) habs, h0.trans hlow, (le_abs_self _).trans habs⟩

/-- `-1 / x` for `x` from 2^-20 to 2^16 is finite, negative, and at least 2^-20 in magnitude. -/
theorem neg_one_div_range {x : F64} (hx : finite64 x = true) (h0 : 2 ^ 1054 ≤ valF64 x) (h1 : valF64 x ≤ 2 ^ 1090) :
    finite64 (divF64 negOneF64 x) = true ∧ signF64 (divF64 negOneF64 x) = true ∧ 2 ^ 1054 ≤ magF64 (divF64 negOneF64 x) := by
  have hpos : 0 < valF64 x := lt_of_lt_of_le (by positivity) h0
  have hd : ((valF64 x).natAbs : ℤ) = valF64 x := Int.natAbs_of_nonneg hpos.le
  have hd0 : 0 < (valF64 x).natAbs := Int.natAbs_pos.2 hpos.ne'
  have hval := (divF64_finite (a := negOneF64) (by decide) hx hpos.ne').2
  rw [Int.sign_eq_one_of_pos hpos, mul_one, valF64_negOneF64, neg_mul, ← pow_add] at hval
  have hb : isNaN64 0xBEB0000000000000#64 = false ∧ valF64 0xBEB0000000000000#64 = -2 ^ 1054 := by decide +kernel
  have hup : valF64 (divF64 negOneF64 x) ≤ -2 ^ 1054 := by
    rw [hval, ← hb.2]
    refine valRound64_le hd0 hb.1 ?_
    rw [hb.2, hd, neg_mul, neg_le_neg_iff]
    calc (2 : ℤ) ^ 1054 * valF64 x ≤ 2 ^ 1054 * 2 ^ 1090 := mul_le_mul_of_nonneg_left h1 (by positivity)
      _ = 2 ^ 2144 := by rw [← pow_add]
      _ ≤ 2 ^ (1074 + 1074) := pow_le_pow_right₀ (by norm_num) (by norm_num)
  have habs : |valF64 (divF64 negOneF64 x)| ≤ 2 ^ 1094 := by
    rw [hval]
    refine valRound64_abs_le hd0 (by norm_num) ?_
    rw [hd, abs_neg, abs_of_pos (by positivity), show 1074 + 1074 = 1094 + 1054 from rfl, pow_add]
    exact mul_le_mul_of_nonneg_left h0 (by positivity)
  have hneg : valF64 (divF64 negOneF64 x) < 0 := hup.trans_lt (neg_lt_zero.2 (by positivity))
  refine ⟨finite64_of_val (by norm_num) habs, signF64_of_val_neg hneg, ?_⟩
  have hmag := abs_valF64 (divF64 negOneF64 x)
  rw [abs_of_neg hneg] at hmag
  have : (2 : ℤ) ^ 1054 ≤ magF64 (divF64 negOneF64 x) := hmag ▸ le_neg_of_le_neg hup
  exact_mod_cast this

/-- A coefficient: in (0, 1] (R40). -/
def CoefficientRange (a : F64) : Prop := isNaN64 a = false ∧ 0 < valF64 a ∧ valF64 a ≤ 2 ^ 1074

theorem coefficientRange_one : CoefficientRange oneF64 := by
  unfold CoefficientRange
  rw [valF64_oneF64]
  exact ⟨by decide, by positivity, le_rfl⟩

/-- The coefficient of an amount in [0, 1] at a sanitised rate (R156). -/
theorem smoothingAlpha_range {m : F32} {r : F64} (h0 : 0 ≤ valF32 m) (h1 : valF32 m ≤ 2 ^ 149) (hr : RateRange r) :
    CoefficientRange (smoothingAlpha m r) := by
  obtain ⟨htf, htabs⟩ := smoothingTau_range h0 h1
  unfold smoothingAlpha
  dsimp only
  split
  · exact coefficientRange_one
  · next hlt =>
    have heps : isNaN64 Config.tauEps = false ∧ 2 ^ 1054 ≤ valF64 Config.tauEps := by decide +kernel
    have hlow : valF64 Config.tauEps ≤ valF64 (mulF64 (f64OfF32 m) Config.tauScale) := by
      rw [ltF64_iff] at hlt
      exact not_lt.1 fun hc => hlt ⟨not_isNaN64_of_finite htf, heps.1, hc⟩
    obtain ⟨hpf, hp0, hp1⟩ := rate_mul_tau_range hr htf (heps.2.trans hlow) ((le_abs_self _).trans htabs)
    obtain ⟨hxf, hxs, hxm⟩ := neg_one_div_range hpf hp0 hp1
    obtain ⟨hen, he0, he1⟩ := expF64_negative_range hxf hxs hxm
    have hef : finite64 (expF64 (divF64 negOneF64 (mulF64 r (mulF64 (f64OfF32 m) Config.tauScale)))) = true :=
      finite64_of_val (m := 1074) (by norm_num) ((abs_of_nonneg he0).trans_le he1.le)
    obtain ⟨hn, -, hle⟩ := one_sub_range hef he0 he1.le
    exact ⟨hn, one_sub_pos hef he1, hle⟩

/-! ### The smoothed logarithm (R162, R163) -/

/-- What SMO.PROCESS smooths: between the logarithms of the least and the largest positive binary32. -/
def LogRange (l : F64) : Prop := isNaN64 l = false ∧ -149 * 2 ^ 1074 ≤ valF64 l ∧ valF64 l ≤ 128 * 2 ^ 1074

/-- The smoothed logarithm, a little wider (R40, R164). -/
def SmoothedRange (s : F64) : Prop := isNaN64 s = false ∧ -150 * 2 ^ 1074 ≤ valF64 s ∧ valF64 s ≤ 129 * 2 ^ 1074

theorem finite32_of_f64OfF32 {f : F32} (h : finite64 (f64OfF32 f) = true) : finite32 f = true := by
  have hn : isNaN32 f = false := by rw [← isNaN64_f64OfF32]; exact not_isNaN64_of_finite h
  refine finite32_of_not hn ?_
  by_contra hi
  rw [Bool.not_eq_false] at hi
  unfold f64OfF32 at h
  rw [hn, hi, if_neg Bool.false_ne_true, if_pos rfl] at h
  cases hs : signF32 f <;> rw [hs] at h <;> exact absurd h (by decide)

/-- The magnitude of a positive finite binary32, in units of binary64. -/
theorem magF64_f64OfF32_range {f : F32} (hf : finite32 f = true) (hpos : 0 < valF64 (f64OfF32 f)) :
    2 ^ 925 ≤ magF64 (f64OfF32 f) ∧ magF64 (f64OfF32 f) ≤ 2 ^ 1202 := by
  have hval := (f64OfF32_finite hf).2
  have hpos32 : 0 < valF32 f := (mul_pos_iff_of_pos_right (by positivity)).1 (hval ▸ hpos)
  have hmag : magF64 (f64OfF32 f) = magF32 f * 2 ^ 925 := by
    rw [← natAbs_valF64, hval, Int.natAbs_mul, natAbs_valF32, Int.natAbs_pow]
    rfl
  have h1 : 1 ≤ magF32 f := by rw [← natAbs_valF32]; omega
  have h2 : magF32 f ≤ 2 ^ 277 := ((magF32_lt_iff f).2 hf).le
  rw [hmag, show (1202 : ℕ) = 277 + 925 from rfl, pow_add]
  exact ⟨Nat.le_mul_of_pos_left _ h1, Nat.mul_le_mul_right _ h2⟩

/-- The gate of R161 lets only positive finite estimates through. -/
theorem logRange_of_valid {f : F32} {c thr : F64} (h : smootherValid (f64OfF32 f) c thr = true) :
    LogRange (log2F64 (f64OfF32 f)) := by
  unfold smootherValid at h
  simp only [Bool.and_eq_true] at h
  obtain ⟨⟨⟨hlt, hfin⟩, -⟩, -⟩ := h
  obtain ⟨-, -, hpos⟩ := (ltF64_iff _ _).1 hlt
  rw [valF64_zeroF64] at hpos
  obtain ⟨h1, h2⟩ := magF64_f64OfF32_range (finite32_of_f64OfF32 hfin) hpos
  have hrange := log2F64_range hfin (signF64_of_val_pos hpos) h1 h2 (by norm_num)
  rwa [show ((925 : ℕ) : ℤ) - 1074 = -149 by norm_num, show ((1202 : ℕ) : ℤ) - 1074 = 128 by norm_num] at hrange

/-- Bounds of whole units carry over to the rounded value. -/
theorem valRound64_whole_bounds {v j k : ℤ} (hj : j.natAbs ≤ 2 ^ 13) (hk : k.natAbs ≤ 2 ^ 13) (h1 : j * 2 ^ 1074 ≤ v)
    (h2 : v ≤ k * 2 ^ 1074) : j * 2 ^ 1074 ≤ valRound64 v 1 ∧ valRound64 v 1 ≤ k * 2 ^ 1074 := by
  rw [← valRound64_integer hj one_pos, ← valRound64_integer hk one_pos, Nat.cast_one, mul_one, mul_one]
  exact ⟨valRound64_mono one_pos one_pos (by simpa using h1), valRound64_mono one_pos one_pos (by simpa using h2)⟩

theorem natAbs_succ_le {k : ℤ} (h : -2 ^ 12 ≤ k ∧ k ≤ 2 ^ 12) : k.natAbs ≤ 2 ^ 13 ∧ (k + 1).natAbs ≤ 2 ^ 13 := by omega

/-- Rounding a value of at most 2^12 units moves it by at most one unit. -/
theorem abs_valRound64_sub_le {v : ℤ} (h : |v| ≤ 2 ^ 12 * 2 ^ 1074) : |valRound64 v 1 - v| ≤ 2 ^ 1074 := by
  have hq : (0 : ℤ) < 2 ^ 1074 := by positivity
  have hlow : v / 2 ^ 1074 * 2 ^ 1074 ≤ v := Int.ediv_mul_le _ hq.ne'
  have hup : v < (v / 2 ^ 1074 + 1) * 2 ^ 1074 := Int.lt_ediv_add_one_mul_self _ hq
  have hk : -2 ^ 12 ≤ v / 2 ^ 1074 ∧ v / 2 ^ 1074 ≤ 2 ^ 12 := by
    obtain ⟨h1, h2⟩ := abs_le.1 h
    exact ⟨Int.le_ediv_of_mul_le hq ((neg_mul _ _).trans_le h1), Int.ediv_le_of_le_mul hq h2⟩
  obtain ⟨hr1, hr2⟩ := valRound64_whole_bounds (natAbs_succ_le hk).1 (natAbs_succ_le hk).2 hlow hup.le
  rw [add_mul, one_mul] at hup hr2
  generalize (2 : ℤ) ^ 1074 = q at *
  exact abs_le.2 ⟨by linarith, by linarith⟩

/-- A fraction of a finite value lies between it and zero. -/
theorem mulF64_fraction {a d : F64} (ha : CoefficientRange a) (hd : finite64 d = true) :
    finite64 (mulF64 a d) = true ∧ min 0 (valF64 d) ≤ valF64 (mulF64 a d) ∧ valF64 (mulF64 a d) ≤ max 0 (valF64 d) := by
  obtain ⟨-, ha0, ha1⟩ := ha
  have haf : finite64 a = true := finite64_of_val (m := 1074) (by norm_num) ((abs_of_pos ha0).trans_le ha1)
  have hdn := not_isNaN64_of_finite hd
  have hzn : isNaN64 zeroF64 = false := by decide
  have hq : 0 < 2 ^ 1074 := by positivity
  have hbounds : min 0 (valF64 d) ≤ valF64 (mulF64 a d) ∧ valF64 (mulF64 a d) ≤ max 0 (valF64 d) := by
    rw [(mulF64_finite haf hd).2]
    rcases le_total 0 (valF64 d) with h0 | h0
    · rw [min_eq_left h0, max_eq_right h0]
      refine ⟨valRound_nonneg 52 2047 _ (mul_nonneg ha0.le h0), valRound64_le hq hdn ?_⟩
      rw [mul_comm, Nat.cast_pow, Nat.cast_ofNat]
      exact mul_le_mul_of_nonneg_left ha1 h0
    · rw [min_eq_right h0, max_eq_left h0]
      refine ⟨le_valRound64 hq hdn ?_, valF64_zeroF64 ▸ valRound64_le hq hzn ?_⟩
      · rw [mul_comm (valF64 a), Nat.cast_pow, Nat.cast_ofNat]
        exact mul_le_mul_of_nonpos_left ha1 h0
      · rw [valF64_zeroF64, zero_mul]
        exact mul_nonpos_of_nonneg_of_nonpos ha0.le h0
  refine ⟨(finite64_iff_val _).2 (lt_of_le_of_lt (abs_le.2 ?_) (abs_valF64_lt hd)), hbounds⟩
  exact ⟨(le_min (neg_nonpos.2 (abs_nonneg _)) (neg_abs_le _)).trans hbounds.1,
    hbounds.2.trans (max_le (abs_nonneg _) (le_abs_self _))⟩

theorem abs_le_of_units {q v j k n : ℤ} (hq : 0 ≤ q) (h1 : j * q ≤ v) (h2 : v ≤ k * q) (hj : -n ≤ j) (hk : k ≤ n) :
    |v| ≤ n * q :=
  abs_le.2 ⟨(by rw [← neg_mul]; exact mul_le_mul_of_nonneg_right hj hq : -(n * q) ≤ j * q).trans h1,
    h2.trans (mul_le_mul_of_nonneg_right hk hq)⟩

/-- A value of at most 2^9 units is finite. -/
theorem finite64_of_units {a : F64} (h : |valF64 a| ≤ 2 ^ 9 * 2 ^ 1074) : finite64 a = true :=
  finite64_of_val (m := 9 + 1074) (by norm_num) (by rwa [pow_add])

/-- From `s` by `m`, a fraction of `d`, which is the way from `s` to `l` up to one unit. -/
theorem step_bounds {q l s d m : ℤ} (hl : -149 * q ≤ l ∧ l ≤ 128 * q) (hs : -150 * q ≤ s ∧ s ≤ 129 * q)
    (hd : |d - (l - s)| ≤ q) (hm : min 0 d ≤ m ∧ m ≤ max 0 d) : -150 * q ≤ s + m ∧ s + m ≤ 129 * q := by
  obtain ⟨hd0, hd1⟩ := abs_le.1 hd
  rcases le_total 0 d with h | h
  · rw [min_eq_left h, max_eq_right h] at hm
    constructor <;> linarith
  · rw [min_eq_right h, max_eq_left h] at hm
    constructor <;> linarith

/-- A step of a fraction of the way from `s` to `l` stays in the range: it passes `l` by at most one unit (R163). -/
theorem smoothing_step_range {l s a : F64} (hl : LogRange l) (hs : SmoothedRange s) (ha : CoefficientRange a) :
    SmoothedRange (addF64 s (mulF64 a (subF64 l s))) := by
  have hq : (0 : ℤ) ≤ 2 ^ 1074 := by positivity
  have hlf : finite64 l = true := finite64_of_units (abs_le_of_units hq hl.2.1 hl.2.2 (by norm_num) (by norm_num))
  have hsf : finite64 s = true := finite64_of_units (abs_le_of_units hq hs.2.1 hs.2.2 (by norm_num) (by norm_num))
  have hway : -278 * 2 ^ 1074 ≤ valF64 l - valF64 s ∧ valF64 l - valF64 s ≤ 278 * 2 ^ 1074 := by
    obtain ⟨-, hl0, hl1⟩ := hl
    obtain ⟨-, hs0, hs1⟩ := hs
    generalize (2 : ℤ) ^ 1074 = q at *
    constructor <;> linarith
  have hd := (subF64_finite hlf hsf).2
  have hdf : finite64 (subF64 l s) = true := by
    obtain ⟨h1, h2⟩ := valRound64_whole_bounds (by norm_num) (by norm_num) hway.1 hway.2
    rw [← hd] at h1 h2
    exact finite64_of_units (abs_le_of_units hq h1 h2 (by norm_num) (by norm_num))
  have hclose : |valF64 (subF64 l s) - (valF64 l - valF64 s)| ≤ 2 ^ 1074 := by
    rw [hd]
    exact abs_valRound64_sub_le (abs_le_of_units hq hway.1 hway.2 (by norm_num) (by norm_num))
  obtain ⟨hmf, hm⟩ := mulF64_fraction ha hdf
  obtain ⟨h1, h2⟩ := step_bounds hl.2 hs.2 hclose hm
  obtain ⟨hn, hval⟩ := addF64_finite hsf hmf
  unfold SmoothedRange
  rw [hval]
  exact ⟨hn, valRound64_whole_bounds (by norm_num) (by norm_num) h1 h2⟩

/-! ### The invariant -/

theorem smoothedRange_zero : SmoothedRange zeroF64 := by
  unfold SmoothedRange
  rw [valF64_zeroF64]
  exact ⟨by decide, mul_nonpos_of_nonpos_of_nonneg (by norm_num) (by positivity), by positivity⟩

theorem LogRange.smoothed {l : F64} (h : LogRange l) : SmoothedRange l := by
  obtain ⟨hn, h0, h1⟩ := h
  exact ⟨hn, (mul_le_mul_of_nonneg_right (by norm_num) (by positivity)).trans h0,
    h1.trans (mul_le_mul_of_nonneg_right (by norm_num) (by positivity))⟩

theorem SmoInv.prepare {m : Smo} {r : F64} (h : SmoInv m) (hr : RateRange r) :
    SmoInv { m with rate := r, alpha := smoothingAlpha m.amount r, has := false, s := zeroF64 } := by
  obtain ⟨-, h0, h1⟩ := h.amount
  exact ⟨hr, h.amount, h.thr, smoothingAlpha_range h0 h1 hr, smoothedRange_zero⟩

theorem SmoInv.setAmount {m : Smo} (v : F32) (h : SmoInv m) :
    SmoInv { m with amount := unitOperand v, alpha := smoothingAlpha (unitOperand v) m.rate } := by
  obtain ⟨hn, h0, h1⟩ := unitOperand_range v
  exact ⟨h.rate, ⟨hn, h0, h1⟩, h.thr, smoothingAlpha_range h0 h1 h.rate, h.smoothed⟩

theorem SmoInv.setSens {m : Smo} (v : F32) (h : SmoInv m) :
    SmoInv { m with thr := subF64 oneF64 (f64OfF32 (unitOperand v)) } := by
  obtain ⟨-, h0, h1⟩ := unitOperand_range v
  obtain ⟨hf, hv0, hv1⟩ := f64OfF32_unit h0 h1
  exact ⟨h.rate, h.amount, one_sub_range hf hv0 hv1, h.alpha, h.smoothed⟩

/-- The coefficient that the adaptive snap selects (R163). -/
theorem coefficientRange_snap {m : Smo} (h : SmoInv m) (c : Bool) : CoefficientRange (if c then oneF64 else m.alpha) := by
  cases c
  · exact h.alpha
  · exact coefficientRange_one

/-- A valid estimate: taken directly the first time, else a step towards it (R162, R163). -/
theorem SmoInv.update {m : Smo} {l : F64} (h : SmoInv m) (hl : LogRange l) : SmoInv (smootherUpdate m l) := by
  unfold smootherUpdate
  split
  · exact ⟨h.rate, h.amount, h.thr, h.alpha, smoothing_step_range hl h.smoothed (coefficientRange_snap h _)⟩
  · exact ⟨h.rate, h.amount, h.thr, h.alpha, hl.smoothed⟩

theorem smoInv_reset : SmoInv Smo.reset :=
  ⟨oscInv_reset.rate, by decide +kernel, by decide +kernel, by decide +kernel, by decide +kernel⟩

theorem exec_keeps_smoInv {i : Instr} {s t : State} (hs : SmoInv s.smo) (h : exec i s = .next t) : SmoInv t.smo := by
  cases i
  case smoPrepare =>
    obtain rfl := Host.Outcome.next.inj h
    exact hs.prepare (rateRange_sanitiseRate _)
  case smoSetAmount =>
    obtain rfl := Host.Outcome.next.inj h
    exact hs.setAmount _
  case smoSetSens =>
    obtain rfl := Host.Outcome.next.inj h
    exact hs.setSens _
  case smoProcess =>
    rcases exec_smoProcess_cases h with ⟨hv, u, rfl⟩ | ⟨u, rfl⟩
    · exact hs.update (logRange_of_valid hv)
    · exact hs
  all_goals
    rw [(writes_of_exec h).keeps_smo (by simp [unitOf])]
    exact hs

/-- Settles O59: of the commands only SMO's write the smoother, each keeping its range; the engine leaves it alone. -/
theorem stepKeepsTheSmootherRange : Obligations.StepKeepsTheSmootherRange := by
  refine stepKeeps_of (fun s t hsame hs => ?_) (fun i s t hs h => exec_keeps_smoInv hs h) (fun s hs => ?_) smoInv_reset
  · rw [hsame.smo]; exact hs
  · rw [(engineStep_keeps_units s).2]; exact hs

end Sys2Proof.Machine

/-! PROOFS. How an invariant of the detector and its queue is shown to be kept, and the published pair in range (10_state.md R29;
41_detector_analysis.md R125). -/

namespace Sys2Proof.Machine

/-! ### The result of a pass (R122 to R125) -/

theorem confidenceRange_zero : ConfidenceRange 0#32 := by unfold ConfidenceRange; decide +kernel

/-- The confidence of a lag, rounded to binary32, stays in [0, 1]. -/
theorem confidenceRange_f32OfF64_clampUnit64 (v : F64) : ConfidenceRange (f32OfF64 (clampUnit64 v)) := by
  obtain ⟨hn, h0, h1⟩ := clampUnit64_range v
  obtain ⟨hn32, hval⟩ := f32OfF64_number hn
  refine ⟨hn32, ?_, ?_⟩
  · rw [hval]
    exact valRound_nonneg 23 255 _ h0
  · rw [hval, ← valF32_oneF32]
    refine valRound32_le (by positivity) (by decide) ?_
    rw [valF32_oneF32, Nat.cast_pow, Nat.cast_ofNat, ← pow_add]
    exact h1

/-- A frequency in [20, 5000) rounds into [20, 5000]. -/
theorem frequencyRange_f32OfF64 {v : F64} (hn : isNaN64 v = false) (h0 : 20 * 2 ^ 1074 ≤ valF64 v)
    (h1 : valF64 v < 5000 * 2 ^ 1074) : FrequencyRange (f32OfF64 v) := by
  have hlow : isNaN32 0x41A00000#32 = false ∧ valF32 0x41A00000#32 = 20 * 2 ^ 149 := by decide +kernel
  have hhigh : isNaN32 0x459C4000#32 = false ∧ valF32 0x459C4000#32 = 5000 * 2 ^ 149 := by decide +kernel
  have hunit : (2 : ℤ) ^ 149 * ((2 ^ 925 : ℕ) : ℤ) = 2 ^ 1074 := by rw [Nat.cast_pow, Nat.cast_ofNat, ← pow_add]
  obtain ⟨hn32, hval⟩ := f32OfF64_number hn
  refine .inr ⟨hn32, ?_, ?_⟩
  · rw [hval, ← hlow.2]
    refine le_valRound32 (by positivity) hlow.1 ?_
    rwa [hlow.2, mul_assoc, hunit]
  · rw [hval, ← hhigh.2]
    refine valRound32_le (by positivity) hhigh.1 ?_
    rw [hhigh.2, mul_assoc, hunit]
    exact h1.le

theorem resultAt_range (fa : F64) (cm : List F64) (τ : Nat) :
    FrequencyRange (resultAt fa cm τ).frequency ∧ ConfidenceRange (resultAt fa cm τ).confidence := by
  rcases resultAt_cases fa cm τ with h | ⟨hn, h0, h1, h⟩ <;> rw [h]
  · exact ⟨.inl rfl, confidenceRange_zero⟩
  · exact ⟨frequencyRange_f32OfF64 hn h0 h1, confidenceRange_f32OfF64_clampUnit64 _⟩

/-- Every pass gives two zeros or a result in range, whatever the window holds. -/
theorem analyse_range (a : Acfg) (n : Nat) (d : Det) :
    FrequencyRange (analyse a n d).frequency ∧ ConfidenceRange (analyse a n d).confidence := by
  unfold analyse
  rcases resultOfDiff_cases a.fallbackEn d.fa (diffFunction a n d) with ⟨-, h⟩ | ⟨-, -, h⟩ | ⟨τ, -, -, h⟩ <;> rw [h]
  · exact ⟨.inl rfl, confidenceRange_zero⟩
  · exact ⟨.inl rfl, confidenceRange_zero⟩
  · exact resultAt_range _ _ _

/-! ### Invariants of the detector and its queue

An invariant that fed samples keep: through the detector's own decimator, and from the input path to the queue or the window. -/

theorem feedSample_keeps {P : State → Prop} (hdec : ∀ s c, P s → P (s.withDet { s.det with dec := c }))
    (haccept : ∀ s v, P s → P (acceptSample s v)) {s : State} (x : F32) (hs : P s) : P (feedSample s x) := by
  rcases feedSample_cases s x with ⟨-, h⟩ | ⟨-, -, h⟩ | ⟨-, -, h⟩ <;> rw [h]
  · exact haccept s x hs
  · exact hdec s _ hs
  · exact haccept _ _ (hdec s _ hs)

/-- An invariant of the detector, its queue and the configuration: the commands other than DET.PREPARE and DET.FEED write none
of the three. -/
theorem stepKeeps_of_detector {P : State → Prop}
    (hframe : ∀ s t : State, t.det = s.det → t.queue = s.queue → t.acfg = s.acfg → P s → P t)
    (hprepare : ∀ s r, P s → P (prepareDetector s r)) (hdec : ∀ s c, P s → P (s.withDet { s.det with dec := c }))
    (haccept : ∀ s v, P s → P (acceptSample s v)) (hengine : ∀ s, P s → P (engineStep s)) (hreset : P State.reset) :
    StepKeeps P := by
  refine stepKeeps_of (fun s t hsame => hframe s t hsame.det hsame.queue hsame.acfg) (fun i s t hs h => ?_) hengine hreset
  by_cases hp : i = .detPrepare
  · subst hp
    obtain rfl := Host.Outcome.next.inj h
    exact hprepare s _ hs
  by_cases hf : i = .detFeed
  · subst hf
    obtain rfl := Host.Outcome.next.inj h
    exact feedSample_keeps hdec haccept _ hs
  · obtain ⟨hdet, hqueue, hacfg, -⟩ := (writes_of_exec h).keeps_detector hp hf
    exact hframe s t hdet hqueue hacfg hs

/-! ### The published pair (R29) -/

theorem acceptSample_keeps_published {s : State} (v : F32) (hs : PublishedInv s) : PublishedInv (acceptSample s v) := by
  rcases acceptSample_cases s v with ⟨-, -, h⟩ | ⟨-, -, h⟩ | ⟨-, h⟩ <;> rw [h]
  · exact ⟨hs.freq, hs.conf, hs.pend⟩
  · exact ⟨hs.freq, hs.conf, hs.pend⟩
  · rcases insertSync_cases s v with ⟨-, h'⟩ | ⟨-, h'⟩ <;> rw [h']
    · exact ⟨hs.freq, hs.conf, hs.pend⟩
    · exact ⟨(analyse_range _ _ _).1, (analyse_range _ _ _).2, hs.pend⟩

theorem engineStep_keeps_published {s : State} (hs : PublishedInv s) : PublishedInv (engineStep s) := by
  rcases engineStep_cases s with ⟨-, -, h⟩ | ⟨-, -, -, -, h⟩ | ⟨-, h⟩ <;> rw [h]
  · exact ⟨hs.freq, hs.pend, hs.pend⟩
  · rcases drainStep_cases s with ⟨-, h'⟩ | ⟨-, h'⟩ <;> rw [h']
    · exact ⟨hs.freq, hs.conf, hs.pend⟩
    · exact ⟨(analyse_range _ _ _).1, hs.conf, (analyse_range _ _ _).2⟩
  · exact hs

theorem publishedInv_reset : PublishedInv State.reset := ⟨.inl rfl, confidenceRange_zero, confidenceRange_zero⟩

/-- Settles O57: a pass gives a result in range, and the engine publishes the confidence that a pass left pending. -/
theorem stepKeepsThePublishedRange : Obligations.StepKeepsThePublishedRange := by
  refine stepKeeps_of_detector (fun s t hdet _ _ hs => ?_) (fun s r _ => ?_) (fun s c hs => ⟨hs.freq, hs.conf, hs.pend⟩)
    (fun s v => acceptSample_keeps_published v) (fun s => engineStep_keeps_published) publishedInv_reset
  · exact ⟨hdet ▸ hs.freq, hdet ▸ hs.conf, hdet ▸ hs.pend⟩
  · exact ⟨.inl rfl, confidenceRange_zero, confidenceRange_zero⟩

end Sys2Proof.Machine

/-! PROOFS. The sizes that DET.PREPARE derives (40_detector.md R93), and the shape of the detector, its window and its queue
(10_state.md R32, R35, R38), kept by every step. -/

namespace Sys2Proof.Machine

/-! ### The prepared sizes (R93) -/

/-- `ceilInt` is the least integer from the value up. -/
theorem ceilInt_bounds (a : F64) : (ceilInt a - 1) * 2 ^ 1074 < valF64 a ∧ valF64 a ≤ ceilInt a * 2 ^ 1074 := by
  have hq : (0 : ℤ) < 2 ^ 1074 := by positivity
  have hlow := Int.ediv_mul_le (-valF64 a) hq.ne'
  have hup := Int.lt_ediv_add_one_mul_self (-valF64 a) hq
  unfold ceilInt
  generalize (2 : ℤ) ^ 1074 = q at *
  constructor <;> linarith

theorem ceilInt_le_iff (a : F64) (k : ℤ) : ceilInt a ≤ k ↔ valF64 a ≤ k * 2 ^ 1074 := by
  have hq : (0 : ℤ) < 2 ^ 1074 := by positivity
  obtain ⟨hlow, hup⟩ := ceilInt_bounds a
  refine ⟨fun h => hup.trans (mul_le_mul_of_nonneg_right h hq.le), fun h => ?_⟩
  have := lt_of_mul_lt_mul_right (hlow.trans_le h) hq.le
  linarith

theorem ceilInt_pos {a : F64} (h : 0 < valF64 a) : 1 ≤ ceilInt a := by
  by_contra hc
  have := (ceilInt_le_iff a 0).1 (by linarith)
  rw [zero_mul] at this
  exact this.not_gt h

/-- An analysis rate: a sanitised rate, or half of one (R93). -/
def AnalysisRange (f : F64) : Prop := finite64 f = true ∧ 2 ^ 1073 ≤ valF64 f ∧ valF64 f ≤ 192000 * 2 ^ 1074

theorem analysisRate_range (decim : Bool) {r : F64} (hr : RateRange r) : AnalysisRange (analysisRate decim r) := by
  cases decim
  · exact ⟨hr.finite, (pow_le_pow_right₀ (by norm_num) (by norm_num)).trans hr.2.1, hr.2.2⟩
  · have h2 : finite64 twoF64 = true ∧ valF64 twoF64 ≠ 0 ∧ (valF64 twoF64).sign = 1 ∧ (valF64 twoF64).natAbs = 2 ^ 1075 := by
      decide +kernel
    obtain ⟨hf2, hne, hsign, habs⟩ := h2
    have hval := (divF64_finite hr.finite hf2 hne).2
    rw [hsign, habs, mul_one] at hval
    have hlow : 2 ^ 1073 ≤ valF64 (divF64 r twoF64) := by
      rw [hval, ← valF64_halfF64]
      refine le_valRound64 (by positivity) (by decide) ?_
      rw [valF64_halfF64, Nat.cast_pow, Nat.cast_ofNat]
      calc (2 : ℤ) ^ 1073 * 2 ^ 1075 = 2 ^ 1074 * 2 ^ 1074 := by rw [← pow_add, ← pow_add]
        _ ≤ valF64 r * 2 ^ 1074 := mul_le_mul_of_nonneg_right hr.2.1 (by positivity)
    have hup : valF64 (divF64 r twoF64) ≤ 192000 * 2 ^ 1074 := by
      rw [hval, ← valF64_maxSampleRate]
      refine valRound64_le (by positivity) (by decide) ?_
      rw [valF64_maxSampleRate, Nat.cast_pow, Nat.cast_ofNat]
      exact mul_le_mul hr.2.2 (pow_le_pow_right₀ (by norm_num) (by norm_num)) (by positivity) (by positivity)
    exact ⟨finite64_of_le_maxRate (le_trans (by positivity) hlow) hup, hlow, hup⟩

/-- The quotient whose ceiling is the half-window. -/
theorem valF64_half_quotient {f : F64} (hf : finite64 f = true) :
    valF64 (divF64 f Config.minPitchHz) = valRound64 (valF64 f * 2 ^ 1074) (60 * 2 ^ 1074) := by
  have h60 : finite64 Config.minPitchHz = true ∧ valF64 Config.minPitchHz ≠ 0 ∧ (valF64 Config.minPitchHz).sign = 1 ∧
      (valF64 Config.minPitchHz).natAbs = 60 * 2 ^ 1074 := by decide +kernel
  obtain ⟨hfin, hne, hsign, habs⟩ := h60
  rw [(divF64_finite hf hfin hne).2, hsign, habs, mul_one]

theorem half_quotient_range {f : F64} (hf : AnalysisRange f) :
    0 < valF64 (divF64 f Config.minPitchHz) ∧ valF64 (divF64 f Config.minPitchHz) ≤ 3200 * 2 ^ 1074 := by
  obtain ⟨hfin, hlow, hup⟩ := hf
  have hd : 0 < 60 * 2 ^ 1074 := by positivity
  have hcast : ((60 * 2 ^ 1074 : ℕ) : ℤ) = 60 * 2 ^ 1074 := by rw [Nat.cast_mul, Nat.cast_pow]; rfl
  have h60 : 60 ≤ valF64 f :=
    calc (60 : ℤ) ≤ 2 ^ 6 := by norm_num
      _ ≤ 2 ^ 1073 := pow_le_pow_right₀ (by norm_num) (by norm_num)
      _ ≤ valF64 f := hlow
  rw [valF64_half_quotient hfin]
  constructor
  · refine valRound64_pos hd ?_
    rw [hcast]
    exact mul_le_mul_of_nonneg_right h60 (by positivity)
  · rw [← valRound64_integer (k := 3200) (by norm_num) hd]
    refine valRound64_mono hd hd (mul_le_mul_of_nonneg_right ?_ (by positivity))
    rw [hcast, show (3200 : ℤ) * 2 ^ 1074 * (60 * 2 ^ 1074) = 192000 * 2 ^ 1074 * 2 ^ 1074 by ring]
    exact mul_le_mul_of_nonneg_right hup (by positivity)

/-- The hop's product is positive, at most 576, and no more than the half-window's quotient. -/
theorem hop_product_range {f : F64} (hf : AnalysisRange f) :
    0 < valF64 (mulF64 f Config.hopSeconds) ∧ valF64 (mulF64 f Config.hopSeconds) ≤ 576 * 2 ^ 1074 ∧
      valF64 (mulF64 f Config.hopSeconds) ≤ valF64 (divF64 f Config.minPitchHz) := by
  obtain ⟨hfin, hlow, hup⟩ := hf
  have hconst : finite64 Config.hopSeconds = true ∧ 2 ≤ valF64 Config.hopSeconds ∧
      60 * valF64 Config.hopSeconds ≤ 2 ^ 1074 ∧
      valF64 (mulF64 Config.maxSampleRate Config.hopSeconds) ≤ 576 * 2 ^ 1074 := by decide +kernel
  obtain ⟨hhf, hh2, hh60, hmax⟩ := hconst
  have hq : 0 < 2 ^ 1074 := by positivity
  have hcast : ((2 ^ 1074 : ℕ) : ℤ) = 2 ^ 1074 := by rw [Nat.cast_pow]; rfl
  have hf0 : 0 < valF64 f := lt_of_lt_of_le (by positivity) hlow
  have hh0 : 0 ≤ valF64 Config.hopSeconds := by linarith
  have hval := (mulF64_finite hfin hhf).2
  refine ⟨?_, ?_, ?_⟩
  · rw [hval]
    refine valRound64_pos hq ?_
    rw [hcast, show 1074 = 1073 + 1 from rfl, pow_succ]
    exact mul_le_mul hlow hh2 (by norm_num) hf0.le
  · refine le_trans ?_ hmax
    rw [hval, (mulF64_finite (by decide) hhf).2, valF64_maxSampleRate]
    exact valRound64_mono hq hq (mul_le_mul_of_nonneg_right (mul_le_mul_of_nonneg_right hup hh0) (by positivity))
  · rw [hval, valF64_half_quotient hfin]
    refine valRound64_mono hq (by positivity) ?_
    rw [Nat.cast_mul, hcast, show valF64 f * valF64 Config.hopSeconds * (((60 : ℕ) : ℤ) * 2 ^ 1074) =
      valF64 f * (60 * valF64 Config.hopSeconds) * 2 ^ 1074 by push_cast; ring]
    exact mul_le_mul_of_nonneg_right (mul_le_mul_of_nonneg_left hh60 hf0.le) (by positivity)

/-- The half-window and the hop of a prepared detector: what they are, and their ranges. -/
theorem preparedDet_sizes (decim : Bool) {r : F64} (hr : RateRange r) :
    ((preparedDet decim r).halfWindow : ℤ) = ceilInt (divF64 (preparedDet decim r).fa Config.minPitchHz) ∧
      ((preparedDet decim r).hopSize : ℤ) = ceilInt (mulF64 (preparedDet decim r).fa Config.hopSeconds) ∧
      1 ≤ (preparedDet decim r).halfWindow ∧ (preparedDet decim r).halfWindow ≤ 3200 ∧
      1 ≤ (preparedDet decim r).hopSize ∧ (preparedDet decim r).hopSize ≤ 576 ∧
      (preparedDet decim r).hopSize ≤ (preparedDet decim r).halfWindow := by
  have hf := analysisRate_range decim hr
  obtain ⟨hq0, hq1⟩ := half_quotient_range hf
  obtain ⟨hp0, hp1, hpq⟩ := hop_product_range hf
  have hhop := (ceilInt_le_iff _ _).2 (hpq.trans (ceilInt_bounds _).2)
  have hH := ceilInt_pos hq0
  have hH' := (ceilInt_le_iff _ 3200).2 hq1
  have hP := ceilInt_pos hp0
  have hP' := (ceilInt_le_iff _ 576).2 hp1
  unfold preparedDet
  dsimp only
  generalize ceilInt (divF64 (analysisRate decim r) Config.minPitchHz) = h at *
  generalize ceilInt (mulF64 (analysisRate decim r) Config.hopSeconds) = p at *
  omega

/-- Settles O16: the half-window and the hop are ceilings of a quotient and of a product of the analysis rate, which rounding
keeps within whole bounds. -/
theorem preparedSizesAreInRange : Obligations.PreparedSizesAreInRange := by
  intro decim r
  obtain ⟨hH, -, h1, h2, h3, h4, h5⟩ := preparedDet_sizes decim (rateRange_sanitiseRate r)
  have hb := ceilInt_bounds (divF64 (preparedDet decim (sanitiseRate r)).fa Config.minPitchHz)
  rw [← hH] at hb
  have hW : (preparedDet decim (sanitiseRate r)).windowSize = 2 * (preparedDet decim (sanitiseRate r)).halfWindow := rfl
  exact ⟨h1, h2, hW, h3, h4, by omega, hb.1, hb.2⟩

/-! ### The queue (R32, R38, R62) -/

theorem Memory.below_write {n i : ℕ} {m : Memory} (v : F32) (hi : i < n) (h : Memory.below n m) :
    Memory.below n (Memory.write m i v) := by
  intro j hj
  rw [Memory.read_write_other m v (by omega)]
  exact h j hj

theorem QueueInv.wr_lt {q : Queue} (h : QueueInv q) : q.wr < Config.queueDepth := by
  rw [h.wr_eq]
  exact Nat.mod_lt _ (by decide)

theorem QueueInv.push {q : Queue} (v : F32) (h : QueueInv q) (hn : q.n < Config.queueDepth) : QueueInv (q.push v) where
  canonical := Memory.write_wf _ v h.canonical
  below := Memory.below_write v h.wr_lt h.below
  rd_lt := h.rd_lt
  wr_eq := by
    rw [Queue.push_wr, Queue.push_rd, Queue.push_n, h.wr_eq, Nat.mod_add_mod, Nat.add_assoc]
  n_le := hn

theorem QueueInv.pop {q : Queue} (h : QueueInv q) (hn : 0 < q.n) : QueueInv q.pop where
  canonical := h.canonical
  below := h.below
  rd_lt := Nat.mod_lt _ (by decide)
  wr_eq := by
    rw [Queue.pop_wr, Queue.pop_rd, Queue.pop_n, h.wr_eq, Nat.mod_add_mod]
    congr 1
    omega
  n_le := (Nat.sub_le _ _).trans h.n_le

theorem QueueInv.clear {q : Queue} (h : QueueInv q) : QueueInv q.clear where
  canonical := h.canonical
  below := h.below
  rd_lt := show 0 < Config.queueDepth by decide
  wr_eq := rfl
  n_le := Nat.zero_le _

/-! ### The detector (R35, R93, R98) -/

/-- The next write position: one further, or back at 0 when the window has been filled. -/
theorem succ_mod_cases {p w : ℕ} (h : p < w) : (p + 1 < w ∧ (p + 1) % w = p + 1) ∨ (p + 1 = w ∧ (p + 1) % w = 0) := by
  rcases Nat.lt_or_ge (p + 1) w with hlt | hge
  · exact .inl ⟨hlt, Nat.mod_eq_of_lt hlt⟩
  · obtain rfl : p + 1 = w := by omega
    exact .inr ⟨rfl, Nat.mod_self _⟩

/-- The window insert keeps the counters in step: the first fill triggers, since the hop is no longer than the window, and each
later hop restarts the count. -/
theorem DetInv.windowInsert {d : Det} (v : F32) (h : DetInv d) : DetInv (windowInsert d v).1 where
  half_pos := h.half_pos
  half_le := h.half_le
  size_eq := h.size_eq
  hop_pos := h.hop_pos
  hop_le := h.hop_le
  hop_le_size := h.hop_le_size
  pos_lt := Nat.mod_lt _ ((Nat.zero_le _).trans_lt h.pos_lt)
  count_unfilled := by
    intro hf
    have hcount := h.count_unfilled
    rw [windowInsert_hopCount, windowInsert_trigger, hf]
    rw [windowInsert_filled, Bool.or_eq_false_iff, decide_eq_false_iff_not] at hf
    rcases succ_mod_cases h.pos_lt with ⟨-, hm⟩ | ⟨-, hm⟩
    · rw [windowInsert_writePos, hm, hcount hf.1]
      rfl
    · exact absurd hm hf.2
  count_filled := by
    intro hf
    rw [windowInsert_hopCount, windowInsert_trigger, hf, windowInsert_hopSize, Bool.true_and]
    have hhop := h.hop_pos
    split
    · exact hhop
    · next ht => exact not_le.1 fun hc => ht (decide_eq_true hc)
  canonical := Memory.write_wf _ v h.canonical
  below := Memory.below_write v h.pos_lt h.below

/-- The published result, the engine's state and the detector's own decimator do not matter to the shape. -/
theorem DetInv.other {d : Det} (h : DetInv d) (f c p : F32) (e : EState) (dec : Decim) :
    DetInv { d with pubFreq := f, pubConf := c, pendConf := p, estate := e, dec := dec } :=
  ⟨h.half_pos, h.half_le, h.size_eq, h.hop_pos, h.hop_le, h.hop_le_size, h.pos_lt, h.count_unfilled, h.count_filled,
    h.canonical, h.below⟩

theorem detInv_preparedDet (decim : Bool) {r : F64} (hr : RateRange r) : DetInv (preparedDet decim r) := by
  obtain ⟨-, -, h1, h2, h3, h4, h5⟩ := preparedDet_sizes decim hr
  have hW : (preparedDet decim r).windowSize = 2 * (preparedDet decim r).halfWindow := rfl
  exact
    { half_pos := h1
      half_le := h2
      size_eq := hW
      hop_pos := h3
      hop_le := h4
      hop_le_size := by omega
      pos_lt := by rw [hW]; exact Nat.mul_pos two_pos h1
      count_unfilled := fun _ => rfl
      count_filled := fun hf => Bool.noConfusion hf
      canonical := rfl
      below := fun _ _ => rfl }

/-! ### The invariant -/

theorem ShapeInv.withDet {s : State} {d : Det} (h : ShapeInv s) (hd : DetInv d) (he : d.estate = s.det.estate) :
    ShapeInv (s.withDet d) :=
  ⟨hd, h.queue, h.sync_empty, fun ha => he.trans (h.sync_ready ha)⟩

theorem acceptSample_keeps_shape {s : State} (v : F32) (hs : ShapeInv s) : ShapeInv (acceptSample s v) := by
  rcases acceptSample_cases s v with ⟨ha, hn, h⟩ | ⟨-, -, h⟩ | ⟨-, h⟩ <;> rw [h]
  · exact ⟨hs.det, hs.queue.push v hn, fun hc => absurd (ha.symm.trans hc) Bool.noConfusion, hs.sync_ready⟩
  · exact ⟨hs.det, hs.queue, hs.sync_empty, hs.sync_ready⟩
  · have hins := hs.det.windowInsert v
    rcases insertSync_cases s v with ⟨-, h'⟩ | ⟨-, h'⟩ <;> rw [h']
    · exact hs.withDet hins rfl
    · exact ⟨hins.other _ _ _ _ _, hs.queue, hs.sync_empty, hs.sync_ready⟩

theorem engineStep_keeps_shape {s : State} (hs : ShapeInv s) : ShapeInv (engineStep s) := by
  rcases engineStep_cases s with ⟨ha, -, h⟩ | ⟨ha, -, -, hn, h⟩ | ⟨-, h⟩ <;> rw [h]
  · exact ⟨hs.det.other _ _ _ _ _, hs.queue, hs.sync_empty, fun _ => rfl⟩
  · have hasync : s.acfg.asyncEn ≠ false := fun hc => Bool.noConfusion (ha.symm.trans hc)
    have hins := hs.det.windowInsert s.queue.front
    rcases drainStep_cases s with ⟨-, h'⟩ | ⟨-, h'⟩ <;> rw [h']
    · exact ⟨hins, hs.queue.pop hn, fun hc => absurd hc hasync, fun hc => absurd hc hasync⟩
    · exact ⟨hins.other _ _ _ _ _, hs.queue.pop hn, fun hc => absurd hc hasync, fun hc => absurd hc hasync⟩
  · exact hs

theorem prepareDetector_keeps_shape {s : State} (r : F64) (hs : ShapeInv s) : ShapeInv (prepareDetector s r) :=
  ⟨detInv_preparedDet _ (rateRange_sanitiseRate r), hs.queue.clear, fun _ => rfl, fun _ => rfl⟩

theorem detInv_reset : DetInv Det.reset := by
  constructor
  case below => exact fun _ _ => rfl
  all_goals decide

theorem shapeInv_reset : ShapeInv State.reset where
  det := detInv_reset
  queue := ⟨rfl, fun _ _ => rfl, by decide, rfl, by decide⟩
  sync_empty := fun _ => rfl
  sync_ready := fun _ => rfl

/-- Settles O56: a sample is pushed where the queue has room or inserted by R98, the engine pops where a sample waits, and
DET.PREPARE gives sizes in range and an empty queue. -/
theorem stepKeepsTheShape : Obligations.StepKeepsTheShape := by
  refine stepKeeps_of_detector (fun s t hdet hqueue hacfg hs => ?_) (fun s r => prepareDetector_keeps_shape r)
    (fun s c hs => hs.withDet (hs.det.other _ _ _ _ _) rfl) (fun s v => acceptSample_keeps_shape v)
    (fun s => engineStep_keeps_shape) shapeInv_reset
  exact ⟨hdet ▸ hs.det, hqueue ▸ hs.queue, by rw [hacfg, hqueue]; exact hs.sync_empty, by rw [hacfg, hdet]; exact hs.sync_ready⟩

end Sys2Proof.Machine

/-! PROOFS. The command's bytes in the window and the analysis queue as a list (20_memory.md R46, R62; 30_encoding.md R77,
R80). -/

namespace Sys2Proof.Machine

/-! ### The bytes of a command (R46, R77, R80) -/

open Sys2Proof.Laws in
theorem encodeLegal : ∀ i : Instr, EncodeLegal.Statement i
  | .detPrepare => EncodeLegal.detPrepare
  | .detFeed => EncodeLegal.detFeed
  | .detGetResult => EncodeLegal.detGetResult
  | .oscPrepare => EncodeLegal.oscPrepare
  | .oscSetFreq => EncodeLegal.oscSetFreq
  | .oscSetWave w => EncodeLegal.oscSetWave w
  | .oscNext => EncodeLegal.oscNext
  | .smoPrepare => EncodeLegal.smoPrepare
  | .smoSetAmount => EncodeLegal.smoSetAmount
  | .smoSetSens => EncodeLegal.smoSetSens
  | .smoProcess => EncodeLegal.smoProcess
  | .decReset => EncodeLegal.decReset
  | .decProcess => EncodeLegal.decProcess
  | .decGetOutput => EncodeLegal.decGetOutput

theorem decode_encode (i : Instr) : decode (encode i) = .ok i := by
  obtain ⟨-, -, -, hdecode⟩ := encodeLegal i
  exact hdecode

theorem decodeBytes_bytesOfWord (c : Word) : decodeBytes (bytesOfWord c) = decode c :=
  congrArg decode (wordOfList_bytesOfWord c)

theorem decodeBytes_encodeBytes (i : Instr) : decodeBytes (encodeBytes i) = .ok i :=
  (decodeBytes_bytesOfWord (encode i)).trans (decode_encode i)

/-- A word of the opcode table with all its 32 bits is laid out as the word itself. -/
theorem tableWordBytes_toNat (c : Word) : tableWordBytes 32 c.toNat = bytesOfWord c := by
  rw [tableWordBytes, Nat.mod_eq_of_lt c.isLt, BitVec.ofNat_toNat, BitVec.setWidth_eq]

theorem decodeTableWord_encode (i : Instr) : decodeTableWord 32 (encode i).toNat = some i := by
  unfold decodeTableWord
  rw [tableWordBytes_toNat, ← encodeBytes, decodeBytes_encodeBytes]

theorem decodeBytes_wrongLength {bytes : List Byte} (h : bytes.length ≠ 4) : decodeBytes bytes = .error .wrongLength := by
  unfold decodeBytes
  split
  · exact absurd rfl h
  · rfl

/-- Settles O3: the bytes make the encoded word again, which decodes to its command; the four words are those of R77. -/
theorem commandBytesDecodeBack : Obligations.CommandBytesDecodeBack := by
  refine ⟨fun i => ⟨decodeBytes_encodeBytes i, decodeTableWord_encode i⟩, fun _ => decodeBytes_wrongLength, ?_, ?_, ?_, ?_⟩
  · exact decodeBytes_encodeBytes .detFeed
  · exact decodeBytes_encodeBytes (.oscSetWave .square)
  · exact decodeBytes_encodeBytes .smoProcess
  · exact decodeBytes_encodeBytes .decGetOutput

/-! ### The queue is a FIFO (R62) -/

/-- With room in the queue, a push writes at an index where no sample waits: the wrap does not come round to one. -/
theorem QueueInv.slot_ne_wr {q : Queue} (h : QueueInv q) (hn : q.n < Config.queueDepth) {k : Nat} (hk : k < q.n) :
    (q.rd + k) % Config.queueDepth ≠ q.wr := by
  intro hslot
  have hmod : k ≡ q.n [MOD Config.queueDepth] := Nat.ModEq.add_left_cancel' q.rd (hslot.trans h.wr_eq)
  exact hk.ne (hmod.eq_of_lt_of_lt (hk.trans hn) hn)

/-- A push appends its value to the waiting samples. -/
theorem QueueInv.contents_push {q : Queue} (v : F32) (h : QueueInv q) (hn : q.n < Config.queueDepth) :
    (q.push v).contents = q.contents ++ [v] := by
  have hnew : Memory.read (q.push v).mem ((q.rd + q.n) % Config.queueDepth) = v := by
    rw [← h.wr_eq, Queue.push_mem, Memory.read_write_same _ v h.canonical]
  have hold : ∀ k ∈ List.range q.n, Memory.read (q.push v).mem ((q.rd + k) % Config.queueDepth) =
      Memory.read q.mem ((q.rd + k) % Config.queueDepth) := fun k hk =>
    Memory.read_write_other q.mem v (h.slot_ne_wr hn (List.mem_range.1 hk))
  unfold Queue.contents
  rw [Queue.push_n, Queue.push_rd, List.range_succ, List.map_append, List.map_congr_left hold, List.map_singleton, hnew]

/-- The waiting samples are the one a pop answers, followed by those it leaves. -/
theorem QueueInv.contents_pop {q : Queue} (h : QueueInv q) (hn : 0 < q.n) : q.contents = q.front :: q.pop.contents := by
  have hfirst : Memory.read q.mem ((q.rd + 0) % Config.queueDepth) = q.front := by
    rw [Nat.add_zero, Nat.mod_eq_of_lt h.rd_lt, Queue.front]
  have hrest (k : Nat) : (q.rd + (k + 1)) % Config.queueDepth = (q.pop.rd + k) % Config.queueDepth := by
    rw [Queue.pop_rd, Nat.mod_add_mod, Nat.add_assoc, Nat.add_comm 1 k]
  obtain ⟨n, hsucc⟩ : ∃ n, q.n = n + 1 := Nat.exists_eq_add_of_le' hn
  unfold Queue.contents
  rw [Queue.pop_n, Queue.pop_mem, hsucc, Nat.add_sub_cancel, List.range_succ_eq_map, List.map_cons, List.map_map, hfirst]
  exact congrArg _ (List.map_congr_left fun k _ => congrArg _ (hrest k))

/-- Settles O23: a push writes where no sample waits, and a pop reads at the read cursor. -/
theorem queueIsFifo : Obligations.QueueIsFifo := fun q h =>
  ⟨fun v hn => ⟨h.contents_push v hn, Memory.read_write_same q.wr v h.canonical, rfl, rfl, rfl⟩,
    fun hn => ⟨h.contents_pop hn, rfl, rfl, rfl, rfl, rfl⟩⟩

end Sys2Proof.Machine

/-! PROOFS. The decoder against the encoder and against the command map (30_encoding.md R70, R73, R74, R77, R81). -/

namespace Sys2Proof.Machine

/-! ### Decoding inverts encoding (R70, R81) -/

/-- Settles O1: the tests of R70 leave only the encoded word, and that word passes them. -/
theorem decodeAndEncodeAgree : Obligations.DecodeAndEncodeAgree := by
  refine fun c i => ⟨fun h => ?_, fun ⟨_, hc⟩ => hc ▸ decode_encode i⟩
  obtain ⟨hwf, -⟩ := encodeLegal i
  exact ⟨hwf, eq_encode_of_decode h⟩

/-! ### The command map (R77, R81) -/

/-- Every mask of R77 keeps all bits but the two of WAVE, and no match has one of those two. -/
theorem opcodeMap_masks : ∀ r ∈ opcodeMap, r.2.1 &&& 0xFFFFFFFC#32 = 0xFFFFFFFC#32 ∧ r.1 &&& 0xFFFFFFFC#32 = r.1 := by
  decide

/-- The matches of R77 are all different. -/
theorem opcodeMap_matches_ne : opcodeMap.Pairwise fun r r' => r.1 ≠ r'.1 := by
  decide

section rows
variable {c : Word} {r : Word × Word × (Word → Instr)}

/-- A word that matches a row has the row's match above WAVE. -/
theorem and_of_row_matches (hr : r ∈ opcodeMap) (hm : c &&& r.2.1 = r.1) :
    c &&& 0xFFFFFFFC#32 = r.1 := by
  obtain ⟨hmask, hmatch⟩ := opcodeMap_masks r hr
  rw [← hmask, ← BitVec.and_assoc, hm, hmatch]

/-- Under the mask of WAVE's two bits only the WAVE field is left. -/
theorem and_three_eq_waveField (c : Word) : c &&& 0x3#32 = (waveField c).setWidth 32 := by
  apply BitVec.eq_of_toNat_eq
  have hlt : (waveField c).toNat < 2 ^ 32 := (waveField c).isLt.trans (by norm_num)
  rw [BitVec.toNat_and, BitVec.toNat_setWidth, Nat.mod_eq_of_lt hlt, waveField, BitVec.extractLsb'_toNat, Nat.shiftRight_zero]
  exact Nat.and_two_pow_sub_one_eq_mod c.toNat 2

/-- A word that matches a row is the row's match with some WAVE field. -/
theorem eq_match_or_wave (hr : r ∈ opcodeMap) (hm : c &&& r.2.1 = r.1) :
    c = r.1 ||| (waveField c).setWidth 32 :=
  calc c = c &&& (0xFFFFFFFC#32 ||| 0x3#32) := (BitVec.and_allOnes (x := c)).symm
    _ = (c &&& 0xFFFFFFFC#32) ||| (c &&& 0x3#32) := BitVec.and_or_distrib_left
    _ = r.1 ||| (waveField c).setWidth 32 := by rw [and_of_row_matches hr hm, and_three_eq_waveField]

/-- Of the four words with a row's match above WAVE, those that match the row under its mask decode to its command. -/
theorem decode_match_or_wave : ∀ r ∈ opcodeMap, ∀ w : BitVec 2, (r.1 ||| w.setWidth 32) &&& r.2.1 = r.1 →
    decode (r.1 ||| w.setWidth 32) = .ok (r.2.2 (r.1 ||| w.setWidth 32)) := by
  decide

theorem decode_of_row_matches (hr : r ∈ opcodeMap) (hm : c &&& r.2.1 = r.1) :
    decode c = .ok (r.2.2 c) := by
  have hdecode := decode_match_or_wave r hr (waveField c)
  rw [← eq_match_or_wave hr hm] at hdecode
  exact hdecode hm

end rows

/-- The encoded word of every command matches a row that names the command. -/
theorem encode_matches_row (i : Instr) : ∃ r ∈ opcodeMap, encode i &&& r.2.1 = r.1 ∧ i = r.2.2 (encode i) := by
  cases i with
  | oscSetWave w => cases w <;> decide
  | _ => decide

/-- Settles O2: a decoded word is an encoded one and so has its row; a word of two rows would have both their matches above
WAVE. -/
theorem decoderFollowsTheCommandMap : Obligations.DecoderFollowsTheCommandMap := by
  refine ⟨fun c i => ⟨fun h => ?_, ?_⟩, ?_⟩
  · rw [eq_encode_of_decode h]
    exact encode_matches_row i
  · rintro ⟨r, hr, hm, rfl⟩
    exact decode_of_row_matches hr hm
  · refine opcodeMap_matches_ne.imp_of_mem fun hr hr' hne c ⟨hm, hm'⟩ => hne ?_
    exact (and_of_row_matches hr hm).symm.trans (and_of_row_matches hr' hm')

end Sys2Proof.Machine

/-! PROOFS. Every stored sample is finite (40_detector.md R96; 41_detector_analysis.md R126; 44_decimator.md R176), kept by every
step. -/

namespace Sys2Proof.Machine

/-! ### The memories and the decimators -/

theorem Memory.finite_write {m : Memory} {v : F32} (i : Nat) (hc : Memory.wf m = true) (hm : Memory.finite m)
    (hv : finite32 v = true) : Memory.finite (Memory.write m i v) := by
  intro j
  rw [Memory.read_write hc]
  split
  · exact hv
  · exact hm j

/-- A decimator whose delay line and output are finite, as `FiniteInv` asks of both decimators. -/
def Decim.Finite (d : Decim) : Prop := (∀ x ∈ d.dl.toList, finite32 x = true) ∧ finite32 d.out = true

theorem Decim.finite_reset : Decim.reset.Finite := by
  refine ⟨fun x hx => ?_, by decide⟩
  rw [List.eq_of_mem_replicate (n := 7) (a := 0#32) hx]
  decide

/-- A finite sample enters the delay line, and what the filter computes is finite (R174, R176). -/
theorem Decim.Finite.step {d : Decim} {x : F32} (h : d.Finite) (hx : finite32 x = true) : (decimStep d x).1.Finite := by
  constructor
  · rw [decimStep_dl, DelayLine.toList_shift]
    intro y hy
    rcases List.mem_cons.1 (List.mem_of_mem_take hy) with rfl | hold
    · exact hx
    · exact h.1 y hold
  · rcases decimStep_cases d x with ⟨-, e⟩ | ⟨-, e⟩ <;> rw [e]
    · exact h.2
    · exact finite32_firOutput _

/-! ### The detector and the queue -/

section finite
variable {s : State} {v : F32}

theorem FiniteInv.withDetDec {c : Decim} (hs : FiniteInv s) (hc : c.Finite) : FiniteInv (s.withDet { s.det with dec := c }) :=
  ⟨hs.dec, hc, hs.win, hs.queue, hs.winCanonical, hs.queueCanonical⟩

theorem acceptSample_keeps_finite (hs : FiniteInv s) (hv : finite32 v = true) : FiniteInv (acceptSample s v) := by
  rcases acceptSample_cases s v with ⟨-, -, h⟩ | ⟨-, -, h⟩ | ⟨-, h⟩ <;> rw [h]
  · exact ⟨hs.dec, hs.detDec, hs.win, Memory.finite_write _ hs.queueCanonical hs.queue hv, hs.winCanonical,
      Memory.write_wf _ _ hs.queueCanonical⟩
  · exact ⟨hs.dec, hs.detDec, hs.win, hs.queue, hs.winCanonical, hs.queueCanonical⟩
  · have hwin := Memory.finite_write s.det.writePos hs.winCanonical hs.win hv
    have hcanonical := Memory.write_wf s.det.writePos v hs.winCanonical
    rcases insertSync_cases s v with ⟨-, h'⟩ | ⟨-, h'⟩ <;> rw [h'] <;>
      exact ⟨hs.dec, hs.detDec, hwin, hs.queue, hcanonical, hs.queueCanonical⟩

/-- What goes on from a fed finite sample is the sample or an output of the detector's own decimator. -/
theorem feedSample_keeps_finite (hs : FiniteInv s) (hv : finite32 v = true) : FiniteInv (feedSample s v) := by
  have hdec : (decimStep s.det.dec v).1.Finite := Decim.Finite.step hs.detDec hv
  rcases feedSample_cases s v with ⟨-, h⟩ | ⟨-, -, h⟩ | ⟨-, -, h⟩ <;> rw [h]
  · exact acceptSample_keeps_finite hs hv
  · exact hs.withDetDec hdec
  · exact acceptSample_keeps_finite (hs.withDetDec hdec) hdec.2

/-- The drain step moves an element of the queue into the window. -/
theorem engineStep_keeps_finite (hs : FiniteInv s) : FiniteInv (engineStep s) := by
  rcases engineStep_cases s with ⟨-, -, h⟩ | ⟨-, -, -, -, h⟩ | ⟨-, h⟩ <;> rw [h]
  · exact ⟨hs.dec, hs.detDec, hs.win, hs.queue, hs.winCanonical, hs.queueCanonical⟩
  · have hwin := Memory.finite_write s.det.writePos hs.winCanonical hs.win (hs.queue s.queue.rd)
    have hcanonical := Memory.write_wf s.det.writePos s.queue.front hs.winCanonical
    rcases drainStep_cases s with ⟨-, h'⟩ | ⟨-, h'⟩ <;> rw [h'] <;>
      exact ⟨hs.dec, hs.detDec, hwin, hs.queue, hcanonical, hs.queueCanonical⟩
  · exact hs

theorem prepareDetector_keeps_finite (r : F64) (hs : FiniteInv s) : FiniteInv (prepareDetector s r) :=
  ⟨hs.dec, Decim.finite_reset, fun _ => rfl, hs.queue, rfl, hs.queueCanonical⟩

/-! ### The invariant -/

/-- The invariant speaks of the detector, the queue and the stand-alone decimator alone. -/
theorem FiniteInv.frame {t : State} (hs : FiniteInv s) (hdet : t.det = s.det) (hqueue : t.queue = s.queue)
    (hdec : t.dec = s.dec) : FiniteInv t :=
  ⟨hdec ▸ hs.dec, hdet ▸ hs.detDec, hdet ▸ hs.win, hqueue ▸ hs.queue, hdet ▸ hs.winCanonical, hqueue ▸ hs.queueCanonical⟩

theorem FiniteInv.withDec {c : Decim} (hs : FiniteInv s) (hc : c.Finite) : FiniteInv (s.withDec c) :=
  ⟨hc, hs.detDec, hs.win, hs.queue, hs.winCanonical, hs.queueCanonical⟩

end finite

theorem exec_keeps_finite {i : Instr} {s t : State} (hs : FiniteInv s) (h : exec i s = .next t) : FiniteInv t := by
  cases i
  case detPrepare =>
    obtain rfl := Host.Outcome.next.inj h
    exact prepareDetector_keeps_finite _ hs
  case detFeed =>
    obtain rfl := Host.Outcome.next.inj h
    exact feedSample_keeps_finite hs (finite32_sanitiseSample _)
  case decReset =>
    obtain rfl := Host.Outcome.next.inj h
    exact hs.withDec Decim.finite_reset
  case decProcess =>
    obtain rfl := Host.Outcome.next.inj h
    exact (hs.withDec (Decim.Finite.step hs.dec (finite32_sanitiseSample _))).frame rfl rfl rfl
  all_goals
    have hw := writes_of_exec h
    obtain ⟨hdet, hqueue, -⟩ := hw.keeps_detector (by simp) (by simp)
    exact hs.frame hdet hqueue (congrArg State.dec hw :)

theorem finiteInv_reset : FiniteInv State.reset :=
  ⟨Decim.finite_reset, Decim.finite_reset, fun _ => rfl, fun _ => rfl, rfl, rfl⟩

/-- Settles O60: only sanitised samples and filter outputs, both finite, enter the delay lines, the queue and the window. -/
theorem stepKeepsSamplesFinite : Obligations.StepKeepsSamplesFinite :=
  stepKeeps_of (fun _ _ hsame hs => hs.frame hsame.det hsame.queue hsame.dec) (fun _ _ _ => exec_keeps_finite)
    (fun _ => engineStep_keeps_finite) finiteInv_reset

end Sys2Proof.Machine

/-! PROOFS. The window and its trigger after a prepare (40_detector.md R89, R98, R109): what a list of inserts leaves in the window,
and which of them trigger a pass. -/

namespace Sys2Proof.Machine

section inserts
variable {d : Det}

/-! ### The linearised window (R98, R111) -/

/-- Within one turn round a window of `w` entries no other place is the starting one. -/
theorem add_mod_ne_self {p w k : Nat} (hp : p < w) (h0 : 0 < k) (hk : k < w) : (p + k) % w ≠ p := by
  intro h
  have hmod : k ≡ 0 [MOD w] := Nat.ModEq.add_left_cancel' p (h.trans (Nat.mod_eq_of_lt hp).symm)
  exact h0.ne' (hmod.eq_of_lt_of_lt hk (h0.trans hk))

/-- An insert drops the oldest sample of the window and appends the new one. -/
theorem linearise_windowInsert (v : F32) (hc : Memory.wf d.win = true) (hp : d.writePos < d.windowSize) :
    linearise (windowInsert d v).1 = (linearise d ++ [v]).drop 1 := by
  obtain ⟨w, hw⟩ : ∃ w, d.windowSize = w + 1 := Nat.exists_eq_add_of_le' ((Nat.zero_le _).trans_lt hp)
  have hslot (j : Nat) : ((d.writePos + 1) % d.windowSize + j) % d.windowSize = (d.writePos + (j + 1)) % d.windowSize := by
    rw [Nat.mod_add_mod, Nat.add_assoc, Nat.add_comm 1 j]
  have hnew : Memory.read (windowInsert d v).1.win ((d.writePos + (w + 1)) % d.windowSize) = v := by
    rw [← hw, Nat.add_mod_right, Nat.mod_eq_of_lt hp, windowInsert_win, Memory.read_write_same _ v hc]
  have hold : ∀ j ∈ List.range w, Memory.read (windowInsert d v).1.win ((d.writePos + (j + 1)) % d.windowSize) =
      Memory.read d.win ((d.writePos + (j + 1)) % d.windowSize) := fun j hj =>
    Memory.read_write_other d.win v (add_mod_ne_self hp j.succ_pos (hw ▸ Nat.succ_lt_succ (List.mem_range.1 hj)))
  unfold linearise
  simp only [windowInsert_writePos, windowInsert_windowSize, hslot]
  conv_lhs => rw [hw, List.range_succ, ← hw, List.map_append, List.map_singleton, hnew, List.map_congr_left hold]
  conv_rhs => rw [hw, List.range_succ_eq_map, ← hw, List.map_cons, List.map_map]
  rfl

/-- After a list of inserts the window holds the last of its samples and the list's. -/
theorem linearise_insertAll (xs : List F32) (h : DetInv d) :
    linearise (insertAll d xs).1 = (linearise d ++ xs).drop xs.length := by
  induction xs generalizing d with
  | nil => simp [insertAll]
  | cons x xs ih =>
    have hlen : 1 ≤ (linearise d ++ [x]).length := by simp
    calc linearise (insertAll (windowInsert d x).1 xs).1
        = (linearise (windowInsert d x).1 ++ xs).drop xs.length := ih (h.windowInsert x)
      _ = ((linearise d ++ [x] ++ xs).drop 1).drop xs.length := by
          rw [linearise_windowInsert x h.canonical h.pos_lt, List.drop_append_of_le_length hlen]
      _ = (linearise d ++ x :: xs).drop (xs.length + 1) := by
          rw [List.drop_drop, List.append_assoc, Nat.add_comm]
          rfl

/-! ### The counters (R98, R109) -/

/-- The insert numbered `n`, counting from 1, is one of those numbered `w + k · hop`. -/
def triggersAt (w hop n : Nat) : Bool := decide (w ≤ n ∧ (n - w) % hop = 0)

/-- How many of the first `n` inserts trigger a pass (R109). -/
def passesAfter (w hop n : Nat) : Nat := if n < w then 0 else (n - w) / hop + 1

theorem passesAfter_succ {w hop : Nat} (n : Nat) :
    passesAfter w hop (n + 1) = passesAfter w hop n + (triggersAt w hop (n + 1)).toNat := by
  unfold passesAfter triggersAt
  rcases lt_trichotomy (n + 1) w with hlt | rfl | hgt
  · simp [hlt, hlt.not_ge, Nat.lt_of_succ_lt hlt]
  · simp
  · obtain ⟨m, rfl⟩ := Nat.exists_eq_add_of_le (Nat.le_of_lt_succ hgt)
    have hsub : w + m + 1 - w = m + 1 := by omega
    rw [if_neg (by omega), if_neg (by omega), hsub, Nat.add_sub_cancel_left, Nat.succ_div]
    by_cases hm : (m + 1) % hop = 0
    · simp [hm, Nat.dvd_of_mod_eq_zero, hgt.le]
    · simp [hm, Nat.dvd_iff_mod_eq_zero]

/-- The detector's counters after `n` inserts: each is a function of `n`, and the hop is no longer than the window. -/
structure AfterInserts (n : Nat) (d : Det) : Prop where
  hop_pos : 1 ≤ d.hopSize
  hop_le : d.hopSize ≤ d.windowSize
  writePos : d.writePos = n % d.windowSize
  filled : d.filled = decide (d.windowSize ≤ n)
  hopCount : d.hopCount = if n < d.windowSize then n else (n - d.windowSize) % d.hopSize

section oneInsert
variable {n : Nat} (v : F32) (h : AfterInserts n d)
include h

theorem AfterInserts.filled_windowInsert : (windowInsert d v).1.filled = decide (d.windowSize ≤ n + 1) := by
  rw [windowInsert_filled, h.filled, h.writePos, Nat.mod_add_mod]
  rcases lt_trichotomy (n + 1) d.windowSize with hlt | heq | hgt
  · simp [hlt.not_ge, (Nat.lt_of_succ_lt hlt).not_ge, Nat.mod_eq_of_lt hlt]
  · simp [heq]
  · simp [Nat.le_of_lt_succ hgt, hgt.le]

/-- The first fill triggers, since the hop is no longer than the window; after it the hop counter has reached the hop at its
multiples. -/
theorem AfterInserts.trigger_windowInsert : (windowInsert d v).2 = triggersAt d.windowSize d.hopSize (n + 1) := by
  rw [windowInsert_trigger, h.filled_windowInsert v, h.hopCount, triggersAt, ← Bool.decide_and, decide_eq_decide]
  refine and_congr_right fun hfull => ?_
  by_cases hlt : n < d.windowSize
  · have hfirst : n + 1 = d.windowSize := by omega
    rw [if_pos hlt, hfirst, Nat.sub_self, Nat.zero_mod]
    exact iff_of_true h.hop_le rfl
  · obtain ⟨m, rfl⟩ := Nat.exists_eq_add_of_le (not_lt.1 hlt)
    rw [if_neg hlt, Nat.add_assoc, Nat.add_sub_cancel_left, Nat.add_sub_cancel_left, ← Nat.mod_add_mod m d.hopSize 1]
    rcases succ_mod_cases (Nat.mod_lt m h.hop_pos) with ⟨hm, e⟩ | ⟨hm, e⟩ <;> rw [e] <;> omega

theorem AfterInserts.windowInsert : AfterInserts (n + 1) (windowInsert d v).1 where
  hop_pos := h.hop_pos
  hop_le := h.hop_le
  writePos := by rw [windowInsert_writePos, windowInsert_windowSize, h.writePos, Nat.mod_add_mod]
  filled := h.filled_windowInsert v
  hopCount := by
    rw [windowInsert_hopCount, h.trigger_windowInsert v, h.hopCount, windowInsert_windowSize, windowInsert_hopSize, triggersAt]
    rcases lt_trichotomy (n + 1) d.windowSize with hlt | heq | hgt
    · simp [hlt, hlt.not_ge, Nat.lt_of_succ_lt hlt]
    · simp [heq]
    · obtain ⟨m, rfl⟩ := Nat.exists_eq_add_of_le (Nat.le_of_lt_succ hgt)
      have hsub : d.windowSize + m + 1 - d.windowSize = m + 1 := by omega
      rw [if_neg (by omega : ¬ d.windowSize + m < d.windowSize), if_neg hgt.not_gt, hsub, Nat.add_sub_cancel_left,
        ← Nat.mod_add_mod m d.hopSize 1]
      rcases succ_mod_cases (Nat.mod_lt m h.hop_pos) with ⟨-, e⟩ | ⟨-, e⟩ <;> rw [e] <;> simp [hgt.le]

end oneInsert

theorem AfterInserts.insertAll {n : Nat} (xs : List F32) (h : AfterInserts n d) :
    AfterInserts (n + xs.length) (insertAll d xs).1 ∧ (insertAll d xs).1.windowSize = d.windowSize := by
  induction xs generalizing n d with
  | nil => exact ⟨h, rfl⟩
  | cons x xs ih =>
    obtain ⟨hcounts, hsize⟩ := ih (h.windowInsert x)
    rw [Nat.add_right_comm, Nat.add_assoc] at hcounts
    exact ⟨hcounts, hsize⟩

/-- Which inserts of a list trigger, by their numbers. -/
theorem AfterInserts.triggers {n : Nat} (xs : List F32) (h : AfterInserts n d) :
    (Machine.insertAll d xs).2 = (List.range' (n + 1) xs.length).map (triggersAt d.windowSize d.hopSize) := by
  induction xs generalizing n d with
  | nil => rfl
  | cons x xs ih =>
    rw [List.length_cons, List.range'_succ, List.map_cons, ← h.trigger_windowInsert x]
    exact congrArg _ (ih (h.windowInsert x))

end inserts

theorem count_triggersAt {w hop : Nat} (n len : Nat) :
    passesAfter w hop n + ((List.range' (n + 1) len).map (triggersAt w hop)).count true = passesAfter w hop (n + len) := by
  induction len generalizing n with
  | zero => rfl
  | succ len ih =>
    rw [List.range'_succ, List.map_cons, List.count_cons, show n + (len + 1) = n + 1 + len by omega, ← ih (n + 1),
      passesAfter_succ]
    cases triggersAt w hop (n + 1) <;> simp +arith

theorem afterInserts_preparedDet (decim : Bool) (r : F64) : AfterInserts 0 (preparedDet decim (sanitiseRate r)) := by
  have h := detInv_preparedDet decim (rateRange_sanitiseRate r)
  have hpos : 0 < (preparedDet decim (sanitiseRate r)).windowSize := h.pos_lt
  exact
    { hop_pos := h.hop_pos
      hop_le := h.hop_le_size
      writePos := (Nat.zero_mod _).symm
      filled := (decide_eq_false hpos.not_ge).symm
      hopCount := (if_pos hpos).symm }

theorem linearise_preparedDet (decim : Bool) (r : F64) :
    linearise (preparedDet decim r) = List.replicate (preparedDet decim r).windowSize 0x00000000#32 :=
  List.eq_replicate_iff.2 ⟨length_linearise _, fun x hx => by
    obtain ⟨j, -, rfl⟩ := List.mem_map.1 hx
    rfl⟩

/-- Settles O21: a prepared window is all zeros, and each insert shifts one sample in. -/
theorem windowHoldsTheMostRecentSamples : Obligations.WindowHoldsTheMostRecentSamples := by
  intro decim r xs
  obtain ⟨hcounts, hsize⟩ := (afterInserts_preparedDet decim r).insertAll xs
  constructor
  · rw [linearise_insertAll xs (detInv_preparedDet decim (rateRange_sanitiseRate r)), linearise_preparedDet]
  · rw [hcounts.filled, hsize, Nat.zero_add, decide_eq_true_iff]

/-- Settles O22: the counters after `n` inserts are functions of `n`, and so is the trigger. -/
theorem triggersAtTheStatedInserts : Obligations.TriggersAtTheStatedInserts := by
  intro decim r xs d triggers
  have h : AfterInserts 0 d := afterInserts_preparedDet decim r
  have htriggers : triggers = (List.range' 1 xs.length).map (triggersAt d.windowSize d.hopSize) := h.triggers xs
  rw [htriggers]
  refine ⟨by simp, fun n h1 hn => ?_, ?_⟩
  · obtain ⟨k, rfl⟩ := Nat.exists_eq_add_of_le h1
    have hk : k < xs.length := by omega
    simp [hk, triggersAt]
  · have hcount := count_triggersAt (w := d.windowSize) (hop := d.hopSize) 0 xs.length
    have hpos : 0 < d.windowSize := h.hop_pos.trans h.hop_le
    rwa [Nat.zero_add, Nat.zero_add, passesAfter, if_pos hpos, Nat.zero_add, passesAfter] at hcount

end Sys2Proof.Machine

/-! PROOFS. The detector's commands and the engine's two steps (40_detector.md R93 to R105): each branch of an operation as an
equation, and the effects put together from them. -/

namespace Sys2Proof.Machine

/-- The detector's own decimator replaced, as the first part of a decimated feed does (R94). -/
def State.withDetDec (s : State) (c : Decim) : State := s.withDet { s.det with dec := c }

section branches
variable {s : State} {v x : F32}

/-! ### The ways of a fed sample (R94, R97 to R99) -/

/-- R98's pseudocode is the model's insert. -/
theorem insertOf_eq (d : Det) (v : F32) : insertOf d v = windowInsert d v := by
  have hfilled : (if (d.writePos + 1) % d.windowSize = 0 then true else d.filled) =
      (d.filled || decide ((d.writePos + 1) % d.windowSize = 0)) := by
    by_cases h : (d.writePos + 1) % d.windowSize = 0 <;> simp [h]
  simp only [insertOf, hfilled]
  rfl

theorem insertSync_of_trigger (h : (windowInsert s.det v).2 = true) : insertSync s v =
    (s.withDet { (windowInsert s.det v).1 with
      pubFreq := (analyse s.acfg s.draws (windowInsert s.det v).1).frequency
      pubConf := (analyse s.acfg s.draws (windowInsert s.det v).1).confidence }).withDraws (s.draws + 1) := if_pos h

theorem insertSync_of_no_trigger (h : (windowInsert s.det v).2 = false) :
    insertSync s v = s.withDet (windowInsert s.det v).1 := if_neg (Bool.eq_false_iff.1 h)

theorem enqueue_of_room (h : s.queue.n < Config.queueDepth) : enqueue s v = s.withQueue (s.queue.push v) := if_pos h

theorem enqueue_of_full (h : Config.queueDepth ≤ s.queue.n) : enqueue s v = raise .qOverflow s := if_neg h.not_gt

theorem acceptSample_async (h : s.acfg.asyncEn = true) : acceptSample s v = enqueue s v := if_pos h

theorem acceptSample_sync (h : s.acfg.asyncEn = false) : acceptSample s v = insertSync s v := if_neg (Bool.eq_false_iff.1 h)

/-- What a fed sample puts through the detector's own decimator, and what goes on from it. -/
theorem feedSample_eq (s : State) (x : F32) :
    feedSample s x =
      if s.acfg.decimEn then
        (if s.det.dec.ph then acceptSample (s.withDetDec (decimStep s.det.dec x).1) (decimStep s.det.dec x).1.out
          else s.withDetDec (decimStep s.det.dec x).1)
      else acceptSample s x := by
  simp only [feedSample, decimStep_ready]
  rfl

theorem feedSample_undecimated (h : s.acfg.decimEn = false) : feedSample s x = acceptSample s x := by
  rw [feedSample_eq, if_neg (Bool.eq_false_iff.1 h)]

/-- On the decimator's first phase the sample waits in the delay line. -/
theorem feedSample_waits (hd : s.acfg.decimEn = true) (hp : s.det.dec.ph = false) :
    feedSample s x = s.withDetDec (decimStep s.det.dec x).1 := by
  rw [feedSample_eq, if_pos hd, if_neg (Bool.eq_false_iff.1 hp)]

/-- On its second phase the output goes on. -/
theorem feedSample_goesOn (hd : s.acfg.decimEn = true) (hp : s.det.dec.ph = true) : feedSample s x =
    acceptSample (s.withDetDec (decimStep s.det.dec x).1) (decimStep s.det.dec x).1.out := by
  rw [feedSample_eq, if_pos hd, if_pos hp]

theorem feedSample_goesOn_async (hd : s.acfg.decimEn = true) (hp : s.det.dec.ph = true) (ha : s.acfg.asyncEn = true) :
    feedSample s x = enqueue (s.withDetDec (decimStep s.det.dec x).1) (decimStep s.det.dec x).1.out :=
  (feedSample_goesOn hd hp).trans (acceptSample_async ha)

theorem feedSample_goesOn_sync (hd : s.acfg.decimEn = true) (hp : s.det.dec.ph = true) (ha : s.acfg.asyncEn = false) :
    feedSample s x = insertSync (s.withDetDec (decimStep s.det.dec x).1) (decimStep s.det.dec x).1.out :=
  (feedSample_goesOn hd hp).trans (acceptSample_sync ha)

/-! ### The engine (R102 to R104) -/

theorem drainStep_of_trigger (h : (windowInsert s.det s.queue.front).2 = true) : drainStep s =
    ((s.withQueue s.queue.pop).withDet { (windowInsert s.det s.queue.front).1 with
      pubFreq := (analyse s.acfg s.draws (windowInsert s.det s.queue.front).1).frequency
      pendConf := (analyse s.acfg s.draws (windowInsert s.det s.queue.front).1).confidence
      estate := .pubConfPending }).withDraws (s.draws + 1) := if_pos h

theorem drainStep_of_no_trigger (h : (windowInsert s.det s.queue.front).2 = false) :
    drainStep s = (s.withQueue s.queue.pop).withDet (windowInsert s.det s.queue.front).1 := if_neg (Bool.eq_false_iff.1 h)

theorem engineStep_publish (ha : s.acfg.asyncEn = true) (he : s.det.estate = .pubConfPending) :
    engineStep s = publishStep s := if_pos ((publishEnabled_iff s).2 ⟨ha, he⟩)

theorem engineStep_drain (ha : s.acfg.asyncEn = true) (he : s.det.estate = .ready) (hr : s.ctrl.run = true)
    (hn : 0 < s.queue.n) : engineStep s = drainStep s := by
  have hp : publishEnabled s ≠ true := fun hc => EState.noConfusion (he.symm.trans ((publishEnabled_iff s).1 hc).2)
  exact (if_neg hp).trans (if_pos ((drainEnabled_iff s).2 ⟨ha, hr, he, hn⟩))

theorem engineStep_idle (h : engineIdle s = true) : engineStep s = s := by
  obtain ⟨hd, hp⟩ := (engineIdle_iff s).1 h
  exact (if_neg (Bool.eq_false_iff.1 hp)).trans (if_neg (Bool.eq_false_iff.1 hd))

end branches

/-! ### DET.PREPARE and DET.GETRESULT (R93, R95) -/

theorem exec_detPrepare (s : State) : exec .detPrepare s = .next (prepareDetector s (arg0 s)) := rfl

theorem exec_detGetResult (s : State) :
    exec .detGetResult s = .next { s with res0 := s.det.pubFreq, res1 := s.det.pubConf } := rfl

/-- Settles O14: DET.PREPARE writes the active configuration, the prepared detector and the queue's cursors. -/
theorem detPrepareEffect : Obligations.DetPrepareEffect := fun s =>
  ⟨_, exec_detPrepare s, rfl, rfl, rfl, rfl, rfl, rfl, fun _ => rfl, rfl, rfl, rfl, rfl, rfl, rfl, rfl, rfl⟩

/-- Settles O20: the pair is copied, and DET.PREPARE leaves two zeros to copy. -/
theorem getResultCopiesThePair : Obligations.GetResultCopiesThePair := by
  refine ⟨exec_detGetResult, exec_detGetResult _, fun s t h => ?_⟩
  obtain rfl := Host.Outcome.next.inj ((exec_detPrepare s).symm.trans h)
  exact exec_detGetResult _

/-! ### DET.FEED (R94, R96 to R99) -/

theorem exec_detFeed (s : State) : exec .detFeed s = .next (feedSample s (sanitiseSample s.arg1)) := rfl

/-- Settles O17: without decimation the sample itself goes to the queue. -/
theorem feedPushesOrDrops : Obligations.FeedPushesOrDrops := by
  intro s ha hd
  rw [exec_detFeed, feedSample_undecimated hd, acceptSample_async ha]
  exact ⟨fun hn => congrArg _ (enqueue_of_room hn), fun hn => congrArg _ (enqueue_of_full hn)⟩

/-- Settles O19: without decimation the sample itself goes to the window. -/
theorem feedSynchronous : Obligations.FeedSynchronous := by
  intro s ha hd
  rw [exec_detFeed, feedSample_undecimated hd, acceptSample_sync ha, insertOf_eq]
  exact ⟨fun ht => congrArg _ (insertSync_of_no_trigger ht), fun ht => congrArg _ (insertSync_of_trigger ht)⟩

/-- Settles O18: by the decimator's phase, then by the mode and the room in the queue or by the trigger. -/
theorem feedDecimates : Obligations.FeedDecimates := by
  intro s hd r s'
  rw [exec_detFeed]
  refine ⟨fun hp => ?_, fun hp ha hn => ?_, fun hp ha hn => ?_, fun hp ha => ?_⟩
  · rw [feedSample_waits hd hp]
    rfl
  · rw [feedSample_goesOn_async hd hp ha]
    exact congrArg _ (enqueue_of_room hn)
  · rw [feedSample_goesOn_async hd hp ha]
    exact congrArg _ (enqueue_of_full hn)
  · rw [feedSample_goesOn_sync hd hp ha, insertOf_eq]
    exact ⟨fun ht => congrArg _ (insertSync_of_no_trigger ht), fun ht => congrArg _ (insertSync_of_trigger ht)⟩

/-! ### The engine's steps -/

theorem stepOn_engine (s : State) : stepOn .engine s = .next (engineStep s) := stepOn_eq .engine s

/-- Settles O24: the publish where a confidence waits, the drain step where the engine is ready and a sample waits. -/
theorem engineSteps : Obligations.EngineSteps := by
  intro s ha
  rw [stepOn_engine]
  refine ⟨fun he => ?_, fun he hr hn => ?_⟩
  · rw [engineStep_publish ha he]
    rfl
  · rw [engineStep_drain ha he hr hn, insertOf_eq]
    exact ⟨fun ht => congrArg _ (drainStep_of_no_trigger ht), fun ht => congrArg _ (drainStep_of_trigger ht)⟩

/-- The drain step takes a sample from the queue in either case. -/
theorem drainStep_queue (s : State) : (drainStep s).queue = s.queue.pop := by
  rcases drainStep_cases s with ⟨-, h⟩ | ⟨-, h⟩ <;> rw [h] <;> rfl

/-- An enabled turn changes the engine's state or takes a sample from the queue. -/
theorem engineIdle_iff_engineStep (s : State) : engineIdle s = true ↔ engineStep s = s := by
  refine ⟨engineStep_idle, fun hsame => ?_⟩
  rcases engineStep_cases s with ⟨-, he, h⟩ | ⟨-, -, -, hn, h⟩ | ⟨hidle, -⟩
  · have hready : EState.ready = s.det.estate := congrArg (·.det.estate) (h.symm.trans hsame)
    exact EState.noConfusion (hready.trans he)
  · have hpop := congrArg (·.queue.n) (h.symm.trans hsame)
    simp only [drainStep_queue, Queue.pop_n] at hpop
    omega
  · exact hidle

/-- With RUN = 0 the engine's one enabled step is a due publish, and after it the engine is idle. -/
theorem engineStep_stopped {s : State} (hr : s.ctrl.run = false) :
    (engineStep s).queue = s.queue ∧ engineIdle (engineStep s) = true := by
  rcases engineStep_cases s with ⟨-, -, h⟩ | ⟨-, -, hrun, -, -⟩ | ⟨hidle, h⟩
  · rw [h]
    exact ⟨rfl, (engineIdle_formula _).2 (.inr ⟨rfl, .inr hr⟩)⟩
  · exact absurd (hrun.symm.trans hr) Bool.noConfusion
  · rw [h]
    exact ⟨rfl, hidle⟩

/-- Settles O25: idle and changing nothing are the same, so the second turn after a stop changes nothing. -/
theorem engineIdleAndStop : Obligations.EngineIdleAndStop := by
  intro s
  refine ⟨?_, fun hr => ?_⟩
  · rw [stepOn_engine, Host.Outcome.next.injEq]
    exact engineIdle_iff_engineStep s
  · obtain ⟨hqueue, hidle⟩ := engineStep_stopped hr
    exact ⟨engineStep_idle hidle, hqueue, hidle⟩

end Sys2Proof.Machine

/-! PROOFS. The engine left to run (40_detector.md R90, R102 to R106): it settles after a bounded number of turns, has then inserted
the waiting samples in their order, and gives the result of the synchronous mode. -/

namespace Sys2Proof.Machine

/-! ### What a turn leaves alone -/

section turn
variable (s : State)

/-- A turn writes the detector, the queue and the count of passes at most. -/
theorem engineStep_writes :
    engineStep s = ((s.withDet (engineStep s).det).withQueue (engineStep s).queue).withDraws (engineStep s).draws := by
  rcases engineStep_cases s with ⟨-, -, h⟩ | ⟨-, -, -, -, h⟩ | ⟨-, h⟩ <;> rw [h]
  · rfl
  · rcases drainStep_cases s with ⟨-, h'⟩ | ⟨-, h'⟩ <;> rw [h'] <;> rfl
  · rfl

@[simp] theorem engineStep_acfg : (engineStep s).acfg = s.acfg := (congrArg State.acfg (engineStep_writes s) :)
@[simp] theorem engineStep_ctrl : (engineStep s).ctrl = s.ctrl := (congrArg State.ctrl (engineStep_writes s) :)
@[simp] theorem engineStep_arg1 : (engineStep s).arg1 = s.arg1 := (congrArg State.arg1 (engineStep_writes s) :)
@[simp] theorem engineStep_inbox : (engineStep s).inbox = s.inbox := (congrArg State.inbox (engineStep_writes s) :)

@[simp] theorem engineStep_dec : (engineStep s).det.dec = s.det.dec := by
  rcases engineStep_cases s with ⟨-, -, h⟩ | ⟨-, -, -, -, h⟩ | ⟨-, h⟩ <;> rw [h]
  · rfl
  · rcases drainStep_cases s with ⟨-, h'⟩ | ⟨-, h'⟩ <;> rw [h'] <;> rfl

theorem engineStep_queue_le : (engineStep s).queue.n ≤ s.queue.n := by
  rcases engineStep_cases s with ⟨-, -, h⟩ | ⟨-, -, -, -, h⟩ | ⟨-, h⟩ <;> rw [h]
  · exact le_rfl
  · rw [drainStep_queue]
    exact Nat.sub_le _ _

end turn

/-! ### The engine settles

The turns that the engine has left decrease with each turn, until it is idle. -/

/-- The engine runs: asynchronous mode, RUN = 1, and a queue in shape. -/
structure Running (s : State) : Prop where
  queue : QueueInv s.queue
  async : s.acfg.asyncEn = true
  run : s.ctrl.run = true

/-- At most two turns for each waiting sample, and one for a due publish. -/
def engineWork (s : State) : Nat := 2 * s.queue.n + if s.det.estate = .pubConfPending then 1 else 0

theorem engineWork_le (s : State) : engineWork s ≤ 2 * s.queue.n + 1 := by
  unfold engineWork
  split <;> omega

theorem runEngine_idle {s : State} (h : engineIdle s = true) (k : Nat) : runEngine k s = s := by
  induction k with
  | zero => rfl
  | succ k ih => rw [runEngine, engineStep_idle h, ih]

theorem settle_idle {s : State} (h : engineIdle s = true) : settle s = s := runEngine_idle h _

section running
variable {s : State}

/-- The turn of an engine that is not idle. -/
theorem engineStep_busy_cases (hi : engineIdle s = false) :
    (s.det.estate = .pubConfPending ∧ engineStep s = publishStep s) ∨
      (s.det.estate = .ready ∧ 0 < s.queue.n ∧ engineStep s = drainStep s) := by
  rcases engineStep_cases s with ⟨-, he, e⟩ | ⟨-, he, -, hn, e⟩ | ⟨hidle, -⟩
  · exact .inl ⟨he, e⟩
  · exact .inr ⟨he, hn, e⟩
  · exact absurd (hidle.symm.trans hi) Bool.noConfusion

theorem Running.idle_iff (h : Running s) : engineIdle s = true ↔ s.det.estate = .ready ∧ s.queue.n = 0 := by
  rw [engineIdle_formula, h.async, h.run]
  simp

theorem Running.engineStep (h : Running s) : Running (engineStep s) := by
  refine ⟨?_, by rw [engineStep_acfg]; exact h.async, by rw [engineStep_ctrl]; exact h.run⟩
  cases hi : engineIdle s
  · rcases engineStep_busy_cases hi with ⟨-, e⟩ | ⟨-, hn, e⟩ <;> rw [e]
    · exact h.queue
    · rw [drainStep_queue]
      exact h.queue.pop hn
  · rw [engineStep_idle hi]
    exact h.queue

/-- A turn that is not idle leaves less work: a publish is done, or a sample is taken for at most one publish. -/
theorem engineWork_engineStep (hi : engineIdle s = false) : engineWork (engineStep s) < engineWork s := by
  rcases engineStep_busy_cases hi with ⟨he, e⟩ | ⟨he, hn, e⟩ <;> rw [e]
  · simp [engineWork, publishStep, he]
  · have hle := engineWork_le (drainStep s)
    rw [drainStep_queue, Queue.pop_n] at hle
    simp only [engineWork, he, reduceCtorEq, if_false]
    exact Nat.lt_of_le_of_lt hle (by omega)

/-- All numbers of turns that cover the work lead to the same state. -/
theorem runEngine_eq {j k : Nat} (hj : engineWork s ≤ j) (hk : engineWork s ≤ k) :
    runEngine j s = runEngine k s := by
  induction j generalizing s k with
  | zero =>
    have hi : engineIdle s = true := by
      by_contra hc
      have := engineWork_engineStep (Bool.eq_false_iff.2 hc)
      omega
    rw [runEngine_idle hi, runEngine_idle hi]
  | succ j ih =>
    cases hi : engineIdle s
    · have hless := engineWork_engineStep hi
      obtain ⟨k, rfl⟩ : ∃ k', k = k' + 1 := Nat.exists_eq_add_of_le' (by omega)
      exact ih (by omega) (by omega)
    · rw [runEngine_idle hi, runEngine_idle hi]

/-- A turn does not change what the engine settles to. -/
theorem settle_engineStep (s : State) : settle (engineStep s) = settle s := by
  cases hi : engineIdle s
  · have hless := engineWork_engineStep hi
    have hle := engineWork_le s
    exact runEngine_eq (engineWork_le _) (by omega : _ ≤ 2 * s.queue.n)
  · rw [engineStep_idle hi]

/-- What relates an idle state to itself, and is carried back over a turn that is not idle, relates every state to the one it
settles to. -/
theorem Running.settle_induction {P : State → State → Prop} (hidle : ∀ s, Running s → engineIdle s = true → P s s)
    (hturn : ∀ s t, Running s → engineIdle s = false → P (Machine.engineStep s) t → P s t) (h : Running s) :
    P s (settle s) := by
  induction hw : engineWork s using Nat.strong_induction_on generalizing s with
  | _ w ih =>
    subst hw
    cases hi : engineIdle s
    · rw [← settle_engineStep]
      exact hturn s _ h hi (ih _ (engineWork_engineStep hi) h.engineStep rfl)
    · rw [settle_idle hi]
      exact hidle s h hi

theorem Running.settle (h : Running s) : Running (settle s) ∧ engineIdle (settle s) = true :=
  h.settle_induction (P := fun _ t => Running t ∧ engineIdle t = true) (fun _ hs hi => ⟨hs, hi⟩) fun _ _ _ _ ht => ht

theorem Running.settle_arg1 (h : Running s) : (Machine.settle s).arg1 = s.arg1 :=
  h.settle_induction (P := fun s t => t.arg1 = s.arg1) (fun _ _ _ => rfl) fun s _ _ _ ht => ht.trans (engineStep_arg1 s)

/-! ### The samples are inserted in order (R103) -/

/-- Two detectors agree in what an insert reads and writes (R98). -/
structure SameWindow (d d' : Det) : Prop where
  windowSize : d'.windowSize = d.windowSize
  hopSize : d'.hopSize = d.hopSize
  win : d'.win = d.win
  writePos : d'.writePos = d.writePos
  hopCount : d'.hopCount = d.hopCount
  filled : d'.filled = d.filled

theorem SameWindow.trans {d d' d'' : Det} (h : SameWindow d d') (h' : SameWindow d' d'') : SameWindow d d'' :=
  ⟨h'.windowSize.trans h.windowSize, h'.hopSize.trans h.hopSize, h'.win.trans h.win, h'.writePos.trans h.writePos,
    h'.hopCount.trans h.hopCount, h'.filled.trans h.filled⟩

theorem SameWindow.windowInsert {d d' : Det} (h : SameWindow d d') (v : F32) :
    SameWindow (windowInsert d v).1 (windowInsert d' v).1 ∧ (Machine.windowInsert d' v).2 = (Machine.windowInsert d v).2 := by
  obtain ⟨hW, hhop, hwin, hpos, hcount, hfilled⟩ := h
  have htrigger : (Machine.windowInsert d' v).2 = (Machine.windowInsert d v).2 := by
    simp only [windowInsert_trigger, windowInsert_filled, hW, hhop, hpos, hcount, hfilled]
  refine ⟨⟨hW, hhop, ?_, ?_, ?_, ?_⟩, htrigger⟩
  · rw [windowInsert_win, windowInsert_win, hwin, hpos]
  · rw [windowInsert_writePos, windowInsert_writePos, hpos, hW]
  · rw [windowInsert_hopCount, windowInsert_hopCount, htrigger, hcount]
  · rw [windowInsert_filled, windowInsert_filled, hfilled, hpos, hW]

theorem SameWindow.insertAll {d d' : Det} (h : SameWindow d d') (xs : List F32) :
    SameWindow (insertAll d xs).1 (insertAll d' xs).1 ∧ (Machine.insertAll d' xs).2 = (Machine.insertAll d xs).2 := by
  induction xs generalizing d d' with
  | nil => exact ⟨h, rfl⟩
  | cons x xs ih =>
    obtain ⟨hinsert, htrigger⟩ := h.windowInsert x
    obtain ⟨hrest, htriggers⟩ := ih hinsert
    exact ⟨hrest, congrArg₂ List.cons htrigger htriggers⟩

/-- After the turns that `t` has had from `s`, its inserts and passes with those still to come are the ones that were to come
in `s`. -/
structure InsertsKept (s t : State) : Prop where
  window : SameWindow (insertAll s.det s.queue.contents).1 (insertAll t.det t.queue.contents).1
  passes : t.draws + (insertAll t.det t.queue.contents).2.count true =
    s.draws + (insertAll s.det s.queue.contents).2.count true

theorem InsertsKept.refl (s : State) : InsertsKept s s := ⟨⟨rfl, rfl, rfl, rfl, rfl, rfl⟩, rfl⟩

theorem InsertsKept.trans {s t u : State} (h : InsertsKept s t) (h' : InsertsKept t u) : InsertsKept s u :=
  ⟨h.window.trans h'.window, h'.passes.trans h.passes⟩

theorem publishStep_insertsKept (s : State) : InsertsKept s (publishStep s) := by
  obtain ⟨hwindow, htriggers⟩ :=
    SameWindow.insertAll (d := s.det) (d' := (publishStep s).det) ⟨rfl, rfl, rfl, rfl, rfl, rfl⟩ s.queue.contents
  exact ⟨hwindow, congrArg (fun l : List Bool => s.draws + l.count true) htriggers⟩

/-- The drain step inserts the oldest of the waiting samples, and counts the pass if there is one. -/
theorem drainStep_window (s : State) : SameWindow (windowInsert s.det s.queue.front).1 (drainStep s).det ∧
    (drainStep s).draws = s.draws + (windowInsert s.det s.queue.front).2.toNat := by
  rcases drainStep_cases s with ⟨ht, h⟩ | ⟨ht, h⟩ <;> rw [h, ht] <;> exact ⟨⟨rfl, rfl, rfl, rfl, rfl, rfl⟩, rfl⟩

theorem drainStep_insertsKept (hq : QueueInv s.queue) (hn : 0 < s.queue.n) : InsertsKept s (drainStep s) := by
  obtain ⟨hinsert, hdraws⟩ := drainStep_window s
  obtain ⟨hwindow, htriggers⟩ := hinsert.insertAll s.queue.pop.contents
  constructor <;> rw [drainStep_queue, hq.contents_pop hn]
  · exact hwindow
  · rw [hdraws, htriggers, insertAll, List.count_cons]
    cases (windowInsert s.det s.queue.front).2 <;> simp +arith

theorem Running.settle_insertsKept (h : Running s) : InsertsKept s (Machine.settle s) := by
  refine h.settle_induction (fun s _ _ => .refl s) fun s t hs hi ht => .trans ?_ ht
  rcases engineStep_busy_cases hi with ⟨-, e⟩ | ⟨-, hn, e⟩ <;> rw [e]
  · exact publishStep_insertsKept s
  · exact drainStep_insertsKept hs.queue hn

end running

theorem Queue.contents_of_empty {q : Queue} (h : q.n = 0) : q.contents = [] :=
  List.eq_nil_of_length_eq_zero (q.length_contents.trans h)

theorem run_succ_of_next {M : Host.Core} {s s' : M.State} (k : Nat) (h : M.step s = .next s') : M.run (k + 1) s = M.run k s' := by
  rw [Host.Core.run, h]

/-- With an empty schedule the machine's steps are the engine's turns. -/
theorem run_eq_runEngine (k : Nat) {s : State} (h : s.inbox = []) :
    Host.Core.run Sys2Proof.core k s = .next (runEngine k s) := by
  induction k generalizing s with
  | zero => rfl
  | succ k ih =>
    have hstep : Sys2Proof.core.step s = .next (engineStep s) := step_empty s h
    exact (run_succ_of_next k hstep).trans (ih ((engineStep_inbox s).trans h))

/-- Settles O26: the settled engine has no insert left to come, and every turn kept the inserts and passes. -/
theorem engineDrainsTheQueue : Obligations.EngineDrainsTheQueue := by
  intro s hq hinbox ha hr
  have hs : Running s := ⟨hq, ha, hr⟩
  obtain ⟨hrunning, hidle⟩ := hs.settle
  obtain ⟨-, hempty⟩ := hrunning.idle_iff.1 hidle
  obtain ⟨hwindow, hpasses⟩ := hs.settle_insertsKept
  rw [Queue.contents_of_empty hempty] at hwindow hpasses
  exact ⟨settle s, run_eq_runEngine _ hinbox, hempty, hidle, hwindow.win, hwindow.writePos, hwindow.hopCount, hwindow.filled,
    hpasses⟩

/-! ### A feed and the engine's turns commute (R90, R94)

A turn that is not idle gives the same state before a feed as after it, so that a feed may wait until the engine has settled. -/

section commute
variable {s : State} {v x : F32}

theorem drainStep_withDetDec (s : State) (c : Decim) : drainStep (s.withDetDec c) = (drainStep s).withDetDec c := by
  cases ht : (windowInsert s.det s.queue.front).2
  · rw [drainStep_of_no_trigger ht]
    exact drainStep_of_no_trigger (s := s.withDetDec c) ht
  · rw [drainStep_of_trigger ht]
    exact drainStep_of_trigger (s := s.withDetDec c) ht

theorem engineStep_withDetDec (s : State) (c : Decim) : engineStep (s.withDetDec c) = (engineStep s).withDetDec c := by
  rcases engineStep_cases s with ⟨ha, he, h⟩ | ⟨ha, he, hr, hn, h⟩ | ⟨hi, h⟩ <;> rw [h]
  · exact engineStep_publish (s := s.withDetDec c) ha he
  · rw [← drainStep_withDetDec]
    exact engineStep_drain (s := s.withDetDec c) ha he hr hn
  · exact engineStep_idle (s := s.withDetDec c) hi

/-- A push behind a waiting sample leaves the oldest one in front. -/
theorem QueueInv.front_push {q : Queue} (v : F32) (h : QueueInv q) (hn : 0 < q.n) (hroom : q.n < Config.queueDepth) :
    (q.push v).front = q.front := by
  have hpush := (h.push v hroom).contents_pop (Nat.succ_pos _)
  rw [h.contents_push v hroom, h.contents_pop hn, List.cons_append] at hpush
  exact (List.cons.inj hpush).1.symm

/-- A push on an empty queue puts its sample in front. -/
theorem QueueInv.front_push_empty {q : Queue} (v : F32) (h : QueueInv q) (hn : q.n = 0) : (q.push v).front = v := by
  have hroom : q.n < Config.queueDepth := by rw [hn]; decide
  have hpush := (h.push v hroom).contents_pop (Nat.succ_pos _)
  rw [h.contents_push v hroom, Queue.contents_of_empty hn, List.nil_append] at hpush
  exact (List.cons.inj hpush).1.symm

theorem Queue.pop_push {q : Queue} (v : F32) (hn : 0 < q.n) : (q.push v).pop = q.pop.push v := by
  have hcount : q.n + 1 - 1 = q.n - 1 + 1 := by omega
  unfold Queue.pop Queue.push
  rw [hcount]

theorem drainStep_push (hq : QueueInv s.queue) (hn : 0 < s.queue.n) (hroom : s.queue.n < Config.queueDepth) :
    drainStep (s.withQueue (s.queue.push v)) = (drainStep s).withQueue (s.queue.pop.push v) := by
  have hfront : (s.withQueue (s.queue.push v)).queue.front = s.queue.front := hq.front_push v hn hroom
  rw [← Queue.pop_push v hn]
  cases ht : (windowInsert s.det s.queue.front).2
  · rw [drainStep_of_no_trigger ht, drainStep_of_no_trigger (by rw [hfront]; exact ht), hfront]
    rfl
  · rw [drainStep_of_trigger ht, drainStep_of_trigger (by rw [hfront]; exact ht), hfront]
    rfl

theorem Running.engineStep_enqueue (h : Running s) (hi : engineIdle s = false) (hroom : s.queue.n < Config.queueDepth) :
    Machine.engineStep (enqueue s v) = enqueue (Machine.engineStep s) v := by
  rw [enqueue_of_room hroom]
  rcases engineStep_busy_cases hi with ⟨he, e⟩ | ⟨he, hn, e⟩ <;> rw [e]
  · exact (engineStep_publish (s := s.withQueue (s.queue.push v)) h.async he).trans
      (enqueue_of_room (s := publishStep s) hroom).symm
  · have hroom' : (drainStep s).queue.n < Config.queueDepth := e ▸ (engineStep_queue_le s).trans_lt hroom
    rw [enqueue_of_room hroom', drainStep_queue, ← drainStep_push h.queue hn hroom]
    exact engineStep_drain (s := s.withQueue _) h.async he h.run (Nat.succ_pos _)

theorem Running.withDetDec (h : Running s) (c : Decim) : Running (s.withDetDec c) := ⟨h.queue, h.async, h.run⟩

theorem Running.engineStep_acceptSample (h : Running s) (hi : engineIdle s = false) (hroom : s.queue.n < Config.queueDepth) :
    Machine.engineStep (acceptSample s v) = acceptSample (Machine.engineStep s) v := by
  rw [acceptSample_async h.async, acceptSample_async h.engineStep.async]
  exact h.engineStep_enqueue hi hroom

theorem Running.engineStep_feedSample (h : Running s) (hi : engineIdle s = false) (hroom : s.queue.n < Config.queueDepth) :
    Machine.engineStep (feedSample s x) = feedSample (Machine.engineStep s) x := by
  rw [feedSample_eq, feedSample_eq, engineStep_acfg, engineStep_dec]
  split
  · split
    · rw [← engineStep_withDetDec]
      exact (h.withDetDec _).engineStep_acceptSample hi hroom
    · exact engineStep_withDetDec s _
  · exact h.engineStep_acceptSample hi hroom

/-- A feed before the engine settles, and one after it, settle to the same state. -/
theorem Running.settle_feedSample (h : Running s) (hroom : s.queue.n < Config.queueDepth) :
    Machine.settle (feedSample s x) = Machine.settle (feedSample (Machine.settle s) x) := by
  refine h.settle_induction (P := fun s t => s.queue.n < Config.queueDepth →
    Machine.settle (feedSample s x) = Machine.settle (feedSample t x)) (fun _ _ _ _ => rfl) ?_ hroom
  intro s t hs hi ht hroom
  rw [← settle_engineStep, hs.engineStep_feedSample hi hroom]
  exact ht ((engineStep_queue_le s).trans_lt hroom)

/-! ### One sample on a settled engine (R94, R99, R103, R104) -/

/-- The settled state `t` shows what the synchronous step's state `u` does; only the pending confidence may differ. -/
def SettledAs (t u : State) : Prop :=
  { t.det with pendConf := 0#32 } = { u.det with pendConf := 0#32 } ∧ t.draws = u.draws ∧ t.queue.n = 0

/-- With the queue empty the engine settles by a due publish alone. -/
theorem Running.settle_pending (h : Running s) (he : s.det.estate = .pubConfPending) (hn : s.queue.n = 0) :
    Machine.settle s = publishStep s := by
  have hstep := engineStep_publish h.async he
  have hrun : Running (publishStep s) := hstep ▸ h.engineStep
  rw [← settle_engineStep, hstep]
  exact settle_idle (hrun.idle_iff.2 ⟨rfl, hn⟩)

/-- One sample on a settled engine: drained, and published where it triggers a pass, as the synchronous insert does at once. -/
theorem Running.settle_enqueue (h : Running s) (hi : engineIdle s = true) :
    SettledAs (Machine.settle (enqueue s v)) (insertSync (synchronous s) v) := by
  obtain ⟨he, hn⟩ := h.idle_iff.1 hi
  have hroom : s.queue.n < Config.queueDepth := by rw [hn]; decide
  have hrun : Running (s.withQueue (s.queue.push v)) := ⟨h.queue.push v hroom, h.async, h.run⟩
  have hdrain : Machine.engineStep (s.withQueue (s.queue.push v)) = drainStep (s.withQueue (s.queue.push v)) :=
    engineStep_drain (s := s.withQueue _) h.async he h.run (Nat.succ_pos _)
  have hfront : (s.withQueue (s.queue.push v)).queue.front = v := h.queue.front_push_empty v hn
  have hdrained : Running (drainStep (s.withQueue (s.queue.push v))) := hdrain ▸ hrun.engineStep
  rw [enqueue_of_room hroom, ← settle_engineStep, hdrain]
  cases ht : (windowInsert s.det v).2
  · rw [drainStep_of_no_trigger (by rw [hfront]; exact ht), hfront] at hdrained ⊢
    rw [settle_idle (hdrained.idle_iff.2 ⟨he, hn⟩), insertSync_of_no_trigger (s := synchronous s) ht]
    exact ⟨rfl, rfl, hn⟩
  · rw [drainStep_of_trigger (by rw [hfront]; exact ht), hfront] at hdrained ⊢
    rw [hdrained.settle_pending rfl hn, insertSync_of_trigger (s := synchronous s) ht]
    refine ⟨?_, rfl, hn⟩
    simp [publishStep, synchronous, analyse_async, he]

theorem Running.settle_acceptSample (h : Running s) (hi : engineIdle s = true) :
    SettledAs (Machine.settle (acceptSample s v)) (acceptSample (synchronous s) v) := by
  rw [acceptSample_async h.async, acceptSample_sync (s := synchronous s) rfl]
  exact h.settle_enqueue hi

/-- A feed on a settled engine, settled again, and the same feed in synchronous mode. -/
theorem Running.settle_feedSample_idle (h : Running s) (hi : engineIdle s = true) :
    SettledAs (Machine.settle (feedSample s x)) (feedSample (synchronous s) x) := by
  have hdec (c : Decim) : engineIdle (s.withDetDec c) = true := hi
  cases hd : s.acfg.decimEn
  · rw [feedSample_undecimated hd, feedSample_undecimated (s := synchronous s) hd]
    exact h.settle_acceptSample hi
  cases hp : s.det.dec.ph
  · rw [feedSample_waits hd hp, feedSample_waits (s := synchronous s) hd hp, settle_idle (hdec _)]
    exact ⟨rfl, rfl, (h.idle_iff.1 hi).2⟩
  · rw [feedSample_goesOn hd hp, feedSample_goesOn (s := synchronous s) hd hp]
    exact (h.withDetDec _).settle_acceptSample (hdec _)

end commute

/-- Settles O27: the engine may settle before the feed, and then takes one sample as the synchronous mode does. -/
theorem asynchronousReachesTheSynchronousResult : Obligations.AsynchronousReachesTheSynchronousResult := by
  intro s t hq ha hr
  have hs : Running s := ⟨hq, ha, hr⟩
  obtain ⟨hrunning, hidle⟩ := hs.settle
  refine ⟨settle_engineStep s, fun hroom ht => ⟨_, exec_detFeed _, ?_⟩⟩
  obtain rfl := Host.Outcome.next.inj ((exec_detFeed s).symm.trans ht)
  have harg : (synchronous (settle s)).arg1 = s.arg1 := hs.settle_arg1
  rw [harg, hs.settle_feedSample hroom]
  exact hrunning.settle_feedSample_idle hidle

end Sys2Proof.Machine

/-! PROOFS. The settings of the oscillator and of the smoother, with the operand rule of R158 and R159 (42_oscillator.md,
43_smoother.md), and the commands of the stand-alone decimator (44_decimator.md). -/

namespace Sys2Proof.Machine

/-! ### The oscillator (R137 to R139) -/

theorem sanitiseSample_finite {x : F32} (h : finite32 x = true) : sanitiseSample x = x := if_pos h

theorem sanitiseSample_not_finite {x : F32} (h : finite32 x = false) : sanitiseSample x = 0x00000000#32 :=
  if_neg (Bool.eq_false_iff.1 h)

/-- OSC.SETFREQ takes its operand by the rule for samples. -/
theorem exec_oscSetFreq (s : State) : exec .oscSetFreq s =
    .next { s with osc := { s.osc with
      freq := sanitiseSample s.arg1, inc := divF64 (f64OfF32 (sanitiseSample s.arg1)) s.osc.rate } } := rfl

/-- Settles O42: the commands' own equations, OSC.SETFREQ for a finite operand and for any other. -/
theorem oscillatorSettings : Obligations.OscillatorSettings := by
  intro s
  refine ⟨rfl, fun hf => ?_, fun hf => ?_, fun w => rfl⟩
  · rw [exec_oscSetFreq, sanitiseSample_finite hf]
  · rw [exec_oscSetFreq, sanitiseSample_not_finite hf]

/-! ### The operand rule of the smoother (R158, R159) -/

section order
variable {a b x : F32}

theorem ltF32_asymm (h : ltF32 a b = true) : ltF32 b a = false := by
  obtain ⟨-, -, hlt⟩ := (ltF32_iff a b).1 h
  exact Bool.eq_false_iff.2 fun hc => hlt.asymm ((ltF32_iff b a).1 hc).2.2

theorem ne_of_ltF32 (h : ltF32 a b = true) : a ≠ b := by
  rintro rfl
  exact Bool.noConfusion (h.symm.trans (ltF32_asymm h))

theorem maxF32_of_lt (h : ltF32 a b = true) : maxF32 a b = b := by
  rw [maxF32, if_neg (ne_of_ltF32 h), if_pos h]

theorem maxF32_of_gt (h : ltF32 b a = true) : maxF32 a b = a := by
  rw [maxF32, if_neg (ne_of_ltF32 h).symm, ltF32_asymm h, if_neg Bool.false_ne_true, if_pos h]

theorem minF32_of_lt (h : ltF32 a b = true) : minF32 a b = a := by
  rw [minF32, if_neg (ne_of_ltF32 h), if_pos h]

theorem minF32_of_gt (h : ltF32 b a = true) : minF32 a b = b := by
  rw [minF32, if_neg (ne_of_ltF32 h).symm, ltF32_asymm h, if_neg Bool.false_ne_true, if_pos h]

/-- A pattern of value zero is one of the two zeros. -/
theorem zero_of_valF32_eq_zero (h : valF32 x = 0) : x = 0x00000000#32 ∨ x = 0x80000000#32 := by
  have hmag : magOfPattern 23 (patF32 x) = magOfPattern 23 0 := by
    rw [← show magF32 x = magOfPattern 23 (patF32 x) from rfl, ← natAbs_valF32, h]
    rfl
  rw [← packF32_sign_pat x, (magOfPattern_strictMono 23).injective hmag]
  cases signF32 x
  · exact .inl rfl
  · exact .inr rfl

theorem isNaN32_zeroF32 : isNaN32 zeroF32 = false := by decide

theorem isNaN32_oneF32 : isNaN32 oneF32 = false := by decide

theorem ltF32_zero_iff (hn : isNaN32 x = false) : ltF32 x zeroF32 = true ↔ valF32 x < 0 := by
  simp [ltF32_iff, hn, isNaN32_zeroF32, valF32_zeroF32]

theorem zero_ltF32_iff (hn : isNaN32 x = false) : ltF32 zeroF32 x = true ↔ 0 < valF32 x := by
  simp [ltF32_iff, hn, isNaN32_zeroF32, valF32_zeroF32]

theorem ltF32_one_iff (hn : isNaN32 x = false) : ltF32 x oneF32 = true ↔ valF32 x < 2 ^ 149 := by
  simp [ltF32_iff, hn, isNaN32_oneF32, valF32_oneF32]

theorem one_ltF32_iff (hn : isNaN32 x = false) : ltF32 oneF32 x = true ↔ 2 ^ 149 < valF32 x := by
  simp [ltF32_iff, hn, isNaN32_oneF32, valF32_oneF32]

theorem unitOperand_number (hn : isNaN32 x = false) : unitOperand x = minF32 (maxF32 x zeroF32) oneF32 :=
  if_neg (Bool.eq_false_iff.1 hn)

theorem unitOperand_nan (hn : isNaN32 x = true) : unitOperand x = 0x00000000#32 := if_pos hn

theorem unitOperand_pos (hn : isNaN32 x = false) (h : 0 < valF32 x) : unitOperand x = minF32 x oneF32 := by
  rw [unitOperand_number hn, maxF32_of_gt ((zero_ltF32_iff hn).2 h)]

theorem unitOperand_high (hn : isNaN32 x = false) (h : 2 ^ 149 < valF32 x) : unitOperand x = 0x3F800000#32 := by
  rw [unitOperand_pos hn (lt_trans (by positivity) h), minF32_of_gt ((one_ltF32_iff hn).2 h)]
  rfl

theorem unitOperand_inRange (hn : isNaN32 x = false) (h0 : 0 < valF32 x) (h1 : valF32 x ≤ 2 ^ 149) : unitOperand x = x := by
  rw [unitOperand_pos hn h0]
  rcases h1.lt_or_eq with hlt | heq
  · exact minF32_of_lt ((ltF32_one_iff hn).2 hlt)
  · have hone : valF32 oneF32 ≠ 0 := by rw [valF32_oneF32]; positivity
    rw [(eq_or_zero_of_valF32_eq (heq.trans valF32_oneF32.symm)).resolve_right hone]
    exact if_pos rfl

/-- Of the values that are not positive only -0.0 leaves the sign of the zero free. -/
theorem unitOperand_low (hn : isNaN32 x = false) (h : valF32 x ≤ 0) :
    unitOperand x = 0x00000000#32 ∨ (x = 0x80000000#32 ∧ unitOperand x = 0x80000000#32) := by
  rcases h.lt_or_eq with hlt | heq
  · rw [unitOperand_number hn, maxF32_of_lt ((ltF32_zero_iff hn).2 hlt)]
    exact .inl (minF32_of_lt (by decide +kernel))
  · rcases zero_of_valF32_eq_zero heq with rfl | rfl
    · exact .inl (by decide +kernel)
    · have hmax : maxF32 0x80000000#32 zeroF32 = packF32 Config.maxZeroNegative 0 := by
        rw [maxF32, if_neg (by decide), if_neg (by decide +kernel), if_neg (by decide +kernel)]
      rw [unitOperand_number hn, hmax]
      cases Config.maxZeroNegative
      · exact .inl (minF32_of_lt (by decide +kernel))
      · exact .inr ⟨rfl, minF32_of_lt (by decide +kernel)⟩

end order

/-- Settles O47: the commands' own equations, and the operand rule by the operand's range. -/
theorem smootherSettings : Obligations.SmootherSettings := fun _ =>
  ⟨rfl, rfl, rfl, fun _ => ⟨unitOperand_nan, unitOperand_high, unitOperand_inRange, unitOperand_low⟩⟩

/-! ### The stand-alone decimator (R171 to R174) -/

theorem exec_decProcess (s : State) : exec .decProcess s =
    .next ((s.withDec (decimStep s.dec (sanitiseSample s.arg1)).1).withRes0
      (if (decimStep s.dec (sanitiseSample s.arg1)).2 then 1#32 else 0#32)) := rfl

/-- On the first phase the sample is only shifted in. -/
theorem decimStep_first {d : Decim} (x : F32) (h : d.ph = false) :
    decimStep d x = ({ dl := d.dl.shift x, ph := true, out := d.out }, false) := if_neg (Bool.eq_false_iff.1 h)

/-- On the second the output is computed. -/
theorem decimStep_second {d : Decim} (x : F32) (h : d.ph = true) :
    decimStep d x = ({ dl := d.dl.shift x, ph := false, out := firOutput (d.dl.shift x) }, true) := if_pos h

/-- Settles O51: DEC.PROCESS by the phase; the filter's sum has one term for each of the seven samples. -/
theorem decimatorCommands : Obligations.DecimatorCommands := by
  intro s
  refine ⟨rfl, fun hp => ?_, fun hp => ?_, rfl⟩
  · rw [exec_decProcess, decimStep_first _ hp]
    rfl
  · rw [exec_decProcess, decimStep_second _ hp]
    rfl

end Sys2Proof.Machine

/-! PROOFS. The accepted lag (41_detector_analysis.md R118 to R120): the first dip below the threshold and its bottom, and the
fallback's global minimum. -/

namespace Sys2Proof.Machine

/-! ### Lags from 2 on in the list of values -/

section search
variable {cm : List F64} {t τ u : Nat}

/-- The value at lag `u` is below the threshold (R118). -/
def IsBelow (cm : List F64) (u : Nat) : Prop := ltF64 (cm.getD u 0#64) Config.yinThreshold = true

/-- The value after lag `u` is strictly smaller (R118). -/
def FallsAt (cm : List F64) (u : Nat) : Prop := ltF64 (cm.getD (u + 1) 0#64) (cm.getD u 0#64) = true

/-- `t` is the first lag from 2 on whose value is below the threshold. -/
structure IsFirstBelow (cm : List F64) (t : Nat) : Prop where
  two_le : 2 ≤ t
  lt_length : t < cm.length
  isBelow : IsBelow cm t
  first : ∀ u, 2 ≤ u → u < t → ¬ IsBelow cm u

/-- `τ` is the bottom of the fall that starts at lag `t`. -/
structure IsBottom (cm : List F64) (t τ : Nat) : Prop where
  le : t ≤ τ
  lt_length : τ < cm.length
  falls : ∀ u, t ≤ u → u < τ → FallsAt cm u
  ends : τ + 1 < cm.length → ¬ FallsAt cm τ

theorem getElem?_eq_some_getD (h : u < cm.length) : cm[u]? = some (cm.getD u 0#64) := by
  simp [h]

theorem getElem?_drop_eq_some_getD {k : Nat} (h : t + k < cm.length) : (cm.drop t)[k]? = some (cm.getD (t + k) 0#64) := by
  rw [List.getElem?_drop, getElem?_eq_some_getD h]

theorem drop_eq_getD_cons (h : t < cm.length) : cm.drop t = cm.getD t 0#64 :: cm.drop (t + 1) := by
  rw [List.getD_eq_getElem _ _ h, List.drop_eq_getElem_cons h]

theorem isFirstBelow_of_firstBelow (h : firstBelow 2 (cm.drop 2) = some t) : IsFirstBelow cm t := by
  obtain ⟨j, rfl, ⟨c, hc, hlt⟩, hall⟩ := (firstBelow_eq_some 2 t _).1 h
  have hj : 2 + j < cm.length := by
    obtain ⟨hj, -⟩ := List.getElem?_eq_some_iff.1 hc
    rw [List.length_drop] at hj
    omega
  obtain rfl : cm.getD (2 + j) 0#64 = c := Option.some.inj ((getElem?_drop_eq_some_getD hj).symm.trans hc)
  refine ⟨by omega, hj, hlt, fun u h2 hu hb => ?_⟩
  obtain ⟨k, rfl⟩ : ∃ k, u = 2 + k := ⟨u - 2, by omega⟩
  exact Bool.eq_false_iff.1 (hall k _ (by omega) (getElem?_drop_eq_some_getD (by omega))) hb

theorem firstBelow_none_iff : firstBelow 2 (cm.drop 2) = none ↔ ∀ u, 2 ≤ u → u < cm.length → ¬ IsBelow cm u := by
  rw [firstBelow_eq_none]
  constructor
  · intro h u h2 hu
    obtain ⟨k, rfl⟩ : ∃ k, u = 2 + k := ⟨u - 2, by omega⟩
    exact Bool.eq_false_iff.1 (h _ (List.mem_of_getElem? (getElem?_drop_eq_some_getD hu)))
  · intro h c hc
    obtain ⟨k, hk, rfl⟩ := List.getElem_of_mem hc
    rw [List.length_drop] at hk
    have hb := h (2 + k) (by omega) (by omega)
    rw [IsBelow, List.getD_eq_getElem _ _ (by omega)] at hb
    rw [List.getElem_drop]
    exact Bool.eq_false_iff.2 hb

/-- The walk ends at the bottom of the fall. -/
theorem isBottom_walkDown (ht : t < cm.length) : IsBottom cm t (walkDown t (cm.drop t)) := by
  have hget : ∀ {k}, t + k < cm.length → (cm.getD t 0#64 :: cm.drop (t + 1))[k]? = some (cm.getD (t + k) 0#64) := by
    intro k hk
    rw [← drop_eq_getD_cons ht, getElem?_drop_eq_some_getD hk]
  rw [drop_eq_getD_cons ht]
  obtain ⟨j, hj, hlen, hfall, hend⟩ := walkDown_spec t (cm.getD t 0#64) (cm.drop (t + 1))
  rw [hj]
  rw [← drop_eq_getD_cons ht, List.length_drop] at hlen
  refine ⟨by omega, by omega, fun u htu hu => ?_, fun hlast => ?_⟩
  · obtain ⟨k, rfl⟩ : ∃ k, u = t + k := ⟨u - t, by omega⟩
    exact hfall k _ _ (by omega) (hget (by omega)) (hget (k := k + 1) (by omega))
  · exact Bool.eq_false_iff.1 (hend _ _ (hget (by omega)) (hget (k := j + 1) (by omega)))

theorem IsFirstBelow.unique {t' : Nat} (h : IsFirstBelow cm t) (h' : IsFirstBelow cm t') : t = t' :=
  le_antisymm (not_lt.1 fun hlt => h.first t' h'.two_le hlt h'.isBelow) (not_lt.1 fun hlt => h'.first t h.two_le hlt h.isBelow)

theorem IsBottom.unique {τ' : Nat} (h : IsBottom cm t τ) (h' : IsBottom cm t τ') : τ = τ' :=
  le_antisymm (not_lt.1 fun hlt => h'.ends (Nat.lt_of_le_of_lt hlt h.lt_length) (h.falls τ' h'.le hlt))
    (not_lt.1 fun hlt => h.ends (Nat.lt_of_le_of_lt hlt h'.lt_length) (h'.falls τ h.le hlt))

theorem ltF64_trans {a b c : F64} (hab : ltF64 a b = true) (hbc : ltF64 b c = true) : ltF64 a c = true := by
  obtain ⟨ha, -, hab⟩ := (ltF64_iff a b).1 hab
  obtain ⟨-, hc, hbc⟩ := (ltF64_iff b c).1 hbc
  exact (ltF64_iff a c).2 ⟨ha, hc, hab.trans hbc⟩

/-- A fall that starts below the threshold stays there. -/
theorem IsBottom.isBelow (h : IsBottom cm t τ) (ht : IsBelow cm t) : IsBelow cm τ := by
  obtain ⟨hle, -, hfall, -⟩ := h
  induction τ, hle using Nat.le_induction with
  | base => exact ht
  | succ u htu ih =>
    exact ltF64_trans (hfall u htu (Nat.lt_succ_self u)) (ih fun v htv hv => hfall v htv (hv.trans (Nat.lt_succ_self u)))

theorem selectLag_of_firstBelow {fallback : Bool} (h : firstBelow 2 (cm.drop 2) = some t) :
    selectLag fallback cm = some (walkDown t (cm.drop t)) := by
  rw [selectLag, h]

theorem selectLag_of_none {fallback : Bool} (h : firstBelow 2 (cm.drop 2) = none) :
    selectLag fallback cm = if fallback then globalMinimum (cm.drop 2) else none := by
  rw [selectLag, h]

/-- Where a lag is below the threshold, the accepted lag is the bottom of the fall from the first such lag. -/
theorem selectLag_dip (fallback : Bool) (h : ∃ u, 2 ≤ u ∧ u < cm.length ∧ IsBelow cm u) :
    ∃ t τ, selectLag fallback cm = some τ ∧ IsFirstBelow cm t ∧ IsBottom cm t τ := by
  obtain ⟨u, h2, hu, hb⟩ := h
  have hne : firstBelow 2 (cm.drop 2) ≠ none := fun hc => firstBelow_none_iff.1 hc u h2 hu hb
  obtain ⟨t, ht⟩ := Option.ne_none_iff_exists'.1 hne
  have hfirst := isFirstBelow_of_firstBelow ht
  exact ⟨t, _, selectLag_of_firstBelow ht, hfirst, isBottom_walkDown hfirst.lt_length⟩

/-- `leastLag` over the values from lag 3 on, started with lag 2, answers the least lag of the least value. -/
theorem globalMinimum_spec (hn : ∀ c ∈ cm, isNaN64 c = false) (h : 2 < cm.length) :
    ∃ τ, globalMinimum (cm.drop 2) = some τ ∧ 2 ≤ τ ∧ τ < cm.length ∧
      (∀ u, 2 ≤ u → u < cm.length → valF64 (cm.getD τ 0#64) ≤ valF64 (cm.getD u 0#64)) ∧
      ∀ u, 2 ≤ u → u < τ → valF64 (cm.getD τ 0#64) < valF64 (cm.getD u 0#64) := by
  have hmem : ∀ {u}, 3 ≤ u → u < cm.length → cm.getD u 0#64 ∈ cm.drop 3 := fun {u} h3 hu =>
    List.mem_of_getElem? (i := u - 3) (by rw [getElem?_drop_eq_some_getD (by omega), Nat.add_sub_cancel' h3])
  have hhead : isNaN64 (cm.getD 2 0#64) = false := hn _ (by rw [List.getD_eq_getElem _ _ h]; exact List.getElem_mem h)
  rw [drop_eq_getD_cons h]
  refine ⟨_, rfl, ?_⟩
  rcases leastLag_spec 2 (cm.getD 2 0#64) 3 (cm.drop 3) hhead (fun c hc => hn c (List.mem_of_mem_drop hc)) with
    ⟨hbest, hle⟩ | ⟨j, c, hbest, hj, hlt, hle, hfirst⟩
  · rw [hbest]
    refine ⟨le_rfl, h, fun u h2 hu => ?_, fun u h2 hu => absurd hu (by omega)⟩
    rcases h2.eq_or_lt with rfl | h3
    · exact le_rfl
    · exact hle _ (hmem h3 hu)
  · have hlen : 3 + j < cm.length := by
      obtain ⟨hj, -⟩ := List.getElem?_eq_some_iff.1 hj
      rw [List.length_drop] at hj
      omega
    obtain rfl : cm.getD (3 + j) 0#64 = c := Option.some.inj ((getElem?_drop_eq_some_getD hlen).symm.trans hj)
    rw [hbest]
    refine ⟨by omega, hlen, fun u h2 hu => ?_, fun u h2 hu => ?_⟩
    · rcases h2.eq_or_lt with rfl | h3
      · exact hlt.le
      · exact hle _ (hmem h3 hu)
    · rcases h2.eq_or_lt with rfl | h3
      · exact hlt
      · obtain ⟨k, rfl⟩ : ∃ k, u = 3 + k := ⟨u - 3, by omega⟩
        exact hfirst k _ (by omega) (getElem?_drop_eq_some_getD (by omega))

end search

/-- Settles O33: the first crossing and the bottom of its fall are unique, and `selectLag` answers them. -/
theorem thresholdSearchFindsTheDip : Obligations.ThresholdSearchFindsTheDip := by
  intro fallback cm below
  refine ⟨fun hex => ?_, fun hnone => ?_⟩
  · obtain ⟨t, τ, hsel, hfirst, hbottom⟩ := selectLag_dip fallback hex
    refine ⟨fun τ' => ⟨fun h => ?_, fun h => ?_⟩, τ, hsel, hbottom.isBelow hfirst.isBelow⟩
    · obtain rfl : τ = τ' := Option.some.inj (hsel.symm.trans h)
      exact ⟨t, hfirst.two_le, hbottom.le, hbottom.lt_length, hfirst.isBelow,
        fun u h2 hu => Bool.eq_false_iff.2 (hfirst.first u h2 hu), hbottom.falls, fun h => Bool.eq_false_iff.2 (hbottom.ends h)⟩
    · obtain ⟨t', h2, hle, hlen, hb, hbefore, hfall, hend⟩ := h
      have hfirst' : IsFirstBelow cm t' :=
        ⟨h2, hle.trans_lt hlen, hb, fun u h2u hu => Bool.eq_false_iff.1 (hbefore u h2u hu)⟩
      obtain rfl := hfirst.unique hfirst'
      rw [hsel, hbottom.unique ⟨hle, hlen, hfall, fun h => Bool.eq_false_iff.1 (hend h)⟩]
  · exact selectLag_of_none (fallback := false) (firstBelow_none_iff.2 fun u h2 hu => Bool.eq_false_iff.1 (hnone u h2 hu))

/-- Settles O34: nothing is below the threshold, so the fallback's search for the least value decides. -/
theorem fallbackTakesTheGlobalMinimum : Obligations.FallbackTakesTheGlobalMinimum := by
  intro cm hn hnone
  have hsel : selectLag true cm = globalMinimum (cm.drop 2) :=
    selectLag_of_none (fallback := true) (firstBelow_none_iff.2 fun u h2 hu => Bool.eq_false_iff.1 (hnone u h2 hu))
  rw [hsel]
  refine ⟨fun hshort => ?_, globalMinimum_spec hn⟩
  rw [List.drop_eq_nil_of_le hshort, globalMinimum]

end Sys2Proof.Machine

/-! PROOFS. The difference function and its normalisation (41_detector_analysis.md R112 to R117, R126): the direct path's ordered
sum, the FFT path's bound, the CMNDF's recurrence, and windows without a pitch. -/

namespace Sys2Proof.Machine

/-! ### The direct path (R113) -/

/-- The direct path's step: one more squared difference. -/
def addSquare (acc : F64) (p : F64 × F64) : F64 := addF64 acc (mulF64 (subF64 p.1 p.2) (subF64 p.1 p.2))

theorem sumSquares_eq_foldl (acc : F64) (xs ys : List F64) : sumSquares acc xs ys = (xs.zip ys).foldl addSquare acc := by
  induction xs generalizing acc ys with
  | nil => rfl
  | cons x xs ih =>
    cases ys with
    | nil => rfl
    | cons y ys => exact ih _ ys

/-- The pairs that the direct path compares at a lag inside the list. -/
theorem zip_take_drop {h τ : Nat} {x : List F64} (hlen : h + τ ≤ x.length) :
    (x.take h).zip (x.drop τ) = (List.range h).map fun j => (x.getD j 0#64, x.getD (j + τ) 0#64) := by
  refine List.ext_getElem ?_ fun j hj hj' => ?_
  · simp only [List.length_zip, List.length_take, List.length_drop, List.length_map, List.length_range]
    omega
  · rw [List.length_map, List.length_range] at hj'
    simp only [List.getElem_zip, List.getElem_take, List.getElem_drop, List.getElem_map, List.getElem_range]
    rw [List.getD_eq_getElem _ _ (by omega), List.getD_eq_getElem _ _ (by omega)]
    simp only [Nat.add_comm]

theorem sumSquares_take (acc : F64) (h : Nat) (x : List F64) :
    sumSquares acc (x.take h) x = sumSquares acc (x.take h) (x.take h) := by
  induction x generalizing acc h with
  | nil => rw [List.take_nil]
  | cons y x ih =>
    cases h with
    | zero => rfl
    | succ h => exact ih _ h

theorem finite64_map_f64OfF32 {xs : List F32} (hx : ∀ x ∈ xs, finite32 x = true) : ∀ y ∈ xs.map f64OfF32, finite64 y = true :=
  List.forall_mem_map.2 fun x h => (f64OfF32_finite (hx x h)).1

theorem directDiff_zero (h : Nat) {x : List F64} (hx : ∀ y ∈ x, finite64 y = true) : directDiff h x 0 = 0#64 := by
  rw [directDiff, List.drop_zero, sumSquares_take]
  exact sumSquares_self _ fun y hy => hx y (List.mem_of_mem_take hy)

/-- Samples of one finite value have no difference at any lag. -/
theorem directDiff_replicate {v : F64} (hv : finite64 v = true) (h m τ : Nat) : directDiff h (List.replicate m v) τ = 0#64 := by
  rw [directDiff, List.take_replicate, List.drop_replicate]
  calc sumSquares zeroF64 (List.replicate (min h m) v) (List.replicate (m - τ) v)
      = sumSquares 0#64 (List.replicate (min (min h m) (m - τ)) v) (List.replicate (min (min h m) (m - τ)) v) := by
        rw [sumSquares_eq_foldl, sumSquares_eq_foldl, List.zip_replicate, List.zip_replicate, min_self]
        rfl
    _ = 0#64 := sumSquares_self _ fun y hy => List.eq_of_mem_replicate hy ▸ hv

/-- Settles O30: the sum is a fold over the compared pairs, and each of at most 3200 terms is at most 2^258. -/
theorem directDifferenceSumsInOrder : Obligations.DirectDifferenceSumsInOrder := by
  refine ⟨fun h τ x hlen => ?_, fun h τ xs hh hx => ⟨directDiff_zero h (finite64_map_f64OfF32 hx), ?_⟩⟩
  · rw [directDiff, sumSquares_eq_foldl, zip_take_drop hlen, List.foldl_map]
    rfl
  · obtain ⟨hfin, h0, hle⟩ := sumSquares_range (xs.take h) (xs.drop τ) zeroF64 0 (fun x hm => hx x (List.mem_of_mem_take hm))
      (fun y hm => hx y (List.mem_of_mem_drop hm)) (by rw [List.length_take]; omega) (by decide) valF64_zeroF64.ge
      (by rw [valF64_zeroF64, Nat.cast_zero, zero_mul])
    rw [directDiff, ← List.map_take, ← List.map_drop]
    refine ⟨hfin, h0, hle.trans_lt ?_⟩
    have hlen : 0 + (xs.take h).length < 2 ^ 12 := by rw [List.length_take]; omega
    rw [show 270 = 12 + 258 from rfl, pow_add, mul_assoc, ← pow_add]
    exact mul_lt_mul_of_pos_right (by exact_mod_cast hlen) (by positivity)

/-! ### The FFT path (R114) -/

theorem fftAdmissible_iff (diff power : Int) (c : F64) : fftAdmissible diff power c = true ↔
    finite64 c = true ∧ 0 ≤ valF64 c ∧ |valF64 c - diff * 2 ^ 776| * 2 ^ 36 ≤ |power * 2 ^ 776| := by
  rw [fftAdmissible, Bool.and_eq_true, Bool.and_eq_true, decide_eq_true_iff, decide_eq_true_iff, and_assoc, Int.abs_eq_natAbs,
    Int.abs_eq_natAbs, ← Nat.cast_ofNat (n := 2), ← Nat.cast_pow 2 36, ← Nat.cast_mul, Nat.cast_le]
  rfl

/-- The exact difference is a multiple of 2^776 units, far in the normal range, so that rounding moves it by at most 2^-53 of
itself. -/
theorem round_difference_error {diff : Int} (h0 : 0 ≤ diff) (hle : diff ≤ 2 ^ 600) :
    2 ^ 53 * |valRound64 (diff * 2 ^ 776) 1 - diff * 2 ^ 776| ≤ diff * 2 ^ 776 := by
  rcases h0.eq_or_lt with rfl | hpos
  · simp
  have hunit : (0 : Int) < 2 ^ 776 := by positivity
  have hnat : (diff * 2 ^ 776).natAbs = diff.natAbs * 2 ^ 776 := by rw [Int.natAbs_mul, Int.natAbs_pow]; rfl
  have h := valRound_relative_error 52 2047 (by norm_num) le_rfl (by norm_num) (by norm_num) (diff * 2 ^ 776) 1 one_pos ?_ ?_
  · rwa [Nat.cast_one, mul_one, abs_of_pos (mul_pos hpos hunit)] at h
  · rw [hnat, mul_one]
    calc 2 ^ 52 ≤ 1 * 2 ^ 776 := by rw [one_mul]; exact Nat.pow_le_pow_right (by norm_num) (by norm_num)
      _ ≤ diff.natAbs * 2 ^ 776 := Nat.mul_le_mul_right _ (Int.natAbs_pos.2 hpos.ne')
  · rw [hnat, mul_one]
    calc diff.natAbs * 2 ^ 776 ≤ 2 ^ 600 * 2 ^ 776 := Nat.mul_le_mul_right _ (by exact_mod_cast (Int.natAbs_of_nonneg h0).trans_le hle)
      _ = 2 ^ 1376 := by rw [← pow_add]
      _ < 1 * 2 ^ (2047 - 3) := by rw [one_mul]; exact Nat.pow_lt_pow_right (by norm_num) (by norm_num)
      _ ≤ overflowBound 52 2047 := Nat.mul_le_mul_right _ (by norm_num)

/-- The exact difference rounded once meets R114's bound. -/
theorem fftAdmissible_rounded {diff power : Int} (h0 : 0 ≤ diff) (hle : diff ≤ 2 ^ 600) (hpower : diff ≤ 2 * power) :
    fftAdmissible diff power (roundF64 false (diff.natAbs * 2 ^ 776) 1) = true := by
  have hval : valF64 (roundF64 false (diff.natAbs * 2 ^ 776) 1) = valRound64 (diff * 2 ^ 776) 1 := by
    rw [valF64_roundF64_false, Nat.cast_mul, Int.natAbs_of_nonneg h0, Nat.cast_pow, Nat.cast_ofNat]
  have hv0 : 0 ≤ diff * 2 ^ 776 := mul_nonneg h0 (by positivity)
  have hr0 := valRound_nonneg 52 2047 1 hv0
  rw [fftAdmissible_iff, hval]
  refine ⟨finite64_of_val (m := 1376) (by norm_num) ?_, hr0, ?_⟩
  · rw [hval]
    refine valRound64_abs_le one_pos (by norm_num) ?_
    rw [abs_of_nonneg hv0, Nat.cast_one, mul_one, show 1376 = 600 + 776 from rfl, pow_add]
    exact mul_le_mul_of_nonneg_right hle (by positivity)
  · have herr := round_difference_error h0 hle
    have hpow : diff * 2 ^ 776 ≤ 2 * (power * 2 ^ 776) := by
      rw [← mul_assoc]
      exact mul_le_mul_of_nonneg_right hpower (by positivity)
    have habs := abs_nonneg (valRound64 (diff * 2 ^ 776) 1 - diff * 2 ^ 776)
    refine le_trans ?_ (le_abs_self _)
    generalize |valRound64 (diff * 2 ^ 776) 1 - diff * 2 ^ 776| = err at *
    generalize power * 2 ^ 776 = bound at *
    generalize diff * 2 ^ 776 = value at *
    linarith

/-- The sum of the power terms at a lag, in units of 2^-298 (R114). -/
def lagPower (h : Nat) (x : List Int) (τ : Nat) : Int := exactPower (x.take h) + exactPower ((x.drop τ).take h)

theorem exactDiff_le_lagPower (h : Nat) (x : List Int) (τ : Nat) : exactDiff (x.take h) (x.drop τ) ≤ 2 * lagPower h x τ := by
  have htake : (x.drop τ).take (x.take h).length = (x.drop τ).take h := by
    rw [List.length_take, List.take_eq_take_iff, List.length_drop]
    omega
  rw [lagPower, ← htake]
  exact (exactDiff_bounds _ _).2

/-- The power terms of finite samples, at most 3200 in each, are below 2^599 units. -/
theorem lagPower_le {h : Nat} {xs : List F32} (τ : Nat) (hh : h ≤ 3200) (hx : ∀ x ∈ xs, finite32 x = true) :
    lagPower h (xs.map valF32) τ ≤ 2 ^ 599 := by
  have hterm : ∀ ys : List F32, (∀ y ∈ ys, finite32 y = true) → exactPower ((ys.take h).map valF32) ≤ 2 ^ 12 * 2 ^ 554 := by
    intro ys hy
    refine (exactPower_le _ fun y hm => hy y (List.mem_of_mem_take hm)).trans (mul_le_mul_of_nonneg_right ?_ (by positivity))
    have hlen : (ys.take h).length ≤ 2 ^ 12 := by rw [List.length_take]; omega
    exact_mod_cast hlen
  have h1 := hterm xs hx
  have h2 := hterm (xs.drop τ) fun y hm => hx y (List.mem_of_mem_drop hm)
  rw [lagPower, ← List.map_take, ← List.map_drop, ← List.map_take]
  calc _ ≤ (2 : Int) ^ 12 * 2 ^ 554 + 2 ^ 12 * 2 ^ 554 := add_le_add h1 h2
    _ = 2 ^ 567 := by rw [← pow_add, ← two_mul, ← pow_succ']
    _ ≤ 2 ^ 599 := pow_le_pow_right₀ (by norm_num) (by norm_num)

/-- Whatever is drawn, the FFT path's value meets R114's bound. -/
theorem fftAdmissible_fftDiff (n : Nat) {h : Nat} (τ : Nat) {xs : List F32} (hh : h ≤ 3200) (hx : ∀ x ∈ xs, finite32 x = true) :
    fftAdmissible (exactDiff ((xs.map valF32).take h) ((xs.map valF32).drop τ)) (lagPower h (xs.map valF32) τ)
      (fftDiff n h (xs.map valF32) τ) = true := by
  have hpower := exactDiff_le_lagPower h (xs.map valF32) τ
  have hle : exactDiff ((xs.map valF32).take h) ((xs.map valF32).drop τ) ≤ 2 ^ 600 := by
    have := lagPower_le τ hh hx
    rw [pow_succ']
    linarith
  unfold fftDiff
  dsimp only
  split
  · next hadm => exact hadm
  · exact fftAdmissible_rounded (exactDiff_bounds _ _).1 hle hpower

/-- R114's bound in real numbers: a unit of the exact quantities is 2^776 units of binary64. -/
theorem fftAdmissible_real {diff power : Int} {c : F64} (hpower : 0 ≤ power) (h : fftAdmissible diff power c = true) :
    |(valF64 c : ℝ) / 2 ^ 1074 - (diff : ℝ) / 2 ^ 298| ≤ (power : ℝ) / 2 ^ 298 / 2 ^ 36 := by
  obtain ⟨-, -, hle⟩ := (fftAdmissible_iff diff power c).1 h
  rw [abs_of_nonneg (mul_nonneg hpower (by positivity))] at hle
  have hle' : |(valF64 c : ℝ) - (diff : ℝ) * 2 ^ 776| * 2 ^ 36 ≤ (power : ℝ) * 2 ^ 776 := by exact_mod_cast hle
  have hunit : (2 : ℝ) ^ 1074 = 2 ^ 776 * 2 ^ 298 := by rw [← pow_add]
  have hu : (0 : ℝ) < 2 ^ 776 := by positivity
  have hv : (0 : ℝ) < 2 ^ 298 := by positivity
  rw [hunit]
  generalize (2 : ℝ) ^ 776 = u at *
  generalize (2 : ℝ) ^ 298 = v at *
  rw [show (valF64 c : ℝ) / (u * v) - (diff : ℝ) / v = ((valF64 c : ℝ) - (diff : ℝ) * u) / (u * v) by field_simp, abs_div,
    abs_of_pos (mul_pos hu hv), div_div, div_le_div_iff₀ (by positivity) (by positivity)]
  calc _ = |(valF64 c : ℝ) - (diff : ℝ) * u| * 2 ^ 36 * v := by ring
    _ ≤ power * u * v := mul_le_mul_of_nonneg_right hle' hv.le
    _ = _ := by ring

/-- Settles O31: the value is admissible, and the exact quantities are the real sums. -/
theorem fftDifferenceIsWithinTheBound : Obligations.FftDifferenceIsWithinTheBound := by
  intro n h τ xs hh hx c x diff power
  have hadm := fftAdmissible_fftDiff n τ hh hx
  obtain ⟨hfin, h0, -⟩ := (fftAdmissible_iff _ _ _).1 hadm
  have hdiff : ((exactDiff ((xs.map valF32).take h) ((xs.map valF32).drop τ) : Int) : ℝ) / 2 ^ 298 = diff := by
    rw [← List.map_take, ← List.map_drop, exactDiff_real, List.map_take, List.map_drop]
  have hpower : ((lagPower h (xs.map valF32) τ : Int) : ℝ) / 2 ^ 298 = power := by
    rw [lagPower, Int.cast_add, add_div, ← List.map_take, ← List.map_drop, ← List.map_take, exactPower_real, exactPower_real]
    simp only [List.map_take, List.map_drop, power, x]
  refine ⟨hfin, h0, ?_⟩
  rw [← hdiff, ← hpower]
  exact fftAdmissible_real (add_nonneg (exactPower_nonneg _) (exactPower_nonneg _)) hadm

/-! ### The CMNDF (R116) -/

/-- One value of the CMNDF from the difference, its lag and the running sum. -/
def cmndfValue (d : F64) (τ : Nat) (run : F64) : F64 := if ltF64 zeroF64 run then divF64 (mulF64 d (ofIntF64 τ)) run else oneF64

theorem cmndfLoop_cons (τ : Nat) (run d : F64) (ds : List F64) : cmndfLoop τ run (d :: ds) =
    (cmndfValue d τ (addF64 run d) :: (cmndfLoop (τ + 1) (addF64 run d) ds).1, (cmndfLoop (τ + 1) (addF64 run d) ds).2) := rfl

theorem cmndf_cons (d : F64) (ds : List F64) :
    cmndf (d :: ds) = (oneF64 :: (cmndfLoop 1 zeroF64 ds).1, (cmndfLoop 1 zeroF64 ds).2) := rfl

@[simp] theorem length_cmndfLoop (τ : Nat) (run : F64) (ds : List F64) : (cmndfLoop τ run ds).1.length = ds.length := by
  induction ds generalizing τ run with
  | nil => rfl
  | cons d ds ih => rw [cmndfLoop_cons, List.length_cons, ih, List.length_cons]

theorem cmndfLoop_sum (τ : Nat) (run : F64) (ds : List F64) : (cmndfLoop τ run ds).2 = ds.foldl addF64 run := by
  induction ds generalizing τ run with
  | nil => rfl
  | cons d ds ih => rw [cmndfLoop_cons, List.foldl_cons, ih]

/-- The value `j` lags after the loop's first. -/
theorem cmndfLoop_getD (τ : Nat) (run : F64) (ds : List F64) {j : Nat} (hj : j < ds.length) : (cmndfLoop τ run ds).1.getD j 0#64 =
    cmndfValue (ds.getD j 0#64) (τ + j) ((ds.take (j + 1)).foldl addF64 run) := by
  induction ds generalizing τ run j with
  | nil => exact absurd hj (Nat.not_lt_zero j)
  | cons d ds ih =>
    rw [cmndfLoop_cons]
    cases j with
    | zero => rfl
    | succ j =>
      rw [List.getD_cons_succ, List.getD_cons_succ, ih _ _ (Nat.lt_of_succ_lt_succ hj), List.take_succ_cons, List.foldl_cons,
        Nat.add_right_comm, Nat.add_assoc]

@[simp] theorem length_cmndf (d : List F64) : (cmndf d).1.length = d.length := by
  cases d with
  | nil => rfl
  | cons d ds => rw [cmndf_cons, List.length_cons, length_cmndfLoop, List.length_cons]

theorem cmndf_sum (d : List F64) : (cmndf d).2 = (d.drop 1).foldl addF64 zeroF64 := by
  cases d with
  | nil => rfl
  | cons d ds => exact cmndfLoop_sum 1 zeroF64 ds

/-- Over differences that are finite, not negative and below 2^300 the CMNDF and the final sum are finite and not negative
(R126). -/
theorem cmndf_range {d : List F64} (hlen : d.length ≤ 3200) (hd : ∀ x ∈ d, EnergyRange x) :
    (∀ c ∈ (cmndf d).1, finite64 c = true ∧ 0 ≤ valF64 c) ∧ finite64 (cmndf d).2 = true ∧ 0 ≤ valF64 (cmndf d).2 := by
  have hzero : finite64 zeroF64 = true := by decide
  cases d with
  | nil => exact ⟨by simp [cmndf], hzero, valF64_zeroF64.ge⟩
  | cons d ds =>
    rw [List.length_cons] at hlen
    have hds : ∀ x ∈ ds, finite64 x = true ∧ 0 ≤ valF64 x ∧ valF64 x ≤ 2 ^ 1374 := fun x hx => by
      obtain ⟨hfin, h0, hlt⟩ := hd x (List.mem_cons_of_mem d hx)
      exact ⟨hfin, h0, hlt.le⟩
    obtain ⟨-, hval, hfin, hle⟩ := cmndfLoop_range ds 1 0 zeroF64 hds (by omega) (by omega) hzero valF64_zeroF64.ge
      (by rw [valF64_zeroF64, Nat.cast_zero, zero_mul])
    rw [cmndf_cons]
    refine ⟨List.forall_mem_cons.2 ⟨⟨by decide, ?_⟩, hval⟩, hfin, valF64_zeroF64.ge.trans hle⟩
    rw [valF64_oneF64]
    positivity

/-- Settles O32: the loop's values and its last sum, and their range. -/
theorem cmndfFollowsItsRecurrence : Obligations.CmndfFollowsItsRecurrence := by
  intro d run
  refine ⟨length_cmndf d, fun hne => ?_, fun τ h1 hτ => ?_, ?_, cmndf_range⟩
  · obtain ⟨x, ds, rfl⟩ := List.exists_cons_of_ne_nil hne
    rfl
  · cases d with
    | nil => exact absurd hτ (Nat.not_lt_zero τ)
    | cons x ds =>
      obtain ⟨j, rfl⟩ : ∃ j, τ = j + 1 := ⟨τ - 1, by omega⟩
      rw [cmndf_cons, List.getD_cons_succ, cmndfLoop_getD _ _ _ (Nat.lt_of_succ_lt_succ hτ), Nat.add_comm 1 j]
      rfl
  · rw [cmndf_sum]
    simp only [run]
    rw [List.take_of_length_le (by rw [List.length_drop]; omega)]
    rfl

/-! ### Windows without a pitch (R117, R120) -/

theorem resultOfDiff_silent {fallback : Bool} {fa : F64} {d : List F64} (h : leF64 (cmndf d).2 zeroF64 = true) :
    resultOfDiff fallback fa d = noPitch := if_pos h

theorem resultOfDiff_noLag {fallback : Bool} {fa : F64} {d : List F64} (hs : leF64 (cmndf d).2 zeroF64 = false)
    (h : selectLag fallback (cmndf d).1 = none) : resultOfDiff fallback fa d = noPitch := by
  unfold resultOfDiff
  dsimp only
  rw [if_neg (Bool.eq_false_iff.1 hs), h]

theorem resultOfDiff_lag {fallback : Bool} {fa : F64} {d : List F64} {τ : Nat} (hs : leF64 (cmndf d).2 zeroF64 = false)
    (h : selectLag fallback (cmndf d).1 = some τ) : resultOfDiff fallback fa d = resultAt fa (cmndf d).1 τ := by
  unfold resultOfDiff
  dsimp only
  rw [if_neg (Bool.eq_false_iff.1 hs), h]

@[simp] theorem length_diffFunction (a : Acfg) (n : Nat) (d : Det) : (diffFunction a n d).length = d.halfWindow := by
  unfold diffFunction
  split <;> rw [List.length_map, List.length_range]

/-- A list of at most two values has no lag to accept. -/
theorem selectLag_short (fallback : Bool) {cm : List F64} (h : cm.length ≤ 2) : selectLag fallback cm = none := by
  rw [selectLag, List.drop_eq_nil_of_le h]
  cases fallback <;> rfl

theorem finite64_of_valF64_zero {a : F64} (h : valF64 a = 0) : finite64 a = true :=
  finite64_of_val (m := 0) (by norm_num) (by rw [h]; simp)

/-- Zeros of either sign add up to a zero. -/
theorem valF64_addF64_zeros {a b : F64} (ha : valF64 a = 0) (hb : valF64 b = 0) : valF64 (addF64 a b) = 0 := by
  rw [(addF64_finite (finite64_of_valF64_zero ha) (finite64_of_valF64_zero hb)).2, ha, hb, add_zero, valRound64, valRound_zero]

theorem valF64_foldl_zeros {ds : List F64} (hd : ∀ x ∈ ds, valF64 x = 0) {run : F64} (hr : valF64 run = 0) :
    valF64 (ds.foldl addF64 run) = 0 := by
  induction ds generalizing run with
  | nil => exact hr
  | cons d ds ih =>
    exact ih (fun x hx => hd x (List.mem_cons_of_mem d hx)) (valF64_addF64_zeros hr (hd d List.mem_cons_self))

/-- Where every difference is a zero, the final sum is one too and the silence guard holds. -/
theorem resultOfDiff_zeros {fallback : Bool} {fa : F64} {ds : List F64} (hd : ∀ x ∈ ds, valF64 x = 0) :
    resultOfDiff fallback fa ds = noPitch := by
  have hsum : valF64 (cmndf ds).2 = 0 := by
    rw [cmndf_sum]
    exact valF64_foldl_zeros (fun x hx => hd x (List.mem_of_mem_drop hx)) valF64_zeroF64
  refine resultOfDiff_silent ((leF64_iff _ _).2 ⟨not_isNaN64_of_finite (finite64_of_valF64_zero hsum), by decide, ?_⟩)
  rw [hsum, valF64_zeroF64]

theorem linearise_eq_replicate {d : Det} {v : F32} (h : ∀ k, k < d.windowSize → Memory.read d.win k = v) :
    linearise d = List.replicate d.windowSize v := by
  refine List.eq_replicate_iff.2 ⟨length_linearise d, fun x hx => ?_⟩
  obtain ⟨k, hk, rfl⟩ := mem_linearise hx
  exact h k hk

theorem exactDiff_zeros (m k : Nat) : exactDiff (List.replicate m 0) (List.replicate k 0) = 0 := by
  induction m generalizing k with
  | zero => rfl
  | succ m ih =>
    cases k with
    | zero => rfl
    | succ k => rw [List.replicate_succ, List.replicate_succ, exactDiff, ih]; rfl

theorem exactPower_zeros (m : Nat) : exactPower (List.replicate m 0) = 0 := by
  induction m with
  | zero => rfl
  | succ m ih => rw [List.replicate_succ, exactPower, ih]; rfl

/-- Without power R114's bound leaves nothing but zero to draw. -/
theorem valF64_of_fftAdmissible_zero {c : F64} (h : fftAdmissible 0 0 c = true) : valF64 c = 0 := by
  obtain ⟨-, -, hle⟩ := (fftAdmissible_iff 0 0 c).1 h
  rw [zero_mul, abs_zero, sub_zero] at hle
  refine abs_eq_zero.1 (le_antisymm ?_ (abs_nonneg _))
  linarith

theorem fftDiff_zeros (n h m τ : Nat) : valF64 (fftDiff n h (List.replicate m 0) τ) = 0 := by
  unfold fftDiff
  dsimp only
  rw [List.take_replicate, List.drop_replicate, List.take_replicate, exactDiff_zeros, exactPower_zeros, exactPower_zeros, add_zero]
  split
  · next hadm => exact valF64_of_fftAdmissible_zero hadm
  · rw [Int.natAbs_zero, zero_mul, valF64_roundF64_false, Nat.cast_zero, valRound64, valRound_zero]

/-- On the direct path the differences of a window of one finite value are zeros. -/
theorem diffFunction_direct_constant {a : Acfg} (n : Nat) {d : Det} {v : F32} (ha : a.diffFft = false) (hv : finite32 v = true)
    (h : ∀ k, k < d.windowSize → Memory.read d.win k = v) : ∀ x ∈ diffFunction a n d, valF64 x = 0 := by
  rw [diffFunction, if_neg (Bool.eq_false_iff.1 ha), linearise_eq_replicate h, List.map_replicate]
  refine List.forall_mem_map.2 fun τ _ => ?_
  rw [directDiff_replicate (f64OfF32_finite hv).1]
  exact valF64_zeroF64

/-- On the FFT path those of a window of zeros are. -/
theorem diffFunction_fft_zeros {a : Acfg} (n : Nat) {d : Det} (ha : a.diffFft = true)
    (h : ∀ k, k < d.windowSize → Memory.read d.win k = zeroF32) : ∀ x ∈ diffFunction a n d, valF64 x = 0 := by
  rw [diffFunction, if_pos ha, linearise_eq_replicate h, List.map_replicate, valF32_zeroF32]
  exact List.forall_mem_map.2 fun τ _ => fftDiff_zeros n _ _ τ

/-- Settles O29: at most two lags leave none to accept, and zero differences are silence. -/
theorem noPitchForSilenceAndTinyWindows : Obligations.NoPitchForSilenceAndTinyWindows := by
  intro a n d
  refine ⟨fun hh => ?_, fun _ hz => resultOfDiff_zeros ?_,
    fun v _ ha hv hc => resultOfDiff_zeros (diffFunction_direct_constant n ha hv hc)⟩
  · have hnone : selectLag a.fallbackEn (cmndf (diffFunction a n d)).1 = none :=
      selectLag_short _ (by rwa [length_cmndf, length_diffFunction])
    cases hs : leF64 (cmndf (diffFunction a n d)).2 zeroF64
    · exact resultOfDiff_noLag hs hnone
    · exact resultOfDiff_silent hs
  · cases ha : a.diffFft
    · exact diffFunction_direct_constant n ha (by decide) fun k _ => hz k
    · exact diffFunction_fft_zeros n ha fun k _ => hz k

end Sys2Proof.Machine

/-! PROOFS. The steps of a pass (41_detector_analysis.md R117, R120 to R125): the refined lag, the two rejections, and the clamped
confidence. -/

namespace Sys2Proof.Machine

/-! ### Clamping a confidence (R124) -/

section clamp
variable {a b v x : F64}

theorem ltF64_asymm (h : ltF64 a b = true) : ltF64 b a = false := by
  obtain ⟨-, -, hlt⟩ := (ltF64_iff a b).1 h
  exact Bool.eq_false_iff.2 fun hc => hlt.asymm ((ltF64_iff b a).1 hc).2.2

theorem ltF64_irrefl (a : F64) : ltF64 a a = false :=
  Bool.eq_false_iff.2 fun h => lt_irrefl _ ((ltF64_iff a a).1 h).2.2

theorem ne_of_ltF64 (h : ltF64 a b = true) : a ≠ b := by
  rintro rfl
  exact Bool.noConfusion (h.symm.trans (ltF64_irrefl a))

/-- Of two numbers neither of which is smaller, both are one value. -/
theorem valF64_eq_of_not_lt (ha : isNaN64 a = false) (hb : isNaN64 b = false) (hab : ltF64 a b = false) (hba : ltF64 b a = false) :
    valF64 a = valF64 b :=
  le_antisymm (not_lt.1 fun h => Bool.eq_false_iff.1 hba ((ltF64_iff b a).2 ⟨hb, ha, h⟩))
    (not_lt.1 fun h => Bool.eq_false_iff.1 hab ((ltF64_iff a b).2 ⟨ha, hb, h⟩))

/-- Where two numbers are not zeros of different signs, `max` is the comparison's choice … -/
theorem maxF64_eq_ite (ha : isNaN64 a = false) (hb : isNaN64 b = false) (hz : valF64 a = valF64 b → a = b) :
    maxF64 a b = if ltF64 a b then b else a := by
  unfold maxF64
  by_cases heq : a = b
  · subst heq
    rw [if_pos rfl, ite_self]
  rw [if_neg heq]
  cases hab : ltF64 a b
  · cases hba : ltF64 b a
    · exact absurd (hz (valF64_eq_of_not_lt ha hb hab hba)) heq
    · rfl
  · rfl

/-- … and so is `min`. -/
theorem minF64_eq_ite (ha : isNaN64 a = false) (hb : isNaN64 b = false) (hz : valF64 a = valF64 b → a = b) :
    minF64 a b = if ltF64 b a then b else a := by
  unfold minF64
  by_cases heq : a = b
  · subst heq
    rw [if_pos rfl, ite_self]
  rw [if_neg heq]
  cases hab : ltF64 a b
  · cases hba : ltF64 b a
    · exact absurd (hz (valF64_eq_of_not_lt ha hb hab hba)) heq
    · rfl
  · rw [ltF64_asymm hab]
    rfl

theorem isNaN64_zeroF64 : isNaN64 zeroF64 = false := by decide

theorem isNaN64_oneF64 : isNaN64 oneF64 = false := by decide

theorem eq_oneF64_of_valF64_eq (h : valF64 x = valF64 oneF64) : x = oneF64 :=
  (eq_or_zero_of_valF64_eq h).resolve_right (by rw [valF64_oneF64]; positivity)

/-- For a number that is no negative zero the clamp is R124's two comparisons. -/
theorem clampUnit64_eq_ite (hn : isNaN64 v = false) (hz : valF64 v = 0 → v = zeroF64) :
    clampUnit64 v = if ltF64 v zeroF64 then zeroF64 else if ltF64 oneF64 v then oneF64 else v := by
  rw [clampUnit64, maxF64_eq_ite hn isNaN64_zeroF64 (fun h => hz (h.trans valF64_zeroF64))]
  cases hlow : ltF64 v zeroF64
  · exact minF64_eq_ite hn isNaN64_oneF64 eq_oneF64_of_valF64_eq
  · exact (minF64_eq_ite isNaN64_zeroF64 isNaN64_oneF64 eq_oneF64_of_valF64_eq).trans
      (if_neg (Bool.eq_false_iff.1 (by decide +kernel)))

/-- Only zero rounds to zero: an integer is a multiple of the least positive value. -/
theorem eq_zero_of_valRound64_one {n : Int} (h : valRound64 n 1 = 0) : n = 0 := by
  have hleast : isNaN64 1#64 = false ∧ valF64 1#64 = 1 := by decide +kernel
  have hgreatest : isNaN64 (negF64 1#64) = false ∧ valF64 (negF64 1#64) = -1 := by decide +kernel
  rcases lt_trichotomy n 0 with hneg | hzero | hpos
  · have hle := valRound64_le one_pos hgreatest.1 (v := n) (by rw [hgreatest.2]; omega)
    rw [h, hgreatest.2] at hle
    omega
  · exact hzero
  · have hle := le_valRound64 one_pos hleast.1 (v := n) (by rw [hleast.2]; omega)
    rw [h, hleast.2] at hle
    omega

/-- An infinite operand on the right is the sum. -/
theorem addF64_of_isInf64 (ha : finite64 a = true) (hb : isInf64 b = true) (hn : isNaN64 b = false) : addF64 a b = b := by
  simp [addF64, not_isNaN64_of_finite ha, not_isInf64_of_finite ha, hb, hn]

/-- An exact zero sum of finite operands is +0.0 where one of them is not negative. -/
theorem addF64_zero_sum (ha : finite64 a = true) (hb : finite64 b = true) (hs : signF64 a = false) (h : valF64 a + valF64 b = 0) :
    addF64 a b = zeroF64 := by
  simp [addF64, not_isNaN64_of_finite ha, not_isNaN64_of_finite hb, not_isInf64_of_finite ha, not_isInf64_of_finite hb, h, hs,
    packF64, zeroF64]

/-- `1.0 - x` is a number for a number `x`, and no negative zero. -/
theorem one_sub_number (hx : isNaN64 x = false) :
    isNaN64 (subF64 oneF64 x) = false ∧ (valF64 (subF64 oneF64 x) = 0 → subF64 oneF64 x = zeroF64) := by
  have hone : finite64 oneF64 = true := by decide
  cases hi : isInf64 x
  · have hfin : finite64 (negF64 x) = true := by rw [finite64_negF64]; exact finite64_of_not hx hi
    obtain ⟨hn, hval⟩ := addF64_finite hone hfin
    exact ⟨hn, fun h => addF64_zero_sum hone hfin (by decide) (eq_zero_of_valRound64_one (hval.symm.trans h))⟩
  · have hinf : isInf64 (negF64 x) = true := by rwa [isInf64_iff, patF64_negF64, ← isInf64_iff]
    have hnum : isNaN64 (negF64 x) = false := by rwa [isNaN64_negF64]
    rw [subF64, addF64_of_isInf64 hone hinf hnum]
    refine ⟨hnum, fun h => ?_⟩
    rw [not_isInf64_of_finite (finite64_of_valF64_zero h)] at hinf
    exact Bool.noConfusion hinf

end clamp

/-- The confidence of a lag whose value is a number (R124). -/
theorem confidenceAt_eq_ite {cm : List F64} {τ : Nat} (hn : isNaN64 (cm.getD τ 0#64) = false) :
    confidenceAt cm τ =
      if ltF64 (subF64 oneF64 (cm.getD τ 0#64)) zeroF64 then zeroF64
      else if ltF64 oneF64 (subF64 oneF64 (cm.getD τ 0#64)) then oneF64 else subF64 oneF64 (cm.getD τ 0#64) :=
  clampUnit64_eq_ite (one_sub_number hn).1 (one_sub_number hn).2

/-! ### The result at a lag (R121 to R123, R125) -/

theorem le_leastLag {k best t : Nat} (m : F64) (cm : List F64) (hbest : k ≤ best) (ht : k ≤ t) : k ≤ leastLag best m t cm := by
  induction cm generalizing best m t with
  | nil => exact hbest
  | cons c cm ih =>
    unfold leastLag
    split
    · exact ih c ht (ht.trans t.le_succ)
    · exact ih m hbest (ht.trans t.le_succ)

/-- No lag below 2 is accepted. -/
theorem two_le_of_selectLag {fallback : Bool} {cm : List F64} {τ : Nat} (h : selectLag fallback cm = some τ) : 2 ≤ τ := by
  cases hf : firstBelow 2 (cm.drop 2) with
  | some t =>
    obtain ⟨h2, hlen, -, -⟩ := isFirstBelow_of_firstBelow hf
    obtain rfl : walkDown t (cm.drop t) = τ := Option.some.inj ((selectLag_of_firstBelow hf).symm.trans h)
    exact h2.trans (isBottom_walkDown hlen).le
  | none =>
    rw [selectLag_of_none hf] at h
    cases fallback
    · exact absurd h (by simp)
    cases hd : cm.drop 2 with
    | nil => rw [hd] at h; exact absurd h (by simp [globalMinimum])
    | cons c cs =>
      rw [hd] at h
      obtain rfl : leastLag 2 c 3 cs = τ := Option.some.inj h
      exact le_leastLag c cs le_rfl (by omega)

/-- At a lag with a left neighbour the parabola needs the right one and a denominator that is not zero (R121). -/
theorem refineLag_eq_ite {cm : List F64} {τ : Nat} (hτ : 1 ≤ τ) : refineLag cm τ =
    let s0 := cm.getD (τ - 1) zeroF64
    let s1 := cm.getD τ zeroF64
    let s2 := cm.getD (τ + 1) zeroF64
    let den := subF64 (addF64 s0 s2) (mulF64 twoF64 s1)
    if τ + 1 < cm.length ∧ eqF64 den zeroF64 = false then addF64 (ofIntF64 τ) (divF64 (subF64 s0 s2) (mulF64 twoF64 den))
    else ofIntF64 τ := by
  unfold refineLag
  dsimp only
  by_cases hlen : τ + 1 < cm.length
  · rw [if_pos ⟨hτ, hlen⟩]
    simp only [hlen, true_and, Bool.not_eq_true']
  · rw [if_neg (fun h => hlen h.2), if_neg (fun h => hlen h.1)]

/-- Neither of the two rejections applies to a refined lag. -/
def lagAccepted (fa τr : F64) : Bool :=
  !ltF64 τr oneF64 && leF64 Config.freqLo (divF64 fa τr) && ltF64 (divF64 fa τr) Config.freqHi

theorem resultAt_eq_ite (fa : F64) (cm : List F64) (τ : Nat) : resultAt fa cm τ =
    if lagAccepted fa (refineLag cm τ) then
      { frequency := f32OfF64 (divF64 fa (refineLag cm τ)), confidence := f32OfF64 (confidenceAt cm τ) }
    else noPitch := by
  unfold resultAt lagAccepted
  dsimp only
  cases ltF64 (refineLag cm τ) oneF64
  · cases leF64 Config.freqLo (divF64 fa (refineLag cm τ))
    · rfl
    · cases ltF64 (divF64 fa (refineLag cm τ)) Config.freqHi <;> rfl
  · rfl

/-- A frequency of at least 20 does not round to zero. -/
theorem f32OfF64_ne_zero {v : F64} (hn : isNaN64 v = false) (h : 20 * 2 ^ 1074 ≤ valF64 v) : f32OfF64 v ≠ zeroF32 := by
  intro hz
  have hle : valF32 oneF32 ≤ valRound32 (valF64 v) (2 ^ 925) := by
    refine le_valRound32 (by positivity) isNaN32_oneF32 ?_
    rw [valF32_oneF32, Nat.cast_pow, Nat.cast_ofNat, ← pow_add]
    exact le_trans (le_mul_of_one_le_left (by positivity) (by norm_num)) h
  rw [← (f32OfF64_number hn).2, hz, valF32_zeroF32, valF32_oneF32] at hle
  exact absurd hle (not_le.2 (by positivity))

/-- A result is no pitch, or a frequency that is not zero. -/
theorem resultAt_eq_noPitch_or (fa : F64) (cm : List F64) (τ : Nat) :
    resultAt fa cm τ = noPitch ∨ (resultAt fa cm τ).frequency ≠ zeroF32 := by
  rcases resultAt_cases fa cm τ with h | ⟨hn, h0, -, h⟩
  · exact .inl h
  · exact .inr (by rw [h]; exact f32OfF64_ne_zero hn h0)

theorem analyse_eq_noPitch_or (a : Acfg) (n : Nat) (d : Det) :
    analyse a n d = noPitch ∨ (analyse a n d).frequency ≠ zeroF32 := by
  unfold analyse
  rcases resultOfDiff_cases a.fallbackEn d.fa (diffFunction a n d) with ⟨-, h⟩ | ⟨-, -, h⟩ | ⟨τ, -, -, h⟩ <;> rw [h]
  · exact .inl rfl
  · exact .inl rfl
  · exact resultAt_eq_noPitch_or _ _ _

/-- Settles O28: the branches of a pass, and the range of its result. -/
theorem analysisFollowsItsSteps : Obligations.AnalysisFollowsItsSteps := by
  intro a n d h df cm silent zeros
  refine ⟨resultOfDiff_silent, resultOfDiff_noLag, fun τ hs hlag hn => ?_, ?_⟩
  · intro s0 s1 s2 den lag τr fr cf accepted
    have hrefine : refineLag cm τ = τr := refineLag_eq_ite (one_le_two.trans (two_le_of_selectLag hlag))
    have hres := (resultOfDiff_lag hs hlag).trans (resultAt_eq_ite d.fa cm τ)
    rw [hrefine] at hres
    refine ⟨fun hacc => hres.trans (if_neg (Bool.eq_false_iff.1 hacc)), fun hacc => (hres.trans (if_pos hacc)).trans ?_⟩
    rw [confidenceAt_eq_ite hn]
    rfl
  · obtain ⟨hfreq, hconf⟩ := analyse_range a n d
    rcases analyse_eq_noPitch_or a n d with hno | hne
    · exact .inl hno
    · obtain ⟨hnum, hlow, hhigh⟩ := hfreq.resolve_left hne
      exact .inr ⟨hnum, hlow, hhigh, hconf⟩

end Sys2Proof.Machine

/-! PROOFS. The sine table (42_oscillator.md R136): every entry is brought back to the quarter of the period whose intervals are
decided, and the sine of its index to the sine of that quarter's angle. -/

namespace Sys2Proof.Machine

/-! ### The quarter of the period -/

/-- Where in the rising quarter of the period the table finds the magnitude of entry `i`. -/
def quarterIndex (i : ℕ) : ℕ := if i % 1024 ≤ 512 then i % 1024 else 1024 - i % 1024

theorem quarterIndex_range {i : ℕ} (h : i % 1024 ≠ 0) : 0 < quarterIndex i ∧ quarterIndex i ≤ 512 := by
  unfold quarterIndex
  split <;> omega

/-- Twice in a period the sine is zero. -/
theorem sineEntry_zero {i : ℕ} (h : i % 1024 = 0) : sineEntry i = zeroF32 := by
  have hj : i % Config.sineTableSize % 1024 = 0 := by
    rw [Config.sineTableSize, Nat.mod_mod_of_dvd _ (by norm_num)]
    exact h
  exact if_pos hj

theorem sineEntry_quarter {i : ℕ} (hi : i < 2048) (h : i % 1024 ≠ 0) :
    sineEntry i = roundSine (decide (1024 ≤ i)) (quarterInterval (quarterIndex i)).1 := by
  have hj : i % Config.sineTableSize = i := Nat.mod_eq_of_lt hi
  unfold sineEntry
  rw [hj, if_neg h]
  rfl

/-- The symmetries of the sine: each half of the period mirrors its quarter, and the second half is the first with the other
sign. -/
theorem sin_quarterIndex {i : ℕ} (hi : i < 2048) : Real.sin (2 * Real.pi * i / 2048) =
    (if 1024 ≤ i then -1 else 1) * Real.sin (2 * Real.pi * quarterIndex i / 2048) := by
  have first {j : ℕ} (hj : j < 1024) : Real.sin (2 * Real.pi * j / 2048) = Real.sin (2 * Real.pi * quarterIndex j / 2048) := by
    unfold quarterIndex
    rw [Nat.mod_eq_of_lt hj]
    split
    · rfl
    · rw [← Real.sin_pi_sub, Nat.cast_sub hj.le]
      exact congrArg Real.sin (by push_cast; ring)
  split
  · next h =>
    obtain ⟨j, rfl⟩ := Nat.exists_eq_add_of_le' h
    have hq : quarterIndex (j + 1024) = quarterIndex j := by simp only [quarterIndex, Nat.add_mod_right]
    rw [hq, ← first (by omega), neg_one_mul, ← Real.sin_add_pi]
    exact congrArg Real.sin (by push_cast; ring)
  · next h => rw [one_mul, first (not_le.1 h)]

/-- In its first quarter the sine lies above its chord (Jordan), hence from the second entry on at 2^-9 or above. -/
theorem sin_quarter_range {r : ℕ} (h0 : 0 < r) (hr : r ≤ 512) :
    1 / 2 ^ 9 ≤ Real.sin (2 * Real.pi * r / 2048) ∧ Real.sin (2 * Real.pi * r / 2048) ≤ 1 := by
  refine ⟨?_, Real.sin_le_one _⟩
  have h0' : (1 : ℝ) ≤ r := by exact_mod_cast h0
  have hr' : (r : ℝ) ≤ 512 := by exact_mod_cast hr
  have hchord : 2 / Real.pi * (2 * Real.pi * r / 2048) ≤ Real.sin (2 * Real.pi * r / 2048) :=
    Real.mul_le_sin (by positivity) (by nlinarith [Real.pi_pos])
  have hval : 2 / Real.pi * (2 * Real.pi * r / 2048) = r / 512 := by
    field_simp
    norm_num
  rw [hval] at hchord
  linarith

/-! ### The entries -/

/-- The sign carries over: in either half of the period an entry is the sine rounded once. -/
theorem rounds32_roundSine {r : ℕ} (neg : Bool) (h0 : 0 < r) (hr : r ≤ 512) :
    Rounds32 ((if neg then -1 else 1) * Real.sin (2 * Real.pi * r / 2048)) (roundSine neg (quarterInterval r).1) := by
  obtain ⟨hs, hn⟩ := roundSine_nearest neg h0 hr
  have hpos : 0 < Real.sin (2 * Real.pi * r / 2048) := lt_of_lt_of_le (by positivity) (sin_quarter_range h0 hr).1
  generalize Real.sin (2 * Real.pi * r / 2048) = v at *
  refine rounds32_of_nearest (fun _ => ?_) ?_
  · rw [hs]
    cases neg <;> simp [hpos, hpos.le]
  · have habs : |(if neg then -1 else 1) * v| = v := by cases neg <;> simp [abs_of_pos hpos]
    rwa [habs]

theorem rounds32_sineEntry {i : ℕ} (hi : i ≤ 2048) : Rounds32 (Real.sin (2 * Real.pi * i / 2048)) (sineEntry i) := by
  by_cases h : i % 1024 = 0
  · obtain ⟨k, rfl⟩ := Nat.dvd_of_mod_eq_zero h
    have hsin : Real.sin (2 * Real.pi * (1024 * k : ℕ) / 2048) = 0 := by
      rw [← Real.sin_nat_mul_pi k]
      exact congrArg Real.sin (by push_cast; ring)
    rw [sineEntry_zero h, hsin]
    exact rounds32_zero false
  · have hlt : i < 2048 := by omega
    obtain ⟨h0, hr⟩ := quarterIndex_range h
    rw [sineEntry_quarter hlt h, sin_quarterIndex hlt]
    simpa using rounds32_roundSine (decide (1024 ≤ i)) h0 hr

/-- Settles O41: zero twice in the period, elsewhere the rounding of its quarter's interval with the half's sign. -/
theorem sineTableIsCorrectlyRounded : Obligations.SineTableIsCorrectlyRounded := by
  intro i hi
  refine ⟨rounds32_sineEntry hi, fun h => sineEntry_zero (by omega), ?_, ?_⟩
  · rintro rfl
    decide +kernel
  · rintro rfl
    decide +kernel

end Sys2Proof.Machine

/-! PROOFS. The range of the sine and of the triangle (42_oscillator.md R141, R142, R148): rounding keeps integers as bounds, and
the interpolated sine does not leave the interval because the difference of two entries is exact. -/

namespace Sys2Proof.Machine

/-! ### Values between two integers -/

/-- The value lies in [j, k]. -/
def InUnits (j k : ℤ) (a : F64) : Prop := j * 2 ^ 1074 ≤ valF64 a ∧ valF64 a ≤ k * 2 ^ 1074

section units
variable {j k j' k' : ℤ} {a b : F64}

theorem InUnits.finite (h : InUnits j k a) (hj : -2 ^ 9 ≤ j) (hk : k ≤ 2 ^ 9) : finite64 a = true :=
  finite64_of_units (abs_le_of_units (by positivity) h.1 h.2 hj hk)

theorem inUnits_neg_one_one_iff : InUnits (-1) 1 a ↔ |valF64 a| ≤ 2 ^ 1074 := by
  rw [InUnits, neg_one_mul, one_mul, abs_le]

/-- Rounding keeps integers as bounds. -/
theorem InUnits.sub_one (h : InUnits 0 2 a) : InUnits (-1) 1 (subF64 a oneF64) := by
  rw [InUnits, (subF64_finite (h.finite (by norm_num) (by norm_num)) finite64_oneF64).2, valF64_oneF64]
  obtain ⟨h0, h2⟩ := h
  exact valRound64_whole_bounds (by norm_num) (by norm_num) (by linarith) (by linarith)

theorem InUnits.abs (h : InUnits (-1) 1 a) : InUnits 0 1 (absF64 a) := by
  rw [inUnits_neg_one_one_iff] at h
  rw [InUnits, valF64_absF64, zero_mul, one_mul]
  exact ⟨abs_nonneg _, h⟩

/-- A product with a power of two is exact. -/
theorem valF64_mulF64_two_pow {c : F64} {e : ℕ} (he : e ≤ 1024) (ha : |valF64 a| ≤ 2 ^ 1074) (hc : finite64 c = true)
    (hval : valF64 c = 2 ^ e * 2 ^ 1074) : valF64 (mulF64 a c) = valF64 a * 2 ^ e := by
  obtain ⟨n, e', hn, hm⟩ := magOfPattern_split 52 (patF64 a)
  have haf : finite64 a = true := finite64_of_val (by norm_num) ha
  have hmag : (valF64 a * 2 ^ e).natAbs = magF64 a * 2 ^ e := by
    rw [Int.natAbs_mul, natAbs_valF64, Int.natAbs_pow]
    rfl
  have hle : magF64 a ≤ 2 ^ 1074 := by
    rw [abs_valF64] at ha
    exact_mod_cast ha
  have hexact := valRound64_representable (v := valF64 a * 2 ^ e) (d := 2 ^ 1074) (e' + e) (by positivity) hn
    (by rw [hmag, magF64, hm, pow_add, mul_assoc])
    (by
      rw [hmag]
      calc magF64 a * 2 ^ e ≤ 2 ^ 1074 * 2 ^ 1024 := Nat.mul_le_mul hle (Nat.pow_le_pow_right (by norm_num) he)
        _ = 2 ^ 2098 := by rw [← pow_add])
  rw [(mulF64_finite haf hc).2, hval, ← mul_assoc]
  rwa [Nat.cast_pow, Nat.cast_ofNat] at hexact

theorem valF64_mulF64_comm (ha : finite64 a = true) (hb : finite64 b = true) : valF64 (mulF64 a b) = valF64 (mulF64 b a) := by
  rw [(mulF64_finite ha hb).2, (mulF64_finite hb ha).2, mul_comm]

theorem InUnits.double (h : InUnits 0 1 a) : InUnits 0 2 (mulF64 twoF64 a) := by
  have htwo : finite64 twoF64 = true := by decide
  have haf := h.finite (by norm_num) (by norm_num)
  obtain ⟨h0, h1⟩ := h
  rw [zero_mul] at h0
  rw [one_mul] at h1
  rw [InUnits, valF64_mulF64_comm htwo haf, valF64_mulF64_two_pow (e := 1) (by norm_num) (by rwa [abs_of_nonneg h0]) htwo
    (by rw [valF64_twoF64, ← pow_add]), zero_mul, pow_one, mul_comm (valF64 a)]
  exact ⟨mul_nonneg zero_le_two h0, mul_le_mul_of_nonneg_left h1 zero_le_two⟩

/-- A fraction in [0, 1] of a finite value lies between it and zero. -/
theorem InUnits.fraction (ha : InUnits 0 1 a) (hb : finite64 b = true) : finite64 (mulF64 a b) = true ∧
    min 0 (valF64 b) ≤ valF64 (mulF64 a b) ∧ valF64 (mulF64 a b) ≤ max 0 (valF64 b) := by
  have haf := ha.finite (by norm_num) (by norm_num)
  obtain ⟨h0, h1⟩ := ha
  rw [zero_mul] at h0
  rw [one_mul] at h1
  rcases h0.eq_or_lt with hz | hpos
  · have hval : valF64 (mulF64 a b) = 0 := by rw [(mulF64_finite haf hb).2, ← hz, zero_mul, valRound64, valRound_zero]
    rw [hval]
    exact ⟨finite64_of_valF64_zero hval, min_le_left _ _, le_max_left _ _⟩
  · exact mulF64_fraction ⟨not_isNaN64_of_finite haf, hpos, h1⟩ hb

/-- Between two values in [-1, 1] whose difference is exact, linear interpolation does not leave [-1, 1]. -/
theorem InUnits.interpolate {f : F64} (ha : InUnits (-1) 1 a) (hb : InUnits (-1) 1 b) (hf : InUnits 0 1 f)
    (hd : finite64 (subF64 b a) = true) (hexact : valF64 (subF64 b a) = valF64 b - valF64 a) :
    InUnits (-1) 1 (addF64 a (mulF64 f (subF64 b a))) := by
  obtain ⟨hmf, hlow, hhigh⟩ := hf.fraction hd
  rw [hexact] at hlow hhigh
  rw [InUnits, (addF64_finite (ha.finite (by norm_num) (by norm_num)) hmf).2]
  obtain ⟨ha0, ha1⟩ := ha
  obtain ⟨hb0, hb1⟩ := hb
  refine valRound64_whole_bounds (by norm_num) (by norm_num) ?_ ?_
  · rcases min_choice 0 (valF64 b - valF64 a) with h | h <;> rw [h] at hlow <;> linarith
  · rcases max_choice 0 (valF64 b - valF64 a) with h | h <;> rw [h] at hhigh <;> linarith

end units

theorem PhaseRange.nonneg {p : F64} (h : PhaseRange p) : 0 ≤ valF64 p := by
  rw [valF64_eq, h.2.1]
  simp

theorem PhaseRange.inUnits {p : F64} (h : PhaseRange p) : InUnits 0 1 p := by
  rw [InUnits, zero_mul, one_mul]
  exact ⟨h.nonneg, h.2.2.le⟩

/-! ### The triangle (R142) -/

/-- The naive ramp `2p - 1`. -/
theorem ramp_inUnits {p : F64} (h : InUnits 0 1 p) : InUnits (-1) 1 (subF64 (mulF64 twoF64 p) oneF64) := h.double.sub_one

theorem triangleAt_inUnits {p : F64} (h : PhaseRange p) : InUnits (-1) 1 (triangleAt p) := ramp_inUnits (ramp_inUnits h.inUnits).abs

/-! ### The sine (R141) -/

/-- A nearest pattern does not pass a value of the format. -/
theorem NearestPattern.mag_bounds {t emax p q : ℕ} {w : ℝ} (hn : NearestPattern t emax w p) (hb : w < overflowBound t emax)
    (hq : q < emax * 2 ^ t) : ((magOfPattern t q : ℝ) ≤ w → magOfPattern t q ≤ magOfPattern t p) ∧
      (w ≤ magOfPattern t q → magOfPattern t p ≤ magOfPattern t q) := by
  have hle := (hn.nearest hb hq).1
  constructor <;> intro h <;> rify
  · rw [abs_of_nonpos (sub_nonpos.2 h)] at hle
    linarith [neg_abs_le ((magOfPattern t p : ℝ) - w)]
  · rw [abs_of_nonneg (sub_nonneg.2 h)] at hle
    linarith [le_abs_self ((magOfPattern t p : ℝ) - w)]

/-- The entries but the zeros lie between 2^-9 and 1. -/
theorem magF32_roundSine_range (neg : Bool) {r : ℕ} (h0 : 0 < r) (hr : r ≤ 512) :
    2 ^ 140 ≤ magF32 (roundSine neg (quarterInterval r).1) ∧ magF32 (roundSine neg (quarterInterval r).1) ≤ 2 ^ 149 := by
  have hn := (roundSine_nearest neg h0 hr).2
  obtain ⟨hlow, hhigh⟩ := sin_quarter_range h0 hr
  generalize Real.sin (2 * Real.pi * r / 2048) = v at *
  have hb : v * 2 ^ 149 < overflowBound 23 255 := by
    have hlt : |v| < (2 ^ 25 - 1) * 2 ^ 103 := by
      rw [abs_of_nonneg (le_trans (by positivity) hlow)]
      exact hhigh.trans_lt (by norm_num)
    rwa [← overflowBound32_iff, abs_of_nonneg (le_trans (by positivity) hlow)] at hlt
  have hpat : magOfPattern 23 0x3B000000 = 2 ^ 140 ∧ magOfPattern 23 0x3F800000 = 2 ^ 149 := by decide +kernel
  have hle := (hn.mag_bounds hb (q := 0x3B000000) (by norm_num)).1
  have hge := (hn.mag_bounds hb (q := 0x3F800000) (by norm_num)).2
  rw [hpat.1] at hle
  rw [hpat.2] at hge
  push_cast at hle hge
  exact ⟨hle (by linarith), hge (by linarith)⟩

/-- The entries are multiples of 2^-32 in [-1, 1]. -/
theorem sineEntry_grid {i : ℕ} (hi : i ≤ 2048) : 2 ^ 117 ∣ valF32 (sineEntry i) ∧ |valF32 (sineEntry i)| ≤ 2 ^ 149 := by
  by_cases h : i % 1024 = 0
  · rw [sineEntry_zero h, valF32_zeroF32]
    exact ⟨dvd_zero _, by positivity⟩
  · obtain ⟨h0, hr⟩ := quarterIndex_range h
    rw [sineEntry_quarter (by omega) h]
    generalize decide (1024 ≤ i) = neg
    obtain ⟨hlow, hhigh⟩ := magF32_roundSine_range neg h0 hr
    have hd := magOfPattern_dvd 23 117 _ hlow
    rw [← Int.dvd_natAbs, Int.abs_eq_natAbs, natAbs_valF32]
    exact ⟨by exact_mod_cast hd, by exact_mod_cast hhigh⟩

/-- A table entry as R141 converts it. -/
theorem f64OfF32_sineEntry_grid {i : ℕ} (hi : i ≤ 2048) : InUnits (-1) 1 (f64OfF32 (sineEntry i)) ∧
    2 ^ 1042 ∣ valF64 (f64OfF32 (sineEntry i)) := by
  obtain ⟨hd, hle⟩ := sineEntry_grid hi
  obtain ⟨-, hval⟩ := f64OfF32_finite (finite32_of_val (by norm_num) hle)
  rw [inUnits_neg_one_one_iff, hval, show 1042 = 117 + 925 from rfl, show 1074 = 149 + 925 from rfl, pow_add, pow_add, abs_mul,
    abs_of_pos (a := (2 : ℤ) ^ 925) (by positivity)]
  exact ⟨mul_le_mul_of_nonneg_right hle (by positivity), mul_dvd_mul_right hd _⟩

/-- A multiple of 2^-32 in [-2, 2] has at most 34 bits, so that rounding leaves it alone. -/
theorem valRound64_of_dvd {v : ℤ} (hd : 2 ^ 1042 ∣ v) (hle : |v| ≤ 2 * 2 ^ 1074) : valRound64 v 1 = v := by
  obtain ⟨m, rfl⟩ := hd
  have hm : m.natAbs ≤ 2 ^ 33 := by
    zify
    rw [abs_mul, abs_of_pos (a := (2 : ℤ) ^ 1042) (by positivity), show 1074 = 32 + 1042 from rfl, pow_add _ 32, ← mul_assoc,
      mul_comm] at hle
    exact le_of_mul_le_mul_right (hle.trans_eq (by norm_num)) (by positivity)
  have habs : (2 ^ 1042 * m).natAbs = m.natAbs * 2 ^ 1042 := by
    rw [mul_comm, Int.natAbs_mul, Int.natAbs_pow]
    rfl
  have hexact := valRound64_representable (d := 1) 1042 one_pos (hm.trans (by norm_num)) habs (by
    rw [habs]
    calc m.natAbs * 2 ^ 1042 ≤ 2 ^ 33 * 2 ^ 1042 := Nat.mul_le_mul_right _ hm
      _ ≤ 2 ^ 2098 := by rw [← pow_add]; exact Nat.pow_le_pow_right (by norm_num) (by norm_num))
  rwa [Nat.cast_one, mul_one] at hexact

/-- The difference of two entries is exact. -/
theorem subF64_of_grid {a b : F64} (ha : InUnits (-1) 1 a) (hb : InUnits (-1) 1 b) (hda : 2 ^ 1042 ∣ valF64 a)
    (hdb : 2 ^ 1042 ∣ valF64 b) : finite64 (subF64 b a) = true ∧ valF64 (subF64 b a) = valF64 b - valF64 a := by
  have hsub := (subF64_finite (hb.finite (by norm_num) (by norm_num)) (ha.finite (by norm_num) (by norm_num))).2
  have hle : |valF64 b - valF64 a| ≤ 2 * 2 ^ 1074 := by
    obtain ⟨ha0, ha1⟩ := ha
    obtain ⟨hb0, hb1⟩ := hb
    exact abs_le.2 ⟨by linarith, by linarith⟩
  have hval : valF64 (subF64 b a) = valF64 b - valF64 a := hsub.trans (valRound64_of_dvd (dvd_sub hdb hda) hle)
  refine ⟨?_, hval⟩
  rw [← hval] at hle
  exact finite64_of_units (hle.trans (mul_le_mul_of_nonneg_right (by norm_num) (by positivity)))

/-- The position in the table, and the entry at or below it (R141). -/
def sinePosition (p : F64) : F64 := mulF64 p Config.sineTableSizeF64
def sineIndex (p : F64) : ℕ := (floorInt (sinePosition p)).toNat

theorem sineAt_eq (p : F64) : sineAt p = addF64 (f64OfF32 (sineEntry (sineIndex p)))
    (mulF64 (subF64 (sinePosition p) (ofIntF64 (sineIndex p)))
      (subF64 (f64OfF32 (sineEntry (sineIndex p + 1))) (f64OfF32 (sineEntry (sineIndex p))))) := rfl

/-- The position is exact, so that its entry has a next one. -/
theorem sinePosition_range {p : F64} (h : PhaseRange p) :
    finite64 (sinePosition p) = true ∧ 0 ≤ valF64 (sinePosition p) ∧ valF64 (sinePosition p) < 2 ^ 11 * 2 ^ 1074 := by
  have hsize : finite64 Config.sineTableSizeF64 = true ∧ valF64 Config.sineTableSizeF64 = 2 ^ 11 * 2 ^ 1074 := by decide +kernel
  have hval := valF64_mulF64_two_pow (a := p) (by norm_num) (by rw [abs_of_nonneg h.nonneg]; exact h.2.2.le) hsize.1 hsize.2
  have h0 : 0 ≤ valF64 (sinePosition p) := by
    rw [sinePosition, hval]
    exact mul_nonneg h.nonneg (by norm_num)
  have h1 : valF64 (sinePosition p) < 2 ^ 11 * 2 ^ 1074 := by
    rw [sinePosition, hval, mul_comm]
    exact mul_lt_mul_of_pos_left h.2.2 (by norm_num)
  refine ⟨finite64_of_val (m := 1085) (by norm_num) ?_, h0, h1⟩
  rw [abs_of_nonneg h0]
  exact h1.le.trans_eq (by rw [← pow_add])

/-- The way from the entry to the next is a fraction in [0, 1]. -/
theorem sineIndex_range {p : F64} (h : PhaseRange p) :
    sineIndex p < 2048 ∧ InUnits 0 1 (subF64 (sinePosition p) (ofIntF64 (sineIndex p))) := by
  obtain ⟨hf, hp0, hp1⟩ := sinePosition_range h
  unfold sineIndex
  generalize sinePosition p = pos at *
  have hq : (0 : ℤ) < 2 ^ 1074 := by positivity
  have hlow : floorInt pos * 2 ^ 1074 ≤ valF64 pos := Int.ediv_mul_le _ hq.ne'
  have hhigh : valF64 pos < (floorInt pos + 1) * 2 ^ 1074 := Int.lt_ediv_add_one_mul_self _ hq
  have h0 : 0 ≤ floorInt pos := Int.ediv_nonneg hp0 hq.le
  have h1 : floorInt pos < 2 ^ 11 := Int.ediv_lt_of_lt_mul hq hp1
  obtain ⟨hif, hi⟩ := ofIntF64_isReal (n := floorInt pos) (by rw [abs_of_nonneg h0]; omega)
  have hi : valF64 (ofIntF64 (floorInt pos)) = floorInt pos * 2 ^ 1074 := by exact_mod_cast hi
  rw [Int.toNat_of_nonneg h0, InUnits, (subF64_finite hf hif).2, hi]
  rw [add_mul, one_mul] at hhigh
  exact ⟨by omega, valRound64_whole_bounds (by norm_num) (by norm_num) (by linarith) (by linarith)⟩

theorem sineAt_inUnits {p : F64} (h : PhaseRange p) : InUnits (-1) 1 (sineAt p) := by
  obtain ⟨hi, hf⟩ := sineIndex_range h
  obtain ⟨ha, hda⟩ := f64OfF32_sineEntry_grid hi.le
  obtain ⟨hb, hdb⟩ := f64OfF32_sineEntry_grid (Nat.succ_le_of_lt hi)
  obtain ⟨hd, hexact⟩ := subF64_of_grid ha hb hda hdb
  rw [sineAt_eq]
  exact ha.interpolate hb hf hd hexact

/-- Settles O45: the triangle is two ramps, the sine an interpolation between two entries whose difference is exact. -/
theorem sineAndTriangleStayInRange : Obligations.SineAndTriangleStayInRange := by
  intro p h
  have hs := sineAt_inUnits h
  have ht := triangleAt_inUnits h
  exact ⟨hs.finite (by norm_num) (by norm_num), inUnits_neg_one_one_iff.1 hs, ht.finite (by norm_num) (by norm_num),
    inUnits_neg_one_one_iff.1 ht⟩

end Sys2Proof.Machine

/-! PROOFS. The oscillator's phase and its two naive waveforms (42_oscillator.md R140 to R149): the wrap into the unit interval, the
correction that is off without a positive increment, and OSC.NEXT written out. -/

namespace Sys2Proof.Machine

/-! ### Adding a zero -/

/-- Adding a zero leaves a finite value, unless it is a negative zero and the other a positive one. -/
theorem addF64_of_valF64_zero {a b : F64} (ha : finite64 a = true) (hb : valF64 b = 0)
    (hs : (signF64 a && signF64 b) = signF64 a) : addF64 a b = a := by
  have hbf := finite64_of_valF64_zero hb
  by_cases h0 : valF64 a = 0
  · have hpat : patF64 a = 0 := by
      have hm : magF64 a = 0 := by rw [← natAbs_valF64, h0]; rfl
      exact (magOfPattern_strictMono 52).injective (hm.trans (magOfPattern_zero 52).symm)
    have hzero : addF64 a b = packF64 (signF64 a && signF64 b) 0 := by
      simp [addF64, not_isNaN64_of_finite ha, not_isNaN64_of_finite hbf, not_isInf64_of_finite ha, not_isInf64_of_finite hbf, h0, hb]
    rw [hzero, hs, ← hpat, packF64_sign_pat]
  · refine (eq_or_zero_of_valF64_eq ?_).resolve_right h0
    have hexact := valRound64_exact (not_isNaN64_of_finite ha) one_pos
    rw [Nat.cast_one, mul_one] at hexact
    rw [(addF64_finite ha hbf).2, hb, add_zero, hexact]

theorem addF64_of_sign {a b : F64} (ha : finite64 a = true) (hs : signF64 a = false) (hb : valF64 b = 0) : addF64 a b = a :=
  addF64_of_valF64_zero ha hb (by rw [hs, Bool.false_and])

/-- Taking +0.0 off leaves every finite value: the zero that is added is a negative one. -/
theorem subF64_zeroF64 {a : F64} (ha : finite64 a = true) : subF64 a zeroF64 = a := by
  have hsign : signF64 (negF64 zeroF64) = true := by decide
  exact addF64_of_valF64_zero ha (by rw [valF64_negF64, valF64_zeroF64, neg_zero]) (by rw [hsign, Bool.and_true])

/-! ### The wrap (R146) -/

theorem PhaseRange.floorInt_eq_zero {p : F64} (h : PhaseRange p) : floorInt p = 0 := Int.ediv_eq_zero_of_lt h.nonneg h.2.2

theorem PhaseRange.not_one_le {p : F64} (h : PhaseRange p) : leF64 oneF64 p = false := by
  rw [Bool.eq_false_iff, Ne, leF64_iff, valF64_oneF64]
  exact fun hc => hc.2.2.not_gt h.2.2

theorem wrapPhase_eq_self {p : F64} (h : PhaseRange p) : wrapPhase p = p := by
  have hfloor : valF64 (negF64 (floorF64 p)) = 0 := by
    rw [valF64_negF64, (floorF64_finite h.finite).2, h.floorInt_eq_zero, zero_mul, neg_zero]
  have hsub : subF64 p (floorF64 p) = p := addF64_of_sign h.finite h.2.1 hfloor
  unfold wrapPhase
  dsimp only
  rw [hsub, h.not_one_le]
  exact if_neg Bool.false_ne_true

/-- A value less its floor is at most 1: below 1 before the rounding. -/
theorem valF64_sub_floor_le_one {q : F64} (hq : finite64 q = true) : valF64 (subF64 q (floorF64 q)) ≤ valF64 oneF64 := by
  rw [(subF64_finite hq (finite64_floorF64 hq)).2, (floorF64_finite hq).2]
  refine valRound64_le one_pos isNaN64_oneF64 ?_
  have hlt : valF64 q < (floorInt q + 1) * 2 ^ 1074 := Int.lt_ediv_add_one_mul_self _ (by positivity)
  rw [add_mul, one_mul] at hlt
  rw [valF64_oneF64, Nat.cast_one, mul_one]
  exact sub_le_iff_le_add'.2 hlt.le

/-- R146's comparison meets one value only. -/
theorem wrapPhase_eq_ite {q : F64} (hq : finite64 q = true) : wrapPhase q =
    if subF64 q (floorF64 q) = oneF64 then zeroF64 else subF64 q (floorF64 q) := by
  have hone : leF64 oneF64 (subF64 q (floorF64 q)) = true ↔ subF64 q (floorF64 q) = oneF64 := by
    rw [leF64_iff, and_iff_right isNaN64_oneF64, and_iff_right (subF64_floor_sign hq).1]
    exact ⟨fun h => eq_oneF64_of_valF64_eq (le_antisymm (valF64_sub_floor_le_one hq) h), fun h => by rw [h]⟩
  unfold wrapPhase
  simp only [hone]

/-- Settles O44: the range, the phases that stay, and the one rounding with the one value that wraps to zero. -/
theorem wrapMapsIntoTheUnitInterval : Obligations.WrapMapsIntoTheUnitInterval := by
  intro q x h
  exact ⟨wrapPhase_range h.1, wrapPhase_eq_self, _, subF64_rounds h (floorF64_isReal h), wrapPhase_eq_ite h.1⟩

/-! ### Without a positive increment (R145, R149) -/

theorem blep_eq_zero (t : F64) {dt : F64} (h : valF64 dt ≤ 0) : blep t dt = zeroF64 := by
  have hlt : ltF64 zeroF64 dt = false := by
    rw [Bool.eq_false_iff, Ne, ltF64_iff, valF64_zeroF64]
    exact fun hc => hc.2.2.not_ge h
  unfold blep
  rw [hlt]
  rfl

theorem ltF64_halfF64_iff {p : F64} (h : isNaN64 p = false) : ltF64 p halfF64 = true ↔ valF64 p < 2 ^ 1073 := by
  rw [ltF64_iff, valF64_halfF64, and_iff_right h, and_iff_right (by decide)]

theorem squareAt_naive {p dt : F64} (hp : isNaN64 p = false) (h : valF64 dt ≤ 0) :
    squareAt p dt = if valF64 p < 2 ^ 1073 then oneF64 else negOneF64 := by
  unfold squareAt
  simp only [ltF64_halfF64_iff hp, blep_eq_zero _ h]
  split <;> decide +kernel

theorem sawAt_naive {p dt : F64} (hp : PhaseRange p) (h : valF64 dt ≤ 0) :
    sawAt p dt = subF64 (mulF64 twoF64 p) oneF64 := by
  rw [sawAt, blep_eq_zero _ h]
  exact subF64_zeroF64 ((ramp_inUnits hp.inUnits).finite (by norm_num) (by norm_num))

/-- Settles O46: the correction is +0.0, which the naive waveforms keep as a summand; and a phase stays when a zero is added. -/
theorem noCorrectionWithoutAPositiveIncrement : Obligations.NoCorrectionWithoutAPositiveIncrement := by
  intro p dt hp _ hdt
  refine ⟨squareAt_naive hp.1 hdt, sawAt_naive hp hdt, fun h0 => ?_⟩
  rw [addF64_of_sign hp.finite hp.2.1 h0, wrapPhase_eq_self hp]

/-! ### OSC.NEXT (R140) -/

/-- The correction with R145's first test as an equation. -/
theorem blep_eq_ite (t dt : F64) : blep t dt =
    if ltF64 zeroF64 dt = false then zeroF64
    else if ltF64 t dt then blepAfter (divF64 t dt)
    else if ltF64 (subF64 oneF64 dt) t then blepBefore (divF64 (subF64 t oneF64) dt)
    else zeroF64 := by
  unfold blep
  cases ltF64 zeroF64 dt <;> rfl

theorem exec_oscNext (s : State) : exec .oscNext s =
    .next { s with res0 := oscSample s.osc, osc := { s.osc with phase := wrapPhase (addF64 s.osc.phase s.osc.inc) } } := rfl

/-- Settles O43: the command's own equation, the sample by its waveform. -/
theorem oscillatorNext : Obligations.OscillatorNext := by
  intro s p dt half one two wrap correction position i a b v
  have hblep : ∀ t, correction t = blep t dt := fun t => (blep_eq_ite t dt).symm
  have hwave : v = f32OfF64 (waveAt s.osc.wave p dt) := by
    dsimp only [v]
    congr 1
    cases s.osc.wave
    case sine => rfl
    case triangle => rfl
    case square => rw [hblep, hblep]; rfl
    case saw => rw [hblep]; rfl
  rw [hwave]
  exact exec_oscNext s

end Sys2Proof.Machine

/-! PROOFS. SMO.PROCESS (43_smoother.md R160 to R165): its two equations by the gate, the gate on the operands, and the answer. -/

namespace Sys2Proof.Machine

/-! ### The new state and the answer (R160 to R164) -/

theorem exec_smoProcess_valid {s : State} (h : smootherValid (f64OfF32 s.arg1) (f64OfF32 s.arg2) s.smo.thr = true) :
    exec .smoProcess s = .next ((s.withSmo (smootherUpdate s.smo (log2F64 (f64OfF32 s.arg1)))).withRes0
      (smootherOut (smootherUpdate s.smo (log2F64 (f64OfF32 s.arg1))).s)) := if_pos h

theorem exec_smoProcess_invalid {s : State} (h : smootherValid (f64OfF32 s.arg1) (f64OfF32 s.arg2) s.smo.thr = false) :
    exec .smoProcess s = .next (s.withRes0 (if s.smo.has then smootherOut s.smo.s else zeroF32)) :=
  if_neg (Bool.eq_false_iff.1 h)

/-- The first valid estimate is taken directly (R162). -/
theorem smootherUpdate_first {m : Smo} (l : F64) (h : m.has = false) : smootherUpdate m l = { m with s := l, has := true } :=
  if_neg (Bool.eq_false_iff.1 h)

/-- Every later one is a step towards it (R163). -/
theorem smootherUpdate_later {m : Smo} (l : F64) (h : m.has = true) : smootherUpdate m l = { m with
    s := addF64 m.s (mulF64 (if ltF64 Config.snapOctaves (absF64 (subF64 l m.s)) then oneF64 else m.alpha) (subF64 l m.s)) } :=
  if_pos h

@[simp] theorem smootherUpdate_has (m : Smo) (l : F64) : (smootherUpdate m l).has = true := by
  cases h : m.has
  · rw [smootherUpdate_first l h]
  · rw [smootherUpdate_later l h]; exact h

/-- Settles O48: the command's equation on each side of the gate, the new state by whether one was held. -/
theorem smootherProcess : Obligations.SmootherProcess := by
  intro s l a s' out valid
  refine ⟨fun hv hh => ?_, fun hv hh => ?_, exec_smoProcess_invalid⟩
  · rw [exec_smoProcess_valid hv, smootherUpdate_first _ hh]
    rfl
  · rw [exec_smoProcess_valid hv, smootherUpdate_later _ hh]
    rfl

/-! ### The gate (R161, R185) -/

theorem finite64_f64OfF32_iff (f : F32) : finite64 (f64OfF32 f) = true ↔ finite32 f = true :=
  ⟨finite32_of_f64OfF32, fun h => (f64OfF32_finite h).1⟩

theorem zero_ltF64_f64OfF32_iff {f : F32} (hf : finite32 f = true) : ltF64 zeroF64 (f64OfF32 f) = true ↔ 0 < valF32 f := by
  obtain ⟨hfin, hval⟩ := f64OfF32_finite hf
  rw [ltF64_iff, and_iff_right isNaN64_zeroF64, and_iff_right (not_isNaN64_of_finite hfin), valF64_zeroF64, hval]
  exact mul_pos_iff_of_pos_right (by positivity)

theorem leF64_f64OfF32_iff {thr : F64} {c : F32} (ht : isNaN64 thr = false) (hc : finite32 c = true) :
    leF64 thr (f64OfF32 c) = true ↔ valF64 thr ≤ valF32 c * 2 ^ 925 := by
  obtain ⟨hfin, hval⟩ := f64OfF32_finite hc
  rw [leF64_iff, and_iff_right ht, and_iff_right (not_isNaN64_of_finite hfin), hval]

theorem smootherValid_iff {f c : F32} {thr : F64} (ht : isNaN64 thr = false) :
    smootherValid (f64OfF32 f) (f64OfF32 c) thr = true ↔
      finite32 f = true ∧ 0 < valF32 f ∧ finite32 c = true ∧ valF64 thr ≤ valF32 c * 2 ^ 925 := by
  unfold smootherValid
  simp only [Bool.and_eq_true, finite64_f64OfF32_iff]
  constructor
  · rintro ⟨⟨⟨hpos, hf⟩, hc⟩, hle⟩
    exact ⟨hf, (zero_ltF64_f64OfF32_iff hf).1 hpos, hc, (leF64_f64OfF32_iff ht hc).1 hle⟩
  · rintro ⟨hf, hpos, hc, hle⟩
    exact ⟨⟨⟨(zero_ltF64_f64OfF32_iff hf).2 hpos, hf⟩, hc⟩, (leF64_f64OfF32_iff ht hc).2 hle⟩

/-- Whatever the confidence, a frequency of +0.0 does not pass the gate. -/
theorem smootherValid_zero (c thr : F64) : smootherValid (f64OfF32 0x00000000#32) c thr = false := by
  have hlt : ltF64 zeroF64 (f64OfF32 0x00000000#32) = false := by decide +kernel
  simp [smootherValid, hlt]

/-- On each side of the gate the answer is the output of a number, or +0.0. -/
theorem exec_smoProcess_answer {s : State} (hs : SmoInv s.smo) :
    ∃ t, exec .smoProcess s = .next t ∧ finite32 t.res0 = true ∧ signF32 t.res0 = false := by
  cases hv : smootherValid (f64OfF32 s.arg1) (f64OfF32 s.arg2) s.smo.thr
  · refine ⟨_, exec_smoProcess_invalid hv, ?_⟩
    cases s.smo.has
    · show finite32 zeroF32 = true ∧ signF32 zeroF32 = false
      decide
    · exact smootherOut_range hs.smoothed.1
  · exact ⟨_, exec_smoProcess_valid hv, smootherOut_range (hs.update (logRange_of_valid hv)).smoothed.1⟩

/-- Settles O49: the gate clause by clause, and the answer on each side of it. -/
theorem smootherGateAndOutput : Obligations.SmootherGateAndOutput := fun s f c hs =>
  ⟨smootherValid_iff hs.thr.1, exec_smoProcess_answer (s := (s.withArg1 f).withArg2 c) hs⟩

/-! ### Holding (R165 (b)) -/

/-- A valid estimate leaves a value held, and its output as the answer. -/
theorem exec_smoProcess_holds {s t : State} (hv : smootherValid (f64OfF32 s.arg1) (f64OfF32 s.arg2) s.smo.thr = true)
    (h : exec .smoProcess s = .next t) : t.smo.has = true ∧ t.res0 = smootherOut t.smo.s := by
  obtain rfl := Host.Outcome.next.inj ((exec_smoProcess_valid hv).symm.trans h)
  exact ⟨smootherUpdate_has _ _, rfl⟩

/-- Off the gate, a state whose answer is its held value's output stays as it is. -/
theorem exec_smoProcess_stays {s : State} (hv : smootherValid (f64OfF32 s.arg1) (f64OfF32 s.arg2) s.smo.thr = false)
    (hh : s.smo.has = true) (ho : s.res0 = smootherOut s.smo.s) : exec .smoProcess s = .next s := by
  rw [exec_smoProcess_invalid hv, if_pos hh, ← ho]
  rfl

/-- Settles O50: a valid estimate leaves its own output in RES0, and (0, 0) does not pass the gate. -/
theorem smootherHoldsItsLastValue : Obligations.SmootherHoldsItsLastValue := by
  intro s t hv h
  obtain ⟨hh, ho⟩ := exec_smoProcess_holds hv h
  exact exec_smoProcess_stays (smootherValid_zero _ _) hh ho

end Sys2Proof.Machine

/-! PROOFS. A run of samples through a decimator (44_decimator.md R174): which calls are ready, and what the delay line holds. -/

namespace Sys2Proof.Machine

/-- The first call is ready as the phase says, the later ones as those of a run from the state it leaves. -/
@[simp] theorem decimAll_cons_ready (d : Decim) (x : F32) (xs : List F32) :
    (decimAll d (x :: xs)).2 = d.ph :: (decimAll (decimStep d x).1 xs).2 :=
  congrArg (· :: _) (decimStep_ready d x)

@[simp] theorem length_decimAll_ready (d : Decim) (xs : List F32) : (decimAll d xs).2.length = xs.length := by
  induction xs generalizing d with
  | nil => rfl
  | cons x xs ih => simp [ih]

/-- The phase alternates, so a call is ready by the parity of its place and the phase at the start. -/
theorem decimAll_ready (d : Decim) (xs : List F32) {k : Nat} (hk : k < xs.length) :
    (decimAll d xs).2[k]? = some (d.ph ^^ decide (k % 2 = 1)) := by
  induction xs generalizing d k with
  | nil => exact absurd hk k.not_lt_zero
  | cons x xs ih =>
    cases k with
    | zero => simp
    | succ k =>
      have hparity : decide ((k + 1) % 2 = 1) = !decide (k % 2 = 1) := by
        rw [← decide_not, decide_eq_decide]
        omega
      rw [decimAll_cons_ready, List.getElem?_cons_succ, ih _ (Nat.lt_of_succ_lt_succ hk), decimStep_ph, hparity,
        Bool.not_xor, Bool.xor_not]

/-- Each step puts its sample in front and drops the oldest: what stays is the newest seven of the run and of the line before. -/
theorem toList_decimAll (d : Decim) (xs : List F32) :
    (decimAll d xs).1.dl.toList = (xs.reverse ++ d.dl.toList).take 7 := by
  induction xs generalizing d with
  | nil => rfl
  | cons x xs ih =>
    calc (decimAll (decimStep d x).1 xs).1.dl.toList
        = (xs.reverse ++ (decimStep d x).1.dl.toList).take 7 := ih _
      _ = (xs.reverse ++ (x :: d.dl.toList).take 7).take 7 := by rw [decimStep_dl, DelayLine.toList_shift]
      _ = (xs.reverse ++ x :: d.dl.toList).take 7 := by
          rw [List.take_append, List.take_append, List.take_take, Nat.min_eq_left (Nat.sub_le _ _)]
      _ = ((x :: xs).reverse ++ d.dl.toList).take 7 := by rw [List.reverse_cons, List.append_assoc, List.singleton_append]

/-- Settles O52: after reset the phase is 0 and the delay line is zeros. -/
theorem everySecondCallIsReady : Obligations.EverySecondCallIsReady := by
  intro xs
  refine ⟨length_decimAll_ready _ xs, fun n h1 hn => ?_, toList_decimAll _ xs⟩
  obtain ⟨k, rfl⟩ := Nat.exists_eq_add_of_le' h1
  have hready : (decimAll Decim.reset xs).2[k]? = some (decide (k % 2 = 1)) :=
    (decimAll_ready Decim.reset xs hn).trans (congrArg some (Bool.false_xor _))
  rw [Nat.add_sub_cancel, hready, Option.some_inj, decide_eq_true_iff]
  omega

end Sys2Proof.Machine

/-! PROOFS. The exceptions (60_exceptions.md R180 to R189): every step answers a next state, what an illegal command word and a
malformed access do, and which sticky bits a step can set. -/

namespace Sys2Proof.Machine

/-! ### Illegal command words (R182) -/

theorem runCommand_illegal {c : Word} {e : DecodeError} (s : State) (h : decode c = .error e) :
    runCommand c s = .next (raise .errCmd (s.withCmd c)) := by
  unfold runCommand
  rw [h]

/-- Settles O5: the write to CMD passes the checks, and its word runs as an illegal one. -/
theorem illegalWordOnlyRaisesErrCmd : Obligations.IllegalWordOnlyRaisesErrCmd := by
  refine ⟨fun s c e h => (stepOn_write s c rfl).trans (runCommand_illegal s h), ?_⟩
  simp only [List.forall_mem_cons]
  exact ⟨⟨.unassigned, by decide⟩, ⟨.unassigned, by decide⟩, ⟨.strayWave, by decide⟩, List.forall_mem_nil _⟩

/-! ### Malformed accesses (R183, R186) -/

theorem firstFailure_ne_none {isWrite : Bool} {off size : Nat}
    (h : size ≠ 4 ∨ off % 4 ≠ 0 ∨ 0x34 ≤ off ∨ (isWrite = true ∧ readOnlyRegister off = true)) :
    firstFailure isWrite off size ≠ none := by
  intro hlegal
  obtain ⟨hsize, halign, hdefined, hwritable⟩ := (firstFailure_eq_none isWrite off size).1 hlegal
  rcases h with h | h | h | ⟨hw, hro⟩
  · exact h hsize
  · exact h halign
  · exact h.not_gt hdefined
  · exact Bool.noConfusion (hro.symm.trans (hwritable hw))

theorem readOnlyRegister_of_mem {off : Offset} (h : off ∈ [0x14#8, 0x18#8, 0x24#8, 0x28#8, 0x2C#8, 0x30#8]) :
    readOnlyRegister off.toNat = true := by
  revert off
  decide

theorem hostAccess_read_malformed {off : Offset} {size : Nat} (s : State) (h : accessFailure (.read off size) ≠ none) :
    hostAccess (.read off size) s = .next ((raise .errAccess s).withRdata 0#32) := by
  obtain ⟨m, hm⟩ := Option.ne_none_iff_exists'.1 h
  unfold hostAccess
  rw [hm]

theorem hostAccess_write_malformed {off : Offset} {bytes : List Byte} (s : State)
    (h : accessFailure (.write off bytes) ≠ none) : hostAccess (.write off bytes) s = .next (raise .errAccess s) := by
  obtain ⟨m, hm⟩ := Option.ne_none_iff_exists'.1 h
  unfold hostAccess
  rw [hm]

/-- Settles O6: each of R183's conditions fails a check of R186, and the last of them for a write alone. -/
theorem malformedAccessOnlyRaisesErrAccess : Obligations.MalformedAccessOnlyRaisesErrAccess := by
  refine fun s => ⟨fun off size h => ?_, fun off bytes h => ?_⟩
  · have hf : accessFailure (.read off size) ≠ none := firstFailure_ne_none (h.imp_right (Or.imp_right Or.inl))
    exact (stepOn_eq _ s).trans (hostAccess_read_malformed s hf)
  · have hf : accessFailure (.write off bytes) ≠ none :=
      firstFailure_ne_none (h.imp_right (Or.imp_right (Or.imp_right fun hro => ⟨rfl, readOnlyRegister_of_mem hro⟩)))
    exact (stepOn_eq _ s).trans (hostAccess_write_malformed s hf)

/-! ### Every step completes (R181, R188) -/

theorem exec_total (i : Instr) (s : State) : ∃ t, exec i s = .next t := by
  cases i
  case smoProcess =>
    cases hv : smootherValid (f64OfF32 s.arg1) (f64OfF32 s.arg2) s.smo.thr
    · exact ⟨_, exec_smoProcess_invalid hv⟩
    · exact ⟨_, exec_smoProcess_valid hv⟩
  all_goals exact ⟨_, rfl⟩

theorem runCommand_total (c : Word) (s : State) : ∃ t, runCommand c s = .next t := by
  cases hd : decode c with
  | ok i => rw [runCommand_decoded s hd]; exact exec_total i _
  | error e => exact ⟨_, runCommand_illegal s hd⟩

theorem writeRegister_total (s : State) (off : Nat) (v : Word) : ∃ t, writeRegister s off v = .next t := by
  unfold writeRegister
  split
  · exact runCommand_total v s
  all_goals exact ⟨_, rfl⟩

theorem hostAccess_total (a : Access) (s : State) : ∃ t, hostAccess a s = .next t := by
  unfold hostAccess
  split
  case h_4 => exact writeRegister_total s _ _
  all_goals exact ⟨_, rfl⟩

theorem performEvent_total (e : Event) (s : State) : ∃ t, performEvent e s = .next t := by
  cases e with
  | host a => exact hostAccess_total a s
  | engine => exact ⟨_, rfl⟩
  | reset => exact ⟨_, rfl⟩

/-- Settles O53: the two ways of SMO.PROCESS and every other command answer a next state, and so does every event. -/
theorem everyStepCompletes : Obligations.EveryStepCompletes := by
  refine ⟨fun s => ?_, exec_total⟩
  rcases hi : s.inbox with _ | ⟨e, rest⟩
  · exact ⟨_, step_empty s hi⟩
  · rw [step_event s e rest hi]
    exact performEvent_total e _

/-! ### Which sticky bits a step sets (R180, R186, R189) -/

@[simp] theorem engineStep_sticky (s : State) : (engineStep s).sticky = s.sticky :=
  (congrArg State.sticky (engineStep_writes s) :)

theorem acceptSample_sticky_cases (s : State) (v : F32) :
    (acceptSample s v).sticky = s.sticky ∨ (acceptSample s v).sticky = s.sticky.set .qOverflow := by
  rcases acceptSample_cases s v with ⟨-, -, h⟩ | ⟨-, -, h⟩ | ⟨-, h⟩
  · rw [h]; exact .inl rfl
  · rw [h]; exact .inr rfl
  · rcases insertSync_cases s v with ⟨-, h'⟩ | ⟨-, h'⟩ <;> rw [h, h'] <;> exact .inl rfl

theorem feedSample_sticky_cases (s : State) (x : F32) :
    (feedSample s x).sticky = s.sticky ∨ (feedSample s x).sticky = s.sticky.set .qOverflow := by
  rcases feedSample_cases s x with ⟨-, h⟩ | ⟨-, -, h⟩ | ⟨-, -, h⟩
  · rw [h]; exact acceptSample_sticky_cases s x
  · rw [h]; exact .inl rfl
  · rw [h]; exact acceptSample_sticky_cases (s.withDet _) _

/-- Of the commands only DET.FEED can raise a bit, and it is Q_OVERFLOW (R186). -/
theorem exec_sticky_cases {i : Instr} {s t : State} (h : exec i s = .next t) :
    t.sticky = s.sticky ∨ (i = .detFeed ∧ t.sticky = s.sticky.set .qOverflow) := by
  by_cases hp : i = .detPrepare
  · subst hp
    obtain rfl := Host.Outcome.next.inj h
    exact .inl rfl
  by_cases hf : i = .detFeed
  · subst hf
    obtain rfl := Host.Outcome.next.inj h
    exact (feedSample_sticky_cases s _).imp_right fun hset => ⟨rfl, hset⟩
  · obtain ⟨-, -, -, -, hsticky⟩ := (writes_of_exec h).keeps_detector hp hf
    exact .inl hsticky

/-- `k'` has no bit that is clear in `k`, but for `b`. -/
def Sticky.RaisesAtMost (b : StickyBit) (k k' : Sticky) : Prop :=
  k'.errCmd ≤ (k.set b).errCmd ∧ k'.errAccess ≤ (k.set b).errAccess ∧ k'.qOverflow ≤ (k.set b).qOverflow

section sticky
variable (k : Sticky)

theorem Sticky.raisesAtMost_set (b : StickyBit) : Sticky.RaisesAtMost b k (k.set b) := ⟨le_rfl, le_rfl, le_rfl⟩

theorem Sticky.raisesAtMost_self (b : StickyBit) : Sticky.RaisesAtMost b k k := by
  cases b
  · exact ⟨Bool.le_true _, le_rfl, le_rfl⟩
  · exact ⟨le_rfl, Bool.le_true _, le_rfl⟩
  · exact ⟨le_rfl, le_rfl, Bool.le_true _⟩

theorem Sticky.raisesAtMost_clear (b : StickyBit) (v : Word) : Sticky.RaisesAtMost b k (k.clear v) := by
  obtain ⟨hcmd, haccess, hoverflow⟩ := k.raisesAtMost_self b
  exact ⟨(Bool.and_le_left _ _).trans hcmd, (Bool.and_le_left _ _).trans haccess,
    (Bool.and_le_left _ _).trans hoverflow⟩

theorem Sticky.raisesAtMost_reset (b : StickyBit) : Sticky.RaisesAtMost b k State.reset.sticky :=
  ⟨Bool.false_le _, Bool.false_le _, Bool.false_le _⟩

end sticky

theorem not_risen_of_le {x y : Bool} (h : y ≤ x) : (!x && y) = false := by
  revert x y
  decide

/-- Besides `b` no bit rises, so that at most one does. -/
theorem Sticky.RaisesAtMost.length_risen_le {b : StickyBit} {k k' : Sticky} (h : Sticky.RaisesAtMost b k k') :
    ([(k.errCmd, k'.errCmd), (k.errAccess, k'.errAccess), (k.qOverflow, k'.qOverflow)].filter
      fun p => !p.1 && p.2).length ≤ 1 := by
  obtain ⟨hcmd, haccess, hoverflow⟩ := h
  simp only [← List.countP_eq_length_filter, List.countP_cons, List.countP_nil]
  cases b
  case errCmd =>
    rw [not_risen_of_le (x := k.errAccess) haccess, not_risen_of_le (x := k.qOverflow) hoverflow]
    cases !k.errCmd && k'.errCmd <;> decide
  case errAccess =>
    rw [not_risen_of_le (x := k.errCmd) hcmd, not_risen_of_le (x := k.qOverflow) hoverflow]
    cases !k.errAccess && k'.errAccess <;> decide
  case qOverflow =>
    rw [not_risen_of_le (x := k.errCmd) hcmd, not_risen_of_le (x := k.errAccess) haccess]
    cases !k.qOverflow && k'.qOverflow <;> decide

theorem runCommand_raisesAtMost {c : Word} {s t : State} (h : runCommand c s = .next t) :
    ∃ b, Sticky.RaisesAtMost b s.sticky t.sticky := by
  rcases runCommand_cases h with ⟨i, -, hi⟩ | ⟨-, rfl⟩
  · rcases exec_sticky_cases hi with hsame | ⟨-, hset⟩
    · rw [hsame]; exact ⟨.qOverflow, s.sticky.raisesAtMost_self _⟩
    · rw [hset]; exact ⟨.qOverflow, s.sticky.raisesAtMost_set _⟩
  · exact ⟨.errCmd, s.sticky.raisesAtMost_set _⟩

theorem writeRegister_raisesAtMost {s t : State} {off : Nat} {v : Word} (h : writeRegister s off v = .next t) :
    ∃ b, Sticky.RaisesAtMost b s.sticky t.sticky := by
  rcases writeRegister_cases h with ⟨-, hc⟩ | rfl | rfl | rfl | rfl | rfl | rfl | rfl
  · exact runCommand_raisesAtMost hc
  iterate 4 exact ⟨.errAccess, s.sticky.raisesAtMost_self _⟩
  · exact ⟨.errAccess, s.sticky.raisesAtMost_clear _ v⟩
  · exact ⟨.errAccess, s.sticky.raisesAtMost_self _⟩
  · exact ⟨.errAccess, s.sticky.raisesAtMost_set _⟩

theorem hostAccess_raisesAtMost {a : Access} {s t : State} (h : hostAccess a s = .next t) :
    ∃ b, Sticky.RaisesAtMost b s.sticky t.sticky := by
  rcases hostAccess_cases h with rfl | rfl | ⟨off, rfl⟩ | ⟨off, bytes, -, -, hw⟩
  · exact ⟨.errAccess, s.sticky.raisesAtMost_set _⟩
  · exact ⟨.errAccess, s.sticky.raisesAtMost_set _⟩
  · exact ⟨.errAccess, s.sticky.raisesAtMost_self _⟩
  · exact writeRegister_raisesAtMost hw

theorem performEvent_raisesAtMost {e : Event} {s t : State} (h : performEvent e s = .next t) :
    ∃ b, Sticky.RaisesAtMost b s.sticky t.sticky := by
  rcases performEvent_cases h with ⟨a, -, ha⟩ | ⟨-, rfl⟩ | ⟨-, rfl⟩
  · exact hostAccess_raisesAtMost ha
  · rw [engineStep_sticky]; exact ⟨.errAccess, s.sticky.raisesAtMost_self _⟩
  · exact ⟨.errAccess, s.sticky.raisesAtMost_reset _⟩

/-- Settles O10: an engine's turn keeps the sticky bits, and each event names one bit besides which it raises none. -/
theorem aStepRaisesAtMostOneBit : Obligations.AStepRaisesAtMostOneBit := by
  intro s t e h
  rw [stepOn_eq] at h
  refine ⟨fun he => ?_, ?_⟩
  · subst he
    obtain rfl := Host.Outcome.next.inj h
    exact engineStep_sticky s
  · obtain ⟨b, hb⟩ := performEvent_raisesAtMost h
    exact hb.length_risen_le

end Sys2Proof.Machine

/-! PROOFS. The reset (70_reset_and_hazards.md R195 to R199): the values right after it, the reset event, and the invariants that
hold from it on. -/

namespace Sys2Proof.Machine

/-! ### The detector prepared at the reset rate (R93, R196) -/

/-- R93 with decimation: half of 44100.0. -/
theorem analysisRate_resetSampleRate : analysisRate true Config.resetSampleRate = Det.reset.fa := by decide +kernel

/-- R93: the ceiling of 22050.0 / 60.0. -/
theorem halfWindow_reset : (ceilInt (divF64 Det.reset.fa Config.minPitchHz)).toNat = Det.reset.halfWindow := by decide +kernel

/-- R93: the ceiling of 22050.0 * 0.003. -/
theorem hopSize_reset : (ceilInt (mulF64 Det.reset.fa Config.hopSeconds)).toNat = Det.reset.hopSize := by decide +kernel

/-- The literals of the reset detector are what R93 computes at the reset rate. -/
theorem preparedDet_resetSampleRate : preparedDet true Config.resetSampleRate = Det.reset := by
  unfold preparedDet
  rw [analysisRate_resetSampleRate]
  dsimp only
  rw [halfWindow_reset, hopSize_reset]
  rfl

/-! ### The computed words after reset (R30, R31, R106, R196) -/

/-- R106: nothing waits in the queue and nothing is pending. -/
theorem engineIdle_reset : engineIdle State.reset = true := (engineIdle_formula _).2 (.inr ⟨rfl, .inl rfl⟩)

theorem statusWord_reset : statusWord State.reset = 0x00000010#32 := by
  unfold statusWord
  rw [engineIdle_reset]
  rfl

/-- CTRL's word has the open FALLBACK_DEFAULT (R198) in bit 0 and ones in bits 1 to 4. -/
theorem ctrlWord_reset :
    ctrlWord Ctrl.reset = if Config.fallbackDefault then 0x0000001F#32 else 0x0000001E#32 := by
  unfold Ctrl.reset
  cases Config.fallbackDefault <;> rfl

/-! ### The three statements -/

/-- Settles O11: the stored values are those of `State.reset`; the detector at the reset rate and the two words are computed. -/
theorem resetGivesTheStatedValues : Obligations.ResetGivesTheStatedValues := by
  refine ⟨rfl, rfl, rfl, rfl, rfl, rfl, rfl, rfl, rfl, rfl, ?det, rfl, rfl, rfl, rfl, rfl, rfl, rfl, ?win, rfl, rfl, rfl, rfl,
    rfl, rfl, rfl, rfl, rfl, rfl, rfl, ?status, ?ctrl⟩
  case det => exact preparedDet_resetSampleRate.symm
  case win => exact fun _ => rfl
  case status => exact statusWord_reset
  case ctrl => exact ctrlWord_reset

/-- Settles O12: the step performs the event, which is `resetBlock`. -/
theorem resetEventDiscardsEverything : Obligations.ResetEventDiscardsEverything := fun s => stepOn_eq .reset s

/-- Settles O13: the base cases of the five invariants that every step keeps. -/
theorem resetHasTheInvariants : Obligations.ResetHasTheInvariants :=
  ⟨shapeInv_reset, publishedInv_reset, oscInv_reset, smoInv_reset, finiteInv_reset⟩

end Sys2Proof.Machine
